-- ==== Sys2Proof/Word.lean ====
section
/-! DEFINITION. The word types of the transfer engine (spec/00_scope.md R8, R9; spec/20_memory.md R70). -/

namespace Sys2Proof

/-- One byte of memory. -/
abbrev Byte := BitVec 8

/-- A register word, a parameter word, a TRB word or an event word (R8). -/
abbrev Word := BitVec 32

/-- A CPU local address; `LOCAL_ADDR_WIDTH` is 32 (R7, R70). -/
abbrev LAddr := BitVec 32

/-- A global (DMA) address, held as a low and a high word (R8). -/
abbrev GAddr := BitVec 64

/-- A physical endpoint index; the endpoint field of an event word has 5 bits (R7, R13). -/
abbrev EpIdx := Fin 32

end Sys2Proof
end

