-- ==== Sys2Proof/Syntax.lean ====
section
/-! DEFINITION. The instructions: one constructor for each row of spec/opcode_table.json, and the operand types they
share (spec/00_scope.md R6, spec/30_encoding.md R99 to R126). -/

namespace Sys2Proof

/-- An endpoint direction: OUT = 0, IN = 1 (00_scope.md R13). -/
inductive Dir where
  | out | inp
  deriving DecidableEq, Repr, Inhabited

/-- An endpoint type as ENABLE and SET_EP_CONFIG take it (30_encoding.md R105, 41_endpoint_lifecycle.md R190). -/
inductive EpType where
  | control | isochronous | bulk | interrupt
  deriving DecidableEq, Repr, Inhabited

/-- The two chapter-9 states L may set with SET_DEV_STATE (60_exceptions.md R393). -/
inductive SettableState where
  | addressed | configured
  deriving DecidableEq, Repr, Inhabited

/-- The nine command types (30_encoding.md R101). -/
inductive CmdTyp where
  | startConfig | setEpConfig | setXferResource | getEpState | setStall | clearStall
  | startTransfer | updateTransfer | endTransfer
  deriving DecidableEq, Repr, Inhabited

/-- The two groups START_CONFIG is issued for: the EP0 pair, and every other endpoint (41_endpoint_lifecycle.md R191). -/
inductive EpGroup where
  | ep0Pair | others
  deriving DecidableEq, Repr, Inhabited

/-- The endpoint configuration carried by the two parameter words of SET_EP_CONFIG (30_encoding.md R105). -/
structure EpConf where
  type : EpType
  mps : BitVec 11
  fifo : BitVec 5
  xferCompleteEn : Bool
  xferNotReadyEn : Bool
  bintervalM1 : BitVec 8
  epNumber : BitVec 5
  deriving DecidableEq, Repr, Inhabited

/-- A command word with its parameter words, read as 30_encoding.md R104 says for its type (R127). -/
inductive Command where
  | startConfig (base : BitVec 16)
  | setEpConfig (cfg : EpConf)
  | setXferResource (count : Word)
  | getEpState
  | setStall
  | clearStall
  | startTransfer (trb : GAddr)
  | updateTransfer (rsc : BitVec 7)
  | endTransfer (rsc : BitVec 7)
  deriving DecidableEq, Repr, Inhabited

/-- The TRB types of 30_encoding.md R111. -/
inductive TrbKind where
  | normal | controlSetup | controlStatus2 | controlStatus3 | controlData | zlp | isochronousFirst | isochronous | link
  deriving DecidableEq, Repr, Inhabited

/-- The fields of a TRB beside its type (30_encoding.md R110). `buf` is the word pair BPH, BPL. -/
structure TrbFields where
  buf : GAddr
  bufsiz : BitVec 24
  pcm1 : BitVec 2
  trbsts : BitVec 4
  hwo : Bool
  lst : Bool
  chn : Bool
  csp : Bool
  ispImi : Bool
  ioc : Bool
  sidSofn : BitVec 16
  deriving DecidableEq, Repr, Inhabited

/-- The event words that have a row of their own (30_encoding.md R121 to R125). -/
inductive Event where
  | xferComplete (n : EpIdx) (status : BitVec 4) (param : BitVec 16)
  | xferInProgress (n : EpIdx) (status : BitVec 4) (param : BitVec 16)
  | xferNotReady (n : EpIdx) (status : BitVec 4) (param : BitVec 16)
  | epCmdComplete (n : EpIdx) (status : BitVec 4) (param : BitVec 16)
  | disconnect (info : BitVec 9)
  | reset (info : BitVec 9)
  | connectDone (info : BitVec 9)
  | linkStateChange (info : BitVec 9)
  | wakeup (info : BitVec 9)
  | hibernationReq (info : BitVec 9)
  deriving DecidableEq, Repr, Inhabited

/-- The 8-byte setup packet by its fields (30_encoding.md R126). -/
structure Setup where
  bmRequestType : Byte
  bRequest : Byte
  wValue : BitVec 16
  wIndex : BitVec 16
  wLength : BitVec 16
  deriving DecidableEq, Repr, Inhabited

/-- The instructions of the transfer engine: one constructor for each row of spec/opcode_table.json.
In the rows of the word formats `n` is the physical endpoint whose registers (F-CMD) or whose transfer (F-TRB) hold the
words. -/
inductive Instr where
  -- F-CMD
  | startConfig (base : BitVec 16)
  | setEpConfig (n : EpIdx) (cfg : EpConf)
  | setXferResource (n : EpIdx) (count : Word)
  | getEpState (n : EpIdx)
  | setStall (n : EpIdx)
  | clearStallCmd (n : EpIdx)
  | startTransfer (n : EpIdx) (trb : GAddr)
  | updateTransfer (n : EpIdx) (rsc : BitVec 7)
  | endTransfer (n : EpIdx) (rsc : BitVec 7)
  -- F-TRB
  | trbNormal (n : EpIdx) (f : TrbFields)
  | trbControlSetup (n : EpIdx) (f : TrbFields)
  | trbControlStatus2 (n : EpIdx) (f : TrbFields)
  | trbControlStatus3 (n : EpIdx) (f : TrbFields)
  | trbControlData (n : EpIdx) (f : TrbFields)
  | trbZlp (n : EpIdx) (f : TrbFields)
  | trbIsochronousFirst (n : EpIdx) (f : TrbFields)
  | trbIsochronous (n : EpIdx) (f : TrbFields)
  | trbLink (n : EpIdx) (f : TrbFields)
  -- F-EVT-EP
  | evtXferComplete (n : EpIdx) (status : BitVec 4) (param : BitVec 16)
  | evtXferInProgress (n : EpIdx) (status : BitVec 4) (param : BitVec 16)
  | evtXferNotReady (n : EpIdx) (status : BitVec 4) (param : BitVec 16)
  | evtEpCmdComplete (n : EpIdx) (status : BitVec 4) (param : BitVec 16)
  -- F-EVT-DEV
  | evtDisconnect (info : BitVec 9)
  | evtReset (info : BitVec 9)
  | evtConnectDone (info : BitVec 9)
  | evtLinkStateChange (info : BitVec 9)
  | evtWakeup (info : BitVec 9)
  | evtHibernationReq (info : BitVec 9)
  -- F-SETUP
  | setupSetAddress (wValue wIndex wLength : BitVec 16)
  -- operations
  | init
  | enable (num : Nat) (dir : Dir) (type : EpType) (mps : Nat) (interval : Nat)
  | disable (num : Nat) (dir : Dir)
  | stall (num : Nat) (dir : Dir)
  | clearStall (num : Nat) (dir : Dir)
  | send (num : Nat) (dir : Dir) (buf : LAddr) (len : Nat)
  | recv (num : Nat) (dir : Dir) (buf : LAddr) (len : Nat)
  | ep0Send (buf : LAddr) (len : Nat)
  | ep0Recv (buf : LAddr) (len : Nat)
  | ep0Status (d : Dir)
  | armSetup
  | abortEp0
  | complete (n : EpIdx)
  | irq
  | setDevState (target : SettableState)
  | cmd (n : Nat) (typ : CmdTyp) (grp : EpGroup) (p0 p1 : Word) (rsc : BitVec 7)
  deriving DecidableEq, Repr, Inhabited

/-- The word formats that have an encoding (30_encoding.md R99): a command, a TRB, an event word (either variant), a
setup packet. -/
inductive Format where
  | command | trb | event | setup
  deriving DecidableEq, Repr, Inhabited

/-- The instruction that issues command `c` to endpoint `n`; START_CONFIG is issued to endpoint 0 alone
(40_command_dispatcher.md R160). -/
def Instr.ofCommand (n : EpIdx) : Command → Instr
  | .startConfig base => .startConfig base
  | .setEpConfig cfg => .setEpConfig n cfg
  | .setXferResource count => .setXferResource n count
  | .getEpState => .getEpState n
  | .setStall => .setStall n
  | .clearStall => .clearStallCmd n
  | .startTransfer trb => .startTransfer n trb
  | .updateTransfer rsc => .updateTransfer n rsc
  | .endTransfer rsc => .endTransfer n rsc

/-- The instruction H runs for a TRB of kind `k` on endpoint `n` (42_trb_ring.md R250). -/
def Instr.ofTrb (n : EpIdx) (k : TrbKind) (f : TrbFields) : Instr :=
  match k with
  | .normal => .trbNormal n f
  | .controlSetup => .trbControlSetup n f
  | .controlStatus2 => .trbControlStatus2 n f
  | .controlStatus3 => .trbControlStatus3 n f
  | .controlData => .trbControlData n f
  | .zlp => .trbZlp n f
  | .isochronousFirst => .trbIsochronousFirst n f
  | .isochronous => .trbIsochronous n f
  | .link => .trbLink n f

/-- The instruction S runs for an event (43_event_buffer.md R273). -/
def Instr.ofEvent : Event → Instr
  | .xferComplete n st p => .evtXferComplete n st p
  | .xferInProgress n st p => .evtXferInProgress n st p
  | .xferNotReady n st p => .evtXferNotReady n st p
  | .epCmdComplete n st p => .evtEpCmdComplete n st p
  | .disconnect i => .evtDisconnect i
  | .reset i => .evtReset i
  | .connectDone i => .evtConnectDone i
  | .linkStateChange i => .evtLinkStateChange i
  | .wakeup i => .evtWakeup i
  | .hibernationReq i => .evtHibernationReq i

end Sys2Proof
end

