-- ==== Sys2Proof/Machine/Hardware.lean ====
section
/-! DEFINITION. The controller: its registers (spec/10_state.md R36), its hidden state (R38), and the choices the other
agents make (spec/60_exceptions.md R383, R390, R394). -/

namespace Sys2Proof.Machine

/-- The register names of 10_state.md R36. -/
inductive Reg where
  | gctl | gsnpsid | ghwparams0 | ghwparams3 | gusb2phycfg | gusb3pipectl
  | gevntadrlo | gevntadrhi | gevntsiz | gevntcount
  | dcfg | dctl | devten | dsts | dalepena
  | depcmdpar2 (n : EpIdx) | depcmdpar1 (n : EpIdx) | depcmdpar0 (n : EpIdx) | depcmd (n : EpIdx)
  deriving DecidableEq, Repr, Inhabited

/-- The 4-register command group of one endpoint (R36). -/
structure DepRegs where
  par2 : Word
  par1 : Word
  par0 : Word
  cmd : Word
  deriving DecidableEq, Repr, Inhabited

/-- The register block (R36). -/
structure Regs where
  gctl : Word
  gsnpsid : Word
  ghwparams0 : Word
  ghwparams3 : Word
  gusb2phycfg : Word
  gusb3pipectl : Word
  gevntadrlo : Word
  gevntadrhi : Word
  gevntsiz : Word
  gevntcount : Word
  dcfg : Word
  dctl : Word
  devten : Word
  dsts : Word
  dalepena : Word
  dep : Vector DepRegs 32
  deriving DecidableEq, Repr, Inhabited

/-- The stored word of a register. -/
def Regs.get (r : Regs) : Reg → Word
  | .gctl => r.gctl
  | .gsnpsid => r.gsnpsid
  | .ghwparams0 => r.ghwparams0
  | .ghwparams3 => r.ghwparams3
  | .gusb2phycfg => r.gusb2phycfg
  | .gusb3pipectl => r.gusb3pipectl
  | .gevntadrlo => r.gevntadrlo
  | .gevntadrhi => r.gevntadrhi
  | .gevntsiz => r.gevntsiz
  | .gevntcount => r.gevntcount
  | .dcfg => r.dcfg
  | .dctl => r.dctl
  | .devten => r.devten
  | .dsts => r.dsts
  | .dalepena => r.dalepena
  | .depcmdpar2 n => (r.dep[n]).par2
  | .depcmdpar1 n => (r.dep[n]).par1
  | .depcmdpar0 n => (r.dep[n]).par0
  | .depcmd n => (r.dep[n]).cmd

/-- Store a word, with no side effect and no regard to access rights. -/
def Regs.put (r : Regs) (v : Word) : Reg → Regs
  | .gctl => { r with gctl := v }
  | .gsnpsid => { r with gsnpsid := v }
  | .ghwparams0 => { r with ghwparams0 := v }
  | .ghwparams3 => { r with ghwparams3 := v }
  | .gusb2phycfg => { r with gusb2phycfg := v }
  | .gusb3pipectl => { r with gusb3pipectl := v }
  | .gevntadrlo => { r with gevntadrlo := v }
  | .gevntadrhi => { r with gevntadrhi := v }
  | .gevntsiz => { r with gevntsiz := v }
  | .gevntcount => { r with gevntcount := v }
  | .dcfg => { r with dcfg := v }
  | .dctl => { r with dctl := v }
  | .devten => { r with devten := v }
  | .dsts => { r with dsts := v }
  | .dalepena => { r with dalepena := v }
  | .depcmdpar2 n => { r with dep := r.dep.set n { r.dep[n] with par2 := v } }
  | .depcmdpar1 n => { r with dep := r.dep.set n { r.dep[n] with par1 := v } }
  | .depcmdpar0 n => { r with dep := r.dep.set n { r.dep[n] with par0 := v } }
  | .depcmd n => { r with dep := r.dep.set n { r.dep[n] with cmd := v } }

/-- H's answer to a command, drawn when the command starts (40_command_dispatcher.md R181): how many of S's reads of
DEPCMD still see CMDACT = 1, the completion status, the resource index of a successful START_TRANSFER, the state word of a
successful GET_EP_STATE, and the TRB at which a successful UPDATE_TRANSFER resumes a transfer that H has ended, if it does
(70_reset_and_hazards.md R439; log 10). -/
structure Answer where
  wait : Nat
  status : BitVec 4
  rsc : BitVec 7
  word : Word
  resume : Option GAddr
  deriving DecidableEq, Repr, Inhabited

/-- A command H executes on an endpoint (10_state.md R38). `answer` is none while H has not chosen to complete it. -/
inductive CmdRun where
  | idle
  | executing (c : Command) (answer : Option Answer)
  deriving DecidableEq, Repr, Inhabited

/-- The four words of a TRB as they stand in memory, word 0 first (30_encoding.md R110). -/
structure TrbWords where
  w0 : Word
  w1 : Word
  w2 : Word
  w3 : Word
  deriving DecidableEq, Repr, Inhabited

/-- How far H has come with the TRB it works on (42_trb_ring.md R250): moving data; the data moved; the size word written
back; the control word written back, so that the TRB is S's again. H's accesses to a TRB are single words (20_memory.md R78). -/
inductive Phase where
  | moving | moved | sized | released
  deriving DecidableEq, Repr, Inhabited

/-- The XFER_COMPLETE event that H appends after the write-back of a TRB (42_trb_ring.md R250, 20_memory.md R83): its status
and parameter; the type of the TRB; for a SETUP TRB, whether the packet asks for a data stage; and the number of the control
transfer in which its data ended (44_ep0_control.md R356). -/
structure Report where
  status : BitVec 4
  param : BitVec 16
  kind : TrbKind
  threeStage : Bool
  transfer : Nat
  deriving DecidableEq, Repr, Inhabited

/-- A TRB H works on (42_trb_ring.md R250): its type and fields as H read them, the bytes moved so far, the status it will
write back, how far it has come, and the event that will report it. -/
structure Job where
  kind : TrbKind
  trb : TrbFields
  len : Nat
  sts : BitVec 4
  phase : Phase
  report : Report
  deriving DecidableEq, Repr, Inhabited

/-- An active transfer (10_state.md R38). `waiting` says that H met a TRB with HWO = 0 (42_trb_ring.md R250); `held` are the
TRBs of the transfer that H has read ahead, by global address (20_memory.md R85); `job` is the TRB at `ptr` once H has
begun it. -/
structure Run where
  rsc : BitVec 7
  ptr : GAddr
  waiting : Bool
  held : List (GAddr × TrbWords)
  job : Option Job
  deriving DecidableEq, Repr, Inhabited

/-- A transfer as START_TRANSFER begins it (40_command_dispatcher.md R182). -/
def Run.start (rsc : BitVec 7) (ptr : GAddr) : Run := { rsc, ptr, waiting := false, held := [], job := none }

/-- H's transfer on an endpoint (10_state.md R38). -/
inductive Xfer where
  | idle
  | active (r : Run)
  deriving DecidableEq, Repr, Inhabited

/-- What H holds for one endpoint (10_state.md R38, 40_command_dispatcher.md R182). `owed` is the event of a TRB that H has
released and not yet reported. -/
structure HEp where
  xfer : Xfer
  cmd : CmdRun
  conf : Option EpConf
  resources : Nat
  stalled : Bool
  owed : Option Report
  deriving DecidableEq, Repr, Inhabited

/-- How far the control transfer has come, which orders its XFER_NOT_READY events (44_ep0_control.md R356): nothing reported
since the last SETUP packet; the XFER_COMPLETE of the SETUP stage appended, of a transfer with or without a data stage; that
of the data stage appended. -/
inductive CtlStage where
  | none
  | setupDone (threeStage : Bool)
  | dataDone
  deriving DecidableEq, Repr, Inhabited

/-- What a soft reset leaves in the fields 70_reset_and_hazards.md R413 does not fix (log 19), and how many of S's reads of
DCTL still see CSFTRST = 1. -/
structure ResetImage where
  wait : Nat
  regs : Regs
  ep : Vector HEp 32
  deriving DecidableEq, Repr, Inhabited

/-- A soft reset: not running, or running with the image H has chosen to end with, if it has (70_reset_and_hazards.md
R412, R413). -/
inductive SoftReset where
  | idle
  | running (image : Option ResetImage)
  deriving DecidableEq, Repr, Inhabited

/-- The controller's hidden state (10_state.md R38). `ctl` is how far the control transfer has come, and `ctlNum` its number: how
many SETUP packets H has received (44_ep0_control.md R356). -/
structure Hw where
  ep : Vector HEp 32
  wpos : Nat
  rscUsed : List (BitVec 7)
  softReset : SoftReset
  ctl : CtlStage
  ctlNum : Nat
  deriving DecidableEq, Repr, Inhabited

/-- A transfer holds a resource index. -/
def Xfer.holds (r : BitVec 7) : Xfer → Bool
  | .idle => false
  | .active x => decide (x.rsc = r)

/-- A resource index is free, and distinct from every active transfer's (40_command_dispatcher.md R182). -/
def Hw.indexFree (h : Hw) (r : BitVec 7) : Bool :=
  !h.rscUsed.contains r && (List.finRange 32).all fun m => !(h.ep[m].xfer.holds r)

/-- H's transfer on endpoint `n` begins at the TRB at `g`, and its index is in use (40_command_dispatcher.md R182). -/
def Hw.started (h : Hw) (n : EpIdx) (rsc : BitVec 7) (g : GAddr) : Hw :=
  { h with ep := h.ep.set n { h.ep[n] with xfer := .active (Run.start rsc g) }, rscUsed := rsc :: h.rscUsed }

/-- What H moves through a TRB at one time: the bytes of the packets received, or as many bytes as were sent; whether an
OUT TRB then meets a packet of no bytes, or an IN TRB ends with bytes left to send; the status written back to TRBSTS; the
status and parameter of the event that reports it (42_trb_ring.md R250, 30_encoding.md R113, R123; log 10). -/
structure Moved where
  bytes : List Byte
  last : Bool
  sts : BitVec 4
  evStatus : BitVec 4
  evParam : BitVec 16
  deriving DecidableEq, Repr, Inhabited

/-- A SETUP packet from the host: its bytes; the status written back to TRBSTS; the status and parameter of the event that
reports it (44_ep0_control.md R355, 30_encoding.md R113, R123). -/
structure Arrival where
  packet : Setup
  sts : BitVec 4
  evStatus : BitVec 4
  evParam : BitVec 16
  deriving DecidableEq, Repr, Inhabited

/-- What another agent does between two accesses of S (00_scope.md R12, 60_exceptions.md R383). -/
inductive Act where
  /-- H completes the command it executes on `n`, with this answer (40_command_dispatcher.md R181). -/
  | complete (n : EpIdx) (a : Answer)
  /-- H processes the TRB its transfer on `n` points to, to the end (42_trb_ring.md R250). -/
  | trb (n : EpIdx)
  /-- H takes one step of that procedure: it begins the TRB, moves some data, writes back one word, reports, or goes on
  (42_trb_ring.md R250, 20_memory.md R78). -/
  | work (n : EpIdx)
  /-- H reads a TRB of its transfer on `n` ahead of processing it, and holds it: the one at its pointer, or a slot of the
  endpoint's ring (20_memory.md R85). -/
  | prefetch (n : EpIdx) (slot : Option (Fin 9))
  /-- H appends an event word (43_event_buffer.md R300, R303). -/
  | event (w : Word)
  /-- The platform evicts a cache line, named by its number (20_memory.md R79). -/
  | evict (line : Nat)
  /-- The device status changes (10_state.md R36, DSTS). -/
  | status (dsts : Word)
  /-- H ends the soft reset in progress (70_reset_and_hazards.md R413). -/
  | softResetDone (image : ResetImage)
  deriving DecidableEq, Repr, Inhabited

/-- A call L may make from inside a callback (60_exceptions.md R390). -/
inductive LCall where
  | send (num : Nat) (dir : Dir) (buf : LAddr) (len : Nat)
  | recv (num : Nat) (dir : Dir) (buf : LAddr) (len : Nat)
  | ep0Send (buf : LAddr) (len : Nat)
  | ep0Recv (buf : LAddr) (len : Nat)
  | stall (num : Nat) (dir : Dir)
  | clearStall (num : Nat) (dir : Dir)
  deriving DecidableEq, Repr, Inhabited

/-- The choices of the other agents; what S sees where it reads a byte that H wrote since S last invalidated it
(20_memory.md R82); and the bytes, by global address, at which H's read sees what S wrote since the last flush
(93_implementation_defined.md 1.3; log 1). Each list is read from its head. Past the end of a list the choice is a
free value of Config when `isOpen` is true, and otherwise the agent does nothing. `ctr` numbers the free values. -/
structure Env where
  acts : List (List Act)
  answers : List Answer
  resets : List ResetImage
  moved : List Moved
  setups : List Arrival
  calls : List (List LCall)
  seen : List (List (LAddr × Byte))
  fresh : List (List GAddr)
  isOpen : Bool
  ctr : Nat
  deriving DecidableEq, Repr, Inhabited

end Sys2Proof.Machine
end

