-- ==== Sys2Proof/Config.lean ====
section
/-! DEFINITION. What an implementation fixes: the sizes of this hardware, the launch parameters (spec/00_scope.md R7),
and the free values (spec/60_exceptions.md R383). -/

namespace Sys2Proof

/-- `RING_DEPTH` (R7). -/
def ringDepth : Nat := 8
/-- `RING_SLOTS` (R7). -/
def ringSlots : Nat := 9
/-- `EVT_BUF_SIZE` (R7). -/
def evtBufSize : Nat := 4096
/-- `SETUP_LEN` (R7). -/
def setupLen : Nat := 8
/-- `TRB_BYTES` (R7). -/
def trbBytes : Nat := 16
/-- `TRB_SIZE_MAX` (R7). -/
def trbSizeMax : Nat := 16777215
/-- `MAX_LOGICAL` (R7). -/
def maxLogical : Nat := 15
/-! ### The encoding record

`ENC` (00_scope.md R14): every register offset, field position and code that the block uses. A position is the lowest bit
of its field, in its word, or, for a field of a TRB, in the TRB; the widths are those of 30_encoding.md and 10_state.md R36
(log 3). -/

/-- The register offsets from `REG_BASE` (10_state.md R36). Those of a command group are endpoint 0's, and the next group
lies `depStride` bytes further. -/
structure RegOffsets where
  gctl : Nat
  gsnpsid : Nat
  ghwparams0 : Nat
  ghwparams3 : Nat
  gusb2phycfg : Nat
  gusb3pipectl : Nat
  gevntadrlo : Nat
  gevntadrhi : Nat
  gevntsiz : Nat
  gevntcount : Nat
  dcfg : Nat
  dctl : Nat
  devten : Nat
  dsts : Nat
  dalepena : Nat
  depcmdpar2 : Nat
  depcmdpar1 : Nat
  depcmdpar0 : Nat
  depcmd : Nat
  depStride : Nat
  deriving DecidableEq, Repr, Inhabited

/-- The positions of the register fields (10_state.md R36): those of GCTL, GHWPARAMS0, GHWPARAMS3, the PHY registers,
GEVNTSIZ, GEVNTCOUNT, DCFG, DCTL, DSTS and DEVTEN. -/
structure RegPlaces where
  prtcapdir : Nat
  mode : Nat
  phyIfc : Nat
  numEps : Nat
  numInEps : Nat
  usb2Susphy : Nat
  enblslpm : Nat
  usb3Susphy : Nat
  evtSize : Nat
  intMask : Nat
  evntCount : Nat
  devspd : Nat
  devaddr : Nat
  lpmcap : Nat
  csftrst : Nat
  runStop : Nat
  connectspd : Nat
  usblnkst : Nat
  disconnEvt : Nat
  usbRstEvt : Nat
  connectDoneEvt : Nat
  ulStChngEvt : Nat
  wkupEvt : Nat
  hibernationReqEvt : Nat
  deriving DecidableEq, Repr, Inhabited

/-- The command word: its positions, its command codes and its status codes (30_encoding.md R100 to R102). -/
structure CmdEnc where
  typ : Nat
  ioc : Nat
  act : Nat
  force : Nat
  status : Nat
  param : Nat
  setEpConfig : BitVec 4
  setXferResource : BitVec 4
  getEpState : BitVec 4
  setStall : BitVec 4
  clearStall : BitVec 4
  startTransfer : BitVec 4
  updateTransfer : BitVec 4
  endTransfer : BitVec 4
  startConfig : BitVec 4
  success : BitVec 4
  noResource : BitVec 4
  busExpiry : BitVec 4
  deriving DecidableEq, Repr, Inhabited

/-- The endpoint configuration words: the positions of their fields, and the endpoint type codes (30_encoding.md R105). A
position counts from bit 0 of parameter word 0: position 32·i + b is bit b of parameter word i. -/
structure CfgEnc where
  type : Nat
  mps : Nat
  fifo : Nat
  burst : Nat
  action : Nat
  xferCompleteEn : Nat
  xferNotReadyEn : Nat
  bintervalM1 : Nat
  epNumber : Nat
  control : BitVec 2
  isochronous : BitVec 2
  bulk : BitVec 2
  interrupt : BitVec 2
  deriving DecidableEq, Repr, Inhabited

/-- A TRB: the positions of its fields, and the type codes (30_encoding.md R110, R111). A position counts from bit 0 of word
0: position 32·i + b is bit b of word i. -/
structure TrbEnc where
  bpl : Nat
  bph : Nat
  bufsiz : Nat
  pcm1 : Nat
  trbsts : Nat
  hwo : Nat
  lst : Nat
  chn : Nat
  csp : Nat
  trbctl : Nat
  ispImi : Nat
  ioc : Nat
  sidSofn : Nat
  normal : BitVec 6
  controlSetup : BitVec 6
  controlStatus2 : BitVec 6
  controlStatus3 : BitVec 6
  controlData : BitVec 6
  isochronousFirst : BitVec 6
  isochronous : BitVec 6
  link : BitVec 6
  zlp : BitVec 6
  deriving DecidableEq, Repr, Inhabited

/-- Event words: the value of bit 0 that marks an endpoint event, the positions, the type codes, and the stage codes of
EP_STATUS[1:0] (30_encoding.md R120 to R125). -/
structure EvtEnc where
  epBit : Bool
  devClass : Nat
  devEvt : Nat
  evtInfo : Nat
  epNum : Nat
  epEvt : Nat
  epStatus : Nat
  epParam : Nat
  disconnect : BitVec 4
  reset : BitVec 4
  connectDone : BitVec 4
  linkStateChange : BitVec 4
  wakeup : BitVec 4
  hibernationReq : BitVec 4
  xferComplete : BitVec 4
  xferInProgress : BitVec 4
  xferNotReady : BitVec 4
  epCmdComplete : BitVec 4
  controlData : BitVec 2
  controlStatus : BitVec 2
  deriving DecidableEq, Repr, Inhabited

/-- `ENC` (00_scope.md R14). -/
structure Enc where
  off : RegOffsets
  reg : RegPlaces
  cmd : CmdEnc
  cfg : CfgEnc
  trb : TrbEnc
  evt : EvtEnc
  deriving DecidableEq, Repr, Inhabited

/-- The members of `ENC` of this hardware: the defaults of 10_state.md R36 and 30_encoding.md R100 to R125 (log 3);
`EVT_EP_BIT` = 1 as the spec says (R120); `TRBCTL_ZLP` is open, and 9 is the model's choice among the free codes (log 5,
DESIGN CHOICE). -/
def hardwareEnc : Enc where
  off := {
    gctl := 0xC110, gsnpsid := 0xC120, ghwparams0 := 0xC140, ghwparams3 := 0xC14C, gusb2phycfg := 0xC200
    gusb3pipectl := 0xC2C0, gevntadrlo := 0xC400, gevntadrhi := 0xC404, gevntsiz := 0xC408, gevntcount := 0xC40C
    dcfg := 0xC700, dctl := 0xC704, devten := 0xC708, dsts := 0xC70C, dalepena := 0xC720
    depcmdpar2 := 0xC800, depcmdpar1 := 0xC804, depcmdpar0 := 0xC808, depcmd := 0xC80C, depStride := 16 }
  reg := {
    prtcapdir := 12, mode := 0, phyIfc := 0, numEps := 12, numInEps := 18, usb2Susphy := 6, enblslpm := 8, usb3Susphy := 17
    evtSize := 0, intMask := 31, evntCount := 0, devspd := 0, devaddr := 3, lpmcap := 22, csftrst := 30, runStop := 31
    connectspd := 0, usblnkst := 18, disconnEvt := 0, usbRstEvt := 1, connectDoneEvt := 2, ulStChngEvt := 3, wkupEvt := 4
    hibernationReqEvt := 5 }
  cmd := {
    typ := 0, ioc := 8, act := 10, force := 11, status := 12, param := 16
    setEpConfig := 1, setXferResource := 2, getEpState := 3, setStall := 4, clearStall := 5, startTransfer := 6
    updateTransfer := 7, endTransfer := 8, startConfig := 9, success := 0, noResource := 1, busExpiry := 2 }
  cfg := {
    type := 1, mps := 3, fifo := 17, burst := 22, action := 30
    xferCompleteEn := 40, xferNotReadyEn := 42, bintervalM1 := 48, epNumber := 57
    control := 0, isochronous := 1, bulk := 2, interrupt := 3 }
  trb := {
    bpl := 0, bph := 32, bufsiz := 64, pcm1 := 88, trbsts := 92
    hwo := 96, lst := 97, chn := 98, csp := 99, trbctl := 100, ispImi := 106, ioc := 107, sidSofn := 110
    normal := 1, controlSetup := 2, controlStatus2 := 3, controlStatus3 := 4, controlData := 5, isochronousFirst := 6
    isochronous := 7, link := 8, zlp := 9 }
  evt := {
    epBit := true, devClass := 1, devEvt := 8, evtInfo := 16, epNum := 1, epEvt := 6, epStatus := 12, epParam := 16
    disconnect := 0, reset := 1, connectDone := 2, linkStateChange := 3, wakeup := 4, hibernationReq := 5
    xferComplete := 1, xferInProgress := 2, xferNotReady := 3, epCmdComplete := 7
    controlData := 1, controlStatus := 2 }

/-! ### The launch parameters -/

/-- A piece of the address translation: the local addresses from `base`, `size` of them, go to `target` upward. -/
structure Segment where
  base : LAddr
  size : Nat
  target : GAddr
  deriving DecidableEq, Repr, Inhabited

/-- The six callback references of `ctx.cb` (10_state.md R22). -/
structure Callbacks where
  onReset : Word
  onConnect : Word
  onDisconnect : Word
  onSetupReceived : Word
  onDataIn : Word
  onDataOut : Word
  deriving DecidableEq, Repr, Inhabited

/-- The launch parameters (00_scope.md R7). `Global` is a list of segments and an offset for every other address; the
predicates CORE_ID_OK and MODE_OK are the lists of the words they accept (log 9). -/
structure Params where
  numEps : Nat
  numInEps : Nat
  phyType : BitVec 6
  ep0Mps : Nat
  regBase : LAddr
  evtBufAddr : LAddr
  setupBufAddr : LAddr
  ep0TrbAddr : LAddr
  ringAddr : Vector LAddr 32
  segments : List Segment
  offset : GAddr
  cacheLine : Nat
  coreIdOk : List Word
  modeOk : List Word
  phyConfig : List (Machine.Reg × Word)
  phyLpMask : List (Machine.Reg × Word)
  retryBudget : Nat
  enc : Enc
  cb : Callbacks
  deriving DecidableEq, Repr, Inhabited

/-- `Global(a)` (00_scope.md R7, 20_memory.md R71): total. -/
def Params.global (p : Params) (a : LAddr) : GAddr :=
  match p.segments.find? (fun g => decide ((a - g.base).toNat < g.size)) with
  | some g => g.target + (a - g.base).zeroExtend 64
  | none => p.offset + a.zeroExtend 64

/-- The default `PHY_LP_MASK` of a controller without a USB3 PIPE: SUSPHY and ENBLSLPM of GUSB2PHYCFG (30_encoding.md
R115). -/
def phyLpDefault (enc : Enc) : List (Machine.Reg × Word) :=
  [(.gusb2phycfg, 1#32 <<< enc.reg.usb2Susphy ||| 1#32 <<< enc.reg.enblslpm)]

/-- The example launch L0 (95_test_vectors.md section 2), the model's choice for reset (log 5, DESIGN CHOICE). -/
def launchL0 : Params where
  numEps := 8
  numInEps := 4
  phyType := 0
  ep0Mps := 64
  regBase := 0
  evtBufAddr := 0x20010000
  setupBufAddr := 0x20011000
  ep0TrbAddr := 0x20011020
  ringAddr := Vector.ofFn fun n => BitVec.ofNat 32 (0x20000000 + 0x100 * n.val)
  segments := []
  offset := 0
  cacheLine := 32
  coreIdOk := [0]
  modeOk := [0]
  phyConfig := []
  phyLpMask := phyLpDefault hardwareEnc
  retryBudget := 1000
  enc := hardwareEnc
  cb := { onReset := 0, onConnect := 0, onDisconnect := 0, onSetupReceived := 0, onDataIn := 0, onDataOut := 0 }

namespace Config

/-! The free values (log 1): no body, so nothing can be proved of one of them. Each is applied to the counter
`Env.ctr`. -/

/-- What the other agents do before an access of S (00_scope.md R12). -/
opaque freeActs : Nat → List Machine.Act
/-- H's answer to a command; none: H never completes it (40_command_dispatcher.md R181). -/
opaque freeAnswer : Nat → Option Machine.Answer
/-- How a soft reset ends; none: it never does (70_reset_and_hazards.md R412, R413). -/
opaque freeReset : Nat → Option Machine.ResetImage
/-- What the host moves through a TRB; none: nothing yet (42_trb_ring.md R250). -/
opaque freeMoved : Nat → Option Machine.Moved
/-- The SETUP packet the host sends; none: none yet (44_ep0_control.md R355). -/
opaque freeSetup : Nat → Option Machine.Arrival
/-- The calls L makes inside a callback (60_exceptions.md R390). -/
opaque freeCalls : Nat → List Machine.LCall
/-- What S sees where it reads a byte that H wrote since S last invalidated it (20_memory.md R82). -/
opaque freeSeen : Nat → List (LAddr × Byte)
/-- The bytes at which H sees what S wrote since the last flush (93_implementation_defined.md 1.3). -/
opaque freeFresh : Nat → List GAddr
/-- The four words of the EP0 TRB at the end of INIT, but for its HWO bit (10_state.md R22). -/
opaque freeTrb0 : Nat → Machine.TrbWords
/-- The size that a receive of a length hands to H on an endpoint whose recorded packet size is 0 (42_trb_ring.md R229;
log 22). -/
opaque freeRoundup : Nat → Nat → Nat

end Config

end Sys2Proof
end

