-- ==== Sys2Proof/Decode.lean ====
section
/-! DEFINITION. The word formats: the decoder, total on any words and any bytes, rejecting by name; after it the encoder,
written from the same tables (spec/30_encoding.md R100 to R129). -/

namespace Sys2Proof

/-- Why words are no instruction. -/
inductive DecodeError where
  /-- the format does not have this many bytes (R99) -/
  | badLength (len : Nat)
  /-- a command word with CMDACT = 0 starts nothing (R100) -/
  | notActive
  /-- a reserved command code (R101, R129) -/
  | reservedCommand (code : BitVec 4)
  /-- HIPRI_FORCERM is 1 for END_TRANSFER and for no other command (R100, R104) -/
  | badForce
  /-- START_CONFIG stands in the registers of endpoint 0 alone (40_command_dispatcher.md R160) -/
  | startConfigNotEp0
  /-- a reserved TRB type (R111, R129) -/
  | reservedTrb (code : BitVec 6)
  /-- a device-class word with DEV_CLASS other than 0 (R121, R128) -/
  | unknownEventClass
  /-- a reserved device event type (R122) -/
  | reservedDeviceEvent (code : BitVec 4)
  /-- a reserved endpoint event type, with the endpoint the word names (R124) -/
  | reservedEpEvent (n : EpIdx) (code : BitVec 4)
  /-- a setup packet that is not SET_ADDRESS (44_ep0_control.md R347, R352) -/
  | notSetAddress
  deriving DecidableEq, Repr, Inhabited

/-! ### Bytes and fields -/

/-- The bits of a word from `lo` upward, `n` of them (00_scope.md R9). -/
def field (w : Word) (lo n : Nat) : BitVec n := w.extractLsb' lo n

/-- One bit of a word. -/
def bit (w : Word) (i : Nat) : Bool := w.getLsbD i

/-- The word with the bits from `lo` upward replaced by `v` and every other bit kept (00_scope.md R10). -/
def putField (w : Word) (lo : Nat) {n : Nat} (v : BitVec n) : Word :=
  (w &&& ~~~((BitVec.allOnes n).zeroExtend 32 <<< lo)) ||| (v.zeroExtend 32 <<< lo)

/-- A field to be put into a word: its lowest bit, its width and its value. -/
structure Placed where
  lo : Nat
  width : Nat
  val : BitVec width

/-- The word that holds the fields of a list at their places, and 0 in every other bit. -/
def pack : List Placed → Word
  | [] => 0
  | f :: fs => putField (pack fs) f.lo f.val

/-- The fields of a list that lie in word `i` of several, given by their positions from bit 0 of word 0 on, with their
positions in that word. -/
def inWord (l : List Placed) (i : Nat) : List Placed :=
  l.filterMap fun x => if x.lo / 32 = i then some ⟨x.lo % 32, x.width, x.val⟩ else none

/-- The field of `n` bits at a position of several words. -/
def partOf (w : Nat → Word) (p n : Nat) : BitVec n := field (w (p / 32)) (p % 32) n

/-- The bit at a position of several words. -/
def flagOf (w : Nat → Word) (p : Nat) : Bool := bit (w (p / 32)) (p % 32)

/-- The bits of the fields of a layout, each given by its lowest bit and its width. -/
def layoutMask : List (Nat × Nat) → Word
  | [] => 0
  | (lo, n) :: fs => ((BitVec.allOnes n).zeroExtend 32 <<< lo) ||| layoutMask fs

/-- Byte `i` of a word is its bits [8i+7:8i] (20_memory.md R73). -/
def bytesOfWord (w : Word) : List Byte :=
  [w.extractLsb' 0 8, w.extractLsb' 8 8, w.extractLsb' 16 8, w.extractLsb' 24 8]

/-- The word of four bytes, the lowest address first (20_memory.md R73). -/
def wordOfBytes (b0 b1 b2 b3 : Byte) : Word := b3 ++ b2 ++ b1 ++ b0

/-- `lo32` and `hi32` of a global address (00_scope.md R9). -/
def lo32 (g : GAddr) : Word := g.extractLsb' 0 32
@[inherit_doc lo32] def hi32 (g : GAddr) : Word := g.extractLsb' 32 32

/-! ### Register addresses -/

/-- The offset of a register from `REG_BASE` (10_state.md R36). -/
def Machine.Reg.offset (off : RegOffsets) : Machine.Reg → Nat
  | .gctl => off.gctl
  | .gsnpsid => off.gsnpsid
  | .ghwparams0 => off.ghwparams0
  | .ghwparams3 => off.ghwparams3
  | .gusb2phycfg => off.gusb2phycfg
  | .gusb3pipectl => off.gusb3pipectl
  | .gevntadrlo => off.gevntadrlo
  | .gevntadrhi => off.gevntadrhi
  | .gevntsiz => off.gevntsiz
  | .gevntcount => off.gevntcount
  | .dcfg => off.dcfg
  | .dctl => off.dctl
  | .devten => off.devten
  | .dsts => off.dsts
  | .dalepena => off.dalepena
  | .depcmdpar2 n => off.depcmdpar2 + off.depStride * n.val
  | .depcmdpar1 n => off.depcmdpar1 + off.depStride * n.val
  | .depcmdpar0 n => off.depcmdpar0 + off.depStride * n.val
  | .depcmd n => off.depcmd + off.depStride * n.val

/-- The local address of a register (10_state.md R36, 20_memory.md R87). -/
def Params.regAddr (p : Params) (r : Machine.Reg) : LAddr := p.regBase + BitVec.ofNat 32 (r.offset p.enc.off)

/-! ### Codes -/

/-- Command codes (R101). -/
def CmdTyp.code (e : CmdEnc) : CmdTyp → BitVec 4
  | .setEpConfig => e.setEpConfig
  | .setXferResource => e.setXferResource
  | .getEpState => e.getEpState
  | .setStall => e.setStall
  | .clearStall => e.clearStall
  | .startTransfer => e.startTransfer
  | .updateTransfer => e.updateTransfer
  | .endTransfer => e.endTransfer
  | .startConfig => e.startConfig

/-- The nine command types. -/
def CmdTyp.all : List CmdTyp :=
  [.setEpConfig, .setXferResource, .getEpState, .setStall, .clearStall, .startTransfer, .updateTransfer, .endTransfer,
    .startConfig]

/-- The command of a code; none for a reserved one (R101). -/
def CmdTyp.ofCode (e : CmdEnc) (c : BitVec 4) : Option CmdTyp := CmdTyp.all.find? fun t => decide (t.code e = c)

/-- USB endpoint type codes (R105). -/
def EpType.code (e : CfgEnc) : EpType → BitVec 2
  | .control => e.control
  | .isochronous => e.isochronous
  | .bulk => e.bulk
  | .interrupt => e.interrupt

@[inherit_doc EpType.code] def EpType.ofCode (e : CfgEnc) (c : BitVec 2) : EpType :=
  if c = e.control then .control else if c = e.isochronous then .isochronous else if c = e.bulk then .bulk else .interrupt

/-- TRB type codes (R111). -/
def TrbKind.code (e : TrbEnc) : TrbKind → BitVec 6
  | .normal => e.normal
  | .controlSetup => e.controlSetup
  | .controlStatus2 => e.controlStatus2
  | .controlStatus3 => e.controlStatus3
  | .controlData => e.controlData
  | .isochronousFirst => e.isochronousFirst
  | .isochronous => e.isochronous
  | .link => e.link
  | .zlp => e.zlp

/-- The nine TRB types. -/
def TrbKind.all : List TrbKind :=
  [.normal, .controlSetup, .controlStatus2, .controlStatus3, .controlData, .isochronousFirst, .isochronous, .link, .zlp]

/-- The type of a TRB code; none for a reserved one (R111). -/
def TrbKind.ofCode (e : TrbEnc) (c : BitVec 6) : Option TrbKind := TrbKind.all.find? fun k => decide (k.code e = c)

/-! ### Decoders over words -/

/-- Parameter word `i` of two (R104). -/
def parWord (p0 p1 : Word) : Nat → Word
  | 0 => p0
  | _ => p1

/-- The configuration in the parameter words of SET_EP_CONFIG (R105). Bits the rule names no field for, and BURST and
ACTION, which S writes as 0, are not read (log 26). -/
def EpConf.ofWords (e : CfgEnc) (p0 p1 : Word) : EpConf where
  type := EpType.ofCode e (partOf (parWord p0 p1) e.type 2)
  mps := partOf (parWord p0 p1) e.mps 11
  fifo := partOf (parWord p0 p1) e.fifo 5
  xferCompleteEn := flagOf (parWord p0 p1) e.xferCompleteEn
  xferNotReadyEn := flagOf (parWord p0 p1) e.xferNotReadyEn
  bintervalM1 := partOf (parWord p0 p1) e.bintervalM1 8
  epNumber := partOf (parWord p0 p1) e.epNumber 5

/-- A command word with its parameter words (R100, R104, R127). CMDIOC, CMDSTATUS and the reserved bits are not read, nor is
a PARAM field, its upper bits, or a parameter word for which R104 gives the command 0 (log 23, DESIGN CHOICE). -/
def decodeCommand (enc : Enc) (w p0 p1 : Word) : Except DecodeError Command :=
  if bit w enc.cmd.act = false then .error .notActive
  else
    match CmdTyp.ofCode enc.cmd (field w enc.cmd.typ 4) with
    | none => .error (.reservedCommand (field w enc.cmd.typ 4))
    | some t =>
      if bit w enc.cmd.force ≠ decide (t = .endTransfer) then .error .badForce
      else
        match t with
        | .startConfig => .ok (.startConfig (field w enc.cmd.param 16))
        | .setEpConfig => .ok (.setEpConfig (EpConf.ofWords enc.cfg p0 p1))
        | .setXferResource => .ok (.setXferResource p0)
        | .getEpState => .ok .getEpState
        | .setStall => .ok .setStall
        | .clearStall => .ok .clearStall
        | .startTransfer => .ok (.startTransfer (p0 ++ p1))
        | .updateTransfer => .ok (.updateTransfer (field w enc.cmd.param 7))
        | .endTransfer => .ok (.endTransfer (field w enc.cmd.param 7))

/-- Word `i` of a TRB (R110). -/
def Machine.TrbWords.word (t : Machine.TrbWords) : Nat → Word
  | 0 => t.w0
  | 1 => t.w1
  | 2 => t.w2
  | _ => t.w3

/-- The field of `n` bits of a TRB at a position (R110). -/
def Machine.TrbWords.part (t : Machine.TrbWords) (p n : Nat) : BitVec n := partOf t.word p n

/-- The bit of a TRB at a position (R110). -/
def Machine.TrbWords.flag (t : Machine.TrbWords) (p : Nat) : Bool := flagOf t.word p

/-- The offset of the size word, the word that holds BUFSIZ, in a TRB (R110). -/
def TrbEnc.sizeAt (e : TrbEnc) : Nat := 4 * (e.bufsiz / 32)

/-- The offset of the control word, the word that holds HWO, in a TRB (R110). -/
def TrbEnc.controlAt (e : TrbEnc) : Nat := 4 * (e.hwo / 32)

/-- The words of a TRB in the order in which S writes them: the pointer, the high pointer, the size and last the control
word (20_memory.md R81). -/
def TrbEnc.order (e : TrbEnc) : List Nat := [e.bpl / 32, e.bph / 32, e.bufsiz / 32, e.hwo / 32]

/-- The fields of a TRB (R110). Reserved bits are not read. -/
def TrbFields.ofWords (e : TrbEnc) (t : Machine.TrbWords) : TrbFields where
  buf := t.part e.bph 32 ++ t.part e.bpl 32
  bufsiz := t.part e.bufsiz 24
  pcm1 := t.part e.pcm1 2
  trbsts := t.part e.trbsts 4
  hwo := t.flag e.hwo
  lst := t.flag e.lst
  chn := t.flag e.chn
  csp := t.flag e.csp
  ispImi := t.flag e.ispImi
  ioc := t.flag e.ioc
  sidSofn := t.part e.sidSofn 16

/-- A TRB (R110, R111, R128). -/
def decodeTrb (enc : Enc) (t : Machine.TrbWords) : Except DecodeError (TrbKind × TrbFields) :=
  match TrbKind.ofCode enc.trb (t.part enc.trb.trbctl 6) with
  | none => .error (.reservedTrb (t.part enc.trb.trbctl 6))
  | some k => .ok (k, TrbFields.ofWords enc.trb t)

/-- The physical endpoint an endpoint event names (R123). -/
def eventEp (e : EvtEnc) (w : Word) : EpIdx := (field w e.epNum 5).toFin

/-- An event word is an endpoint event where its bit 0 is `EVT_EP_BIT` (R120). -/
def isEpEvent (e : EvtEnc) (w : Word) : Bool := decide (bit w 0 = e.epBit)

/-- An event word (R120 to R125, R128). Reserved bits are not read. -/
def decodeEvent (enc : Enc) (w : Word) : Except DecodeError Event :=
  let e := enc.evt
  if isEpEvent e w then
    let n := eventEp e w
    let st := field w e.epStatus 4
    let p := field w e.epParam 16
    let c := field w e.epEvt 4
    if c = e.xferComplete then .ok (.xferComplete n st p)
    else if c = e.xferInProgress then .ok (.xferInProgress n st p)
    else if c = e.xferNotReady then .ok (.xferNotReady n st p)
    else if c = e.epCmdComplete then .ok (.epCmdComplete n st p)
    else .error (.reservedEpEvent n c)
  else if field w e.devClass 7 ≠ 0 then .error .unknownEventClass
  else
    let info := field w e.evtInfo 9
    let c := field w e.devEvt 4
    if c = e.disconnect then .ok (.disconnect info)
    else if c = e.reset then .ok (.reset info)
    else if c = e.connectDone then .ok (.connectDone info)
    else if c = e.linkStateChange then .ok (.linkStateChange info)
    else if c = e.wakeup then .ok (.wakeup info)
    else if c = e.hibernationReq then .ok (.hibernationReq info)
    else .error (.reservedDeviceEvent c)

/-- The setup packet of eight bytes (R126): `wValue = setup[2] | setup[3] << 8` and so on. -/
def Setup.ofBytes (b0 b1 b2 b3 b4 b5 b6 b7 : Byte) : Setup where
  bmRequestType := b0
  bRequest := b1
  wValue := b3 ++ b2
  wIndex := b5 ++ b4
  wLength := b7 ++ b6

/-- The eight bytes of a setup packet (R126). -/
def Setup.bytes (p : Setup) : List Byte :=
  [p.bmRequestType, p.bRequest, p.wValue.extractLsb' 0 8, p.wValue.extractLsb' 8 8, p.wIndex.extractLsb' 0 8,
    p.wIndex.extractLsb' 8 8, p.wLength.extractLsb' 0 8, p.wLength.extractLsb' 8 8]

/-- `IsSetAddress(s)` (44_ep0_control.md R347). -/
def Setup.isSetAddress (p : Setup) : Bool := decide (p.bmRequestType = 0) && decide (p.bRequest = 5)

/-- The packet of a SET_ADDRESS request (R126). -/
def setAddressPacket (wValue wIndex wLength : BitVec 16) : Setup :=
  { bmRequestType := 0, bRequest := 5, wValue, wIndex, wLength }

/-- The instruction a setup packet is: SET_ADDRESS, the only request the block interprets (44_ep0_control.md R352). -/
def decodeSetup (p : Setup) : Except DecodeError Instr :=
  if p.isSetAddress then .ok (.setupSetAddress p.wValue p.wIndex p.wLength) else .error .notSetAddress

/-- The instruction of a command on endpoint `n`. -/
def instrOfCommand (n : EpIdx) (c : Command) : Except DecodeError Instr :=
  match c with
  | .startConfig base => if n = 0 then .ok (.startConfig base) else .error .startConfigNotEp0
  | c => .ok (Instr.ofCommand n c)

/-! ### The decoder over bytes -/

/-- The instruction that the bytes of format `f` are, the byte of the lowest address first. `n` is the endpoint whose
command registers, or whose transfer, hold the bytes. A command is its command word, then parameter words 0 and 1; a TRB
is its four words; an event is its word; a setup packet is its eight bytes (R99). -/
def decode (enc : Enc) (f : Format) (n : EpIdx) (bytes : List Byte) : Except DecodeError Instr :=
  match f, bytes with
  | .command, [a0, a1, a2, a3, b0, b1, b2, b3, c0, c1, c2, c3] =>
    match decodeCommand enc (wordOfBytes a0 a1 a2 a3) (wordOfBytes b0 b1 b2 b3) (wordOfBytes c0 c1 c2 c3) with
    | .ok c => instrOfCommand n c
    | .error e => .error e
  | .trb, [a0, a1, a2, a3, b0, b1, b2, b3, c0, c1, c2, c3, d0, d1, d2, d3] =>
    match decodeTrb enc { w0 := wordOfBytes a0 a1 a2 a3, w1 := wordOfBytes b0 b1 b2 b3, w2 := wordOfBytes c0 c1 c2 c3,
                          w3 := wordOfBytes d0 d1 d2 d3 } with
    | .ok (k, t) => .ok (Instr.ofTrb n k t)
    | .error e => .error e
  | .event, [a0, a1, a2, a3] =>
    match decodeEvent enc (wordOfBytes a0 a1 a2 a3) with
    | .ok e => .ok (Instr.ofEvent e)
    | .error e => .error e
  | .setup, [b0, b1, b2, b3, b4, b5, b6, b7] => decodeSetup (Setup.ofBytes b0 b1 b2 b3 b4 b5 b6 b7)
  | _, bs => .error (.badLength bs.length)

/-! ### The encoder -/

/-- The type of a command. -/
def Command.typ : Command → CmdTyp
  | .startConfig _ => .startConfig
  | .setEpConfig _ => .setEpConfig
  | .setXferResource _ => .setXferResource
  | .getEpState => .getEpState
  | .setStall => .setStall
  | .clearStall => .clearStall
  | .startTransfer _ => .startTransfer
  | .updateTransfer _ => .updateTransfer
  | .endTransfer _ => .endTransfer

/-- The PARAM field of a command (R104). -/
def Command.param : Command → BitVec 16
  | .startConfig base => base
  | .updateTransfer rsc => rsc.zeroExtend 16
  | .endTransfer rsc => rsc.zeroExtend 16
  | _ => 0

/-- The fields of a command word with CMDACT = 1 (R100, R103). -/
def cmdFields (e : CmdEnc) (t : CmdTyp) (param : BitVec 16) : List Placed :=
  [⟨e.param, 16, param⟩, ⟨e.status, 4, 0⟩, ⟨e.force, 1, BitVec.ofBool (decide (t = .endTransfer))⟩, ⟨e.act, 1, 1⟩,
    ⟨e.ioc, 1, 0⟩, ⟨e.typ, 4, t.code e⟩]

/-- `cmdword(c, p, f)` with CMDACT = 1 (R103). -/
def cmdword (enc : Enc) (t : CmdTyp) (param : BitVec 16) : Word := pack (cmdFields enc.cmd t param)

/-- The fields of the parameter words of SET_EP_CONFIG, with their positions in the two (R105). -/
def EpConf.fields (e : CfgEnc) (c : EpConf) : List Placed :=
  [⟨e.action, 2, 0⟩, ⟨e.burst, 4, 0⟩, ⟨e.fifo, 5, c.fifo⟩, ⟨e.mps, 11, c.mps⟩, ⟨e.type, 2, c.type.code e⟩,
    ⟨e.epNumber, 5, c.epNumber⟩, ⟨e.bintervalM1, 8, c.bintervalM1⟩, ⟨e.xferNotReadyEn, 1, BitVec.ofBool c.xferNotReadyEn⟩,
    ⟨e.xferCompleteEn, 1, BitVec.ofBool c.xferCompleteEn⟩]

/-- `epcfg0` and `epcfg1` (R105). -/
def EpConf.word0 (e : CfgEnc) (c : EpConf) : Word := pack (inWord (c.fields e) 0)
@[inherit_doc EpConf.word0] def EpConf.word1 (e : CfgEnc) (c : EpConf) : Word := pack (inWord (c.fields e) 1)

/-- Parameter word 0 (R104). -/
def Command.par0 (enc : Enc) : Command → Word
  | .setEpConfig cfg => cfg.word0 enc.cfg
  | .setXferResource count => count
  | .startTransfer g => hi32 g
  | _ => 0

/-- Parameter word 1 (R104). -/
def Command.par1 (enc : Enc) : Command → Word
  | .setEpConfig cfg => cfg.word1 enc.cfg
  | .startTransfer g => lo32 g
  | _ => 0

/-- The fields of a TRB of type `k`, with their positions in the TRB (R110). -/
def TrbFields.fields (e : TrbEnc) (f : TrbFields) (k : TrbKind) : List Placed :=
  [⟨e.sidSofn, 16, f.sidSofn⟩, ⟨e.ioc, 1, BitVec.ofBool f.ioc⟩, ⟨e.ispImi, 1, BitVec.ofBool f.ispImi⟩,
    ⟨e.trbctl, 6, k.code e⟩, ⟨e.csp, 1, BitVec.ofBool f.csp⟩, ⟨e.chn, 1, BitVec.ofBool f.chn⟩,
    ⟨e.lst, 1, BitVec.ofBool f.lst⟩, ⟨e.hwo, 1, BitVec.ofBool f.hwo⟩, ⟨e.trbsts, 4, f.trbsts⟩, ⟨e.pcm1, 2, f.pcm1⟩,
    ⟨e.bufsiz, 24, f.bufsiz⟩, ⟨e.bph, 32, hi32 f.buf⟩, ⟨e.bpl, 32, lo32 f.buf⟩]

/-- The four words of a TRB of type `k` (R110). -/
def TrbFields.words (enc : Enc) (f : TrbFields) (k : TrbKind) : Machine.TrbWords where
  w0 := pack (inWord (f.fields enc.trb k) 0)
  w1 := pack (inWord (f.fields enc.trb k) 1)
  w2 := pack (inWord (f.fields enc.trb k) 2)
  w3 := pack (inWord (f.fields enc.trb k) 3)

/-- The fields of an endpoint event word (R123). -/
def epEventFields (e : EvtEnc) (code : BitVec 4) (n : EpIdx) (status : BitVec 4) (param : BitVec 16) : List Placed :=
  [⟨e.epParam, 16, param⟩, ⟨e.epStatus, 4, status⟩, ⟨e.epEvt, 4, code⟩, ⟨e.epNum, 5, BitVec.ofFin n⟩,
    ⟨0, 1, BitVec.ofBool e.epBit⟩]

/-- The fields of a device event word (R121). -/
def devEventFields (e : EvtEnc) (code : BitVec 4) (info : BitVec 9) : List Placed :=
  [⟨e.evtInfo, 9, info⟩, ⟨e.devEvt, 4, code⟩, ⟨e.devClass, 7, 0⟩, ⟨0, 1, BitVec.ofBool (!e.epBit)⟩]

/-- The fields of the event word of an event (R121 to R124). -/
def Event.fields (e : EvtEnc) : Event → List Placed
  | .xferComplete n st p => epEventFields e e.xferComplete n st p
  | .xferInProgress n st p => epEventFields e e.xferInProgress n st p
  | .xferNotReady n st p => epEventFields e e.xferNotReady n st p
  | .epCmdComplete n st p => epEventFields e e.epCmdComplete n st p
  | .disconnect i => devEventFields e e.disconnect i
  | .reset i => devEventFields e e.reset i
  | .connectDone i => devEventFields e e.connectDone i
  | .linkStateChange i => devEventFields e e.linkStateChange i
  | .wakeup i => devEventFields e e.wakeup i
  | .hibernationReq i => devEventFields e e.hibernationReq i

/-- The event word of an event (R121 to R124). -/
def Event.word (enc : Enc) (e : Event) : Word := pack (e.fields enc.evt)

/-- The bytes of a command: its command word, then parameter words 0 and 1. -/
def Command.bytes (enc : Enc) (c : Command) : List Byte :=
  bytesOfWord (cmdword enc c.typ c.param) ++ bytesOfWord (c.par0 enc) ++ bytesOfWord (c.par1 enc)

/-- The bytes of a TRB's words. -/
def Machine.TrbWords.bytes (t : Machine.TrbWords) : List Byte :=
  bytesOfWord t.w0 ++ bytesOfWord t.w1 ++ bytesOfWord t.w2 ++ bytesOfWord t.w3

/-- The bytes of a TRB. -/
def trbBytesOf (enc : Enc) (k : TrbKind) (f : TrbFields) : List Byte := (f.words enc k).bytes

/-- The bytes of an instruction of a word format; the rows of format `operation` have none (R130). -/
def encode (enc : Enc) : Instr → List Byte
  | .startConfig base => (Command.startConfig base).bytes enc
  | .setEpConfig _ cfg => (Command.setEpConfig cfg).bytes enc
  | .setXferResource _ count => (Command.setXferResource count).bytes enc
  | .getEpState _ => Command.getEpState.bytes enc
  | .setStall _ => Command.setStall.bytes enc
  | .clearStallCmd _ => Command.clearStall.bytes enc
  | .startTransfer _ g => (Command.startTransfer g).bytes enc
  | .updateTransfer _ rsc => (Command.updateTransfer rsc).bytes enc
  | .endTransfer _ rsc => (Command.endTransfer rsc).bytes enc
  | .trbNormal _ f => trbBytesOf enc .normal f
  | .trbControlSetup _ f => trbBytesOf enc .controlSetup f
  | .trbControlStatus2 _ f => trbBytesOf enc .controlStatus2 f
  | .trbControlStatus3 _ f => trbBytesOf enc .controlStatus3 f
  | .trbControlData _ f => trbBytesOf enc .controlData f
  | .trbZlp _ f => trbBytesOf enc .zlp f
  | .trbIsochronousFirst _ f => trbBytesOf enc .isochronousFirst f
  | .trbIsochronous _ f => trbBytesOf enc .isochronous f
  | .trbLink _ f => trbBytesOf enc .link f
  | .evtXferComplete n st p => bytesOfWord ((Event.xferComplete n st p).word enc)
  | .evtXferInProgress n st p => bytesOfWord ((Event.xferInProgress n st p).word enc)
  | .evtXferNotReady n st p => bytesOfWord ((Event.xferNotReady n st p).word enc)
  | .evtEpCmdComplete n st p => bytesOfWord ((Event.epCmdComplete n st p).word enc)
  | .evtDisconnect i => bytesOfWord ((Event.disconnect i).word enc)
  | .evtReset i => bytesOfWord ((Event.reset i).word enc)
  | .evtConnectDone i => bytesOfWord ((Event.connectDone i).word enc)
  | .evtLinkStateChange i => bytesOfWord ((Event.linkStateChange i).word enc)
  | .evtWakeup i => bytesOfWord ((Event.wakeup i).word enc)
  | .evtHibernationReq i => bytesOfWord ((Event.hibernationReq i).word enc)
  | .setupSetAddress v i l => (setAddressPacket v i l).bytes
  | .init => []
  | .enable _ _ _ _ _ => []
  | .disable _ _ => []
  | .stall _ _ => []
  | .clearStall _ _ => []
  | .send _ _ _ _ => []
  | .recv _ _ _ _ => []
  | .ep0Send _ _ => []
  | .ep0Recv _ _ => []
  | .ep0Status _ => []
  | .armSetup => []
  | .abortEp0 => []
  | .complete _ => []
  | .irq => []
  | .setDevState _ => []
  | .cmd _ _ _ _ _ _ => []

/-- The format of an instruction, and the endpoint whose registers or transfer hold its words; none for the rows of
format `operation`. Event words and setup packets belong to no endpoint, and 0 stands there. -/
def formatOf : Instr → Option (Format × EpIdx)
  | .startConfig _ => some (.command, 0)
  | .setEpConfig n _ => some (.command, n)
  | .setXferResource n _ => some (.command, n)
  | .getEpState n => some (.command, n)
  | .setStall n => some (.command, n)
  | .clearStallCmd n => some (.command, n)
  | .startTransfer n _ => some (.command, n)
  | .updateTransfer n _ => some (.command, n)
  | .endTransfer n _ => some (.command, n)
  | .trbNormal n _ => some (.trb, n)
  | .trbControlSetup n _ => some (.trb, n)
  | .trbControlStatus2 n _ => some (.trb, n)
  | .trbControlStatus3 n _ => some (.trb, n)
  | .trbControlData n _ => some (.trb, n)
  | .trbZlp n _ => some (.trb, n)
  | .trbIsochronousFirst n _ => some (.trb, n)
  | .trbIsochronous n _ => some (.trb, n)
  | .trbLink n _ => some (.trb, n)
  | .evtXferComplete _ _ _ => some (.event, 0)
  | .evtXferInProgress _ _ _ => some (.event, 0)
  | .evtXferNotReady _ _ _ => some (.event, 0)
  | .evtEpCmdComplete _ _ _ => some (.event, 0)
  | .evtDisconnect _ => some (.event, 0)
  | .evtReset _ => some (.event, 0)
  | .evtConnectDone _ => some (.event, 0)
  | .evtLinkStateChange _ => some (.event, 0)
  | .evtWakeup _ => some (.event, 0)
  | .evtHibernationReq _ => some (.event, 0)
  | .setupSetAddress _ _ _ => some (.setup, 0)
  | .init => none
  | .enable _ _ _ _ _ => none
  | .disable _ _ => none
  | .stall _ _ => none
  | .clearStall _ _ => none
  | .send _ _ _ _ => none
  | .recv _ _ _ _ => none
  | .ep0Send _ _ => none
  | .ep0Recv _ _ => none
  | .ep0Status _ => none
  | .armSetup => none
  | .abortEp0 => none
  | .complete _ => none
  | .irq => none
  | .setDevState _ => none
  | .cmd _ _ _ _ _ _ => none

/-! ### A word of the opcode table -/

/-- The layout of an endpoint event word (R123). -/
def epEventLayout (e : EvtEnc) : List (Nat × Nat) := [(e.epParam, 16), (e.epStatus, 4), (e.epEvt, 4), (e.epNum, 5), (0, 1)]

/-- The layout of a device event word (R121). -/
def devEventLayout (e : EvtEnc) : List (Nat × Nat) := [(e.evtInfo, 9), (e.devEvt, 4), (e.devClass, 7), (0, 1)]

/-- The reserved bits of an event word are 0 (R121, R123). -/
def eventReservedClear (enc : Enc) (w : Word) : Bool :=
  decide (w &&& ~~~(layoutMask (if isEpEvent enc.evt w then epEventLayout enc.evt else devEventLayout enc.evt)) = 0)

/-- Which format a bare word of the opcode table is taken as (log 4): a setup packet where the row has 64 bits; else a
command where the word is one; else an event where the word is one with its reserved bits 0; else a TRB control word. -/
def tableFormat (nbits w : Nat) : Format :=
  let word := BitVec.ofNat 32 w
  if nbits = 64 then .setup
  else
    match decodeCommand hardwareEnc word 0 0 with
    | .ok _ => .command
    | .error _ =>
      if eventReservedClear hardwareEnc word then
        match decodeEvent hardwareEnc word with
        | .ok _ => .event
        | .error _ => .trb
      else .trb

/-- The bytes of an opcode-table word as the hardware stores them, every bit above the table's being 0. A TRB row's word
is word 3 of the TRB, so its words 0 to 2 are 0 (R110). -/
def tableBytes (nbits w : Nat) : List Byte :=
  let v := w % 2 ^ nbits
  let at32 (k : Nat) : List Byte := bytesOfWord (BitVec.ofNat 32 (v / 2 ^ (32 * k)))
  match tableFormat nbits v with
  | .command => at32 0 ++ at32 1 ++ at32 2
  | .trb => bytesOfWord 0 ++ bytesOfWord 0 ++ bytesOfWord 0 ++ at32 0
  | .event => at32 0
  | .setup => at32 0 ++ at32 1

/-- The instruction the decoder reads from an opcode-table word, on endpoint 0. -/
def decodeTableWord (nbits w : Nat) : Option Instr :=
  match decode hardwareEnc (tableFormat nbits (w % 2 ^ nbits)) 0 (tableBytes nbits w) with
  | .ok i => some i
  | .error _ => none

end Sys2Proof
end

