-- ==== Sys2Proof/WellFormed.lean ====
section
/-! DEFINITION. Which instructions the parties of the spec issue, and which launch parameters the spec admits
(spec/00_scope.md R7, spec/20_memory.md R72, R74, spec/30_encoding.md R104, R105, R110 to R112). -/

namespace Sys2Proof

/-- The FIFO number of an endpoint: its logical number for IN, 0 for OUT (30_encoding.md R105). -/
def fifoOf (n : EpIdx) : BitVec 5 := if n.val % 2 = 1 then BitVec.ofNat 5 (n.val / 2) else 0

/-- The configuration S gives an endpoint: no isochronous type, a packet size, the endpoint's own FIFO and number, both
events enabled (30_encoding.md R105, 41_endpoint_lifecycle.md R190). -/
def EpConf.wf (n : EpIdx) (c : EpConf) : Bool :=
  decide (c.type ≠ .isochronous) && decide (c.mps ≠ 0) && decide (c.fifo = fifoOf n) &&
    decide (c.epNumber = BitVec.ofNat 5 n.val) && c.xferCompleteEn && c.xferNotReadyEn

/-- The fields S writes as 0 in every TRB (30_encoding.md R110, R112). -/
def TrbFields.plain (f : TrbFields) : Bool :=
  decide (f.pcm1 = 0) && decide (f.trbsts = 0) && !f.chn && !f.csp && !f.ispImi && decide (f.sidSofn = 0)

/-- A data TRB as S writes it: HWO, LST and IOC set (30_encoding.md R112). -/
def TrbFields.handed (f : TrbFields) : Bool := f.plain && f.hwo && f.lst && f.ioc

/-- The instructions the parties of the spec issue. -/
def Instr.wf : Instr → Bool
  | .startConfig base => decide (base = 0) || decide (base = 2)
  | .setEpConfig n cfg => cfg.wf n
  | .setXferResource _ count => decide (count = 1)
  | .getEpState _ => true
  | .setStall _ => true
  | .clearStallCmd _ => true
  | .startTransfer _ _ => true
  | .updateTransfer _ _ => true
  | .endTransfer _ _ => true
  | .trbNormal n f => decide (2 ≤ n.val) && f.handed && decide (f.bufsiz ≠ 0)
  | .trbControlSetup n f => decide (n = 0) && f.handed && decide (f.bufsiz = 8)
  | .trbControlStatus2 n f => decide (n.val < 2) && f.handed && decide (f.bufsiz = 0)
  | .trbControlStatus3 n f => decide (n.val < 2) && f.handed && decide (f.bufsiz = 0)
  | .trbControlData n f => decide (n.val < 2) && f.handed
  | .trbZlp n f => decide (2 ≤ n.val) && decide (n.val % 2 = 1) && f.handed && decide (f.bufsiz = 0)
  | .trbIsochronousFirst _ _ => false
  | .trbIsochronous _ _ => false
  | .trbLink n f => decide (2 ≤ n.val) && f.plain && f.hwo && !f.lst && !f.ioc && decide (f.bufsiz = 0)
  | .evtXferComplete _ _ _ => true
  | .evtXferInProgress _ _ _ => true
  | .evtXferNotReady _ _ _ => true
  | .evtEpCmdComplete _ _ _ => true
  | .evtDisconnect _ => true
  | .evtReset _ => true
  | .evtConnectDone _ => true
  | .evtLinkStateChange _ => true
  | .evtWakeup _ => true
  | .evtHibernationReq _ => true
  | .setupSetAddress _ _ _ => true
  | .init => true
  | .enable _ _ _ _ _ => true
  | .disable _ _ => true
  | .stall _ _ => true
  | .clearStall _ _ => true
  | .send _ _ _ _ => true
  | .recv _ _ _ _ => true
  | .ep0Send _ _ => true
  | .ep0Recv _ _ => true
  | .ep0Status _ => true
  | .armSetup => true
  | .abortEp0 => true
  | .complete n => decide (2 ≤ n.val)
  | .irq => true
  | .setDevState _ => true
  | .cmd _ _ _ _ _ _ => true

/-! ### The encoding record -/

/-- Two fields, each given by its lowest bit and its width, share no bit. -/
def fieldsApart (a b : Nat × Nat) : Bool := decide (a.1 + a.2 ≤ b.1) || decide (b.1 + b.2 ≤ a.1)

/-- The fields of a word lie inside it and share no bit. -/
def layoutOk : List (Nat × Nat) → Bool
  | [] => true
  | f :: fs => decide (f.1 + f.2 ≤ 32) && fs.all (fieldsApart f) && layoutOk fs

/-- The layout of the command word (30_encoding.md R100). -/
def CmdEnc.layout (e : CmdEnc) : List (Nat × Nat) :=
  [(e.param, 16), (e.status, 4), (e.force, 1), (e.act, 1), (e.ioc, 1), (e.typ, 4)]

/-- The fields of a layout that lie in word `i` of several, by their positions there. -/
def layoutIn (l : List (Nat × Nat)) (i : Nat) : List (Nat × Nat) :=
  l.filterMap fun f => if f.1 / 32 = i then some (f.1 % 32, f.2) else none

/-- The fields of the configuration words, by their positions in the two (30_encoding.md R105). -/
def CfgEnc.layout (e : CfgEnc) : List (Nat × Nat) :=
  [(e.action, 2), (e.burst, 4), (e.fifo, 5), (e.mps, 11), (e.type, 2), (e.epNumber, 5), (e.bintervalM1, 8),
    (e.xferNotReadyEn, 1), (e.xferCompleteEn, 1)]

/-- The layouts of the two configuration words (30_encoding.md R105). -/
def CfgEnc.layouts (e : CfgEnc) : List (List (Nat × Nat)) := (List.range 2).map (layoutIn e.layout)

/-- Every field of a configuration lies in one of its two words (30_encoding.md R105). -/
def CfgEnc.wordsOk (e : CfgEnc) : Bool := e.layout.all fun f => decide (f.1 < 64)

/-- The fields of a TRB, by their positions in it (30_encoding.md R110). -/
def TrbEnc.layout (e : TrbEnc) : List (Nat × Nat) :=
  [(e.sidSofn, 16), (e.ioc, 1), (e.ispImi, 1), (e.trbctl, 6), (e.csp, 1), (e.chn, 1), (e.lst, 1), (e.hwo, 1), (e.trbsts, 4),
    (e.pcm1, 2), (e.bufsiz, 24), (e.bph, 32), (e.bpl, 32)]

/-- The layouts of the four words of a TRB (30_encoding.md R110). -/
def TrbEnc.layouts (e : TrbEnc) : List (List (Nat × Nat)) := (List.range 4).map (layoutIn e.layout)

/-- Every field of a TRB lies in one of its four words, and the size word and the control word are two (30_encoding.md R110,
20_memory.md R81, R83). -/
def TrbEnc.wordsOk (e : TrbEnc) : Bool :=
  e.layout.all (fun f => decide (f.1 < 128)) && decide (e.bufsiz / 32 ≠ e.hwo / 32)

/-- The layouts of the registers that have fields (10_state.md R36): GCTL, GHWPARAMS0, GHWPARAMS3, the two PHY registers,
GEVNTSIZ, GEVNTCOUNT, DCFG, DCTL, DEVTEN and DSTS. -/
def RegPlaces.layouts (r : RegPlaces) : List (List (Nat × Nat)) :=
  [[(r.prtcapdir, 2)], [(r.mode, 3)], [(r.phyIfc, 6), (r.numEps, 6), (r.numInEps, 5)],
    [(r.usb2Susphy, 1), (r.enblslpm, 1)], [(r.usb3Susphy, 1)], [(r.evtSize, 16), (r.intMask, 1)], [(r.evntCount, 16)],
    [(r.devspd, 3), (r.devaddr, 7), (r.lpmcap, 1)], [(r.csftrst, 1), (r.runStop, 1)],
    [(r.disconnEvt, 1), (r.usbRstEvt, 1), (r.connectDoneEvt, 1), (r.ulStChngEvt, 1), (r.wkupEvt, 1),
      (r.hibernationReqEvt, 1)],
    [(r.connectspd, 3), (r.usblnkst, 4)]]

/-- No two members of a family have the same code. -/
def CmdEnc.codesOk (e : CmdEnc) : Bool :=
  decide (CmdTyp.all.map (CmdTyp.code e)).Nodup && decide [e.success, e.noResource, e.busExpiry].Nodup

@[inherit_doc CmdEnc.codesOk] def CfgEnc.codesOk (e : CfgEnc) : Bool :=
  decide [e.control, e.isochronous, e.bulk, e.interrupt].Nodup

@[inherit_doc CmdEnc.codesOk] def TrbEnc.codesOk (e : TrbEnc) : Bool := decide (TrbKind.all.map (TrbKind.code e)).Nodup

@[inherit_doc CmdEnc.codesOk] def EvtEnc.codesOk (e : EvtEnc) : Bool :=
  decide [e.disconnect, e.reset, e.connectDone, e.linkStateChange, e.wakeup, e.hibernationReq].Nodup &&
    decide [e.xferComplete, e.xferInProgress, e.xferNotReady, e.epCmdComplete].Nodup &&
    decide (e.controlData ≠ e.controlStatus)

/-- The fields of every word lie inside it and share no bit, and no two members of a family have the same code
(30_encoding.md R100 to R125, 10_state.md R36). -/
def Enc.ok (enc : Enc) : Bool :=
  layoutOk enc.cmd.layout && enc.cfg.layouts.all layoutOk && enc.cfg.wordsOk && enc.trb.layouts.all layoutOk && enc.trb.wordsOk &&
    layoutOk (epEventLayout enc.evt) &&
    layoutOk (devEventLayout enc.evt) && enc.reg.layouts.all layoutOk &&
    enc.cmd.codesOk && enc.cfg.codesOk && enc.trb.codesOk && enc.evt.codesOk

/-- The registers of the block (10_state.md R36). -/
def Machine.Reg.all : List Machine.Reg :=
  [.gctl, .gsnpsid, .ghwparams0, .ghwparams3, .gusb2phycfg, .gusb3pipectl, .gevntadrlo, .gevntadrhi, .gevntsiz, .gevntcount,
    .dcfg, .dctl, .devten, .dsts, .dalepena] ++
  (List.finRange 32).flatMap fun n => [.depcmdpar2 n, .depcmdpar1 n, .depcmdpar0 n, .depcmd n]

/-- Every register has an offset of its own, a multiple of 4 (10_state.md R36, 20_memory.md R75). -/
def RegOffsets.ok (off : RegOffsets) : Bool :=
  decide (Machine.Reg.all.map (Machine.Reg.offset off)).Nodup && Machine.Reg.all.all fun r => decide (r.offset off % 4 = 0)

/-! ### The launch -/

/-- A fixed DMA region: its local address and its length (20_memory.md R72). -/
abbrev Region := Nat × Nat

/-- The fixed DMA regions of a launch (20_memory.md R72): the EP0 TRB, the setup buffer, the event buffer, and the ring
of each endpoint from 2 to NUM_EPS − 1. -/
def Params.regions (p : Params) : List Region :=
  [(p.ep0TrbAddr.toNat, trbBytes), (p.setupBufAddr.toNat, setupLen), (p.evtBufAddr.toNat, evtBufSize)] ++
    ((List.finRange 32).filter fun n => decide (2 ≤ n.val) && decide (n.val < p.numEps)).map
      fun n => (p.ringAddr[n].toNat, trbBytes * ringSlots)

/-- Two regions share no cache line, and so no byte. -/
def apart (line : Nat) (a b : Region) : Bool :=
  decide ((a.1 + a.2 - 1) / line < b.1 / line) || decide ((b.1 + b.2 - 1) / line < a.1 / line)

/-- No two regions of a list share a cache line. -/
def allApart (line : Nat) : List Region → Bool
  | [] => true
  | r :: rs => rs.all (apart line r) && allApart line rs

/-- The layout and alignment of 20_memory.md R72 and R74; every region lies inside the local address space. -/
def Params.layoutOk (p : Params) : Bool :=
  decide (p.ep0TrbAddr.toNat % 16 = 0) &&
  ((List.finRange 32).all fun n => decide (n.val < 2) || decide (p.numEps ≤ n.val) || decide (p.ringAddr[n].toNat % 16 = 0)) &&
  decide (p.evtBufAddr.toNat % (max 16 p.cacheLine) = 0) &&
  decide (p.setupBufAddr.toNat % p.cacheLine = 0) &&
  p.regions.all (fun r => decide (r.1 + r.2 ≤ 2 ^ 32)) &&
  allApart p.cacheLine p.regions

/-- The bounds of 00_scope.md R7 and 92_eei_decisions.md D56, D62, D66, D67, and an encoding record that tells every member
of a family from the others. -/
def Params.boundsOk (p : Params) : Bool :=
  decide (2 ≤ p.numEps) && decide (p.numEps ≤ 32) && decide (1 ≤ p.ep0Mps) && decide (p.ep0Mps ≤ 2047) &&
  ((List.range 33).any fun k => decide (4 ≤ k) && decide (p.cacheLine = 2 ^ k)) && decide (p.numInEps < 32) &&
  p.enc.ok && p.enc.off.ok

end Sys2Proof
end

