-- ==== Sys2Proof/Machine/State.lean ====
section
/-! DEFINITION. The state of the machine: everything spec/10_state.md, spec/20_memory.md R79 and spec/00_scope.md R7 give
it, as plain data, and the fields of the model's own (INVENTORY.md, "State"). -/

namespace Sys2Proof.Machine

/-- EP0 control state (10_state.md R23). -/
inductive Ep0State where
  | unconnected | setup | data | status
  deriving DecidableEq, Repr, Inhabited

/-- Chapter-9 device state (10_state.md R24). -/
inductive DevState where
  | unattached | default | addressed | configured | suspended
  deriving DecidableEq, Repr, Inhabited

/-- Error codes (60_exceptions.md R371, R372); the three link errors are returned by no operation. -/
inductive Err where
  | coreId | mode | softResetTimeout | wrongDir | busy | invalidEp | noResource | busExpiry | unknownStatus | timeout
  | invalidLength | recvBusy | linkInvalid | linkTimeout | linkFailed | addrRange | addrConfigured
  deriving DecidableEq, Repr, Inhabited

/-- What an operation returns (60_exceptions.md R370): OK, OK with a resource index (R153), OK with an endpoint state word
(40_command_dispatcher.md R170), or an error. `none`: no operation has returned yet. -/
inductive Result where
  | none
  | ok
  | okIdx (rsc : BitVec 7)
  | okState (word : Word)
  | err (e : Err)
  deriving DecidableEq, Repr, Inhabited

/-- The diagnostics `Log` appends (00_scope.md R11). -/
inductive LogEntry where
  /-- 43_event_buffer.md R275 -/
  | spuriousIrq
  /-- 42_trb_ring.md R241 -/
  | spuriousComplete (n : EpIdx)
  /-- 44_ep0_control.md R324 -/
  | ep0ArmBlocked
  /-- 44_ep0_control.md R346 -/
  | ep0StatusAlreadyArmed
  /-- 43_event_buffer.md R287 -/
  | unknownEventClass (w : Word)
  /-- 43_event_buffer.md R284 -/
  | wakeup
  /-- 43_event_buffer.md R285 -/
  | hibernationReq
  /-- a device event of a reserved type, 43_event_buffer.md R286 -/
  | reservedDeviceEvent (code : BitVec 4)
  /-- an endpoint event that is logged and ignored, by its type code, 43_event_buffer.md R290 -/
  | ignoredEpEvent (n : EpIdx) (code : BitVec 4)
  /-- an EP0 event without a row, 44_ep0_control.md R330 -/
  | ignoredEp0Event (n : EpIdx) (state : Ep0State)
  /-- an error inside an event handler, 60_exceptions.md R373 -/
  | error (e : Err)
  deriving DecidableEq, Repr, Inhabited

/-- The six upward callbacks with their arguments (60_exceptions.md R392). -/
inductive Callback where
  | onReset | onConnect | onDisconnect | onSetupReceived
  | onDataIn (n : EpIdx)
  | onDataOut (n : EpIdx)
  deriving DecidableEq, Repr, Inhabited

/-- What L observes in order: the callbacks made to it, and the results of the calls it makes inside them. -/
inductive Observed where
  | callback (c : Callback)
  | returned (c : LCall) (r : Result)
  deriving DecidableEq, Repr, Inhabited

/-- The cached capability words (10_state.md R22). -/
structure Caps where
  numEps : BitVec 6
  numInEps : BitVec 5
  phyType : BitVec 6
  deriving DecidableEq, Repr, Inhabited

/-- The event buffer's record (10_state.md R33). -/
structure Evt where
  base : LAddr
  size : Nat
  lpos : Nat
  count : Nat
  deriving DecidableEq, Repr, Inhabited

/-- Whether INIT has run, and with which end (70_reset_and_hazards.md R411). -/
inductive InitPhase where
  | notRun | failed | done
  deriving DecidableEq, Repr, Inhabited

/-- The controller context (10_state.md R22). `none` is the spec's "none": reading such a field faults. -/
structure Ctx where
  regBase : LAddr
  setup : Option Setup
  evt : Evt
  caps : Option Caps
  linkState : Option (BitVec 4)
  devState : DevState
  ep0State : Ep0State
  threeStage : Option Bool
  ep0Dir : Option Dir
  ep0Started : Bool
  epsStarted : Bool
  speed : Option (BitVec 3)
  lpm : Bool
  cb : Callbacks
  log : List LogEntry
  init : InitPhase
  deriving DecidableEq, Repr, Inhabited

/-- An endpoint record (10_state.md R25). `rsc` is none exactly while it is not valid (R26). `out` is the spec's
model-only counter (42_trb_ring.md R220). -/
structure Ep where
  number : EpIdx
  dir : Dir
  mps : Option (BitVec 11)
  type : Option EpType
  enabled : Bool
  stalled : Bool
  wedge : Bool
  busy : Bool
  pending : Bool
  rsc : Option (BitVec 7)
  enq : Nat
  deq : Nat
  requested : Nat
  actual : Nat
  rounded : Bool
  buf : Option LAddr
  out : Nat
  deriving DecidableEq, Repr, Inhabited

/-- Memory as H reads and writes it (20_memory.md R70, R79): the bytes that hold a value, by global address, in rising
order of address. An address that is not listed holds no value (log 8). -/
abbrev Memory := List Host.Cell

/-- S's view of one cache line that is not absent (20_memory.md R79): its number (local address / CACHE_LINE), whether it
is dirty, and its bytes; a byte is none where memory held no value when the line was loaded. -/
structure Line where
  idx : Nat
  dirty : Bool
  bytes : List (Option Byte)
  deriving DecidableEq, Repr, Inhabited

/-- S's view of memory (20_memory.md R79, R82): the lines that are not absent; every byte that S's view has held before, in
the lines it dropped and under the bytes it wrote; the local addresses of the bytes that H has written since S last
invalidated their line; and those of the bytes that S has written since their line was last flushed
(93_implementation_defined.md 1.3). -/
structure Cache where
  lines : List Line
  past : List (LAddr × Byte)
  unseen : List LAddr
  unflushed : List LAddr
  deriving DecidableEq, Repr, Inhabited

/-- A TRB that S handed to H, and that neither route 2 nor route 3 of 10_state.md R30 has given back: the endpoint and the
TRB's global address. It is H's while its HWO bit is 1 in memory (log 11). `told` says that a START_TRANSFER or an
UPDATE_TRANSFER has followed the hand-over (20_memory.md R83; log 40). -/
structure Handed where
  ep : EpIdx
  trb : GAddr
  told : Bool
  deriving DecidableEq, Repr, Inhabited

/-- A turn some agent is asked to take (log 2). -/
inductive Turn where
  /-- L or the platform calls an operation: the instruction itself, since operations have no words. -/
  | call (i : Instr)
  /-- S issues a raw command to endpoint `n`, given by its words. -/
  | command (n : EpIdx) (w p0 p1 : Word)
  /-- H runs the TRB its transfer on `n` points to. -/
  | trb (n : EpIdx)
  /-- S takes the event word at its read cursor. -/
  | event
  /-- S takes the request cached in `ctx.setup`. -/
  | setup
  /-- The other agents act. -/
  | others
  deriving DecidableEq, Repr, Inhabited

/-- The machine's state. -/
structure State where
  params : Params
  ctx : Ctx
  ep : Vector Ep 32
  regs : Regs
  hw : Hw
  mem : Memory
  cache : Cache
  handed : List Handed
  env : Env
  agenda : List Turn
  ret : Result
  trace : List Observed
  deriving DecidableEq, Repr, Inhabited

/-- Why the machine stops: the fault reasons of 60_exceptions.md R380. Every one is safe: the model stops where the spec
gives no meaning, and nothing can be proved of what would follow. -/
inductive Fault where
  /-- raised by a read of a context field, or of a byte of memory, that holds no value (10_state.md R22, R29). Safe. -/
  | unwrittenState
  /-- raised by a read of `ep[n].rsc` while the endpoint is not busy (10_state.md R26). Safe. -/
  | rscInvalid
  /-- raised by S writing a TRB that H owns (10_state.md R30). Safe. -/
  | trbOwnedWrite
  /-- raised by START_TRANSFER on a busy endpoint (40_command_dispatcher.md R163). Safe. -/
  | doubleStart
  /-- raised by a command written while H executes one on the same endpoint (40_command_dispatcher.md R158). Safe. -/
  | cmdWhileActive
  /-- raised by a completion that finds more bytes remaining than requested (42_trb_ring.md R236). Safe. -/
  | remainingExceedsRequest
  /-- raised by IRQ on a count that is no multiple of 4 or exceeds the buffer (43_event_buffer.md R276). Safe. -/
  | eventCountInvalid
  /-- raised by H with an event to report and no room (43_event_buffer.md R302). Safe. -/
  | eventOverflow
  /-- raised by an endpoint event naming an endpoint the controller lacks (43_event_buffer.md R288). Safe. -/
  | eventBadEp
  deriving DecidableEq, Repr, Inhabited

/-- What the model does not admit: the refusal reasons of 60_exceptions.md R381, and words that have no meaning. Every
one is safe. -/
inductive Refusal where
  /-- raised by exec for an instruction without a meaning yet. Safe. -/
  | notModelled (mnemonic : String)
  /-- raised by Cmd on an endpoint the controller lacks (40_command_dispatcher.md R157). Safe. -/
  | cmdBadEp
  /-- raised by ENABLE with type ISOCHRONOUS (41_endpoint_lifecycle.md R190). Safe. -/
  | isoUnsupported
  /-- raised by ENABLE with a packet size of 0 or above 2047 (41_endpoint_lifecycle.md R190). Safe. -/
  | badMps
  /-- raised by SEND and RECV on a full ring (42_trb_ring.md R227). Safe. -/
  | ringFull
  /-- raised by INIT on a launch whose DMA regions are not laid out as required (20_memory.md R72, R74). Safe. -/
  | regionLayout
  /-- raised by every operation before INIT has returned OK (70_reset_and_hazards.md R411). Safe. -/
  | notInitialised
  /-- raised by a second INIT (70_reset_and_hazards.md R411). Safe. -/
  | reinit
  /-- raised by H given a reserved command code or TRB type (30_encoding.md R129), and by a turn whose words no row of the
  opcode table decodes. Safe. -/
  | undecodable (e : DecodeError)
  deriving DecidableEq, Repr, Inhabited

/-- The record of endpoint `n` at attach (10_state.md R25). -/
def Ep.attach (n : EpIdx) : Ep where
  number := n
  dir := if n.val % 2 = 1 then .inp else .out
  mps := none
  type := none
  enabled := false
  stalled := false
  wedge := false
  busy := false
  pending := false
  rsc := none
  enq := 0
  deq := 0
  requested := 0
  actual := 0
  rounded := false
  buf := none
  out := 0

/-- The context at attach (10_state.md R22, R33). -/
def Ctx.attach (p : Params) : Ctx where
  regBase := p.regBase
  setup := none
  evt := { base := p.evtBufAddr, size := evtBufSize, lpos := 0, count := 0 }
  caps := none
  linkState := none
  devState := .unattached
  ep0State := .unconnected
  threeStage := none
  ep0Dir := none
  ep0Started := false
  epsStarted := false
  speed := none
  lpm := false
  cb := p.cb
  log := []
  init := .notRun

/-- The registers at attach: 0 where 10_state.md R36 says "unspecified" (log 6, DESIGN CHOICE). The capability fields of
GHWPARAMS3 read as the launch says whatever is stored (92_eei_decisions.md D54). -/
def Regs.attach : Regs where
  gctl := 0
  gsnpsid := 0
  ghwparams0 := 0
  ghwparams3 := 0
  gusb2phycfg := 0
  gusb3pipectl := 0
  gevntadrlo := 0
  gevntadrhi := 0
  gevntsiz := 0
  gevntcount := 0
  dcfg := 0
  dctl := 0
  devten := 0
  dsts := 0
  dalepena := 0
  dep := Vector.replicate 32 { par2 := 0, par1 := 0, par0 := 0, cmd := 0 }

/-- The controller's hidden state at attach: a draw in the spec (70_reset_and_hazards.md R410), idle here (log 7, DESIGN
CHOICE). -/
def Hw.attach : Hw where
  ep := Vector.replicate 32 { xfer := .idle, cmd := .idle, conf := none, resources := 0, stalled := false, owed := none }
  wpos := 0
  rscUsed := []
  softReset := .idle
  ctl := .none
  ctlNum := 0

/-- No choice of the other agents is listed, and none is free (log 1, DESIGN CHOICE). -/
def Env.silent : Env where
  acts := []
  answers := []
  resets := []
  moved := []
  setups := []
  calls := []
  seen := []
  fresh := []
  isOpen := false
  ctr := 0

/-- The machine right after attach (70_reset_and_hazards.md R410), launched as L0. -/
def State.reset : State where
  params := launchL0
  ctx := Ctx.attach launchL0
  ep := Vector.ofFn Ep.attach
  regs := Regs.attach
  hw := Hw.attach
  mem := []
  cache := { lines := [], past := [], unseen := [], unflushed := [] }
  handed := []
  env := Env.silent
  agenda := []
  ret := .none
  trace := []

end Sys2Proof.Machine
end

