-- ==== Sys2Proof/Machine/Ops.lean ====
section
/-! DEFINITION. The shared operations over the state: how an operation runs and stops, the named updates, memory and the
cache (spec/20_memory.md R70 to R82), the choices of the other agents (spec/60_exceptions.md R383), TRB ownership
(spec/10_state.md R30), and the event interrupt (spec/43_event_buffer.md R296, spec/60_exceptions.md R385 to R388). -/

namespace Sys2Proof.Machine

/-! ### Running and stopping -/

/-- Why an operation stops: a fault or a refusal (60_exceptions.md R380, R381). -/
inductive Stop where
  | fault (r : Fault)
  | refuse (r : Refusal)
  deriving DecidableEq, Repr

/-- An operation of the machine: it reads and writes the state, answers a value, or stops. -/
abbrev M (α : Type) := StateT State (Except Stop) α

/-- `raise Fault(reason)` (00_scope.md R11). -/
def raise {α : Type} (r : Fault) : M α := fun _ => .error (.fault r)

/-- `Refuse(reason)` (00_scope.md R11). -/
def refuse {α : Type} (r : Refusal) : M α := fun _ => .error (.refuse r)

/-- The outcome of running an operation as a whole step. -/
def outcome {α : Type} (m : M α) (s : State) : Host.Outcome State Fault Refusal :=
  match m s with
  | .ok (_, t) => .next t
  | .error (.fault r) => .fault r
  | .error (.refuse r) => .refused r

/-! ### Named reads and updates -/

/-- Change the context. -/
def State.updCtx (s : State) (f : Ctx → Ctx) : State := { s with ctx := f s.ctx }

/-- Change the record of endpoint `n`. -/
def State.updEp (s : State) (n : EpIdx) (f : Ep → Ep) : State := { s with ep := s.ep.set n (f s.ep[n]) }

/-- Change what H holds for endpoint `n`. -/
def State.updHEp (s : State) (n : EpIdx) (f : HEp → HEp) : State :=
  { s with hw := { s.hw with ep := s.hw.ep.set n (f s.hw.ep[n]) } }

/-- Store a register word. -/
def State.putReg (s : State) (r : Reg) (v : Word) : State := { s with regs := s.regs.put v r }

/-- Change memory. -/
def State.setMem (s : State) (m : Memory) : State := { s with mem := m }

/-- Change the environment. -/
def State.setEnv (s : State) (e : Env) : State := { s with env := e }

/-- Change the set of TRBs handed to H. -/
def State.setHanded (s : State) (h : List Handed) : State := { s with handed := h }

/-- Record an operation's result (60_exceptions.md R370). -/
def State.setRet (s : State) (r : Result) : State := { s with ret := r }

/-- Record what L observes. -/
def State.observe (s : State) (o : Observed) : State := { s with trace := s.trace ++ [o] }

/-- The record of endpoint `n`. -/
def getEp (n : EpIdx) : M Ep := do
  let s ← get
  pure s.ep[n]

/-- Change the record of endpoint `n`. -/
def modifyEp (n : EpIdx) (f : Ep → Ep) : M Unit := modify fun s => s.updEp n f

/-- Change the context. -/
def modifyCtx (f : Ctx → Ctx) : M Unit := modify fun s => s.updCtx f

/-- Change what H holds for endpoint `n`. -/
def modifyHEp (n : EpIdx) (f : HEp → HEp) : M Unit := modify fun s => s.updHEp n f

/-- `Log(s)` (00_scope.md R11, 60_exceptions.md R401). -/
def logEntry (e : LogEntry) : M Unit := modifyCtx fun c => { c with log := c.log ++ [e] }

/-- Read a context or record field that may hold no value (10_state.md R22). -/
def written {α : Type} : Option α → M α
  | some v => pure v
  | none => raise .unwrittenState

/-- `ep[n].rsc`, valid only while busy (10_state.md R26). -/
def readRsc (n : EpIdx) : M (BitVec 7) := do
  let e ← getEp n
  match e.busy, e.rsc with
  | true, some r => pure r
  | _, _ => raise .rscInvalid

/-- Run an operation and record its result. -/
def returning (m : M Result) : M Unit := do
  let r ← m
  modify fun s => s.setRet r

/-- Do `f` for each endpoint of a list, in order. -/
def forEps (f : EpIdx → M Unit) : List EpIdx → M Unit
  | [] => pure ()
  | n :: ns => do
    f n
    forEps f ns

/-- The physical endpoints the controller has, in rising order. -/
def epList (p : Params) : List EpIdx := (List.finRange 32).filter fun n => decide (n.val < p.numEps)

/-- The physical endpoint of an index, if the controller has it (10_state.md R25). -/
def epOf (p : Params) (n : Nat) : Option EpIdx :=
  if h : n < 32 then if n < p.numEps then some ⟨n, h⟩ else none else none

/-- Any operation before INIT has returned OK is refused (70_reset_and_hazards.md R411). -/
def requireInit : M Unit := do
  let s ← get
  if s.ctx.init = .done then pure () else refuse .notInitialised

/-! ### Memory as H sees it -/

/-- The byte at a global address; none where nothing has written. -/
def Memory.read1 (m : Memory) (a : Nat) : Option Byte :=
  match m with
  | [] => none
  | (k, v) :: t => if k = a then some v else Memory.read1 t a

/-- Write one byte, keeping the addresses rising. -/
def Memory.write1 (m : Memory) (a : Nat) (b : Byte) : Memory :=
  match m with
  | [] => [(a, b)]
  | (k, v) :: t =>
    if a < k then (a, b) :: (k, v) :: t
    else if a = k then (a, b) :: t
    else (k, v) :: Memory.write1 t a b

/-- Make an address hold no value. -/
def Memory.erase1 (m : Memory) (a : Nat) : Memory :=
  match m with
  | [] => []
  | (k, v) :: t => if k = a then t else (k, v) :: Memory.erase1 t a

/-- Write a byte, or make the address hold no value. -/
def Memory.put (m : Memory) (a : Nat) : Option Byte → Memory
  | some b => m.write1 a b
  | none => m.erase1 a

/-- The canonical form: addresses strictly rising. -/
def Memory.wf : Memory → Bool
  | [] => true
  | [_] => true
  | (a, _) :: (b, w) :: t => decide (a < b) && Memory.wf ((b, w) :: t)

/-- Write bytes from a global address upward. Global addresses have 64 bits and wrap. -/
def Memory.writeBytes (m : Memory) (g : GAddr) : List Byte → Memory
  | [] => m
  | b :: bs => Memory.writeBytes (m.write1 g.toNat b) (g + 1) bs

/-- The little-endian word at a global address, if its four bytes hold values (20_memory.md R73). -/
def Memory.readWord (m : Memory) (g : GAddr) : Option Word :=
  match m.read1 g.toNat, m.read1 (g + 1).toNat, m.read1 (g + 2).toNat, m.read1 (g + 3).toNat with
  | some b0, some b1, some b2, some b3 => some (wordOfBytes b0 b1 b2 b3)
  | _, _, _, _ => none

/-- The four words of a TRB in memory, if they hold values (30_encoding.md R110). -/
def Memory.readTrb (m : Memory) (g : GAddr) : Option TrbWords :=
  match m.readWord g, m.readWord (g + 4), m.readWord (g + 8), m.readWord (g + 12) with
  | some w0, some w1, some w2, some w3 => some { w0, w1, w2, w3 }
  | _, _, _, _ => none

/-- Write a little-endian word (20_memory.md R73). -/
def Memory.writeWord (m : Memory) (g : GAddr) (w : Word) : Memory := m.writeBytes g (bytesOfWord w)

/-- The local addresses that the translator takes to a global address: at most one for each segment, and one below the
offset (00_scope.md R7). -/
def localsOf (p : Params) (g : GAddr) : List LAddr :=
  ((p.segments.map fun x => x.base + (g - x.target).setWidth 32) ++ [(g - p.offset).setWidth 32]).filter fun a =>
    decide (p.global a = g)

/-- The local addresses of `k` global addresses from `g` upward. -/
def localsFrom (p : Params) (g : GAddr) : Nat → List LAddr
  | 0 => []
  | k + 1 => localsOf p g ++ localsFrom p (g + 1) k

/-- H stores bytes: they are in memory, and S has not seen them until it invalidates their lines (20_memory.md R82). -/
def State.hStore (s : State) (g : GAddr) (bs : List Byte) : State :=
  { s with
    mem := s.mem.writeBytes g bs
    cache := { s.cache with
      unseen := s.cache.unseen ++ (localsFrom s.params g bs.length).filter fun a => !s.cache.unseen.contains a } }

/-- H writes bytes. -/
def hWriteBytes (g : GAddr) (bs : List Byte) : M Unit := modify fun s => s.hStore g bs

/-- H writes a word (20_memory.md R78). -/
def hWriteWord (g : GAddr) (w : Word) : M Unit := hWriteBytes g (bytesOfWord w)

/-! ### The data cache (20_memory.md R79) -/

/-- The number of the line that holds a local address. -/
def lineOf (p : Params) (a : LAddr) : Nat := a.toNat / p.cacheLine

/-- The first local address of a line. -/
def lineBase (p : Params) (idx : Nat) : LAddr := BitVec.ofNat 32 (idx * p.cacheLine)

/-- Line `idx` overlaps [a, a+n). Local addresses have 32 bits and wrap (log 21). -/
def overlaps (p : Params) (idx : Nat) (a : LAddr) (n : Nat) : Bool :=
  decide (0 < n) &&
    (decide ((lineBase p idx - a).toNat < n) || decide ((a - lineBase p idx).toNat < p.cacheLine))

/-- Put a line among the others, in rising order of number, in place of one of the same number. -/
def insertLine (l : Line) : List Line → List Line
  | [] => [l]
  | k :: ks => if l.idx < k.idx then l :: k :: ks else if l.idx = k.idx then l :: ks else k :: insertLine l ks

/-- A line as memory holds it, clean. -/
def State.loadLine (s : State) (idx : Nat) : Line where
  idx := idx
  dirty := false
  bytes := (List.range s.params.cacheLine).map fun i =>
    s.mem.read1 (s.params.global (lineBase s.params idx + BitVec.ofNat 32 i)).toNat

/-- The line of S's view, if it is not absent. -/
def State.line? (s : State) (idx : Nat) : Option Line := s.cache.lines.find? fun l => decide (l.idx = idx)

/-- If the line is absent, load it. -/
def State.withLine (s : State) (idx : Nat) : State :=
  match s.line? idx with
  | some _ => s
  | none => { s with cache := { s.cache with lines := insertLine (s.loadLine idx) s.cache.lines } }

/-- The byte S's view gives at a local address: the cached one, or memory's where the line is absent. -/
def State.viewByte (s : State) (a : LAddr) : Option Byte :=
  match s.line? (lineOf s.params a) with
  | some l => (l.bytes[a.toNat % s.params.cacheLine]?).join
  | none => s.mem.read1 (s.params.global a).toNat

/-- Write one byte into S's view: the line is loaded if absent, and becomes dirty, the byte standing in no flush yet. -/
def State.cacheWrite1 (s : State) (a : LAddr) (b : Byte) : State :=
  let t := s.withLine (lineOf s.params a)
  { t with cache := { t.cache with
      lines := t.cache.lines.map fun l =>
        if l.idx = lineOf s.params a then
          { l with dirty := true, bytes := l.bytes.set (a.toNat % s.params.cacheLine) (some b) }
        else l
      past := t.cache.past ++ ((t.viewByte a).map fun old => (a, old)).toList
      unflushed := t.cache.unflushed ++ [a].filter fun b => !t.cache.unflushed.contains b } }

/-- Write bytes into S's view from a local address upward. -/
def State.cacheWrite (s : State) (a : LAddr) : List Byte → State
  | [] => s
  | b :: bs => State.cacheWrite (s.cacheWrite1 a b) (a + 1) bs

/-- Memory after the bytes from a local address upward are written back. A byte that holds no value leaves none behind
(log 8). -/
def writeBack (p : Params) (m : Memory) (a : LAddr) : List (Option Byte) → Memory
  | [] => m
  | b :: bs => writeBack p (m.put (p.global a).toNat b) (a + 1) bs

/-- Memory after a line is written back whole, if it is dirty. -/
def Memory.afterLine (p : Params) (m : Memory) (l : Line) : Memory :=
  if l.dirty then writeBack p m (lineBase p l.idx) l.bytes else m

/-- `CacheFlush(a, n)`: every dirty line that overlaps [a, a+n) is written whole to memory and becomes clean. -/
def State.flush (s : State) (a : LAddr) (n : Nat) : State :=
  { s with
    mem := (s.cache.lines.filter fun l => overlaps s.params l.idx a n).foldl (Memory.afterLine s.params) s.mem
    cache := { s.cache with
      lines := s.cache.lines.map fun l => if overlaps s.params l.idx a n then { l with dirty := false } else l
      unflushed := s.cache.unflushed.filter fun b => !overlaps s.params (lineOf s.params b) a n } }

/-- The bytes of a line that hold a value, with their local addresses. -/
def Line.cells (p : Params) (l : Line) : List (LAddr × Byte) :=
  (List.range p.cacheLine).filterMap fun i => (l.bytes[i]?).join.map fun b => (lineBase p l.idx + BitVec.ofNat 32 i, b)

/-- `CacheInvalidate(a, n)`: every line that overlaps [a, a+n) becomes absent; dirty bytes in it are lost. -/
def State.invalidate (s : State) (a : LAddr) (n : Nat) : State :=
  { s with cache := {
      lines := s.cache.lines.filter fun l => !overlaps s.params l.idx a n
      past := s.cache.past ++ (s.cache.lines.filter fun l => overlaps s.params l.idx a n).flatMap (Line.cells s.params)
      unseen := s.cache.unseen.filter fun b => !overlaps s.params (lineOf s.params b) a n
      unflushed := s.cache.unflushed.filter fun b => !overlaps s.params (lineOf s.params b) a n } }

/-- Eviction of a line: written whole to memory if dirty, and absent. -/
def State.evict (s : State) (idx : Nat) : State :=
  { s with
    mem := (s.cache.lines.filter fun l => decide (l.idx = idx)).foldl (Memory.afterLine s.params) s.mem
    cache := { s.cache with
      lines := s.cache.lines.filter fun l => decide (l.idx ≠ idx)
      past := s.cache.past ++ (s.cache.lines.filter fun l => decide (l.idx = idx)).flatMap (Line.cells s.params)
      unflushed := s.cache.unflushed.filter fun b => decide (lineOf s.params b ≠ idx) } }

/-! ### What S sees of a byte that H wrote (20_memory.md R82) -/

/-- S may see this value at a local address: the one in memory, or one that S's view has held there. -/
def State.admissible (s : State) (a : LAddr) (b : Byte) : Bool :=
  decide (s.mem.read1 (s.params.global a).toNat = some b) || s.cache.past.contains (a, b)

/-- The byte that a read of S returns at a local address: what S's view gives; and where H has written the byte since S last
invalidated its line, the value picked for it, if it is one S may see. -/
def State.seenByte (s : State) (picks : List (LAddr × Byte)) (a : LAddr) : Option Byte :=
  if s.cache.unseen.contains a then
    match picks.find? fun x => decide (x.1 = a ∧ s.admissible a x.2 = true) with
    | some x => some x.2
    | none => s.viewByte a
  else s.viewByte a

/-- H has written one of `n` bytes at a local address since S last invalidated its line. -/
def State.stale (s : State) (a : LAddr) (n : Nat) : Bool :=
  (List.range n).any fun i => s.cache.unseen.contains (a + BitVec.ofNat 32 i)

/-! ### What H sees of a byte that S wrote (93_implementation_defined.md 1.3) -/

/-- S has written one of `n` bytes at a global address since its line was last flushed. -/
def State.unflushedAt (s : State) (g : GAddr) (n : Nat) : Bool :=
  (localsFrom s.params g n).any fun a => s.cache.unflushed.contains a

/-- The byte that a read of H returns at a global address: the one in memory; and where S has written the byte since its line
was last flushed and the address is picked, the one S wrote. -/
def State.hByte (s : State) (picks : List GAddr) (g : GAddr) : Option Byte :=
  if picks.contains g then
    match (localsOf s.params g).find? fun a => s.cache.unflushed.contains a with
    | some a => s.viewByte a
    | none => s.mem.read1 g.toNat
  else s.mem.read1 g.toNat

/-- The word that a read of H returns (20_memory.md R78). -/
def State.hWord (s : State) (picks : List GAddr) (g : GAddr) : Option Word :=
  match s.hByte picks g, s.hByte picks (g + 1), s.hByte picks (g + 2), s.hByte picks (g + 3) with
  | some b0, some b1, some b2, some b3 => some (wordOfBytes b0 b1 b2 b3)
  | _, _, _, _ => none

/-- The four words of a TRB that H's reads of it return, if they hold values (30_encoding.md R110). -/
def State.hWords (s : State) (picks : List GAddr) (g : GAddr) : Option TrbWords :=
  match s.hWord picks g, s.hWord picks (g + 4), s.hWord picks (g + 8), s.hWord picks (g + 12) with
  | some w0, some w1, some w2, some w3 => some { w0, w1, w2, w3 }
  | _, _, _, _ => none

/-- The TRB that H's reads of it return. A TRB seen with HWO = 1 is whole, as memory has it or as S wrote it: H never sees
HWO = 1 beside stale pointer or size words (20_memory.md R81; log 37). -/
def State.hTrb (s : State) (picks : List GAddr) (g : GAddr) : Option TrbWords :=
  match s.hWords picks g with
  | none => none
  | some t =>
    if t.flag s.params.enc.trb.hwo
      && decide (s.hWords ((List.range trbBytes).map fun i => g + BitVec.ofNat 64 i) g ≠ some t) then s.hWords [] g
    else some t

/-! ### The choices of the other agents (log 1) -/

/-- What the other agents do before the next access of S. -/
def drawActs : M (List Act) := do
  let s ← get
  match s.env.acts with
  | a :: rest => do
    set (s.setEnv { s.env with acts := rest })
    pure a
  | [] =>
    if s.env.isOpen then do
      set (s.setEnv { s.env with ctr := s.env.ctr + 1 })
      pure (Config.freeActs s.env.ctr)
    else pure []

/-- H's answer to the command just started (40_command_dispatcher.md R181). -/
def drawAnswer : M (Option Answer) := do
  let s ← get
  match s.env.answers with
  | a :: rest => do
    set (s.setEnv { s.env with answers := rest })
    pure (some a)
  | [] =>
    if s.env.isOpen then do
      set (s.setEnv { s.env with ctr := s.env.ctr + 1 })
      pure (Config.freeAnswer s.env.ctr)
    else pure none

/-- How the soft reset just started ends (70_reset_and_hazards.md R413). -/
def drawReset : M (Option ResetImage) := do
  let s ← get
  match s.env.resets with
  | a :: rest => do
    set (s.setEnv { s.env with resets := rest })
    pure (some a)
  | [] =>
    if s.env.isOpen then do
      set (s.setEnv { s.env with ctr := s.env.ctr + 1 })
      pure (Config.freeReset s.env.ctr)
    else pure none

/-- What the host moves through the TRB H has reached (42_trb_ring.md R250). -/
def drawMoved : M (Option Moved) := do
  let s ← get
  match s.env.moved with
  | a :: rest => do
    set (s.setEnv { s.env with moved := rest })
    pure (some a)
  | [] =>
    if s.env.isOpen then do
      set (s.setEnv { s.env with ctr := s.env.ctr + 1 })
      pure (Config.freeMoved s.env.ctr)
    else pure none

/-- The SETUP packet the host sends (44_ep0_control.md R355). -/
def drawSetup : M (Option Arrival) := do
  let s ← get
  match s.env.setups with
  | a :: rest => do
    set (s.setEnv { s.env with setups := rest })
    pure (some a)
  | [] =>
    if s.env.isOpen then do
      set (s.setEnv { s.env with ctr := s.env.ctr + 1 })
      pure (Config.freeSetup s.env.ctr)
    else pure none

/-- The calls L makes inside a callback (60_exceptions.md R390). -/
def drawCalls : M (List LCall) := do
  let s ← get
  match s.env.calls with
  | a :: rest => do
    set (s.setEnv { s.env with calls := rest })
    pure a
  | [] =>
    if s.env.isOpen then do
      set (s.setEnv { s.env with ctr := s.env.ctr + 1 })
      pure (Config.freeCalls s.env.ctr)
    else pure []

/-- What S sees at a read of `n` bytes at a local address, some of which H has written since S last invalidated them
(20_memory.md R82). -/
def drawSeen (a : LAddr) (n : Nat) : M (List (LAddr × Byte)) := do
  let s ← get
  if s.stale a n then
    match s.env.seen with
    | x :: rest => do
      set (s.setEnv { s.env with seen := rest })
      pure x
    | [] =>
      if s.env.isOpen then do
        set (s.setEnv { s.env with ctr := s.env.ctr + 1 })
        pure (Config.freeSeen s.env.ctr)
      else pure []
  else pure []

/-- What H sees at a read of `n` bytes at a global address, some of which S has written since their line was last flushed
(93_implementation_defined.md 1.3). -/
def drawFresh (g : GAddr) (n : Nat) : M (List GAddr) := do
  let s ← get
  if s.unflushedAt g n then
    match s.env.fresh with
    | x :: rest => do
      set (s.setEnv { s.env with fresh := rest })
      pure x
    | [] =>
      if s.env.isOpen then do
        set (s.setEnv { s.env with ctr := s.env.ctr + 1 })
        pure (Config.freeFresh s.env.ctr)
      else pure []
  else pure []

/-- H reads a word (20_memory.md R78). -/
def hReadWord (g : GAddr) : M Word := do
  let picks ← drawFresh g 4
  let s ← get
  written (s.hWord picks g)

/-- H reads a TRB; none where it holds no value (20_memory.md R85). -/
def hReadTrb (g : GAddr) : M (Option TrbWords) := do
  let picks ← drawFresh g trbBytes
  let s ← get
  pure (s.hTrb picks g)

/-- The number of the next free value (log 1). -/
def nextFree : M Nat := do
  let s ← get
  set (s.setEnv { s.env with ctr := s.env.ctr + 1 })
  pure s.env.ctr

/-! ### TRB ownership (10_state.md R30) -/

/-- The HWO bit of the TRB at a global address is 1 in the memory H reads (R30). -/
def State.hwoInMemory (s : State) (g : GAddr) : Bool :=
  match s.mem.readWord (g + BitVec.ofNat 64 s.params.enc.trb.controlAt) with
  | some w => bit w (s.params.enc.trb.hwo % 32)
  | none => false

/-- H owns the TRB at a global address: S has handed it over, neither route 2 nor route 3 of R30 has given it back, and its
HWO bit is 1 in memory. H's write-back, route 1, clears that bit, whenever it comes; a line of S's that is written back with
an older copy of the control word sets it again, and the TRB is H's again (log 11). -/
def State.ownsTrb (s : State) (g : GAddr) : Bool := (s.handed.any fun h => decide (h.trb = g)) && s.hwoInMemory g

/-- The TRBs handed over once the one at a global address is, on endpoint `n`. -/
def handedWith (h : List Handed) (n : EpIdx) (g : GAddr) : List Handed :=
  { ep := n, trb := g, told := false } :: h.filter fun x => decide (x.trb ≠ g)

/-- S hands the TRB at a global address to H, on endpoint `n`: it is H's while memory has HWO = 1 there, and H has not been
told of it. -/
def handOver (n : EpIdx) (g : GAddr) : M Unit := modify fun s => s.setHanded (handedWith s.handed n g)

/-- The TRB at a global address is S's again: route 3 of R30. -/
def takeBack (g : GAddr) : M Unit :=
  modify fun s => s.setHanded (s.handed.filter fun h => decide (h.trb ≠ g))

/-- Every TRB of endpoint `n` is S's again: route 2 of R30 (40_command_dispatcher.md R167). -/
def takeBackAll (n : EpIdx) : M Unit :=
  modify fun s => s.setHanded (s.handed.filter fun h => decide (h.ep ≠ n))

/-- The TRBs handed over once S has issued a command to endpoint `n`: a START_TRANSFER or an UPDATE_TRANSFER tells H of those
of the endpoint (20_memory.md R83, duty 4; log 40). -/
def toldOf (h : List Handed) (n : EpIdx) : Command → List Handed
  | .startTransfer _ => h.map fun x => if x.ep = n then { x with told := true } else x
  | .updateTransfer _ => h.map fun x => if x.ep = n then { x with told := true } else x
  | _ => h

/-- S has handed over the TRB at a global address, and no START_TRANSFER or UPDATE_TRANSFER has followed. -/
def State.untold (s : State) (g : GAddr) : Bool := s.handed.any fun h => decide (h.trb = g) && !h.told

/-- A write by S to a TRB H owns faults (R30). -/
def requireOwned (g : GAddr) : M Unit := do
  let s ← get
  if s.ownsTrb g then raise .trbOwnedWrite else pure ()

/-! ### The event interrupt

The block raises no CPU exception; its one interrupt is the event buffer's (60_exceptions.md R385). Nothing is saved and
there is no vector (R387): entry is a call of IRQ, and these are the predicate of the line and the words S writes to mask
and to unmask it. -/

/-- The pending-byte count of a GEVNTCOUNT word (10_state.md R36). -/
def evntCount (r : RegPlaces) (w : Word) : BitVec 16 := field w r.evntCount 16

/-- The pending-byte count (10_state.md R36). -/
def State.pendingBytes (s : State) : BitVec 16 := evntCount s.params.enc.reg s.regs.gevntcount

/-- GEVNTCOUNT with another count and every other bit kept (43_event_buffer.md R300, R301). -/
def State.withPending (s : State) (c : BitVec 16) : State :=
  s.putReg .gevntcount (putField s.regs.gevntcount s.params.enc.reg.evntCount c)

/-- The line is asserted: a pending byte, and INTMASK = 0 (43_event_buffer.md R296, 10_state.md R21). -/
def State.irqAsserted (s : State) : Bool :=
  decide (s.pendingBytes ≠ 0) && !bit s.regs.gevntsiz s.params.enc.reg.intMask

/-- GEVNTSIZ with INTMASK set or cleared and every other bit kept (43_event_buffer.md R277). -/
def withIntMask (r : RegPlaces) (w : Word) (masked : Bool) : Word := putField w r.intMask (BitVec.ofBool masked)

end Sys2Proof.Machine
end

