-- ==== Sys2Proof/Machine/Flags.lean ====
section
/-! DEFINITION. Status and flag fields: the command word's (spec/30_encoding.md R100, R102), the event status (R125), and
the register fields S reads or writes (spec/10_state.md R36). -/

namespace Sys2Proof.Machine

/-- `CMDACT` of a DEPCMD word (30_encoding.md R100). -/
def cmdact (e : CmdEnc) (w : Word) : Bool := bit w e.act

/-- `CMDSTATUS` of a DEPCMD word (30_encoding.md R100). -/
def cmdstatus (e : CmdEnc) (w : Word) : BitVec 4 := field w e.status 4

/-- The error of a completion status other than success (30_encoding.md R102). -/
def statusError (e : CmdEnc) (v : BitVec 4) : Err :=
  if v = e.noResource then .noResource else if v = e.busExpiry then .busExpiry else .unknownStatus

/-- `decode_status(c, v)` (40_command_dispatcher.md R153, 30_encoding.md R102). -/
def decodeStatus (e : CmdEnc) (t : CmdTyp) (v : Word) : Result :=
  if cmdstatus e v = e.success then
    if t = .startTransfer then .okIdx (field v e.param 7) else .ok
  else .err (statusError e (cmdstatus e v))

/-- The result is OK or OK(idx). -/
def Result.isOk : Result → Bool
  | .ok => true
  | .okIdx _ => true
  | .okState _ => true
  | .err _ => false
  | .none => false

/-- A status with which H reports that it did not perform a command (40_command_dispatcher.md R155). -/
def Result.isHwError : Result → Bool
  | .err .noResource => true
  | .err .busExpiry => true
  | .err .unknownStatus => true
  | _ => false

/-- `EP_STATUS[1:0]` of an XFER_NOT_READY event (30_encoding.md R125). -/
inductive Stage where
  | controlData | controlStatus | neither
  deriving DecidableEq, Repr

@[inherit_doc Stage] def stageOf (e : EvtEnc) (status : BitVec 4) : Stage :=
  if status.extractLsb' 0 2 = e.controlData then .controlData
  else if status.extractLsb' 0 2 = e.controlStatus then .controlStatus
  else .neither

/-- The position in DEVTEN of the bit that enables a device event (10_state.md R36); none for an endpoint event. -/
def devtenBit (r : RegPlaces) : Event → Option Nat
  | .disconnect _ => some r.disconnEvt
  | .reset _ => some r.usbRstEvt
  | .connectDone _ => some r.connectDoneEvt
  | .linkStateChange _ => some r.ulStChngEvt
  | .wakeup _ => some r.wkupEvt
  | .hibernationReq _ => some r.hibernationReqEvt
  | _ => none

/-- `DEVTEN_ALL`, the six device events (70_reset_and_hazards.md R412). -/
def devtenAll (r : RegPlaces) : Word :=
  layoutMask [(r.disconnEvt, 1), (r.usbRstEvt, 1), (r.connectDoneEvt, 1), (r.ulStChngEvt, 1), (r.wkupEvt, 1),
    (r.hibernationReqEvt, 1)]

/-- The capability word GHWPARAMS3 of a controller: the fields NUM_EPS, NUM_IN_EPS and PHY_IFC are the launch's, and every
other bit is as stored (10_state.md R36, 92_eei_decisions.md D54). -/
def capsWord (p : Params) (w : Word) : Word :=
  putField (putField (putField w p.enc.reg.phyIfc p.phyType) p.enc.reg.numEps (BitVec.ofNat 6 p.numEps))
    p.enc.reg.numInEps (BitVec.ofNat 5 p.numInEps)

/-- What a register reads as (20_memory.md R77). -/
def State.regValue (s : State) (r : Reg) : Word :=
  if r = .ghwparams3 then capsWord s.params s.regs.ghwparams3 else s.regs.get r

end Sys2Proof.Machine
end

