-- ==== Sys2Proof/Machine/Operands.lean ====
section
/-! DEFINITION. The operand forms: endpoint indices, rounding, the configuration and the TRBs S writes
(spec/00_scope.md R9, R13; spec/30_encoding.md R104, R105, R110 to R114). -/

namespace Sys2Proof.Machine

/-- OUT = 0, IN = 1 (00_scope.md R13). -/
def dirBit : Dir → Nat
  | .out => 0
  | .inp => 1

/-- The direction of a physical endpoint, `n[0]` (00_scope.md R13). -/
def dirOf (n : EpIdx) : Dir := if n.val % 2 = 1 then .inp else .out

/-- The EP0 endpoint of a direction. -/
def ep0Of : Dir → EpIdx
  | .out => 0
  | .inp => 1

/-- `n = num × 2 + dir`, none where num > MAX_LOGICAL or the controller has no such endpoint (00_scope.md R13,
41_endpoint_lifecycle.md R190). -/
def logicalEp (p : Params) (num : Nat) (dir : Dir) : Option EpIdx :=
  if maxLogical < num then none else epOf p (num * 2 + dirBit dir)

/-- `roundup(L, m)`, the least multiple of m that is ≥ L, for m ≥ 1 (00_scope.md R9). There is none for m = 0 and L > 0. -/
def roundup (len m : Nat) : Nat := (len + m - 1) / m * m

/-- The START_CONFIG resource base of a group (30_encoding.md R104). -/
def startBase : EpGroup → BitVec 16
  | .ep0Pair => 0
  | .others => 2

/-- The group ENABLE of endpoint `n` belongs to (41_endpoint_lifecycle.md R191). -/
def groupOf (n : EpIdx) : EpGroup := if n.val ≤ 1 then .ep0Pair else .others

/-- The configuration ENABLE gives endpoint `n` (30_encoding.md R105). -/
def confFor (n : EpIdx) (type : EpType) (mps interval : Nat) : EpConf where
  type := type
  mps := BitVec.ofNat 11 mps
  fifo := fifoOf n
  xferCompleteEn := true
  xferNotReadyEn := true
  bintervalM1 := BitVec.ofNat 8 (if 1 ≤ interval then interval - 1 else 0)
  epNumber := BitVec.ofNat 5 n.val

/-- A TRB S hands over: HWO, LST and IOC are 1 and the rest of the control word is 0 (30_encoding.md R112). -/
def handedTrb (buf : GAddr) (size : Nat) : TrbFields where
  buf := buf
  bufsiz := BitVec.ofNat 24 size
  pcm1 := 0
  trbsts := 0
  hwo := true
  lst := true
  chn := false
  csp := false
  ispImi := false
  ioc := true
  sidSofn := 0

/-- The link TRB that points back to `target` (30_encoding.md R112, R114). -/
def linkTrb (target : GAddr) : TrbFields where
  buf := target
  bufsiz := 0
  pcm1 := 0
  trbsts := 0
  hwo := true
  lst := false
  chn := false
  csp := false
  ispImi := false
  ioc := false
  sidSofn := 0

/-- The local address of slot `i` of endpoint `n`'s ring (10_state.md R28). -/
def slotAddr (p : Params) (n : EpIdx) (i : Nat) : LAddr := p.ringAddr[n] + BitVec.ofNat 32 (trbBytes * i)

end Sys2Proof.Machine
end

