-- ==== Sys2Proof/Machine/Controller.lean ====
section
/-! DEFINITION. The controller's contract: events (spec/43_event_buffer.md R300 to R303), TRBs (spec/42_trb_ring.md R250,
R251; spec/44_ep0_control.md R355, R357), commands (spec/40_command_dispatcher.md R180 to R183), the soft reset
(spec/70_reset_and_hazards.md R413), and the turn the other agents take before each access of S (spec/00_scope.md R12). -/

namespace Sys2Proof.Machine

/-! ### Events -/

/-- H reports an event: the word, then the count, then the write offset (43_event_buffer.md R300). No room is a fault
(R302). -/
def hAppendEvent (w : Word) : M Unit := do
  let s ← get
  if evtBufSize < s.pendingBytes.toNat + 4 then raise .eventOverflow
  else do
    hWriteWord (s.params.global s.params.evtBufAddr + BitVec.ofNat 64 s.hw.wpos) w
    modify fun s => s.withPending (s.pendingBytes + 4)
    modify fun s => { s with hw := { s.hw with wpos := (s.hw.wpos + 4) % evtBufSize } }

/-- H's configuration of endpoint `n` enables its completion event (30_encoding.md R105, 60_exceptions.md R385). -/
def State.reportsComplete (s : State) (n : EpIdx) : Bool :=
  match s.hw.ep[n].conf with
  | some c => c.xferCompleteEn
  | none => false

/-- H's configuration of endpoint `n` enables its XFER_NOT_READY event (30_encoding.md R105, 60_exceptions.md R385). -/
def State.reportsNotReady (s : State) (n : EpIdx) : Bool :=
  match s.hw.ep[n].conf with
  | some c => c.xferNotReadyEn
  | none => false

/-- The two orders of 44_ep0_control.md R356: no XFER_NOT_READY of a control transfer before the XFER_COMPLETE of its SETUP
stage, and none of the status stage of a 3-stage transfer before that of the data stage. -/
def CtlStage.admits : CtlStage → Stage → Bool
  | .none, _ => false
  | _, .controlData => true
  | .setupDone threeStage, .controlStatus => !threeStage
  | .dataDone, .controlStatus => true
  | _, .neither => false

/-- How far control transfer number `num` has come once the report of a TRB of endpoint `n` is appended (44_ep0_control.md
R356). A report that belongs to an earlier transfer, its TRB's data having ended before the latest SETUP packet, says nothing
of this one. A CONTROL_DATA TRB is the data stage on either endpoint of the pair, whichever way the packet asked, and on no
other endpoint (log 17, DESIGN CHOICE). -/
def CtlStage.afterReport (c : CtlStage) (num : Nat) (n : EpIdx) (r : Report) : CtlStage :=
  if r.transfer ≠ num then c
  else
    match r.kind, c with
    | .controlSetup, _ => .setupDone r.threeStage
    | .controlData, .setupDone _ => if n.val < 2 then .dataDone else c
    | _, c => c

/-- No TRB is armed on the endpoint: its transfer is idle, or has run into a TRB it may not process (44_ep0_control.md
R356). -/
def Xfer.unarmed : Xfer → Bool
  | .idle => true
  | .active r => r.waiting

/-- The events H may append on its own account (43_event_buffer.md R303, 44_ep0_control.md R356, 60_exceptions.md R385): a
device event that DEVTEN enables; XFER_NOT_READY that the endpoint's configuration enables, on the control pair in the orders
of R356; of an endpoint it has, no XFER_COMPLETE, which only a completed TRB makes, and no event that no configuration of S
enables; any other word (log 18). R356 does not say whether H appends it while endpoint 0 is stalled, when it answers the
tokens of the pair with STALL (R357): the model lets it, and asks for no stall here (DESIGN CHOICE, log 18). -/
def State.mayReport (s : State) (w : Word) : Bool :=
  match decodeEvent s.params.enc w with
  | .ok (.xferComplete n _ _) => decide (s.params.numEps ≤ n.val)
  | .ok (.xferInProgress n _ _) => decide (s.params.numEps ≤ n.val)
  | .ok (.epCmdComplete n _ _) => decide (s.params.numEps ≤ n.val)
  | .ok (.xferNotReady n st _) =>
    decide (s.params.numEps ≤ n.val) ||
      (s.reportsNotReady n &&
        (decide (2 ≤ n.val) || (s.hw.ctl.admits (stageOf s.params.enc.evt st) && s.hw.ep[n].xfer.unarmed)))
  | .ok e =>
    match devtenBit s.params.enc.reg e with
    | some b => bit s.regs.devten b
    | none => true
  | .error _ => true

/-- H appends an event word on its own account, if it may. -/
def hReport (w : Word) : M Unit := do
  let s ← get
  if s.mayReport w then hAppendEvent w else pure ()

/-! ### TRBs

The procedure of 42_trb_ring.md R250 in the steps between which S, or the platform's cache, may act (20_memory.md R78):
begin, move, write back the size word, write back the control word, report, go on. Each step does nothing where it is not due. -/

/-- The transfer on `n` becomes `r`. -/
def setRun (n : EpIdx) (r : Run) : M Unit := modifyHEp n fun h => { h with xfer := .active r }

/-- H's transfer on `n` ends and its resource index becomes free (42_trb_ring.md R250, 40_command_dispatcher.md R182). -/
def hEndTransfer (n : EpIdx) (rsc : BitVec 7) : M Unit := do
  modifyHEp n fun h => { h with xfer := .idle }
  modify fun s => { s with hw := { s.hw with rscUsed := s.hw.rscUsed.filter fun r => decide (r ≠ rsc) } }

/-- H no longer holds a TRB it has read ahead. -/
def Run.dropHeld (r : Run) (g : GAddr) : Run := { r with held := r.held.filter fun x => decide (x.1 ≠ g) }

/-- H makes no progress on `n` until UPDATE_TRANSFER or END_TRANSFER (42_trb_ring.md R250). -/
def hWait (n : EpIdx) : M Unit :=
  modifyHEp n fun h =>
    match h.xfer with
    | .idle => h
    | .active r => { h with xfer := .active { r with waiting := true, held := [] } }

/-- The work on a TRB, begun. -/
def Job.start (k : TrbKind) (f : TrbFields) : Job where
  kind := k
  trb := f
  len := 0
  sts := 0
  phase := .moving
  report := { status := 0, param := 0, kind := k, threeStage := false, transfer := 0 }

/-- H takes up the TRB at its pointer: HWO = 0 makes it wait, a link TRB moves the pointer, every other type is begun
(42_trb_ring.md R250). It takes up none while it waits, works on one, or owes an event. -/
def hBegin (n : EpIdx) (k : TrbKind) (f : TrbFields) : M Unit := do
  let s ← get
  match s.hw.ep[n].xfer with
  | .idle => pure ()
  | .active r =>
    if r.waiting || r.job.isSome || s.hw.ep[n].owed.isSome then pure ()
    else if f.hwo = false then hWait n
    else if k = .link then setRun n { r.dropHeld r.ptr with ptr := f.buf }
    else setRun n { r.dropHeld r.ptr with job := some (Job.start k f) }

/-- The TRB H works on with its transfer on `n`, if it has come to the given phase. -/
def State.job? (s : State) (n : EpIdx) (p : Phase) : Option (Run × Job) :=
  match s.hw.ep[n].xfer with
  | .idle => none
  | .active r =>
    match r.job with
    | none => none
    | some j => if j.phase = p then some (r, j) else none

/-- H answers the host with STALL on endpoint `n`; a stall of endpoint 0 covers the control pair (44_ep0_control.md R357), so
that a CLEAR_STALL of endpoint 1 does not end it there (log 17, DESIGN CHOICE). -/
def State.hStalled (s : State) (n : EpIdx) : Bool :=
  s.hw.ep[n].stalled || (decide (n.val < 2) && s.hw.ep[(0 : EpIdx)].stalled)

/-- The packet size H is configured with on endpoint `n`; 0 where it has no configuration (42_trb_ring.md R250). -/
def State.packetSize (s : State) (n : EpIdx) : Nat :=
  match s.hw.ep[n].conf with
  | some c => c.mps.toNat
  | none => 0

/-- Bytes that come in packets of `mps` bytes each, but for a short one at the end, end with a short one. -/
def shortPacket (mps len : Nat) : Bool := decide (mps ≠ 0) && decide (len % mps ≠ 0)

/-- The TRB ends with the bytes that the host moves after `before` others: BUFSIZ bytes have come, a short packet has, be it
of no bytes, or the TRB is a ZLP (42_trb_ring.md R250; log 10). R250 says what a ZLP TRB does under IN alone; that one on an
OUT endpoint, which S never writes, ends here too, at the first draw, is the model's choice (DESIGN CHOICE, log 10). -/
def State.endsTrb (s : State) (n : EpIdx) (k : TrbKind) (f : TrbFields) (before : Nat) (m : Moved) : Bool :=
  decide (k = .zlp) || decide (f.bufsiz.toNat ≤ before + m.bytes.length) || shortPacket (s.packetSize n) m.bytes.length ||
    m.last

/-- How many bytes H moves through a TRB, of those the host offers: no more than BUFSIZ leaves after the bytes moved
before, and none through a ZLP TRB (42_trb_ring.md R250). That a ZLP TRB on an OUT endpoint stores no byte either, and so
leaves BUFSIZ bytes remaining, is the model's choice (DESIGN CHOICE, log 10). -/
def movedLen (k : TrbKind) (f : TrbFields) (before offered : Nat) : Nat :=
  if k = .zlp then 0 else min offered (f.bufsiz.toNat - before)

/-- The work after `k` more bytes, with which the TRB ends or does not, in control transfer number `num`. -/
def Job.after (j : Job) (num k : Nat) (m : Moved) (ends : Bool) : Job :=
  { j with
    len := j.len + k
    sts := m.sts
    phase := if ends then .moved else .moving
    report := { status := m.evStatus, param := m.evParam, kind := j.kind, threeStage := false, transfer := num } }

/-- H would read the data buffer of the TRB at `g`, to send `k` bytes of it, before the START_TRANSFER or UPDATE_TRANSFER that
follows the TRB's hand-over, which it never does (20_memory.md R83, duty 4; log 40). -/
def State.readsEarly (s : State) (n : EpIdx) (g : GAddr) (k : Nat) : Bool :=
  decide (dirOf n = .inp) && decide (0 < k) && s.untold g

/-- H moves data through the TRB (42_trb_ring.md R250, R251): an OUT TRB's bytes follow those moved before in its buffer, an
IN TRB writes none. The TRB ends where BUFSIZ bytes or a short packet have come, and else waits for more. Data that H may not
read yet it does not move. -/
def hMoveData (n : EpIdx) (r : Run) (j : Job) : M Unit := do
  let s ← get
  if s.hStalled n then pure ()
  else
    match ← drawMoved with
    | none => pure ()
    | some m => do
      let k := movedLen j.kind j.trb j.len m.bytes.length
      if s.readsEarly n r.ptr k then pure ()
      else do
        if dirOf n = .out then hWriteBytes (j.trb.buf + BitVec.ofNat 64 j.len) (m.bytes.take k) else pure ()
        setRun n { r with job := some (j.after s.hw.ctlNum k m (s.endsTrb n j.kind j.trb j.len m)) }

/-- The work on a SETUP TRB after the packet, which begins control transfer number `num`: no byte of the TRB remains, whatever
its BUFSIZ is (44_ep0_control.md R355; of a BUFSIZ other than 8 log 17, DESIGN CHOICE). -/
def Job.afterSetup (j : Job) (num : Nat) (a : Arrival) : Job :=
  { j with
    len := j.trb.bufsiz.toNat
    sts := a.sts
    phase := .moved
    report := { status := a.evStatus, param := a.evParam, kind := j.kind, threeStage := decide (a.packet.wLength ≠ 0)
                transfer := num } }

/-- A SETUP packet goes into the TRB's buffer, all eight bytes of it whatever the TRB's BUFSIZ is (44_ep0_control.md R355,
93_implementation_defined.md part 2; of a BUFSIZ other than 8 log 17, DESIGN CHOICE), ends a stall of the pair (R357), and
begins a control transfer. -/
def hReceiveSetup (n : EpIdx) (r : Run) (j : Job) : M Unit := do
  match ← drawSetup with
  | none => pure ()
  | some a => do
    hWriteBytes j.trb.buf a.packet.bytes
    modifyHEp 0 fun h => { h with stalled := false }
    modifyHEp 1 fun h => { h with stalled := false }
    modify fun s => { s with hw := { s.hw with ctl := .none, ctlNum := s.hw.ctlNum + 1 } }
    let t ← get
    setRun n { r with job := some (j.afterSetup t.hw.ctlNum a) }

/-- H moves the data or the packet of the TRB it works on (42_trb_ring.md R250, 44_ep0_control.md R355). -/
def hMove (n : EpIdx) : M Unit := do
  let s ← get
  match s.job? n .moving with
  | none => pure ()
  | some (r, j) => if j.kind = .controlSetup then hReceiveSetup n r j else hMoveData n r j

/-- Word `i` of a TRB with TRBSTS written back, if it lies there, every other bit kept (30_encoding.md R113). -/
def statusWritten (e : TrbEnc) (i : Nat) (w : Word) (sts : BitVec 4) : Word :=
  if e.trbsts / 32 = i then putField w (e.trbsts % 32) sts else w

/-- The size word of a TRB with BUFSIZ written back, and TRBSTS if it lies there, every other bit kept (30_encoding.md
R113). -/
def sizeWritten (e : TrbEnc) (w : Word) (remaining : BitVec 24) (sts : BitVec 4) : Word :=
  statusWritten e (e.bufsiz / 32) (putField w (e.bufsiz % 32) remaining) sts

/-- The control word of a TRB with HWO = 0, every other bit kept (30_encoding.md R113). -/
def released (e : TrbEnc) (w : Word) : Word := putField w (e.hwo % 32) 0#1

/-- The control word of a TRB written back: HWO = 0, and TRBSTS if it lies there, every other bit kept (30_encoding.md
R113). -/
def controlWritten (e : TrbEnc) (w : Word) (sts : BitVec 4) : Word := released e (statusWritten e (e.hwo / 32) w sts)

/-- H writes back the size word: BUFSIZ and TRBSTS (30_encoding.md R113, 20_memory.md R83). -/
def hWriteSize (n : EpIdx) : M Unit := do
  let s ← get
  match s.job? n .moved with
  | none => pure ()
  | some (r, j) => do
    let g := r.ptr + BitVec.ofNat 64 s.params.enc.trb.sizeAt
    let w ← hReadWord g
    hWriteWord g (sizeWritten s.params.enc.trb w (j.trb.bufsiz - BitVec.ofNat 24 j.len) j.sts)
    setRun n { r with job := some { j with phase := .sized } }

/-- The TRB's completion is reported: a SETUP TRB's always, another's where IOC or LST is set (42_trb_ring.md R250,
44_ep0_control.md R355), and the endpoint's configuration enables it (log 18). ISP_IMI adds no report (log 41, DESIGN
CHOICE). -/
def State.owes (s : State) (n : EpIdx) (j : Job) : Bool :=
  (decide (j.kind = .controlSetup) || j.trb.ioc || j.trb.lst) && s.reportsComplete n

/-- H writes back the control word with HWO = 0, which makes the TRB S's again (10_state.md R30). H no longer holds what it read of it,
and owes the event that reports it (20_memory.md R83). -/
def hWriteControl (n : EpIdx) : M Unit := do
  let s ← get
  match s.job? n .sized with
  | none => pure ()
  | some (r, j) => do
    let g := r.ptr + BitVec.ofNat 64 s.params.enc.trb.controlAt
    let w ← hReadWord g
    hWriteWord g (controlWritten s.params.enc.trb w j.sts)
    setRun n { r.dropHeld r.ptr with job := some { j with phase := .released } }
    if s.owes n j then modifyHEp n fun h => { h with owed := some j.report } else pure ()

/-- H appends the event it owes on `n` (43_event_buffer.md R300, R303). -/
def hReportOwed (n : EpIdx) : M Unit := do
  let s ← get
  match s.hw.ep[n].owed with
  | none => pure ()
  | some r => do
    hAppendEvent ((Event.xferComplete n r.status r.param).word s.params.enc)
    modifyHEp n fun h => { h with owed := none }
    modify fun s => { s with hw := { s.hw with ctl := s.hw.ctl.afterReport s.hw.ctlNum n r } }

/-- After a TRB is released the transfer ends, at LST = 1 and after a SETUP TRB, or goes on to the next one (42_trb_ring.md
R250, 44_ep0_control.md R355). -/
def hFinish (n : EpIdx) : M Unit := do
  let s ← get
  match s.job? n .released with
  | none => pure ()
  | some (r, j) =>
    if j.trb.lst || decide (j.kind = .controlSetup) then hEndTransfer n r.rsc
    else setRun n { r with ptr := r.ptr + 16, job := none }

/-- The steps after the release: a SETUP TRB ends the transfer and is then reported (44_ep0_control.md R355), any other is
reported first (42_trb_ring.md R250). -/
def hClose (n : EpIdx) : M Unit := do
  let s ← get
  match s.job? n .released with
  | none => pure ()
  | some (_, j) =>
    if j.kind = .controlSetup then do
      hFinish n
      hReportOwed n
    else do
      hReportOwed n
      hFinish n

/-- H works on a TRB with its transfer on `n`. -/
def Xfer.working : Xfer → Bool
  | .idle => false
  | .active r => r.job.isSome

/-- Before H takes up a TRB it appends the event it owes of the one before. -/
def hSettle (n : EpIdx) : M Unit := do
  let s ← get
  if s.hw.ep[n].xfer.working then pure () else hReportOwed n

/-- One pass of the procedure of 42_trb_ring.md R250, from the TRB H has read at its pointer, or from the step it has come
to, as far as the host lets it go. CHN, CSP and ISP_IMI of the TRB have no effect (log 41, DESIGN CHOICE). -/
def hRunTrb (n : EpIdx) (k : TrbKind) (f : TrbFields) : M Unit := do
  hSettle n
  hBegin n k f
  hMove n
  hWriteSize n
  hWriteControl n
  hClose n

/-- The TRB at the pointer of a transfer, as H has read it ahead, if it has. -/
def Run.heldTrb (r : Run) : Option TrbWords := (r.held.find? fun x => decide (x.1 = r.ptr)).map fun x => x.2

/-- The TRB H would take up next on `n`: the one it has read ahead, or the one it reads at its pointer (20_memory.md R85).
None where there is no transfer, or it waits. H reads it at
whatever address the pointer holds, a multiple of 16 or not (log 42, DESIGN CHOICE). -/
def fetchTrb (n : EpIdx) : M (Option TrbWords) := do
  let s ← get
  match s.hw.ep[n].xfer with
  | .idle => pure none
  | .active r =>
    if r.waiting then pure none
    else
      match r.heldTrb with
      | some t => pure (some t)
      | none => do
        let t ← hReadTrb r.ptr
        let w ← written t
        pure (some w)

/-- The TRB H works on, or else the one it would take up next. A TRB with HWO = 0 makes H wait whatever its type; a reserved
type with HWO = 1 has no meaning (30_encoding.md R129). -/
def hNext (n : EpIdx) : M (Option (TrbKind × TrbFields)) := do
  let s ← get
  match s.hw.ep[n].xfer with
  | .active { job := some j, .. } => pure (some (j.kind, j.trb))
  | _ =>
    match ← fetchTrb n with
    | none => pure none
    | some t =>
      match decodeTrb s.params.enc t with
      | .ok (k, f) => pure (some (k, f))
      | .error e =>
        if t.flag s.params.enc.trb.hwo then refuse (.undecodable e)
        else do
          hWait n
          pure none

/-- H's turn on endpoint `n`: one pass. -/
def hTurn (n : EpIdx) : M Unit := do
  match ← hNext n with
  | none => hSettle n
  | some (k, f) => hRunTrb n k f

/-- One step of H's procedure on endpoint `n`: the one that is due. -/
def hWork (n : EpIdx) : M Unit := do
  let s ← get
  match s.hw.ep[n].xfer with
  | .active { job := some j, .. } =>
    match j.phase with
    | .moving => hMove n
    | .moved => hWriteSize n
    | .sized => hWriteControl n
    | .released => if s.hw.ep[n].owed.isSome && decide (j.kind ≠ .controlSetup) then hReportOwed n else hFinish n
  | _ =>
    if s.hw.ep[n].owed.isSome then hReportOwed n
    else
      match ← hNext n with
      | none => pure ()
      | some (k, f) => hBegin n k f

/-- The TRB that H reads ahead on `n`: the one at its pointer, or a slot of the endpoint's ring (20_memory.md R85). -/
def State.aheadAddr (s : State) (n : EpIdx) (r : Run) : Option (Fin 9) → Option GAddr
  | none => some r.ptr
  | some i => if 2 ≤ n.val then some (s.params.global (slotAddr s.params n i.val)) else none

/-- H reads a TRB of its active transfer ahead of processing it, and holds what it read (20_memory.md R85). -/
def hPrefetch (n : EpIdx) (slot : Option (Fin 9)) : M Unit := do
  let s ← get
  match s.hw.ep[n].xfer with
  | .idle => pure ()
  | .active r =>
    match s.aheadAddr n r slot with
    | none => pure ()
    | some g =>
      if r.waiting then pure ()
      else
        match ← hReadTrb g with
        | none => pure ()
        | some t => setRun n { r with held := (g, t) :: (r.dropHeld g).held }

/-! ### Commands -/

/-- Whether H may answer a command with success: START_TRANSFER only with a free resource index, on an idle transfer
(40_command_dispatcher.md R181, R182). That a resource is free is taken to mean that the index is: whether SET_XFER_RESOURCE has
assigned the endpoint one is not asked (log 25, DESIGN CHOICE). -/
def State.maySucceed (s : State) (n : EpIdx) (c : Command) (a : Answer) : Bool :=
  match c with
  | .startTransfer _ =>
    decide (s.hw.ep[n].xfer = .idle) && s.hw.indexFree a.rsc
  | _ => true

/-- H's transfer on `n` begins (40_command_dispatcher.md R182). -/
def hStartTransfer (n : EpIdx) (rsc : BitVec 7) (g : GAddr) : M Unit :=
  modify fun s => { s with hw := s.hw.started n rsc g }

/-- H's response to an UPDATE_TRANSFER of a transfer it has ended: it resumes at a TRB of its choice with the command's index,
where that index is free, or it does nothing (70_reset_and_hazards.md R439, 93_implementation_defined.md 1.3; log 10). -/
def hResume (n : EpIdx) (rsc : BitVec 7) (resume : Option GAddr) : M Unit := do
  let s ← get
  match resume with
  | none => pure ()
  | some g => if s.hw.indexFree rsc then hStartTransfer n rsc g else pure ()

/-- The effect of a command in H (40_command_dispatcher.md R182). SET_EP_CONFIG configures the endpoint whose registers hold the
command, whatever the EP_NUMBER field of its parameter 1 says (log 38, DESIGN CHOICE). A START_TRANSFER may name an address that
is no multiple of 16 (log 42, DESIGN CHOICE), and a raw SET_XFER_RESOURCE any count (log 25, DESIGN CHOICE). -/
def hEffect (n : EpIdx) (c : Command) (a : Answer) : M Unit :=
  match c with
  | .startConfig base =>
    modify fun s => { s with hw := { s.hw with rscUsed := s.hw.rscUsed.filter fun r => decide (r.toNat < base.toNat) } }
  | .setEpConfig cfg => modifyHEp n fun h => { h with conf := some cfg }
  | .setXferResource count => modifyHEp n fun h => { h with resources := count.toNat }
  | .getEpState => modify fun s => s.putReg (.depcmdpar2 n) a.word
  | .setStall => modifyHEp n fun h => { h with stalled := true }
  | .clearStall => modifyHEp n fun h => { h with stalled := false }
  | .startTransfer g => hStartTransfer n a.rsc g
  | .updateTransfer rsc => do
    let s ← get
    match s.hw.ep[n].xfer with
    | .active r => setRun n { r with waiting := false, held := [] }
    | .idle => hResume n rsc a.resume
  | .endTransfer _ => do
    let s ← get
    match s.hw.ep[n].xfer with
    | .idle => pure ()
    | .active r => hEndTransfer n r.rsc

/-- The word DEPCMD holds once a command has completed: CMDACT 0, CMDSTATUS, and PARAM[6:0] after a successful
START_TRANSFER (40_command_dispatcher.md R181). -/
def completedWord (e : CmdEnc) (w : Word) (c : Command) (a : Answer) : Word :=
  let v := putField (putField w e.status a.status) e.act 0#1
  if c.typ = .startTransfer && decide (a.status = e.success) then putField v e.param a.rsc else v

/-- H completes the command it executes on `n` (40_command_dispatcher.md R181). Success is the only status with an effect.
An answer H may not give leaves the command executing (log 25). -/
def hComplete (n : EpIdx) (a : Answer) : M Unit := do
  let s ← get
  match s.hw.ep[n].cmd with
  | .idle => pure ()
  | .executing c _ =>
    if a.status = s.params.enc.cmd.success && !s.maySucceed n c a then pure ()
    else do
      if a.status = s.params.enc.cmd.success then hEffect n c a else pure ()
      modify fun s => s.putReg (.depcmd n) (completedWord s.params.enc.cmd (s.regs.get (.depcmd n)) c a)
      modifyHEp n fun h => { h with cmd := .idle }

/-- Before a read of DEPCMD(n), H completes the command if its answer is due, and is one read nearer to it if not. -/
def hBeforePoll (n : EpIdx) : M Unit := do
  let s ← get
  match s.hw.ep[n].cmd with
  | .executing c (some a) =>
    if a.wait = 0 then hComplete n a
    else modifyHEp n fun h => { h with cmd := .executing c (some { a with wait := a.wait - 1 }) }
  | _ => pure ()

/-- Some PHY low-power bit is set (30_encoding.md R115). -/
def State.phyLow (s : State) : Bool := s.params.phyLpMask.any fun p => decide (s.regs.get p.1 &&& p.2 ≠ 0)

/-- S writes DEPCMD(n) with CMDACT = 1 (40_command_dispatcher.md R180). A command while one is executing faults (R158).
Under a PHY low-power bit H performs nothing and what the register reads is a draw (R183; log 30). H takes the command's
parameters as the registers hold them at this write, and does not read them again (log 39, DESIGN CHOICE). A START_CONFIG in
the registers of another endpoint than 0, which only the operation Cmd can write, H takes as on endpoint 0 (log 13, DESIGN
CHOICE). From this write on
H may read the data buffers of the TRBs that a START_TRANSFER or an UPDATE_TRANSFER tells it of (20_memory.md R83; log 40). -/
def hStartCommand (n : EpIdx) (w : Word) : M Unit := do
  let s ← get
  match s.hw.ep[n].cmd with
  | .executing _ _ => raise .cmdWhileActive
  | .idle =>
    if s.phyLow then do
      match ← drawAnswer with
      | some a => modify fun s => s.putReg (.depcmd n) a.word
      | none => modify fun s => s.putReg (.depcmd n) w
    else
      match decodeCommand s.params.enc w (s.regs.get (.depcmdpar0 n)) (s.regs.get (.depcmdpar1 n)) with
      | .error e => refuse (.undecodable e)
      | .ok c => do
        modify fun s => s.putReg (.depcmd n) w
        modify fun s => s.setHanded (toldOf s.handed n c)
        let a ← drawAnswer
        modifyHEp n fun h => { h with cmd := .executing c a }

/-! ### Soft reset -/

/-- The registers after a soft reset (70_reset_and_hazards.md R413): the fields it fixes, the read-only words, CMDACT
reading 0 as every command is idle, and the image's value in every other field. -/
def Regs.afterSoftReset (enc : Enc) (r : Regs) (image : Regs) : Regs :=
  { image with
    gsnpsid := r.gsnpsid
    ghwparams0 := r.ghwparams0
    ghwparams3 := r.ghwparams3
    gevntcount := 0
    dalepena := 0
    dctl := putField (putField image.dctl enc.reg.csftrst 0#1) enc.reg.runStop 0#1
    dcfg := putField image.dcfg enc.reg.devaddr 0#7
    dep := image.dep.map fun d => { d with cmd := putField d.cmd enc.cmd.act 0#1 } }

/-- The endpoint with no transfer, no command and no event to report. -/
def HEp.stopped (h : HEp) : HEp := { h with xfer := .idle, cmd := .idle, owed := none }

/-- H's hidden state after a soft reset: every transfer and command idle, the write offset 0 (70_reset_and_hazards.md R413,
10_state.md R38). -/
def Hw.afterSoftReset (ep : Vector HEp 32) : Hw where
  ep := ep.map HEp.stopped
  wpos := 0
  rscUsed := []
  softReset := .idle
  ctl := .none
  ctlNum := 0

/-- The soft reset in progress completes (70_reset_and_hazards.md R413, 10_state.md R38). -/
def hSoftResetDone (image : ResetImage) : M Unit := do
  let s ← get
  match s.hw.softReset with
  | .idle => pure ()
  | .running _ =>
    set { s with regs := s.regs.afterSoftReset s.params.enc image.regs, hw := Hw.afterSoftReset image.ep }

/-- Before a read of DCTL, H completes the soft reset if it is due, and is one read nearer to it if not. -/
def hBeforeResetPoll : M Unit := do
  let s ← get
  match s.hw.softReset with
  | .running (some i) =>
    if i.wait = 0 then hSoftResetDone i
    else set { s with hw := { s.hw with softReset := .running (some { i with wait := i.wait - 1 }) } }
  | _ => pure ()

/-- S writes DCTL with CSFTRST = 1: a soft reset starts (10_state.md R36). Where one is running already the write changes
nothing of it: no new reset starts and no new image is drawn (log 19, DESIGN CHOICE). -/
def hStartReset : M Unit := do
  let s ← get
  match s.hw.softReset with
  | .running _ => pure ()
  | .idle => do
    let i ← drawReset
    modify fun s => { s with hw := { s.hw with softReset := .running i } }

/-! ### The turn of the other agents -/

/-- One act. -/
def runAct : Act → M Unit
  | .complete n a => hComplete n a
  | .trb n => hTurn n
  | .work n => hWork n
  | .prefetch n slot => hPrefetch n slot
  | .event w => hReport w
  | .evict line => modify fun s => s.evict line
  | .status w => modify fun s => s.putReg .dsts w
  | .softResetDone i => hSoftResetDone i

/-- Acts in order. -/
def runActs : List Act → M Unit
  | [] => pure ()
  | a :: as => do
    runAct a
    runActs as

/-- What the other agents do between two accesses of S (00_scope.md R12). -/
def othersTurn : M Unit := do
  let acts ← drawActs
  runActs acts

end Sys2Proof.Machine
end

