-- ==== Sys2Proof/Machine/Primitives.lean ====
section
/-! DEFINITION. The primitive accesses of S (spec/00_scope.md R10, R11, R16; spec/20_memory.md R76 to R82). The other agents
may act before each of them (00_scope.md R12). `BusyWait` has no effect (70_reset_and_hazards.md R440). -/

namespace Sys2Proof.Machine

/-! ### Registers -/

/-- A read-only register (10_state.md R36). -/
def Reg.readOnly : Reg → Bool
  | .gsnpsid => true
  | .ghwparams0 => true
  | .ghwparams3 => true
  | .dsts => true
  | _ => false

/-- What H does before S reads a register: a command or a soft reset that is due completes (40_command_dispatcher.md R181,
70_reset_and_hazards.md R413). -/
def hBeforeRead : Reg → M Unit
  | .depcmd n => hBeforePoll n
  | .dctl => hBeforeResetPoll
  | _ => pure ()

/-- `REG[r]`: H's value at the moment of the read (20_memory.md R77). -/
def readReg (r : Reg) : M Word := do
  othersTurn
  hBeforeRead r
  let s ← get
  pure (s.regValue r)

/-- A write to DCTL: CSFTRST = 1 starts a soft reset, and reads 1 until it is done (10_state.md R36). -/
def writeDctl (v : Word) : M Unit := do
  let s ← get
  if bit v s.params.enc.reg.csftrst then hStartReset else pure ()
  modify fun s => s.putReg .dctl (if s.hw.softReset = .idle then v else putField v s.params.enc.reg.csftrst 1#1)

/-- A write to DEPCMD(n): CMDACT = 1 starts a command (40_command_dispatcher.md R180); any write while H executes one
faults (R158, 60_exceptions.md R380). -/
def writeDepcmd (n : EpIdx) (v : Word) : M Unit := do
  let s ← get
  match s.hw.ep[n].cmd with
  | .executing _ _ => raise .cmdWhileActive
  | .idle => if cmdact s.params.enc.cmd v then hStartCommand n v else modify fun s => s.putReg (.depcmd n) v

/-- `REG[r] <- v`, with the side effects of 20_memory.md R76 and 43_event_buffer.md R301. A write to a read-only register is
discarded, and a write to GEVNTCOUNT of more than the pending count wraps it at its 16 bits (log 29, DESIGN CHOICE): only a
PHY_CONFIG or a PHY_LP_MASK that names the register makes either. -/
def writeReg (r : Reg) (v : Word) : M Unit := do
  othersTurn
  match r with
  | .depcmd n => writeDepcmd n v
  | .gevntcount =>
    modify fun s => s.withPending (s.pendingBytes - field v 0 16)
  | .dctl => writeDctl v
  | r => if r.readOnly then pure () else modify fun s => s.putReg r v

/-- `REG[r].FIELD <- v`: a read-modify-write that keeps every other bit as read (00_scope.md R10, 10_state.md R37). The place
of the field is `ENC`'s. -/
def writeField (r : Reg) (place : RegPlaces → Nat) {n : Nat} (v : BitVec n) : M Unit := do
  let w ← readReg r
  let s ← get
  writeReg r (putField w (place s.params.enc.reg) v)

/-! ### Memory -/

/-- The little-endian word at a local address in S's view; none where one of its bytes holds no value (20_memory.md R73,
R79). -/
def State.viewWord (s : State) (a : LAddr) : Option Word :=
  match s.viewByte a, s.viewByte (a + 1), s.viewByte (a + 2), s.viewByte (a + 3) with
  | some b0, some b1, some b2, some b3 => some (wordOfBytes b0 b1 b2 b3)
  | _, _, _, _ => none

/-- The word that a read of S returns, where some of its bytes H has written since S last invalidated them (20_memory.md
R82). -/
def State.seenWord (s : State) (picks : List (LAddr × Byte)) (a : LAddr) : Option Word :=
  match s.seenByte picks a, s.seenByte picks (a + 1), s.seenByte picks (a + 2), s.seenByte picks (a + 3) with
  | some b0, some b1, some b2, some b3 => some (wordOfBytes b0 b1 b2 b3)
  | _, _, _, _ => none

/-- `MemRead(a, 4)` of an aligned word (20_memory.md R75, R78, R79, R82). -/
def memRead (a : LAddr) : M Word := do
  othersTurn
  modify fun s => s.withLine (lineOf s.params a)
  let picks ← drawSeen a 4
  let s ← get
  written (s.seenWord picks a)

/-- `MemRead(a, 1)`. -/
def memReadByte (a : LAddr) : M Byte := do
  othersTurn
  modify fun s => s.withLine (lineOf s.params a)
  let picks ← drawSeen a 1
  let s ← get
  written (s.seenByte picks a)

/-- `MemWrite(a, 4, v)` of an aligned word (20_memory.md R75, R78, R79). -/
def memWrite (a : LAddr) (v : Word) : M Unit := do
  othersTurn
  modify fun s => s.cacheWrite a (bytesOfWord v)

/-- `MemWrite` of word `k` of the TRB at local address `t`. A TRB that H owns may not be written (10_state.md R30). -/
def memWriteTrb (t : LAddr) (k : Nat) (v : Word) : M Unit := do
  othersTurn
  let s ← get
  requireOwned (s.params.global t)
  modify fun s => s.cacheWrite (t + BitVec.ofNat 32 (4 * k)) (bytesOfWord v)

/-- `CacheFlush(a, n)` (20_memory.md R79, R80). -/
def cacheFlush (a : LAddr) (n : Nat) : M Unit := do
  othersTurn
  modify fun s => s.flush a n

/-- `CacheInvalidate(a, n)` (20_memory.md R79). -/
def cacheInvalidate (a : LAddr) (n : Nat) : M Unit := do
  othersTurn
  modify fun s => s.invalidate a n

/-- Words of a TRB, given by their numbers, in order. -/
def writeTrbWords (t : LAddr) (w : TrbWords) : List Nat → M Unit
  | [] => pure ()
  | i :: is => do
    memWriteTrb t i (w.word i)
    writeTrbWords t w is

/-- The words of a TRB in the order of 20_memory.md R81: pointer, high pointer, size, and the control word last. -/
def writeTrb (t : LAddr) (w : TrbWords) : M Unit := do
  let s ← get
  writeTrbWords t w s.params.enc.trb.order

/-- The setup packet at a local address, read as single bytes (20_memory.md R75, R78). -/
def readSetup (a : LAddr) : M Setup := do
  let b0 ← memReadByte a
  let b1 ← memReadByte (a + 1)
  let b2 ← memReadByte (a + 2)
  let b3 ← memReadByte (a + 3)
  let b4 ← memReadByte (a + 4)
  let b5 ← memReadByte (a + 5)
  let b6 ← memReadByte (a + 6)
  let b7 ← memReadByte (a + 7)
  pure (Setup.ofBytes b0 b1 b2 b3 b4 b5 b6 b7)

end Sys2Proof.Machine
end

