-- ==== Sys2Proof/Machine/Descriptors.lean ====
section
/-! DEFINITION. The meanings of the F-TRB rows: H processes the TRB at the pointer of its active transfer on an endpoint
(spec/42_trb_ring.md R250, R251; spec/44_ep0_control.md R355). -/

namespace Sys2Proof.Machine

/-- NORMAL: bulk or interrupt data (42_trb_ring.md R228, R250). -/
def execTrbNormal (n : EpIdx) (f : TrbFields) (s : State) : Host.Outcome State Fault Refusal :=
  outcome (hRunTrb n .normal f) s

/-- CONTROL_SETUP: a SETUP packet (44_ep0_control.md R324, R355). -/
def execTrbControlSetup (n : EpIdx) (f : TrbFields) (s : State) : Host.Outcome State Fault Refusal :=
  outcome (hRunTrb n .controlSetup f) s

/-- CONTROL_STATUS2: the status stage of a 2-stage transfer (44_ep0_control.md R328, R355). -/
def execTrbControlStatus2 (n : EpIdx) (f : TrbFields) (s : State) : Host.Outcome State Fault Refusal :=
  outcome (hRunTrb n .controlStatus2 f) s

/-- CONTROL_STATUS3: the status stage of a 3-stage transfer (44_ep0_control.md R328, R355). -/
def execTrbControlStatus3 (n : EpIdx) (f : TrbFields) (s : State) : Host.Outcome State Fault Refusal :=
  outcome (hRunTrb n .controlStatus3 f) s

/-- CONTROL_DATA: the data stage of a control transfer (44_ep0_control.md R326, R327, R355). -/
def execTrbControlData (n : EpIdx) (f : TrbFields) (s : State) : Host.Outcome State Fault Refusal :=
  outcome (hRunTrb n .controlData f) s

/-- ZLP: one zero-length packet (42_trb_ring.md R225, R250). -/
def execTrbZlp (n : EpIdx) (f : TrbFields) (s : State) : Host.Outcome State Fault Refusal :=
  outcome (hRunTrb n .zlp f) s

/-- ISOCHRONOUS_FIRST: never written by S; H runs it as 42_trb_ring.md R250 runs every type (log 16). -/
def execTrbIsochronousFirst (n : EpIdx) (f : TrbFields) (s : State) : Host.Outcome State Fault Refusal :=
  outcome (hRunTrb n .isochronousFirst f) s

/-- ISOCHRONOUS: never written by S; H runs it as 42_trb_ring.md R250 runs every type (log 16). -/
def execTrbIsochronous (n : EpIdx) (f : TrbFields) (s : State) : Host.Outcome State Fault Refusal :=
  outcome (hRunTrb n .isochronous f) s

/-- LINK: the transfer's pointer moves to the TRB's buffer pointer (42_trb_ring.md R250). -/
def execTrbLink (n : EpIdx) (f : TrbFields) (s : State) : Host.Outcome State Fault Refusal :=
  outcome (hRunTrb n .link f) s

end Sys2Proof.Machine
end

