-- ==== Sys2Proof/Machine/Commands.lean ====
section
/-! DEFINITION. The command dispatcher and the nine endpoint commands (spec/40_command_dispatcher.md R150 to R170). -/

namespace Sys2Proof.Machine

/-! ### The dispatch procedure -/

/-- `PhySave()` over the registers of PHY_LP_MASK: the words of those it wrote (R151). -/
def phySave : List (Reg × Word) → M (List (Reg × Word))
  | [] => pure []
  | (r, m) :: ps => do
    let v ← readReg r
    if v &&& m = 0 then phySave ps
    else do
      writeReg r (v &&& ~~~m)
      let saved ← phySave ps
      pure ((r, v) :: saved)

/-- `PhyRestore(saved)` (R154). -/
def phyRestore : List (Reg × Word) → M Unit
  | [] => pure ()
  | (r, v) :: ps => do
    writeReg r v
    phyRestore ps

/-- The poll of DEPCMD(n), at most `budget` reads (R152). -/
def poll (n : EpIdx) (t : CmdTyp) : Nat → M Result
  | 0 => pure (.err .timeout)
  | k + 1 => do
    let v ← readReg (.depcmd n)
    let s ← get
    if cmdact s.params.enc.cmd v then poll n t k else pure (decodeStatus s.params.enc.cmd t v)

/-- What a result says of the TRBs handed to H: a START_TRANSFER that H did not perform gives the TRB it named back
(10_state.md R30, route 3), a successful END_TRANSFER every TRB of the endpoint (R167). A START_TRANSFER that H does perform
gives it no TRB: one that S has not handed over, or has back, stays S's whatever its HWO bit says (log 11, log 13, DESIGN
CHOICE). -/
def settle (n : EpIdx) (t : CmdTyp) (p0 p1 : Word) (r : Result) : M Unit :=
  if t = .startTransfer && r.isHwError then takeBack (p0 ++ p1)
  else if t = .endTransfer && r.isOk then takeBackAll n
  else pure ()

/-- `Cmd` on an endpoint the controller has, with the command word's PARAM given (R150). START_TRANSFER on a busy endpoint
faults (R163). -/
def dispatchCmd (n : EpIdx) (t : CmdTyp) (param : BitVec 16) (p0 p1 : Word) : M Result := do
  let s ← get
  if t = .startTransfer && s.ep[n].busy then raise .doubleStart
  else do
    let saved ← phySave s.params.phyLpMask
    writeReg (.depcmdpar0 n) p0
    writeReg (.depcmdpar1 n) p1
    writeReg (.depcmd n) (cmdword s.params.enc t param)
    let r ← poll n t s.params.retryBudget
    phyRestore saved
    settle n t p0 p1 r
    pure r

/-- The PARAM field of `Cmd` (R150, 30_encoding.md R104). -/
def cmdParam (t : CmdTyp) (grp : EpGroup) (rsc : BitVec 7) : BitVec 16 :=
  match t with
  | .startConfig => startBase grp
  | .updateTransfer => rsc.zeroExtend 16
  | .endTransfer => rsc.zeroExtend 16
  | _ => 0

/-- `Cmd(n, c, p0, p1, rsc)` (R150). `grp` is the START_CONFIG group of the caller. An endpoint the controller lacks is
refused (R157). -/
def cmdOp (n : Nat) (t : CmdTyp) (grp : EpGroup) (p0 p1 : Word) (rsc : BitVec 7) : M Result := do
  let s ← get
  match epOf s.params n with
  | none => refuse .cmdBadEp
  | some e => dispatchCmd e t (cmdParam t grp rsc) p0 p1

/-- The controller has the endpoint of a command (R157). -/
def requireEp (n : EpIdx) : M Unit := do
  let s ← get
  if n.val < s.params.numEps then pure () else refuse .cmdBadEp

/-- Issue a command with the words 30_encoding.md R104 gives it. -/
def issue (n : EpIdx) (c : Command) : M Result := do
  requireEp n
  let s ← get
  dispatchCmd n c.typ c.param (c.par0 s.params.enc) (c.par1 s.params.enc)

/-! ### The commands with S's bookkeeping -/

/-- START_CONFIG, always on endpoint 0 (R160). -/
def cmdStartConfig (base : BitVec 16) : M Result := issue 0 (.startConfig base)

/-- SET_EP_CONFIG: on OK the record takes the packet size and the type (R161, 41_endpoint_lifecycle.md R192). The type is
the one the command gives: ISOCHRONOUS, which ENABLE refuses and 10_state.md R25 does not list, can come of a raw command only,
and is recorded (log 38, DESIGN CHOICE). The endpoint is `n`, whatever EP_NUMBER says (log 38). -/
def cmdSetEpConfig (n : EpIdx) (cfg : EpConf) : M Result := do
  let r ← issue n (.setEpConfig cfg)
  if r.isOk then modifyEp n fun e => { e with mps := some cfg.mps, type := some cfg.type } else pure ()
  pure r

/-- SET_XFER_RESOURCE (R162). -/
def cmdSetXferResource (n : EpIdx) (count : Word) : M Result := issue n (.setXferResource count)

/-- GET_EP_STATE: on OK the result carries DEPCMDPAR2(n), read after the poll (R170). -/
def cmdGetEpState (n : EpIdx) : M Result := do
  let r ← issue n .getEpState
  if r.isOk then do
    let w ← readReg (.depcmdpar2 n)
    pure (.okState w)
  else pure r

/-- SET_STALL (R168). -/
def cmdSetStall (n : EpIdx) : M Result := issue n .setStall

/-- CLEAR_STALL (R169). -/
def cmdClearStall (n : EpIdx) : M Result := issue n .clearStall

/-- START_TRANSFER of the TRB at a global address: on OK(idx) the endpoint is busy with that index (R163, R164). -/
def cmdStartTransfer (n : EpIdx) (trb : GAddr) : M Result := do
  let r ← issue n (.startTransfer trb)
  match r with
  | .okIdx idx => modifyEp n fun e => { e with rsc := some idx, busy := true }
  | _ => pure ()
  pure r

/-- UPDATE_TRANSFER, on an endpoint the controller has (R157). Reading the endpoint's index while it is not busy faults (R165,
10_state.md R26). The index operand is the word's (log 13). -/
def cmdUpdateTransfer (n : EpIdx) (rsc : BitVec 7) : M Result := do
  requireEp n
  let _ ← readRsc n
  issue n (.updateTransfer rsc)

/-- The endpoint is no longer busy, and its index no longer valid (10_state.md R26). -/
def Ep.idle (e : Ep) : Ep := { e with busy := false, rsc := none }

/-- END_TRANSFER, on an endpoint the controller has (R157): on OK the endpoint is no longer busy (R166). Reading the endpoint's
index while it is not busy faults (10_state.md R26). The index operand is the word's (log 13). -/
def cmdEndTransfer (n : EpIdx) (rsc : BitVec 7) : M Result := do
  requireEp n
  let _ ← readRsc n
  let r ← issue n (.endTransfer rsc)
  if r.isOk then modifyEp n Ep.idle else pure ()
  pure r

/-- END_TRANSFER with the endpoint's own index, as every procedure of S issues it (R166). -/
def endOwnTransfer (n : EpIdx) : M Result := do
  let rsc ← readRsc n
  cmdEndTransfer n rsc

/-- `if r != OK: Log(r)` (60_exceptions.md R373). -/
def logIfError : Result → M Unit
  | .err e => logEntry (.error e)
  | _ => pure ()

/-! ### The meanings of the F-CMD rows

S issues the command word (log 13). -/

/-- START_CONFIG (R160). -/
def execStartConfig (base : BitVec 16) (s : State) : Host.Outcome State Fault Refusal :=
  outcome (returning (cmdStartConfig base)) s

/-- SET_EP_CONFIG (R161). -/
def execSetEpConfig (n : EpIdx) (cfg : EpConf) (s : State) : Host.Outcome State Fault Refusal :=
  outcome (returning (cmdSetEpConfig n cfg)) s

/-- SET_XFER_RESOURCE (R162). -/
def execSetXferResource (n : EpIdx) (count : Word) (s : State) : Host.Outcome State Fault Refusal :=
  outcome (returning (cmdSetXferResource n count)) s

/-- GET_EP_STATE (R170). -/
def execGetEpState (n : EpIdx) (s : State) : Host.Outcome State Fault Refusal :=
  outcome (returning (cmdGetEpState n)) s

/-- SET_STALL (R168). -/
def execSetStall (n : EpIdx) (s : State) : Host.Outcome State Fault Refusal :=
  outcome (returning (cmdSetStall n)) s

/-- CLEAR_STALL, the command (R169). -/
def execClearStallCmd (n : EpIdx) (s : State) : Host.Outcome State Fault Refusal :=
  outcome (returning (cmdClearStall n)) s

/-- START_TRANSFER (R163, R164). -/
def execStartTransfer (n : EpIdx) (trb : GAddr) (s : State) : Host.Outcome State Fault Refusal :=
  outcome (returning (cmdStartTransfer n trb)) s

/-- UPDATE_TRANSFER (R165). -/
def execUpdateTransfer (n : EpIdx) (rsc : BitVec 7) (s : State) : Host.Outcome State Fault Refusal :=
  outcome (returning (cmdUpdateTransfer n rsc)) s

/-- END_TRANSFER (R166, R167). -/
def execEndTransfer (n : EpIdx) (rsc : BitVec 7) (s : State) : Host.Outcome State Fault Refusal :=
  outcome (returning (cmdEndTransfer n rsc)) s

/-- `Cmd` as an operation (R150), admitted only after INIT (70_reset_and_hazards.md R411). -/
def execCmd (n : Nat) (t : CmdTyp) (grp : EpGroup) (p0 p1 : Word) (rsc : BitVec 7) (s : State) :
    Host.Outcome State Fault Refusal :=
  outcome (do requireInit; returning (cmdOp n t grp p0 p1 rsc)) s

end Sys2Proof.Machine
end

