-- ==== Sys2Proof/Machine/Lifecycle.lean ====
section
/-! DEFINITION. The endpoint lifecycle operations (spec/41_endpoint_lifecycle.md R190 to R204) and SET_DEV_STATE
(spec/60_exceptions.md R393). -/

namespace Sys2Proof.Machine

/-! ### The ring -/

/-- Zero the data slots of a ring from slot `i` on, `k` of them (R196). -/
def zeroSlots (n : EpIdx) (i : Nat) : Nat → M Unit
  | 0 => pure ()
  | k + 1 => do
    let s ← get
    writeTrb (slotAddr s.params n i) { w0 := 0, w1 := 0, w2 := 0, w3 := 0 }
    zeroSlots n (i + 1) k

/-- `RingInit(n)` (R196); the model's counter of TRBs outstanding becomes 0 (42_trb_ring.md R220). A slot whose TRB is still
H's, one that a failed submission stranded (70_reset_and_hazards.md R432, R439), faults with TRB_OWNED_WRITE: of 10_state.md
R30's routes none has given it back (log 35, DESIGN CHOICE). -/
def ringInit (n : EpIdx) : M Unit := do
  zeroSlots n 0 ringDepth
  let s ← get
  let link := (linkTrb (s.params.global s.params.ringAddr[n])).words s.params.enc .link
  writeTrb (slotAddr s.params n ringDepth) link
  cacheFlush s.params.ringAddr[n] (trbBytes * ringSlots)
  modifyEp n fun e => { e with enq := 0, deq := 0, out := 0 }

/-! ### ENABLE -/

/-- Step 1, start-config, once for each group (R191). -/
def enableStart (n : EpIdx) : M Result := do
  let s ← get
  match groupOf n with
  | .ep0Pair =>
    if s.ctx.ep0Started then pure .ok
    else do
      let r ← cmdStartConfig (startBase .ep0Pair)
      if r = .ok then modifyCtx fun c => { c with ep0Started := true } else pure ()
      pure r
  | .others =>
    if s.ctx.epsStarted then pure .ok
    else do
      let r ← cmdStartConfig (startBase .others)
      if r = .ok then modifyCtx fun c => { c with epsStarted := true } else pure ()
      pure r

/-- Bit `n` of DALEPENA set or cleared, every other bit as read (10_state.md R37). -/
def writeEpEnable (n : EpIdx) (on : Bool) : M Unit := do
  let w ← readReg .dalepena
  writeReg .dalepena (putField w n.val (BitVec.ofBool on))

/-- Step 3, on the first enable alone (R193). -/
def enableFirst (n : EpIdx) : M Result := do
  let e ← getEp n
  if e.enabled then pure .ok
  else do
    let r ← cmdSetXferResource n 1
    if r = .ok then do
      writeEpEnable n true
      modifyEp n fun e => { e with enabled := true }
      if 2 ≤ n.val then ringInit n else pure ()
      pure .ok
    else pure r

/-- The three steps on endpoint `n`; the first error is the result, and nothing is undone (R190, R194). -/
def enableSteps (n : EpIdx) (type : EpType) (mps interval : Nat) : M Result := do
  let r1 ← enableStart n
  if r1 = .ok then do
    let r2 ← cmdSetEpConfig n (confFor n type mps interval)
    if r2 = .ok then enableFirst n else pure r2
  else pure r1

/-- `ENABLE(num, dir, type, mps, interval)` with its checks in order (R190). -/
def enable (num : Nat) (dir : Dir) (type : EpType) (mps interval : Nat) : M Result := do
  let s ← get
  match logicalEp s.params num dir with
  | none => pure (.err .invalidEp)
  | some n =>
    if type = .isochronous then refuse .isoUnsupported
    else if decide (num = 0) ≠ decide (type = .control) then pure (.err .invalidEp)
    else if mps = 0 ∨ 2047 < mps then refuse .badMps
    else enableSteps n type mps interval

/-- ENABLE (R190 to R196). -/
def execEnable (num : Nat) (dir : Dir) (type : EpType) (mps interval : Nat) (s : State) :
    Host.Outcome State Fault Refusal :=
  outcome (do requireInit; returning (enable num dir type mps interval)) s

/-! ### DISABLE -/

/-- `DISABLE(num, dir)` (R200). -/
def disable (num : Nat) (dir : Dir) : M Result := do
  let s ← get
  match logicalEp s.params num dir with
  | none => pure (.err .invalidEp)
  | some n => do
    writeEpEnable n false
    modifyEp n fun e => { e with enabled := false }
    pure .ok

/-- DISABLE (R200). -/
def execDisable (num : Nat) (dir : Dir) (s : State) : Host.Outcome State Fault Refusal :=
  outcome (do requireInit; returning (disable num dir)) s

/-! ### STALL and CLEAR_STALL -/

/-- The endpoint of a STALL or CLEAR_STALL: one the controller has, and enabled (R201). -/
def State.stallable (s : State) (num : Nat) (dir : Dir) : Option EpIdx :=
  match logicalEp s.params num dir with
  | none => none
  | some n => if s.ep[n].enabled then some n else none

/-- `STALL(num, dir)` (R201). -/
def stall (num : Nat) (dir : Dir) : M Result := do
  let s ← get
  match s.stallable num dir with
  | none => pure (.err .invalidEp)
  | some n => do
    let r ← cmdSetStall n
    if r = .ok then modifyEp n fun e => { e with stalled := true } else pure ()
    pure r

/-- `CLEAR_STALL(num, dir)` (R202). -/
def clearStall (num : Nat) (dir : Dir) : M Result := do
  let s ← get
  match s.stallable num dir with
  | none => pure (.err .invalidEp)
  | some n => do
    let r ← cmdClearStall n
    if r = .ok then modifyEp n fun e => { e with stalled := false, wedge := false } else pure ()
    pure r

/-- STALL (R201). -/
def execStall (num : Nat) (dir : Dir) (s : State) : Host.Outcome State Fault Refusal :=
  outcome (do requireInit; returning (stall num dir)) s

/-- CLEAR_STALL, the operation (R202). -/
def execClearStall (num : Nat) (dir : Dir) (s : State) : Host.Outcome State Fault Refusal :=
  outcome (do requireInit; returning (clearStall num dir)) s

/-! ### SET_DEV_STATE -/

/-- The chapter-9 state that L sets (60_exceptions.md R393). -/
def devStateOf : SettableState → DevState
  | .addressed => .addressed
  | .configured => .configured

/-- `SET_DEV_STATE(s)` (60_exceptions.md R393). -/
def setDevState (target : SettableState) : M Result := do
  modifyCtx fun c => { c with devState := devStateOf target }
  pure .ok

/-- SET_DEV_STATE (60_exceptions.md R393). -/
def execSetDevState (target : SettableState) (s : State) : Host.Outcome State Fault Refusal :=
  outcome (do requireInit; returning (setDevState target)) s

end Sys2Proof.Machine
end

