-- ==== Sys2Proof/Machine/Transfers.lean ====
section
/-! DEFINITION. The bulk and interrupt submissions over the TRB ring (spec/42_trb_ring.md R220 to R230). -/

namespace Sys2Proof.Machine

/-- `Enqueue(n, buf, size, type)`: fill the slot at the enqueue cursor and hand it to H; the answer is its global address
(R221). The hand-over is one with the write of the control word: the TRB is H's while memory has HWO = 1 there, from an
eviction or the flush on, until H writes it back, be that before the flush (10_state.md R30, log 11). -/
def enqueue (n : EpIdx) (buf : LAddr) (size : Nat) (k : TrbKind) : M GAddr := do
  let s ← get
  let t := s.ep[n].enq
  let a := slotAddr s.params n t
  writeTrb a ((handedTrb (s.params.global buf) size).words s.params.enc k)
  handOver n (s.params.global a)
  cacheFlush a trbBytes
  modifyEp n fun e => { e with enq := (t + 1) % ringDepth, out := e.out + 1 }
  pure (s.params.global a)

/-- `Submit(n, g)`: START_TRANSFER on an idle endpoint, UPDATE_TRANSFER with the cached index on a busy one (R222). -/
def submit (n : EpIdx) (g : GAddr) : M Result := do
  let e ← getEp n
  if e.busy then do
    let rsc ← readRsc n
    cmdUpdateTransfer n rsc
  else do
    let r ← cmdStartTransfer n g
    match r with
    | .okIdx _ => pure .ok
    | r => pure r

/-- The endpoint of a submission, or the error of the first check that fails (R223). -/
def State.submitEp (s : State) (num : Nat) (dir want : Dir) : Except Err EpIdx :=
  match logicalEp s.params num dir with
  | none => .error .invalidEp
  | some n =>
    if n.val ≤ 1 then .error .invalidEp
    else if s.ep[n].enabled = false then .error .invalidEp
    else if dir ≠ want then .error .wrongDir
    else .ok n

/-- A full ring refuses the submission (R227). -/
def requireRoom (n : EpIdx) : M Unit := do
  let e ← getEp n
  if ringDepth ≤ e.out then refuse .ringFull else pure ()

/-- What a submission records of itself (R228, R229, R230). -/
def recordRequest (n : EpIdx) (buf : LAddr) (size : Nat) (rounded : Bool) : M Unit :=
  modifyEp n fun e => { e with buf := some buf, requested := size, rounded := rounded }

/-- The TRB type of a send (R225). -/
def sendKind (len : Nat) : TrbKind := if len = 0 then .zlp else .normal

/-- `SEND(num, dir, buf, len)` (R228). -/
def send (num : Nat) (dir : Dir) (buf : LAddr) (len : Nat) : M Result := do
  let s ← get
  match s.submitEp num dir .inp with
  | .error e => pure (.err e)
  | .ok n =>
    if trbSizeMax < len then pure (.err .invalidLength)
    else do
      requireRoom n
      if 0 < len then cacheFlush buf len else pure ()
      let g ← enqueue n buf len (sendKind len)
      recordRequest n buf len false
      submit n g

/-- The size a receive hands to H: `roundup(max(len, 1), mps)` (R229). A packet size of 0 has no such multiple, and the spec
states no size for it: a free value (log 22, DESIGN CHOICE). -/
def receiveSize (n : EpIdx) (len : Nat) : M Nat := do
  let e ← getEp n
  let mps ← written e.mps
  if mps = 0 then do
    let k ← nextFree
    pure (Config.freeRoundup (max len 1) k)
  else pure (roundup (max len 1) mps.toNat)

/-- `RECV(num, dir, buf, len)` (R229). -/
def recv (num : Nat) (dir : Dir) (buf : LAddr) (len : Nat) : M Result := do
  let s ← get
  match s.submitEp num dir .out with
  | .error e => pure (.err e)
  | .ok n => do
    let size ← receiveSize n len
    if trbSizeMax < size then pure (.err .invalidLength)
    else do
      requireRoom n
      cacheFlush buf size
      let g ← enqueue n buf size .normal
      recordRequest n buf size (decide (size ≠ len))
      submit n g

/-- SEND (R228). -/
def execSend (num : Nat) (dir : Dir) (buf : LAddr) (len : Nat) (s : State) : Host.Outcome State Fault Refusal :=
  outcome (do requireInit; returning (send num dir buf len)) s

/-- RECV (R229). -/
def execRecv (num : Nat) (dir : Dir) (buf : LAddr) (len : Nat) (s : State) : Host.Outcome State Fault Refusal :=
  outcome (do requireInit; returning (recv num dir buf len)) s

end Sys2Proof.Machine
end

