-- ==== Sys2Proof/Machine/Ep0.lean ====
section
/-! DEFINITION. The control pair: the single TRB, the EP0 operations and the Set-Address step (spec/44_ep0_control.md R320
to R328, R347). -/

namespace Sys2Proof.Machine

/-- `Ep0Arm(d, buf, size, type)` (R322). The TRB is H's as one of a ring is (10_state.md R30, log 11). -/
def ep0Arm (d : EpIdx) (buf : LAddr) (size : Nat) (k : TrbKind) : M Result := do
  let s ← get
  let t := s.params.ep0TrbAddr
  writeTrb t ((handedTrb (s.params.global buf) size).words s.params.enc k)
  handOver d (s.params.global t)
  cacheFlush t trbBytes
  let r ← cmdStartTransfer d (s.params.global t)
  match r with
  | .okIdx _ => do
    modifyEp d fun e => { e with buf := some buf, requested := size }
    pure .ok
  | r => pure r

/-- A transfer is in flight on the control pair (R325). -/
def State.ep0Busy (s : State) : Bool := s.ep[(0 : EpIdx)].busy || s.ep[(1 : EpIdx)].busy

/-- `if r = OK: ep[d].rounded <- v`. -/
def recordRounded (d : EpIdx) (v : Bool) (r : Result) : M Unit :=
  if r = .ok then modifyEp d fun e => { e with rounded := v } else pure ()

/-- END_TRANSFER on a busy endpoint, its error logged. -/
def abortEp (n : EpIdx) : M Unit := do
  let e ← getEp n
  if e.busy then do
    let r ← endOwnTransfer n
    logIfError r
  else pure ()

/-- `ABORT_EP0()` (R323). -/
def abortEp0 : M Unit := do
  abortEp 0
  abortEp 1

/-- `ARM_SETUP()` (R324). -/
def armSetup : M Result := do
  abortEp0
  modifyCtx fun c => { c with ep0State := .setup }
  let s ← get
  if s.ep0Busy then do
    logEntry .ep0ArmBlocked
    pure (.err .busy)
  else do
    let r ← ep0Arm 0 s.params.setupBufAddr setupLen .controlSetup
    logIfError r
    pure r

/-- `EP0_SEND(buf, len)` (R326). -/
def ep0Send (buf : LAddr) (len : Nat) : M Result := do
  let s ← get
  if s.ep0Busy then pure (.err .busy)
  else if trbSizeMax < len then pure (.err .invalidLength)
  else do
    if 0 < len then cacheFlush buf len else pure ()
    let r ← ep0Arm 1 buf len .controlData
    recordRounded 1 false r
    pure r

/-- `EP0_RECV(buf, len)` (R327). -/
def ep0Recv (buf : LAddr) (len : Nat) : M Result := do
  let s ← get
  if s.ep0Busy then pure (.err .recvBusy)
  else do
    let size ← receiveSize 0 len
    if trbSizeMax < size then pure (.err .invalidLength)
    else do
      cacheFlush buf size
      let r ← ep0Arm 0 buf size .controlData
      recordRounded 0 (decide (size ≠ len)) r
      pure r

/-- The TRB type of the status stage (R328). -/
def statusKind (threeStage : Bool) : TrbKind := if threeStage then .controlStatus3 else .controlStatus2

/-- `EP0_STATUS(d)` (R328). -/
def ep0Status (d : EpIdx) : M Result := do
  let s ← get
  if s.ep0Busy then pure (.err .busy)
  else do
    let three ← written s.ctx.threeStage
    let r ← ep0Arm d s.params.setupBufAddr 0 (statusKind three)
    recordRounded d false r
    pure r

/-- Stall endpoint 0, and record it on OK (R344, R347). -/
def stallEp0 : M Unit := do
  let r ← cmdSetStall 0
  if r = .ok then modifyEp 0 fun e => { e with stalled := true } else logIfError r

/-- The recovery of R344 and R347: EP0 is stalled, no setup is pending, and the next SETUP is armed. -/
def stallAndRearm : M Unit := do
  stallEp0
  modifyEp 0 fun e => { e with pending := false }
  let _ ← armSetup
  pure ()

/-- Refuse the address with an error: logged, the request stalled (R347). -/
def rejectAddress (e : Err) : M Result := do
  logEntry (.error e)
  stallAndRearm
  pure (.err e)

/-- `SetAddressStep()` (R347). -/
def setAddressStep : M Result := do
  let s ← get
  let p ← written s.ctx.setup
  if 127 < p.wValue.toNat then rejectAddress .addrRange
  else if s.ctx.devState = .configured then rejectAddress .addrConfigured
  else do
    writeField .dcfg (·.devaddr) (p.wValue.extractLsb' 0 7)
    modifyCtx fun c => { c with devState := if p.wValue ≠ 0 then .addressed else .default }
    pure .ok

/-- EP0_SEND (R326). -/
def execEp0Send (buf : LAddr) (len : Nat) (s : State) : Host.Outcome State Fault Refusal :=
  outcome (do requireInit; returning (ep0Send buf len)) s

/-- EP0_RECV (R327). -/
def execEp0Recv (buf : LAddr) (len : Nat) (s : State) : Host.Outcome State Fault Refusal :=
  outcome (do requireInit; returning (ep0Recv buf len)) s

/-- EP0_STATUS (R328). -/
def execEp0Status (d : Dir) (s : State) : Host.Outcome State Fault Refusal :=
  outcome (do requireInit; returning (ep0Status (ep0Of d))) s

/-- ARM_SETUP (R324). -/
def execArmSetup (s : State) : Host.Outcome State Fault Refusal :=
  outcome (do requireInit; returning armSetup) s

/-- ABORT_EP0 (R323); it returns no error. -/
def execAbortEp0 (s : State) : Host.Outcome State Fault Refusal :=
  outcome (do requireInit; returning (do abortEp0; pure .ok)) s

/-- SETUP_SET_ADDRESS: the Set-Address step on the packet as the cached request (R346, R347; log 27). -/
def execSetupSetAddress (wValue wIndex wLength : BitVec 16) (s : State) : Host.Outcome State Fault Refusal :=
  outcome (do
    modifyCtx fun c => { c with setup := some (setAddressPacket wValue wIndex wLength) }
    returning setAddressStep) s

end Sys2Proof.Machine
end

