-- ==== Sys2Proof/Machine/Events.lean ====
section
/-! DEFINITION. The callbacks of the upper layer (spec/60_exceptions.md R390, R392), completion (spec/42_trb_ring.md R235), the
EP0 event table (spec/44_ep0_control.md R330 to R348), the device events (spec/43_event_buffer.md R280 to R287), dispatch
(R273, R288 to R290) and the interrupt handler (R270 to R279). -/

namespace Sys2Proof.Machine

/-! ### Callbacks -/

/-- The operation of a call that L makes (60_exceptions.md R390). -/
def runLCall : LCall → M Result
  | .send num dir buf len => send num dir buf len
  | .recv num dir buf len => recv num dir buf len
  | .ep0Send buf len => ep0Send buf len
  | .ep0Recv buf len => ep0Recv buf len
  | .stall num dir => stall num dir
  | .clearStall num dir => clearStall num dir

/-- L's calls in order, each with its result given to L. -/
def runLCalls : List LCall → M Unit
  | [] => pure ()
  | c :: cs => do
    requireInit
    let r ← runLCall c
    modify fun s => s.observe (.returned c r)
    runLCalls cs

/-- `Call L.on_x(args)`: the callback, and inside it the calls L chooses to make (60_exceptions.md R390, R392; log 15). -/
def callL (c : Callback) : M Unit := do
  modify fun s => s.observe (.callback c)
  let calls ← drawCalls
  runLCalls calls

/-! ### Completion -/

/-- The bytes H reports remaining in the TRB at a local address, after the invalidate of 20_memory.md R82; more than were
requested is a fault (42_trb_ring.md R236, 44_ep0_control.md R345). -/
def transferred (n : EpIdx) (trb : LAddr) : M Nat := do
  let s ← get
  cacheInvalidate trb trbBytes
  let w ← memRead (trb + BitVec.ofNat 32 s.params.enc.trb.sizeAt)
  let e ← getEp n
  let rem := (field w (s.params.enc.trb.bufsiz % 32) 24).toNat
  if e.requested < rem then raise .remainingExceedsRequest else pure (e.requested - rem)

/-- The callback that reports a completed transfer of `n` (42_trb_ring.md R238, 44_ep0_control.md R351). -/
def dataCallback (n : EpIdx) : Dir → Callback
  | .inp => .onDataIn n
  | .out => .onDataOut n

/-- An OUT endpoint's buffer is invalidated over the size handed to H (42_trb_ring.md R237). -/
def invalidateReceived (n : EpIdx) : Dir → M Unit
  | .inp => pure ()
  | .out => do
    let e ← getEp n
    let buf ← written e.buf
    cacheInvalidate buf e.requested

/-- `COMPLETE(n)` (42_trb_ring.md R235, R241). -/
def complete (n : EpIdx) : M Unit := do
  let s ← get
  let e := s.ep[n]
  if e.busy = false ∨ e.out = 0 then logEntry (.spuriousComplete n)
  else do
    let actual ← transferred n (slotAddr s.params n e.deq)
    modifyEp n fun e => (Ep.idle { e with actual := actual, deq := (e.deq + 1) % ringDepth, out := e.out - 1 })
    invalidateReceived n e.dir
    callL (dataCallback n e.dir)

/-! ### EP0 events -/

/-- The direction of a setup packet's data stage: bit 7 of bmRequestType (44_ep0_control.md R340). -/
def setupDir (p : Setup) : Dir := if p.bmRequestType.getLsbD 7 then .inp else .out

/-- The context after a SETUP packet (44_ep0_control.md R340). -/
def Ctx.afterSetup (c : Ctx) (p : Setup) : Ctx :=
  if p.wLength = 0 then { c with setup := some p, threeStage := some false, ep0State := .status }
  else { c with setup := some p, threeStage := some true, ep0Dir := some (setupDir p), ep0State := .data }

/-- SETUP completion (44_ep0_control.md R340). -/
def setupCompletion : M Unit := do
  modifyEp 0 fun e => { e.idle with stalled := false }
  let s ← get
  cacheInvalidate s.params.setupBufAddr setupLen
  let p ← readSetup s.params.setupBufAddr
  modifyCtx fun c => c.afterSetup p
  modifyEp 0 fun e => { e with pending := true }
  callL .onSetupReceived

/-- Direction-mismatch recovery (44_ep0_control.md R344). -/
def directionMismatch (expected : Dir) : M Unit := do
  abortEp (ep0Of expected)
  stallAndRearm

/-- Data completion (44_ep0_control.md R345). -/
def dataCompletion (n : EpIdx) : M Unit := do
  let s ← get
  let actual ← transferred n s.params.ep0TrbAddr
  modifyEp n fun e => Ep.idle { e with actual := actual }
  invalidateReceived n (dirOf n)
  modifyCtx fun c => { c with ep0State := .status }
  callL (dataCallback n (dirOf n))

/-- Status trigger (44_ep0_control.md R346). -/
def statusTrigger (n : EpIdx) : M Unit := do
  let s ← get
  if s.ep0Busy then logEntry .ep0StatusAlreadyArmed
  else do
    let p ← written s.ctx.setup
    let r ← if p.isSetAddress then setAddressStep else pure .ok
    if r = .ok then do
      let q ← ep0Status n
      logIfError q
    else pure ()

/-- Status completion (44_ep0_control.md R348). -/
def statusCompletion (n : EpIdx) : M Unit := do
  modifyEp n fun e => { e.idle with actual := 0 }
  modifyEp 0 fun e => { e with pending := false }
  let _ ← armSetup
  pure ()

/-- The XFER_COMPLETE rows of the EP0 table (44_ep0_control.md R330). -/
def ep0XferComplete (n : EpIdx) : M Unit := do
  let s ← get
  match s.ctx.ep0State with
  | .unconnected => logEntry (.ignoredEp0Event n .unconnected)
  | .setup =>
    if n = 0 ∧ s.ep[(0 : EpIdx)].busy = true then setupCompletion else logEntry (.ignoredEp0Event n .setup)
  | .data => if s.ep[n].busy then dataCompletion n else logEntry (.ignoredEp0Event n .data)
  | .status => if s.ep[n].busy then statusCompletion n else logEntry (.ignoredEp0Event n .status)

/-- The XFER_NOT_READY rows of the EP0 table (44_ep0_control.md R330, R343). -/
def ep0XferNotReady (n : EpIdx) (status : BitVec 4) : M Unit := do
  let s ← get
  match s.ctx.ep0State with
  | .unconnected => logEntry (.ignoredEp0Event n .unconnected)
  | .setup => logEntry (.ignoredEp0Event n .setup)
  | .data =>
    if stageOf s.params.enc.evt status = .controlData then do
      let expected ← written s.ctx.ep0Dir
      if dirOf n = expected then pure () else directionMismatch expected
    else logEntry (.ignoredEp0Event n .data)
  | .status =>
    if stageOf s.params.enc.evt status = .controlStatus then statusTrigger n else logEntry (.ignoredEp0Event n .status)

/-! ### Endpoint events -/

/-- An endpoint event names an endpoint the controller has (43_event_buffer.md R288). -/
def requireEventEp (n : EpIdx) : M Unit := do
  let s ← get
  if n.val < s.params.numEps then pure () else raise .eventBadEp

/-- XFER_COMPLETE (43_event_buffer.md R289). -/
def onXferComplete (n : EpIdx) : M Unit := do
  requireEventEp n
  if n.val < 2 then ep0XferComplete n else complete n

/-- XFER_NOT_READY (43_event_buffer.md R289, R290). -/
def onXferNotReady (n : EpIdx) (status : BitVec 4) : M Unit := do
  requireEventEp n
  let s ← get
  if n.val < 2 then ep0XferNotReady n status else logEntry (.ignoredEpEvent n s.params.enc.evt.xferNotReady)

/-- An endpoint event that is logged and ignored, by its type code (43_event_buffer.md R290). -/
def onIgnoredEpEvent (n : EpIdx) (code : BitVec 4) : M Unit := do
  requireEventEp n
  logEntry (.ignoredEpEvent n code)

/-- XFER_IN_PROGRESS (43_event_buffer.md R290). -/
def onXferInProgress (n : EpIdx) : M Unit := do
  let s ← get
  onIgnoredEpEvent n s.params.enc.evt.xferInProgress

/-- EP_CMD_COMPLETE (43_event_buffer.md R290). -/
def onEpCmdComplete (n : EpIdx) : M Unit := do
  let s ← get
  onIgnoredEpEvent n s.params.enc.evt.epCmdComplete

/-! ### Device events -/

/-- DISCONNECT (43_event_buffer.md R280). -/
def onDisconnect : M Unit := do
  abortEp0
  modifyCtx fun c => { c with ep0State := .setup }
  modifyEp 0 fun e => { e with pending := false }
  modifyCtx fun c => { c with devState := .unattached }
  callL .onDisconnect

/-- CLEAR_STALL on a stalled endpoint, its error logged (43_event_buffer.md R281). -/
def unstallEp (n : EpIdx) : M Unit := do
  let e ← getEp n
  if e.stalled then do
    let r ← cmdClearStall n
    logIfError r
  else pure ()

/-- The record of an endpoint after a bus reset (43_event_buffer.md R281). -/
def Ep.afterReset (e : Ep) : Ep :=
  { e with stalled := false, wedge := false, pending := false, requested := 0, actual := 0, rounded := false }

/-- The third loop of RESET on one endpoint (43_event_buffer.md R281). RingInit of a ring that still holds a stranded TRB of
H's faults (log 35, DESIGN CHOICE). -/
def resetEp (n : EpIdx) : M Unit := do
  modifyEp n Ep.afterReset
  let e ← getEp n
  if 2 ≤ n.val ∧ e.enabled = true ∧ e.busy = false then ringInit n else pure ()

/-- RESET (43_event_buffer.md R281). -/
def onReset : M Unit := do
  let s ← get
  forEps abortEp (epList s.params)
  forEps unstallEp (epList s.params)
  forEps resetEp (epList s.params)
  writeField .dcfg (·.devaddr) 0#7
  modifyCtx fun c => { c with devState := .default, ep0State := .setup }
  callL .onReset

/-- CONNECT_DONE (43_event_buffer.md R282). -/
def onConnectDone : M Unit := do
  let w ← readReg .dsts
  let s ← get
  modifyCtx fun c => { c with speed := some (field w s.params.enc.reg.connectspd 3) }
  writeField .dcfg (·.lpmcap) 1#1
  modifyCtx fun c => { c with lpm := true }
  callL .onConnect
  let _ ← armSetup
  pure ()

/-- LINK_STATE_CHANGE (43_event_buffer.md R283). -/
def onLinkStateChange (info : BitVec 9) : M Unit :=
  modifyCtx fun c => { c with linkState := some (info.extractLsb' 0 4) }

/-! ### Dispatch -/

/-- An event with a row of its own (43_event_buffer.md R273, R289). -/
def dispatchEvent : Event → M Unit
  | .xferComplete n _ _ => onXferComplete n
  | .xferInProgress n _ _ => onXferInProgress n
  | .xferNotReady n status _ => onXferNotReady n status
  | .epCmdComplete n _ _ => onEpCmdComplete n
  | .disconnect _ => onDisconnect
  | .reset _ => onReset
  | .connectDone _ => onConnectDone
  | .linkStateChange info => onLinkStateChange info
  | .wakeup _ => logEntry .wakeup
  | .hibernationReq _ => logEntry .hibernationReq

/-- An event word without a row: logged and ignored (43_event_buffer.md R286, R287, R290), unless it is an endpoint event
that names an endpoint the controller lacks (R288). -/
def dispatchReserved (w : Word) : DecodeError → M Unit
  | .reservedEpEvent n code => onIgnoredEpEvent n code
  | .reservedDeviceEvent code => logEntry (.reservedDeviceEvent code)
  | _ => logEntry (.unknownEventClass w)

/-- `Dispatch(w)` (43_event_buffer.md R273). -/
def dispatchWord (w : Word) : M Unit := do
  let s ← get
  match decodeEvent s.params.enc w with
  | .ok e => dispatchEvent e
  | .error e => dispatchReserved w e

/-! ### The interrupt handler -/

/-- The event word at the read cursor (43_event_buffer.md R272). -/
def readEventWord : M Word := do
  let s ← get
  memRead (s.params.evtBufAddr + BitVec.ofNat 32 s.ctx.evt.lpos)

/-- After a word is dispatched: the cursor, the count, the acknowledgement (43_event_buffer.md R272, R278, R279). -/
def finishEventWord : M Unit := do
  modifyCtx fun c => { c with evt := { c.evt with lpos := (c.evt.lpos + 4) % evtBufSize, count := c.evt.count - 4 } }
  writeReg .gevntcount 4

/-- The drain, at most `fuel` words (43_event_buffer.md R272). -/
def drain : Nat → M Unit
  | 0 => pure ()
  | k + 1 => do
    let s ← get
    if s.ctx.evt.count = 0 then pure ()
    else do
      let w ← readEventWord
      dispatchWord w
      finishEventWord
      drain k

/-- `REG[GEVNTSIZ].INTMASK <- masked` (43_event_buffer.md R277). -/
def setIntMask (masked : Bool) : M Unit := do
  let w ← readReg .gevntsiz
  let s ← get
  writeReg .gevntsiz (withIntMask s.params.enc.reg w masked)

/-- `IRQ()` (43_event_buffer.md R272). -/
def irqHandler : M Unit := do
  let w ← readReg .gevntcount
  let s ← get
  let c := (evntCount s.params.enc.reg w).toNat
  if c = 0 then logEntry .spuriousIrq
  else if c % 4 ≠ 0 ∨ evtBufSize < c then raise .eventCountInvalid
  else do
    modifyCtx fun x => { x with evt := { x.evt with count := c } }
    setIntMask true
    let s ← get
    cacheInvalidate s.params.evtBufAddr evtBufSize
    drain (c / 4)
    setIntMask false

/-! ### The meanings -/

/-- XFER_COMPLETE (43_event_buffer.md R289). -/
def execEvtXferComplete (n : EpIdx) (_status : BitVec 4) (_param : BitVec 16) (s : State) :
    Host.Outcome State Fault Refusal :=
  outcome (onXferComplete n) s

/-- XFER_IN_PROGRESS: logged and ignored (43_event_buffer.md R290). -/
def execEvtXferInProgress (n : EpIdx) (_status : BitVec 4) (_param : BitVec 16) (s : State) :
    Host.Outcome State Fault Refusal :=
  outcome (onXferInProgress n) s

/-- XFER_NOT_READY (43_event_buffer.md R289, R290). -/
def execEvtXferNotReady (n : EpIdx) (status : BitVec 4) (_param : BitVec 16) (s : State) :
    Host.Outcome State Fault Refusal :=
  outcome (onXferNotReady n status) s

/-- EP_CMD_COMPLETE: logged and ignored (43_event_buffer.md R290). -/
def execEvtEpCmdComplete (n : EpIdx) (_status : BitVec 4) (_param : BitVec 16) (s : State) :
    Host.Outcome State Fault Refusal :=
  outcome (onEpCmdComplete n) s

/-- DISCONNECT (43_event_buffer.md R280). -/
def execEvtDisconnect (_info : BitVec 9) (s : State) : Host.Outcome State Fault Refusal := outcome onDisconnect s

/-- RESET (43_event_buffer.md R281). -/
def execEvtReset (_info : BitVec 9) (s : State) : Host.Outcome State Fault Refusal := outcome onReset s

/-- CONNECT_DONE (43_event_buffer.md R282). -/
def execEvtConnectDone (_info : BitVec 9) (s : State) : Host.Outcome State Fault Refusal := outcome onConnectDone s

/-- LINK_STATE_CHANGE (43_event_buffer.md R283). -/
def execEvtLinkStateChange (info : BitVec 9) (s : State) : Host.Outcome State Fault Refusal :=
  outcome (onLinkStateChange info) s

/-- WAKEUP: logged, and no state written (43_event_buffer.md R284). -/
def execEvtWakeup (_info : BitVec 9) (s : State) : Host.Outcome State Fault Refusal := outcome (logEntry .wakeup) s

/-- HIBERNATION_REQ: logged, and no state written (43_event_buffer.md R285). -/
def execEvtHibernationReq (_info : BitVec 9) (s : State) : Host.Outcome State Fault Refusal :=
  outcome (logEntry .hibernationReq) s

/-- COMPLETE (42_trb_ring.md R235), admitted only after INIT (70_reset_and_hazards.md R411); as an operation it returns no
error (60_exceptions.md R370). Called so, it asks neither that the controller has the endpoint nor that it is one from 2 on
(log 43, DESIGN CHOICE). -/
def execComplete (n : EpIdx) (s : State) : Host.Outcome State Fault Refusal :=
  outcome (do requireInit; returning (do complete n; pure .ok)) s

/-- IRQ (43_event_buffer.md R270, R272), admitted only after INIT (70_reset_and_hazards.md R411); it returns no error, a
spurious interrupt being none (43_event_buffer.md R275, 60_exceptions.md R370). -/
def execIrq (s : State) : Host.Outcome State Fault Refusal :=
  outcome (do requireInit; returning (do irqHandler; pure .ok)) s

end Sys2Proof.Machine
end

