-- ==== Sys2Proof/Machine/Init.lean ====
section
/-! DEFINITION. INIT, the controller bring-up (spec/70_reset_and_hazards.md R411, R412). -/

namespace Sys2Proof.Machine

/-- The soft-reset poll, at most `budget` reads of DCTL: whether CSFTRST read 0 (R412). -/
def pollReset : Nat → M Bool
  | 0 => pure false
  | k + 1 => do
    let v ← readReg .dctl
    let s ← get
    if bit v s.params.enc.reg.csftrst then pollReset k else pure true

/-- The writes of PHY_CONFIG, in order (R412). -/
def writeAll : List (Reg × Word) → M Unit
  | [] => pure ()
  | (r, v) :: ps => do
    writeReg r v
    writeAll ps

/-- The capability words of GHWPARAMS3 (10_state.md R36). -/
def capsOf (r : RegPlaces) (w : Word) : Caps :=
  { numEps := field w r.numEps 6, numInEps := field w r.numInEps 5, phyType := field w r.phyIfc 6 }

/-- Event buffer registration (R412). -/
def registerEventBuffer : M Unit := do
  let s ← get
  let g := s.params.global s.params.evtBufAddr
  writeReg .gevntadrlo (lo32 g)
  writeReg .gevntadrhi (hi32 g)
  writeField .gevntsiz (·.evtSize) (BitVec.ofNat 16 evtBufSize)
  setIntMask false
  let w ← readReg .gevntcount
  writeReg .gevntcount ((evntCount s.params.enc.reg w).zeroExtend 32)
  modifyCtx fun c => { c with evt := { c.evt with lpos := 0, count := 0 } }

/-- Static configuration of the control pair; the first error is the result (R412). -/
def enableEp0Pair : M Result := do
  let s ← get
  let r1 ← enable 0 .out .control s.params.ep0Mps 0
  if r1 = .ok then enable 0 .inp .control s.params.ep0Mps 0 else pure r1

/-- The last writes of INIT: the device events, RUN_STOP, the EP0 state (R412). -/
def startDevice : M Unit := do
  let s ← get
  writeReg .devten (devtenAll s.params.enc.reg)
  writeField .dctl (·.runStop) 1#1
  modifyCtx fun c => { c with ep0State := .unconnected }

/-- Give every byte of a list that holds no value in memory the value beside it. -/
def Memory.fill (m : Memory) (g : GAddr) : List Byte → Memory
  | [] => m
  | b :: bs => Memory.fill (match m.read1 g.toNat with | some _ => m | none => m.write1 g.toNat b) (g + 1) bs

/-- Memory in which the TRB at a global address is not armed: its HWO bit is 0, its other bits are as they were, or free
where they held no value (10_state.md R22; log 36). -/
def Memory.disarm (e : TrbEnc) (m : Memory) (g : GAddr) (free : TrbWords) : Memory :=
  let t := m.fill g free.bytes
  match t.readWord (g + BitVec.ofNat 64 e.controlAt) with
  | some w => t.writeWord (g + BitVec.ofNat 64 e.controlAt) (released e w)
  | none => t

/-- After INIT the EP0 TRB is not armed (10_state.md R22, R414; log 36). -/
def disarmTrb0 : M Unit := do
  let k ← nextFree
  modify fun s =>
    s.setMem (s.mem.disarm s.params.enc.trb (s.params.global s.params.ep0TrbAddr) (Config.freeTrb0 k))

/-- INIT after the soft reset has completed (R412). -/
def configureCore : M Result := do
  let s ← get
  writeAll s.params.phyConfig
  let h3 ← readReg .ghwparams3
  modifyCtx fun c => { c with caps := some (capsOf s.params.enc.reg h3) }
  writeField .gctl (·.prtcapdir) 2#2
  registerEventBuffer
  let r ← enableEp0Pair
  if r = .ok then do
    startDevice
    disarmTrb0
    pure .ok
  else pure r

/-- `INIT()` (R412). -/
def initCore : M Result := do
  let id ← readReg .gsnpsid
  let s ← get
  if !s.params.coreIdOk.contains id then pure (.err .coreId)
  else do
    let mode ← readReg .ghwparams0
    if !s.params.modeOk.contains mode then pure (.err .mode)
    else do
      writeField .dctl (·.csftrst) 1#1
      let done ← pollReset s.params.retryBudget
      if done then configureCore else pure (.err .softResetTimeout)

/-- INIT once only, on a launch laid out as 20_memory.md R72 and R74 require (R411). It counts as failed until it returns
OK. -/
def initOnce : M Result := do
  let s ← get
  if s.ctx.init ≠ .notRun then refuse .reinit
  else if !s.params.layoutOk then refuse .regionLayout
  else do
    modifyCtx fun c => { c with init := .failed }
    let r ← initCore
    if r = .ok then modifyCtx fun c => { c with init := .done } else pure ()
    pure r

/-- INIT (R411, R412). -/
def execInit (s : State) : Host.Outcome State Fault Refusal := outcome (returning initOnce) s

end Sys2Proof.Machine
end

