-- ==== Sys2Proof/Machine/Dispatch.lean ====
section
/-! DEFINITION. The meaning of each instruction, one arm for each constructor. -/

namespace Sys2Proof.Machine

def exec (i : Instr) (s : State) : Host.Outcome State Fault Refusal :=
  match i with
  | .startConfig base => Sys2Proof.Machine.execStartConfig base s
  | .setEpConfig n cfg => Sys2Proof.Machine.execSetEpConfig n cfg s
  | .setXferResource n count => Sys2Proof.Machine.execSetXferResource n count s
  | .getEpState n => Sys2Proof.Machine.execGetEpState n s
  | .setStall n => Sys2Proof.Machine.execSetStall n s
  | .clearStallCmd n => Sys2Proof.Machine.execClearStallCmd n s
  | .startTransfer n trb => Sys2Proof.Machine.execStartTransfer n trb s
  | .updateTransfer n rsc => Sys2Proof.Machine.execUpdateTransfer n rsc s
  | .endTransfer n rsc => Sys2Proof.Machine.execEndTransfer n rsc s
  | .trbNormal n f => Sys2Proof.Machine.execTrbNormal n f s
  | .trbControlSetup n f => Sys2Proof.Machine.execTrbControlSetup n f s
  | .trbControlStatus2 n f => Sys2Proof.Machine.execTrbControlStatus2 n f s
  | .trbControlStatus3 n f => Sys2Proof.Machine.execTrbControlStatus3 n f s
  | .trbControlData n f => Sys2Proof.Machine.execTrbControlData n f s
  | .trbZlp n f => Sys2Proof.Machine.execTrbZlp n f s
  | .trbIsochronousFirst n f => Sys2Proof.Machine.execTrbIsochronousFirst n f s
  | .trbIsochronous n f => Sys2Proof.Machine.execTrbIsochronous n f s
  | .trbLink n f => Sys2Proof.Machine.execTrbLink n f s
  | .evtXferComplete n status param => Sys2Proof.Machine.execEvtXferComplete n status param s
  | .evtXferInProgress n status param => Sys2Proof.Machine.execEvtXferInProgress n status param s
  | .evtXferNotReady n status param => Sys2Proof.Machine.execEvtXferNotReady n status param s
  | .evtEpCmdComplete n status param => Sys2Proof.Machine.execEvtEpCmdComplete n status param s
  | .evtDisconnect info => Sys2Proof.Machine.execEvtDisconnect info s
  | .evtReset info => Sys2Proof.Machine.execEvtReset info s
  | .evtConnectDone info => Sys2Proof.Machine.execEvtConnectDone info s
  | .evtLinkStateChange info => Sys2Proof.Machine.execEvtLinkStateChange info s
  | .evtWakeup info => Sys2Proof.Machine.execEvtWakeup info s
  | .evtHibernationReq info => Sys2Proof.Machine.execEvtHibernationReq info s
  | .setupSetAddress wValue wIndex wLength => Sys2Proof.Machine.execSetupSetAddress wValue wIndex wLength s
  | .init => Sys2Proof.Machine.execInit s
  | .enable num dir type mps interval => Sys2Proof.Machine.execEnable num dir type mps interval s
  | .disable num dir => Sys2Proof.Machine.execDisable num dir s
  | .stall num dir => Sys2Proof.Machine.execStall num dir s
  | .clearStall num dir => Sys2Proof.Machine.execClearStall num dir s
  | .send num dir buf len => Sys2Proof.Machine.execSend num dir buf len s
  | .recv num dir buf len => Sys2Proof.Machine.execRecv num dir buf len s
  | .ep0Send buf len => Sys2Proof.Machine.execEp0Send buf len s
  | .ep0Recv buf len => Sys2Proof.Machine.execEp0Recv buf len s
  | .ep0Status d => Sys2Proof.Machine.execEp0Status d s
  | .armSetup => Sys2Proof.Machine.execArmSetup s
  | .abortEp0 => Sys2Proof.Machine.execAbortEp0 s
  | .complete n => Sys2Proof.Machine.execComplete n s
  | .irq => Sys2Proof.Machine.execIrq s
  | .setDevState target => Sys2Proof.Machine.execSetDevState target s
  | .cmd n typ grp p0 p1 rsc => Sys2Proof.Machine.execCmd n typ grp p0 p1 rsc s

end Sys2Proof.Machine
end

