-- ==== Sys2Proof/Machine/Fetch.lean ====
section
/-! DEFINITION. How a turn of the agenda gives the instruction that runs (log 2), and where the words of an instruction are
placed. -/

namespace Sys2Proof.Machine

/-- What a turn comes to: an instruction to run; an event's instruction, after which S moves its cursor; or nothing more,
the turn being over. -/
inductive Fetched where
  | run (i : Instr)
  | event (i : Instr)
  | done
  deriving DecidableEq, Repr

/-- The instruction of a raw command turn (30_encoding.md R127). -/
def fetchCommand (n : EpIdx) (w p0 p1 : Word) : M Fetched := do
  let s ← get
  match decode s.params.enc .command n (bytesOfWord w ++ bytesOfWord p0 ++ bytesOfWord p1) with
  | .ok i => pure (.run i)
  | .error e => refuse (.undecodable e)

/-- The instruction of H's turn on endpoint `n`: the TRB it works on, or else the TRB at its pointer. A TRB with HWO = 0 makes
H wait whatever its type (42_trb_ring.md R250); with no transfer, or a waiting one, H appends the event it owes, if any. -/
def fetchDescriptor (n : EpIdx) : M Fetched := do
  let s ← get
  match s.hw.ep[n].xfer with
  | .active { job := some j, .. } => pure (.run (Instr.ofTrb n j.kind j.trb))
  | _ =>
    match ← fetchTrb n with
    | none => do
      hSettle n
      pure .done
    | some t =>
      match decode s.params.enc .trb n t.bytes with
      | .ok i => pure (.run i)
      | .error e =>
        if t.flag s.params.enc.trb.hwo then refuse (.undecodable e)
        else do
          hWait n
          pure .done

/-- The instruction of the event word at S's read cursor, if one is pending. A word without a row is logged and passed
(43_event_buffer.md R272, R286, R287, R290). -/
def fetchEvent : M Fetched := do
  let s ← get
  if s.ctx.evt.count = 0 then pure .done
  else do
    let w ← readEventWord
    let t ← get
    match decode t.params.enc .event 0 (bytesOfWord w) with
    | .ok i => pure (.event i)
    | .error e => do
      dispatchReserved w e
      finishEventWord
      pure .done

/-- The instruction of the cached request. The block interprets no request but SET_ADDRESS, and passes over the others
(44_ep0_control.md R352). -/
def fetchSetup : M Fetched := do
  let s ← get
  let p ← written s.ctx.setup
  match decode s.params.enc .setup 0 p.bytes with
  | .ok i => pure (.run i)
  | .error _ => pure .done

/-- What a turn comes to. -/
def fetchTurn : Turn → M Fetched
  | .call i => pure (.run i)
  | .command n w p0 p1 => fetchCommand n w p0 p1
  | .trb n => fetchDescriptor n
  | .event => fetchEvent
  | .setup => fetchSetup
  | .others => do
    othersTurn
    pure .done

/-- With no turn asked for: the platform calls IRQ while the line is asserted, once INIT has returned OK
(43_event_buffer.md R296, 70_reset_and_hazards.md R411); else the other agents act. -/
def idleTurn : M Fetched := do
  let s ← get
  if s.irqAsserted && decide (s.ctx.init = .done) then pure (.run .irq)
  else do
    othersTurn
    pure .done

/-- The agenda without its head, and what its head comes to. -/
def nextTurn : M Fetched := do
  let s ← get
  match s.agenda with
  | [] => idleTurn
  | t :: rest => do
    set { s with agenda := rest }
    fetchTurn t

/-! ### Placing an instruction (log 2) -/

/-- The word of four bytes of a list, from byte `4 * k`. -/
def wordAt (bs : List Byte) (k : Nat) : Word :=
  wordOfBytes (bs.getD (4 * k) 0) (bs.getD (4 * k + 1) 0) (bs.getD (4 * k + 2) 0) (bs.getD (4 * k + 3) 0)

/-- A raw command for endpoint 0 is the next turn. -/
def State.placeCommand (s : State) (bs : List Byte) : State :=
  { s with agenda := .command 0 (wordAt bs 0) (wordAt bs 1) (wordAt bs 2) :: s.agenda }

/-- The TRB stands at the EP0 TRB's place, H's transfer on endpoint 0 points to it, and H's turn is next. -/
def State.placeTrb (s : State) (bs : List Byte) : State :=
  let g := s.params.global s.params.ep0TrbAddr
  let t := (s.setMem (s.mem.writeBytes g bs)).updHEp 0 fun h => { h with xfer := .active (Run.start 0 g), owed := none }
  { t with agenda := .trb 0 :: s.agenda }

/-- The event word stands at S's read cursor, in memory and in no cache line; one word is pending; S's turn is next. -/
def State.placeEvent (s : State) (bs : List Byte) : State :=
  let a := s.params.evtBufAddr + BitVec.ofNat 32 s.ctx.evt.lpos
  let t := (s.invalidate a 4).setMem (writeBack s.params s.mem a (bs.map some))
  let u := (t.updCtx fun c => { c with evt := { c.evt with count := 4 } }).withPending 4
  { u with agenda := .event :: s.agenda }

/-- The packet is the cached request, and S's turn on it is next. -/
def State.placeSetup (s : State) (bs : List Byte) : State :=
  match bs with
  | [b0, b1, b2, b3, b4, b5, b6, b7] =>
    let t := s.updCtx fun c => { c with setup := some (Setup.ofBytes b0 b1 b2 b3 b4 b5 b6 b7) }
    { t with agenda := .setup :: s.agenda }
  | _ => s

/-- The bytes of an instruction of a format, placed so that the next step runs it. -/
def State.place (s : State) (f : Format) (bs : List Byte) : State :=
  match f with
  | .command => s.placeCommand bs
  | .trb => s.placeTrb bs
  | .event => s.placeEvent bs
  | .setup => s.placeSetup bs

end Sys2Proof.Machine
end

