-- ==== Sys2Proof/Machine/Step.lean ====
section
/-! DEFINITION. One step of the machine: one turn (log 2). -/

namespace Sys2Proof.Machine

/-- Run what a turn came to. After an event's instruction S moves its cursor and acknowledges the word
(43_event_buffer.md R272). -/
def runFetched (f : Fetched) (s : State) : Host.Outcome State Fault Refusal :=
  match f with
  | .run i => exec i s
  | .event i =>
    match exec i s with
    | .next t => outcome finishEventWord t
    | .fault r => .fault r
    | .refused r => .refused r
  | .done => .next s

/-- One turn. -/
def step (s : State) : Host.Outcome State Fault Refusal :=
  match nextTurn s with
  | .ok (f, t) => runFetched f t
  | .error (.fault r) => .fault r
  | .error (.refuse r) => .refused r

/-- The state with the instruction of an opcode-table word placed so that the next step runs it (log 2, log 4). -/
def State.withFetchWord (s : State) (nbits w : Nat) : State :=
  s.place (tableFormat nbits (w % 2 ^ nbits)) (tableBytes nbits w)

end Sys2Proof.Machine
end

