-- ==== Sys2Proof/Safety.lean ====
section
/-! DEFINITION. The terms the claims use: silent agents, legal states, safe runs, and the states that the procedures of the
spec leave behind, written as plain updates of the state before them. -/

namespace Sys2Proof.Machine

/-! ### Who may act -/

/-- The other agents do nothing between the accesses of S: no act is listed and none is free; and S reads what its view
gives. -/
abbrev State.quiet (s : State) : Prop := s.env.acts = [] ∧ s.env.isOpen = false ∧ s.env.seen = []

/-- L makes no call inside the next callback. -/
abbrev State.calm (s : State) : Prop := s.env.calls = [] ∧ s.env.isOpen = false

/-- H's next answer to a command, where one is listed. -/
def State.nextAnswer (s : State) : Answer := s.env.answers.headD default

/-- H's next answer comes within the retry budget (spec/40_command_dispatcher.md R152). -/
def State.timely (s : State) : Bool :=
  decide (s.env.answers ≠ []) && decide (s.nextAnswer.wait < s.params.retryBudget)

/-- H's next answer is success, within the retry budget. -/
def State.performs (s : State) : Bool := s.timely && decide (s.nextAnswer.status = s.params.enc.cmd.success)

/-- The registers of PHY_LP_MASK are PHY registers, each named once (spec/30_encoding.md R115). -/
abbrev phyMaskOk (p : Params) : Prop :=
  (∀ x ∈ p.phyLpMask, x.1 = .gusb2phycfg ∨ x.1 = .gusb3pipectl) ∧ (p.phyLpMask.map fun x => x.1).Nodup

/-- INIT has returned OK (spec/70_reset_and_hazards.md R411). -/
abbrev State.initialised (s : State) : Prop := s.ctx.init = .done

/-! ### Legal states and safe runs -/

/-- The record of endpoint `n`: its number and direction, cursors within the ring, a valid resource index exactly while
busy, and as many TRBs outstanding as the cursors say (spec/10_state.md R25, R26, R32; spec/42_trb_ring.md R220, R227). -/
abbrev Ep.legal (n : EpIdx) (e : Ep) : Prop :=
  e.number = n ∧ e.dir = dirOf n ∧ e.enq < ringDepth ∧ e.deq < ringDepth ∧ e.rsc.isSome = e.busy ∧
    e.out ≤ ringDepth ∧ (e.deq + e.out) % ringDepth = e.enq

/-- S's view: at most one entry for each line of the local address space, each a whole line (spec/20_memory.md R79). -/
abbrev State.cacheLegal (s : State) : Prop :=
  s.cache.lines.Pairwise (fun k l => k.idx < l.idx) ∧
    ∀ l ∈ s.cache.lines, l.idx * s.params.cacheLine < 2 ^ 32 ∧ l.bytes.length = s.params.cacheLine

/-- What holds at reset and after every step: memory in its canonical form, S's view made of whole lines, the event cursors
of both sides on a word of the buffer, and every endpoint record legal (spec/10_state.md R33, R38). -/
abbrev State.legal (s : State) : Prop :=
  s.mem.wf = true ∧ s.cacheLegal ∧ s.hw.wpos < evtBufSize ∧ s.hw.wpos % 4 = 0 ∧ s.ctx.evt.lpos < evtBufSize ∧ s.ctx.evt.lpos % 4 = 0 ∧
    ∀ n : EpIdx, Ep.legal n s.ep[n]

/-- The machine as the host runs it stops neither with a fault nor with a refusal within `k` steps
(spec/60_exceptions.md R380, R381). -/
def State.safeFor (s : State) (k : Nat) : Prop := ∃ t : State, Host.Core.run Sys2Proof.core k s = .next t

/-! ### After a command -/

/-- H's hidden state after it has performed a command on endpoint `n` (spec/40_command_dispatcher.md R182). An UPDATE_TRANSFER
of a transfer that H has ended resumes it, or not, as the answer says (spec/70_reset_and_hazards.md R439; log 10). -/
def Hw.performed (h : Hw) (n : EpIdx) (c : Command) (a : Answer) : Hw :=
  match c with
  | .startConfig base => { h with rscUsed := h.rscUsed.filter fun r => decide (r.toNat < base.toNat) }
  | .setEpConfig cfg => { h with ep := h.ep.set n { h.ep[n] with conf := some cfg } }
  | .setXferResource count => { h with ep := h.ep.set n { h.ep[n] with resources := count.toNat } }
  | .getEpState => h
  | .setStall => { h with ep := h.ep.set n { h.ep[n] with stalled := true } }
  | .clearStall => { h with ep := h.ep.set n { h.ep[n] with stalled := false } }
  | .startTransfer g => h.started n a.rsc g
  | .updateTransfer rsc =>
    match h.ep[n].xfer with
    | .idle =>
      match a.resume with
      | none => h
      | some g => if h.indexFree rsc then h.started n rsc g else h
    | .active r =>
      { h with ep := h.ep.set n { h.ep[n] with xfer := .active { r with waiting := false, held := [] } } }
  | .endTransfer _ =>
    match h.ep[n].xfer with
    | .idle => h
    | .active r =>
      { h with
        ep := h.ep.set n { h.ep[n] with xfer := .idle }
        rscUsed := h.rscUsed.filter fun x => decide (x ≠ r.rsc) }

/-- The command registers of an endpoint after a command (spec/40_command_dispatcher.md R150, R170, R181). -/
def DepRegs.completed (e : CmdEnc) (d : DepRegs) (w p0 p1 : Word) (c : Command) (a : Answer) : DepRegs where
  par2 := if c = .getEpState ∧ a.status = e.success then a.word else d.par2
  par1 := p1
  par0 := p0
  cmd := completedWord e w c a

/-- The TRBs handed over and not given back, after a command (spec/10_state.md R30, routes 2 and 3). -/
def settled (e : CmdEnc) (h : List Handed) (n : EpIdx) (c : Command) (p0 p1 : Word) (a : Answer) : List Handed :=
  if c.typ = .startTransfer ∧ a.status ≠ e.success then h.filter fun x => decide (x.trb ≠ p0 ++ p1)
  else if c.typ = .endTransfer ∧ a.status = e.success then h.filter fun x => decide (x.ep ≠ n)
  else h

/-- The state after the words `w`, `p0`, `p1`, which read as command `c`, were issued to endpoint `n` and H gave its next
answer within the retry budget: nothing else has changed. -/
def State.completed (s : State) (n : EpIdx) (w p0 p1 : Word) (c : Command) : State :=
  let a := s.nextAnswer
  { s with
    regs := { s.regs with dep := s.regs.dep.set n (s.regs.dep[n].completed s.params.enc.cmd w p0 p1 c a) }
    hw := if a.status = s.params.enc.cmd.success then s.hw.performed n c a else s.hw
    env := { s.env with answers := s.env.answers.tail }
    handed := settled s.params.enc.cmd (toldOf s.handed n c) n c p0 p1 a }

/-- The state after those words were issued to endpoint `n` and H gave no answer within the retry budget: H executes the
command still, with the answer that comes later, if one does; no TRB has come back (spec/40_command_dispatcher.md R152, R180;
spec/70_reset_and_hazards.md R430). Nothing else has changed. -/
def State.overdue (s : State) (n : EpIdx) (w p0 p1 : Word) (c : Command) : State :=
  { s with
    regs := { s.regs with
      dep := s.regs.dep.set n { par2 := s.regs.dep[n].par2, par1 := p1, par0 := p0, cmd := w } }
    hw := { s.hw with
      ep := s.hw.ep.set n { s.hw.ep[n] with
        cmd := .executing c (s.env.answers.head?.map fun a => { a with wait := a.wait - s.params.retryBudget }) } }
    env := { s.env with answers := s.env.answers.tail }
    handed := toldOf s.handed n c }

/-- The state after those words were issued to endpoint `n`, whatever H answers and whenever: nothing has changed but the
registers, what H holds, the answers left and the TRBs H owns. -/
def State.commanded (s : State) (n : EpIdx) (w p0 p1 : Word) (c : Command) : State :=
  let t := if s.timely then s.completed n w p0 p1 c else s.overdue n w p0 p1 c
  { s with regs := t.regs, hw := t.hw, env := { s.env with answers := s.env.answers.tail }, handed := t.handed }

/-- The same for a command issued with the words 30_encoding.md R104 gives it. -/
def State.issued (s : State) (n : EpIdx) (c : Command) : State :=
  s.commanded n (cmdword s.params.enc c.typ c.param) (c.par0 s.params.enc) (c.par1 s.params.enc) c

/-- The result of a command that H answered `a` (spec/40_command_dispatcher.md R153, spec/30_encoding.md R102). -/
def answerResult (e : CmdEnc) (c : Command) (a : Answer) : Result :=
  if a.status = e.success then (if c.typ = .startTransfer then .okIdx a.rsc else .ok) else .err (statusError e a.status)

/-- The result of a command: the one H's next answer gives, or a timeout where it does not come within the retry budget
(spec/40_command_dispatcher.md R152, R153). -/
def State.commandResult (s : State) (c : Command) : Result :=
  if s.timely then answerResult s.params.enc.cmd c s.nextAnswer else .err .timeout

/-- S can issue a command on endpoint `n`: no other agent acts meanwhile, the PHY bits can be saved, the controller has the
endpoint, no command is executing there, and the encoding record tells its members apart. -/
abbrev State.ready (s : State) (n : EpIdx) : Prop :=
  s.quiet ∧ phyMaskOk s.params ∧ n.val < s.params.numEps ∧ s.hw.ep[n].cmd = .idle ∧ s.params.enc.ok = true

/-- S can issue command `c` on endpoint `n`, and H may give the answer it gives, if it answers within the retry budget at all
(spec/40_command_dispatcher.md R152, R181). -/
abbrev State.commandable (s : State) (n : EpIdx) (c : Command) : Prop :=
  s.ready n ∧ (s.performs = true → s.maySucceed n c s.nextAnswer = true)

/-- Command `c` on endpoint `n` succeeds within the retry budget. -/
abbrev State.granted (s : State) (n : EpIdx) (c : Command) : Prop := s.commandable n c ∧ s.performs = true

/-- S may issue command `c` on endpoint `n`: START_CONFIG on endpoint 0, START_TRANSFER on an idle endpoint,
UPDATE_TRANSFER and END_TRANSFER on a busy one (spec/40_command_dispatcher.md R160, R163, R165, R166). -/
def State.issuable (s : State) (n : EpIdx) : Command → Prop
  | .startConfig _ => n = 0
  | .startTransfer _ => s.ep[n].busy = false
  | .updateTransfer _ => s.ep[n].busy = true ∧ s.ep[n].rsc ≠ none
  | .endTransfer _ => s.ep[n].busy = true ∧ s.ep[n].rsc ≠ none
  | _ => True

/-- After a START_TRANSFER of the TRB at `g` on endpoint `n` (spec/40_command_dispatcher.md R164). -/
def State.started (s : State) (n : EpIdx) (g : GAddr) : State :=
  let t := s.issued n (.startTransfer g)
  if s.performs then t.updEp n fun e => { e with rsc := some s.nextAnswer.rsc, busy := true } else t

/-- After a result was logged, if it is an error (spec/60_exceptions.md R373). -/
def State.loggedIf (s : State) : Result → State
  | .err e => s.updCtx fun c => { c with log := c.log ++ [.error e] }
  | _ => s

/-- After END_TRANSFER with the endpoint's own index, if it is busy, an error or a timeout being logged (spec/44_ep0_control.md R323). -/
def State.aborted (s : State) (n : EpIdx) : State :=
  match s.ep[n].busy, s.ep[n].rsc with
  | true, some r =>
    let t := s.issued n (.endTransfer r)
    if s.performs then t.updEp n Ep.idle else t.loggedIf (s.commandResult (.endTransfer r))
  | _, _ => s

/-- If endpoint `n` is busy, its index is valid and the END_TRANSFER can be issued. -/
abbrev State.abortable (s : State) (n : EpIdx) : Prop :=
  s.ep[n].busy = true → ∃ r, s.ep[n].rsc = some r ∧ s.commandable n (.endTransfer r)

/-! ### After a hand-over -/

/-- Words of a TRB, given by their numbers, written in order in S's view. -/
def State.wordsWritten (s : State) (t : LAddr) (w : TrbWords) : List Nat → State
  | [] => s
  | i :: is => (s.cacheWrite (t + BitVec.ofNat 32 (4 * i)) (bytesOfWord (w.word i))).wordsWritten t w is

/-- The four words of a TRB written in S's view, the control word last (spec/20_memory.md R81). -/
def State.trbWritten (s : State) (t : LAddr) (w : TrbWords) : State := s.wordsWritten t w s.params.enc.trb.order

/-- A TRB written, flushed and handed over (spec/20_memory.md R81, spec/10_state.md R30). -/
def State.handedTo (s : State) (n : EpIdx) (t : LAddr) (w : TrbWords) : State :=
  let u := (s.trbWritten t w).flush t trbBytes
  { u with handed := handedWith s.handed n (s.params.global t) }

/-- The TRB of a submission (spec/30_encoding.md R112). -/
def State.submission (s : State) (buf : LAddr) (size : Nat) (k : TrbKind) : TrbWords :=
  (handedTrb (s.params.global buf) size).words s.params.enc k

/-- OK where a START_TRANSFER succeeds, and its error or timeout otherwise (spec/42_trb_ring.md R222,
spec/44_ep0_control.md R322). -/
def State.startResult (s : State) : Result :=
  if s.performs then .ok else s.commandResult (.startTransfer 0)

/-- The slots of a ring zeroed, from slot 0 on, `k` of them (spec/41_endpoint_lifecycle.md R196). -/
def State.zeroed (s : State) (n : EpIdx) : Nat → State
  | 0 => s
  | k + 1 => (s.zeroed n k).trbWritten (slotAddr s.params n k) { w0 := 0, w1 := 0, w2 := 0, w3 := 0 }

/-- After RingInit of endpoint `n` (spec/41_endpoint_lifecycle.md R196). -/
def State.ringReady (s : State) (n : EpIdx) : State :=
  (((s.zeroed n ringDepth).trbWritten (slotAddr s.params n ringDepth)
    ((linkTrb (s.params.global s.params.ringAddr[n])).words s.params.enc .link)).flush
      s.params.ringAddr[n] (trbBytes * ringSlots)).updEp n fun e => { e with enq := 0, deq := 0, out := 0 }

/-- H owns no TRB of the ring of endpoint `n`. -/
abbrev State.ringFree (s : State) (n : EpIdx) : Prop :=
  ∀ i : Fin 9, s.ownsTrb (s.params.global (slotAddr s.params n i.val)) = false

/-- After the buffer of a send is flushed, if it has bytes (spec/42_trb_ring.md R228, spec/44_ep0_control.md R326). -/
def State.sendReady (s : State) (buf : LAddr) (len : Nat) : State := if len = 0 then s else s.flush buf len

/-- The slot at the enqueue cursor of endpoint `n`. -/
def State.nextSlot (s : State) (n : EpIdx) : LAddr := slotAddr s.params n s.ep[n].enq

/-- `size` is the least multiple of `mps` that is at least `max(len, 1)` (spec/00_scope.md R9, spec/42_trb_ring.md R229). -/
abbrev receives (len mps size : Nat) : Prop :=
  max len 1 ≤ size ∧ size % mps = 0 ∧ size < max len 1 + mps

/-- The size a receive of `len` hands to H on an endpoint whose recorded packet size is `mps`: rounded up to a multiple of it,
and a free value where it is 0 (spec/42_trb_ring.md R229; log 22). -/
abbrev State.receiveSizeIs (s : State) (len : Nat) (mps : BitVec 11) (size : Nat) : Prop :=
  (mps ≠ 0 → receives len mps.toNat size) ∧ (mps = 0 → size = Config.freeRoundup (max len 1) s.env.ctr)

/-- After a receive has its size: where that is a free value, the next free value has the next number. -/
def State.sizedFor (s : State) (mps : BitVec 11) : State :=
  if mps = 0 then s.setEnv { s.env with ctr := s.env.ctr + 1 } else s

/-- After `Enqueue` on endpoint `n`, and the record of the request (spec/42_trb_ring.md R221, R228, R229). -/
def State.enqueued (s : State) (n : EpIdx) (buf : LAddr) (size : Nat) (k : TrbKind) (rounded : Bool) : State :=
  (s.handedTo n (s.nextSlot n) (s.submission buf size k)).updEp n fun e =>
    { e with enq := (e.enq + 1) % ringDepth, out := e.out + 1, buf := some buf, requested := size, rounded := rounded }

/-! ### After ENABLE (spec/41_endpoint_lifecycle.md R191 to R193) -/

/-- START_CONFIG has been issued for the group of endpoint `n`. -/
def Ctx.groupStarted (c : Ctx) (n : EpIdx) : Bool :=
  match groupOf n with
  | .ep0Pair => c.ep0Started
  | .others => c.epsStarted

/-- The context once START_CONFIG has been issued for the group of endpoint `n`. -/
def Ctx.startGroup (c : Ctx) (n : EpIdx) : Ctx :=
  match groupOf n with
  | .ep0Pair => { c with ep0Started := true }
  | .others => { c with epsStarted := true }

/-- After step 1, START_CONFIG having succeeded if it was issued. -/
def State.groupReady (s : State) (n : EpIdx) : State :=
  if s.ctx.groupStarted n then s
  else (s.issued 0 (.startConfig (startBase (groupOf n)))).updCtx fun c => c.startGroup n

/-- After step 2, SET_EP_CONFIG having succeeded. -/
def State.configured (s : State) (n : EpIdx) (cfg : EpConf) : State :=
  (s.issued n (.setEpConfig cfg)).updEp n fun e => { e with mps := some cfg.mps, type := some cfg.type }

/-- Bit `n` of DALEPENA and the flag `enabled` set. -/
def State.markEnabled (s : State) (n : EpIdx) : State :=
  (s.putReg .dalepena (s.regs.dalepena ||| (1#32 <<< n.val))).updEp n fun e => { e with enabled := true }

/-- After step 3, SET_XFER_RESOURCE having succeeded if it was issued. -/
def State.firstEnabled (s : State) (n : EpIdx) : State :=
  if s.ep[n].enabled then s
  else
    let t := (s.issued n (.setXferResource 1)).markEnabled n
    if 2 ≤ n.val then t.ringReady n else t

/-! ### After H's work -/

/-- There is room for an event (spec/43_event_buffer.md R302). -/
abbrev State.hasRoom (s : State) : Prop := s.pendingBytes.toNat + 4 ≤ evtBufSize

/-- After H has appended an event word (spec/43_event_buffer.md R300). -/
def State.reported (s : State) (w : Word) : State :=
  let t := (s.hStore (s.params.global s.params.evtBufAddr + BitVec.ofNat 64 s.hw.wpos) (bytesOfWord w)).withPending
    (s.pendingBytes + 4)
  { t with hw := { s.hw with wpos := (s.hw.wpos + 4) % evtBufSize } }

/-- After H has appended the event it owed on endpoint `n` (spec/42_trb_ring.md R250, spec/44_ep0_control.md R356). -/
def State.reportedOwed (s : State) (n : EpIdx) (r : Report) : State :=
  let t := (s.reported ((Event.xferComplete n r.status r.param).word s.params.enc)).updHEp n fun h => { h with owed := none }
  { t with hw := { t.hw with ctl := s.hw.ctl.afterReport s.hw.ctlNum n r } }

/-- After H has written back the TRB at `ptr`, whose size and control words were `w` and `c` (spec/30_encoding.md R113). -/
def State.writtenBack (s : State) (ptr : GAddr) (w c : Word) (remaining : BitVec 24) (sts : BitVec 4) : State :=
  let e := s.params.enc.trb
  (s.hStore (ptr + BitVec.ofNat 64 e.sizeAt) (bytesOfWord (sizeWritten e w remaining sts))).hStore
    (ptr + BitVec.ofNat 64 e.controlAt) (bytesOfWord (controlWritten e c sts))

/-- H's reads of the TRB at `ptr` see what memory holds: S has written no byte of it since it was flushed, or none is picked
(spec/93_implementation_defined.md 1.3; log 37). -/
abbrev State.hSeesMemory (s : State) (ptr : GAddr) : Prop :=
  s.unflushedAt ptr trbBytes = false ∨ (s.env.fresh = [] ∧ s.env.isOpen = false)

/-- The size and the control word that H finds when it writes back the TRB at `ptr`. -/
abbrev State.backWords (s : State) (ptr : GAddr) (w c : Word) : Prop :=
  s.mem.readWord (ptr + BitVec.ofNat 64 s.params.enc.trb.sizeAt) = some w ∧
    s.mem.readWord (ptr + BitVec.ofNat 64 s.params.enc.trb.controlAt) = some c

/-- H may take up the TRB at the pointer of its transfer `r` on endpoint `n`: it neither waits nor works on one, and owes no
event. -/
abbrev State.takesUp (s : State) (n : EpIdx) (r : Run) : Prop :=
  s.hw.ep[n].xfer = .active r ∧ r.waiting = false ∧ r.job = none ∧ s.hw.ep[n].owed = none

/-- H's transfer on endpoint `n` is `r`. -/
def State.withRun (s : State) (n : EpIdx) (r : Run) : State := s.updHEp n fun h => { h with xfer := .active r }

/-- H's transfer on endpoint `n` over, its index free (spec/42_trb_ring.md R250). -/
def Hw.ended (h : Hw) (n : EpIdx) (rsc : BitVec 7) : Hw :=
  { h with
    ep := h.ep.set n { h.ep[n] with xfer := .idle }
    rscUsed := h.rscUsed.filter fun r => decide (r ≠ rsc) }

/-! ### After the event handlers -/

/-- After the second loop of RESET on an endpoint: CLEAR_STALL, if it is stalled, an error or a timeout being logged
(spec/43_event_buffer.md R281). -/
def State.unstalled (s : State) (n : EpIdx) : State :=
  if s.ep[n].stalled then (s.issued n .clearStall).loggedIf (s.commandResult .clearStall) else s

/-- If endpoint `n` is stalled, the CLEAR_STALL can be issued. -/
abbrev State.unstallable (s : State) (n : EpIdx) : Prop := s.ep[n].stalled = true → s.commandable n .clearStall

/-- After the third loop of RESET on an endpoint (spec/43_event_buffer.md R281). -/
def State.resetOne (s : State) (n : EpIdx) : State :=
  let t := s.updEp n Ep.afterReset
  if 2 ≤ n.val ∧ s.ep[n].enabled = true ∧ s.ep[n].busy = false then t.ringReady n else t

/-- If the ring of endpoint `n` is made anew in the third loop of RESET, H owns no TRB of it. -/
abbrev State.remakeable (s : State) (n : EpIdx) : Prop :=
  2 ≤ n.val → s.ep[n].enabled = true → s.ep[n].busy = false → s.ringFree n

/-- What is done to each endpoint of a list, in order, can be done to each on what those before it leave. -/
def ableOver (able : State → EpIdx → Prop) (after : State → EpIdx → State) : List EpIdx → State → Prop
  | [], _ => True
  | n :: ns, s => able s n ∧ ableOver able after ns (after s n)

/-- After the first two loops of RESET: every busy endpoint ended, and every stalled one cleared, or its error logged. -/
def State.busEnded (s : State) : State :=
  (epList s.params).foldl State.unstalled ((epList s.params).foldl State.aborted s)

/-- After the three loops of RESET (spec/43_event_buffer.md R281). -/
def State.busReset (s : State) : State := (epList s.params).foldl State.resetOne s.busEnded

/-- The three loops of RESET can run to their end: the commands can be issued, and H owns no TRB of a ring that is made anew. -/
abbrev State.busResettable (s : State) : Prop :=
  ableOver State.abortable State.aborted (epList s.params) s ∧
    ableOver State.unstallable State.unstalled (epList s.params) ((epList s.params).foldl State.aborted s) ∧
    ableOver State.remakeable State.resetOne (epList s.params) s.busEnded

/-- After the Set-Address step has programmed an address (spec/44_ep0_control.md R347). -/
def State.addressSet (s : State) (v : BitVec 16) : State :=
  (s.putReg .dcfg (putField s.regs.dcfg s.params.enc.reg.devaddr (v.extractLsb' 0 7))).updCtx fun c =>
    { c with devState := if v = 0 then .default else .addressed }

/-- Why the Set-Address step rejects an address, if it does (spec/44_ep0_control.md R347). -/
def State.addressError (s : State) (v : BitVec 16) : Option Err :=
  if 127 < v.toNat then some .addrRange
  else if s.ctx.devState = .configured then some .addrConfigured
  else none

/-- After a callback in which L makes no call (spec/60_exceptions.md R392). -/
def State.called (s : State) (c : Callback) : State := { s with trace := s.trace ++ [.callback c] }

/-- After a log entry (spec/60_exceptions.md R401). -/
def State.logged (s : State) (e : LogEntry) : State := s.updCtx fun c => { c with log := c.log ++ [e] }

/-- The local address of the size word of the TRB at `t` (spec/30_encoding.md R110). -/
def State.sizeWordAt (s : State) (t : LAddr) : LAddr := t + BitVec.ofNat 32 s.params.enc.trb.sizeAt

/-- The bytes that a size word says remain (spec/42_trb_ring.md R236). -/
def State.remainingIn (s : State) (w : Word) : Nat := (field w (s.params.enc.trb.bufsiz % 32) 24).toNat

/-- After S has invalidated `n` bytes at `a` and read the word at `b` (spec/20_memory.md R79, R82). -/
def State.refetched (s : State) (a : LAddr) (n : Nat) (b : LAddr) : State :=
  (s.invalidate a n).withLine (lineOf s.params b)

/-- After the buffer of an OUT endpoint was invalidated, where `e` is its record (spec/42_trb_ring.md R237). -/
def State.bufferDropped (s : State) (e : Ep) (d : Dir) : State :=
  match d, e.buf with
  | .out, some buf => s.invalidate buf e.requested
  | _, _ => s

/-- An OUT endpoint's record names a buffer. -/
abbrev Ep.hasBuffer (e : Ep) (d : Dir) : Prop := d = .out → e.buf ≠ none

/-- After `Ep0Arm` on endpoint `d` (spec/44_ep0_control.md R322). -/
def State.ep0Armed (s : State) (d : EpIdx) (buf : LAddr) (size : Nat) (k : TrbKind) : State :=
  let t := (s.handedTo d s.params.ep0TrbAddr (s.submission buf size k)).started d (s.params.global s.params.ep0TrbAddr)
  if s.performs then t.updEp d fun e => { e with buf := some buf, requested := size } else t

/-- After an EP0 operation that arms endpoint `d` and records `rounded` on OK (spec/44_ep0_control.md R326 to R328). -/
def State.ep0Submitted (s : State) (d : EpIdx) (buf : LAddr) (size : Nat) (k : TrbKind) (rounded : Bool) : State :=
  let t := s.ep0Armed d buf size k
  if s.performs then t.updEp d fun e => { e with rounded := rounded } else t

/-- The EP0 TRB is S's, and its START_TRANSFER on the idle endpoint `d` can be issued. -/
abbrev State.armable (s : State) (d : EpIdx) : Prop :=
  s.ep[d].busy = false ∧ s.ownsTrb (s.params.global s.params.ep0TrbAddr) = false ∧
    s.commandable d (.startTransfer (s.params.global s.params.ep0TrbAddr))

/-- After the aborts of ARM_SETUP, and its write of the EP0 state (spec/44_ep0_control.md R324). -/
def State.pairAborted (s : State) : State := (s.aborted 0).aborted 1

/-- Both aborts can run. -/
abbrev State.pairAbortable (s : State) : Prop := s.abortable 0 ∧ (s.aborted 0).abortable 1

/-- After ARM_SETUP (spec/44_ep0_control.md R324). -/
def State.setupArmed (s : State) : State :=
  let t := s.pairAborted.updCtx fun c => { c with ep0State := .setup }
  if t.ep0Busy then t.logged .ep0ArmBlocked
  else (t.ep0Armed 0 s.params.setupBufAddr setupLen .controlSetup).loggedIf t.startResult

/-- The result of ARM_SETUP (spec/44_ep0_control.md R324). -/
def State.setupArmResult (s : State) : Result :=
  if s.pairAborted.ep0Busy then .err .busy else s.pairAborted.startResult

/-- ARM_SETUP can run to its end. -/
abbrev State.setupArmable (s : State) : Prop :=
  s.pairAbortable ∧ (s.pairAborted.ep0Busy = false → s.pairAborted.armable 0)

/-- After SET_STALL on endpoint 0 and its record (spec/44_ep0_control.md R344, R347). -/
def State.ep0Stalled (s : State) : State :=
  let t := s.issued 0 .setStall
  if s.performs then t.updEp 0 fun e => { e with stalled := true }
  else t.loggedIf (s.commandResult .setStall)

/-- After the recovery of 44_ep0_control.md R344 and R347: EP0 stalled, no setup pending, the next SETUP armed. -/
def State.recovered (s : State) : State :=
  ((s.ep0Stalled).updEp 0 fun e => { e with pending := false }).setupArmed

/-- That recovery can run to its end. -/
abbrev State.recoverable (s : State) : Prop :=
  s.commandable 0 .setStall ∧ ((s.ep0Stalled).updEp 0 fun e => { e with pending := false }).setupArmable

end Sys2Proof.Machine
end

