-- ==== Sys2Proof/Certificates/Slice0/Obligations.lean ====
section
/-! DEFINITION. The statements for the provers. Each says what the rules of spec/ it cites say, of this model. A statement
that names a next state as an update of the state before it says by that what is left unchanged: every field, register,
record and byte of memory that the update does not name. -/

open Sys2Proof Sys2Proof.Machine

/-! ### Encoding -/

/-- Every instruction that has words decodes from the words it encodes to, every operand at every value, under every
encoding record that tells its members apart (spec/00_scope.md R14, spec/30_encoding.md R100 to R126). What a decoder does
not read is log 23 and log 26. -/
def Obligations.DecodeOfEncode : Prop :=
  ∀ (enc : Enc) (i : Instr) (f : Format) (n : EpIdx),
    enc.ok = true → formatOf i = some (f, n) → decode enc f n (encode enc i) = .ok i

/-- An event word with its reserved bits 0 is the word of the event it decodes to (spec/30_encoding.md R121, R123).
Which bits the decoder does not read is the model's choice (log 23). -/
def Obligations.EncodeOfDecodedEvent : Prop :=
  ∀ (enc : Enc) (w : Word) (e : Event),
    enc.ok = true → decodeEvent enc w = .ok e → eventReservedClear enc w = true → e.word enc = w

/-- Words the spec writes out decode to the instructions it says they are (spec/30_encoding.md R103, R112;
spec/44_ep0_control.md R360; spec/43_event_buffer.md R282). Which format a bare word is taken as is the model's choice
(log 4). -/
def Obligations.WrittenWordsDecode : Prop :=
  decodeTableWord 32 0x00020409 = some (.startConfig 2) ∧
  decodeTableWord 32 0x00010C08 = some (.endTransfer 0 1) ∧
  decodeTableWord 32 0x00000200 = some (.evtConnectDone 0) ∧
  decodeTableWord 32 0x000020C3 = some (.evtXferNotReady 1 2 0) ∧
  decodeTableWord 32 0x00000813 = some (.trbNormal 0 { handedTrb 0 0 with bufsiz := 0 }) ∧
  decodeTableWord 64 0x0000000000050500 = some (.setupSetAddress 5 0 0)

/-- A command code and a TRB type that the encoding record gives to no member is no instruction; by the defaults of the spec
these are the codes 0 and 10 to 15, and the types 0 and 10 to 63, TRBCTL_ZLP being 9 (spec/30_encoding.md R101, R111, R129;
log 5). That the decoder refuses them by name is the model's choice (log 23). -/
def Obligations.ReservedCodesAreRefused : Prop :=
  (∀ (enc : Enc) (w p0 p1 : Word), bit w enc.cmd.act = true →
    (∀ t : CmdTyp, t.code enc.cmd ≠ field w enc.cmd.typ 4) →
    decodeCommand enc w p0 p1 = .error (.reservedCommand (field w enc.cmd.typ 4))) ∧
  (∀ (enc : Enc) (t : TrbWords), (∀ k : TrbKind, k.code enc.trb ≠ t.part enc.trb.trbctl 6) →
    decodeTrb enc t = .error (.reservedTrb (t.part enc.trb.trbctl 6))) ∧
  (∀ c : BitVec 4, (∃ t : CmdTyp, t.code hardwareEnc.cmd = c) ↔ (1 ≤ c.toNat ∧ c.toNat ≤ 9)) ∧
  (∀ c : BitVec 6, (∃ k : TrbKind, k.code hardwareEnc.trb = c) ↔ (1 ≤ c.toNat ∧ c.toNat ≤ 9))

/-! ### The step -/

/-- A turn runs the instruction its words decode to, on the state without that turn (log 2). The TRB that H takes up is the
one it holds, or the one its read returns: what memory holds, or, where S has written bytes of it that it has not flushed and
H picks some, those bytes as S wrote them (log 37). -/
def Obligations.StepRunsDecodedInstruction : Prop :=
  ∀ (s : State) (rest : List Turn) (i : Instr),
    let u : State := { s with agenda := rest }
    (s.agenda = .call i :: rest → step s = exec i u) ∧
    (∀ (n : EpIdx) (w p0 p1 : Word), s.agenda = .command n w p0 p1 :: rest →
      decode s.params.enc .command n (bytesOfWord w ++ bytesOfWord p0 ++ bytesOfWord p1) = .ok i → step s = exec i u) ∧
    (∀ (n : EpIdx) (r : Run) (t : TrbWords), s.agenda = .trb n :: rest → s.hw.ep[n].xfer = .active r →
      r.waiting = false → r.job = none → decode s.params.enc .trb n t.bytes = .ok i →
      ((r.heldTrb = some t ∨ (r.heldTrb = none ∧ s.hSeesMemory r.ptr ∧ s.mem.readTrb r.ptr = some t)) → step s = exec i u) ∧
      (∀ (picks : List GAddr) (more : List (List GAddr)), r.heldTrb = none → s.unflushedAt r.ptr trbBytes = true →
        s.env.fresh = picks :: more → s.hTrb picks r.ptr = some t →
        step s = exec i (u.setEnv { s.env with fresh := more }))) ∧
    (∀ (n : EpIdx) (r : Run) (j : Job), s.agenda = .trb n :: rest → s.hw.ep[n].xfer = .active r → r.job = some j →
      step s = exec (Instr.ofTrb n j.kind j.trb) u) ∧
    (∀ p : Setup, s.agenda = .setup :: rest → s.ctx.setup = some p → decode s.params.enc .setup 0 p.bytes = .ok i →
      step s = exec i u) ∧
    (s.agenda = [] → s.irqAsserted = true → s.initialised → step s = exec .irq s)

/-- An event turn runs the instruction of the event word at the read cursor, and then moves the cursor and acknowledges
the word (spec/43_event_buffer.md R272, R278, R279). That a turn may take one word alone is the model's choice (log 2).
-/
def Obligations.StepRunsEventWord : Prop :=
  ∀ (s : State) (rest : List Turn) (i : Instr) (w : Word),
    let a := s.params.evtBufAddr + BitVec.ofNat 32 s.ctx.evt.lpos
    let u : State := ({ s with agenda := rest } : State).withLine (lineOf s.params a)
    s.agenda = .event :: rest → s.quiet → s.ctx.evt.count ≠ 0 → u.viewWord a = some w →
    decode s.params.enc .event 0 (bytesOfWord w) = .ok i →
    (∀ t : State, exec i u = .next t → t.quiet →
      step s = .next ((t.updCtx fun c =>
          { c with evt := { c.evt with lpos := (c.evt.lpos + 4) % evtBufSize, count := c.evt.count - 4 } }).withPending
        (t.pendingBytes - 4))) ∧
    (∀ r : Fault, exec i u = .fault r → step s = .fault r) ∧
    (∀ r : Refusal, exec i u = .refused r → step s = .refused r)

/-! ### Every step -/

/-- Every step from a legal state leads to a legal state. The form of memory and of S's view is the model's choice (log
7, log 8). -/
def Obligations.StepKeepsLegal : Prop :=
  ∀ s t : State, s.legal → step s = .next t → t.legal

/-- The state at reset is legal. The form of memory and of S's view is the model's choice (log 7, log 8). -/
def Obligations.ResetIsLegal : Prop := State.reset.legal

/-- No step changes the launch parameters, the callbacks, the event buffer's place or a read-only identity register, and
the log and what L has observed only grow. That the launch stands in the state, and what L has observed, is the model's
choice (log 5, log 28); that writes to read-only registers are discarded is log 29. -/
def Obligations.StepKeepsLaunch : Prop :=
  ∀ s t : State, step s = .next t →
    t.params = s.params ∧ t.ctx.regBase = s.ctx.regBase ∧ t.ctx.cb = s.ctx.cb ∧
    t.ctx.evt.base = s.ctx.evt.base ∧ t.ctx.evt.size = s.ctx.evt.size ∧
    t.regs.gsnpsid = s.regs.gsnpsid ∧ t.regs.ghwparams0 = s.regs.ghwparams0 ∧ t.regs.ghwparams3 = s.regs.ghwparams3 ∧
    (∃ l, t.ctx.log = s.ctx.log ++ l) ∧ (∃ l, t.trace = s.trace ++ l)

/-- No step makes the EP0 state UNCONNECTED again once INIT has run, makes the device SUSPENDED, wedges an endpoint, or
makes a setup pending on another endpoint than 0. -/
def Obligations.StatesNeverReached : Prop :=
  ∀ s t : State, step s = .next t →
    (s.ctx.init ≠ .notRun → t.ctx.init ≠ .notRun) ∧
    (s.ctx.init ≠ .notRun → s.ctx.ep0State ≠ .unconnected → t.ctx.ep0State ≠ .unconnected) ∧
    (s.ctx.devState ≠ .suspended → t.ctx.devState ≠ .suspended) ∧
    (∀ n : EpIdx, s.ep[n].wedge = false → t.ep[n].wedge = false) ∧
    (∀ n : EpIdx, n ≠ 0 → s.ep[n].pending = false → t.ep[n].pending = false)

/-! ### Commands -/

/-- START_CONFIG, SET_XFER_RESOURCE, SET_STALL and CLEAR_STALL, whatever H answers and whenever, a timeout where no answer
comes within the retry budget. That such a row issues its word through the dispatcher is the model's choice (log 13), as is
where H's answer stands (log 1), and that H takes any count of a SET_XFER_RESOURCE (log 25). -/
def Obligations.PlainCommandsComplete : Prop :=
  (∀ (s : State) (base : BitVec 16), s.commandable 0 (.startConfig base) →
    exec (.startConfig base) s =
      .next ((s.issued 0 (.startConfig base)).setRet (s.commandResult (.startConfig base)))) ∧
  (∀ (s : State) (n : EpIdx) (count : Word), s.commandable n (.setXferResource count) →
    exec (.setXferResource n count) s =
      .next ((s.issued n (.setXferResource count)).setRet (s.commandResult (.setXferResource count)))) ∧
  (∀ (s : State) (n : EpIdx), s.commandable n .setStall →
    exec (.setStall n) s = .next ((s.issued n .setStall).setRet (s.commandResult .setStall))) ∧
  (∀ (s : State) (n : EpIdx), s.commandable n .clearStall →
    exec (.clearStallCmd n) s = .next ((s.issued n .clearStall).setRet (s.commandResult .clearStall)))

/-- SET_EP_CONFIG, whose success gives the record the packet size and the type, and GET_EP_STATE, whose success carries
the state word H wrote into DEPCMDPAR2; an error and a timeout give neither. The rows issue their words through the
dispatcher (log 13); that a type of ISOCHRONOUS is recorded too, and that EP_NUMBER has no effect, is the model's choice
(log 38). -/
def Obligations.ConfigAndStateCommandsComplete : Prop :=
  (∀ (s : State) (n : EpIdx) (cfg : EpConf), s.commandable n (.setEpConfig cfg) →
    exec (.setEpConfig n cfg) s =
      .next ((if s.performs then s.configured n cfg else s.issued n (.setEpConfig cfg)).setRet
        (s.commandResult (.setEpConfig cfg)))) ∧
  (∀ (s : State) (n : EpIdx), s.commandable n .getEpState →
    exec (.getEpState n) s =
      .next ((s.issued n .getEpState).setRet
        (if s.performs then .okState s.nextAnswer.word else s.commandResult .getEpState)))

/-- START_TRANSFER on an idle endpoint: on success the endpoint is busy with the index H gave; on an error neither changes,
and the TRB is S's again; on a timeout neither changes, and the TRB stays handed over if it was. That H is told of the
endpoint's TRBs from the write of DEPCMD on is log 40. That the TRB's address may be no multiple of 16 is log 42, that a
free index alone is asked for log 25. -/
def Obligations.StartTransferCompletes : Prop :=
  ∀ (s : State) (n : EpIdx) (g : GAddr), s.ep[n].busy = false → s.commandable n (.startTransfer g) →
    exec (.startTransfer n g) s =
      .next ((s.started n g).setRet (s.commandResult (.startTransfer g)))

/-- UPDATE_TRANSFER on a busy endpoint. The index operand is any value, and H acts on the endpoint's transfer whatever it
is: that is the model's choice (log 13), the procedures of S giving `ep[n].rsc` alone (spec/40_command_dispatcher.md R165).
What H does where it has ended the transfer is any value of the ruling for spec/70_reset_and_hazards.md R439: that it
resumes at the TRB its answer names, with the command's index where that is free, or does nothing, is the model's choice
(log 10). That H is told of the endpoint's TRBs from the write of DEPCMD on is log 40. -/
def Obligations.UpdateTransferCompletes : Prop :=
  ∀ (s : State) (n : EpIdx) (rsc : BitVec 7), s.ep[n].busy = true → s.ep[n].rsc ≠ none →
    s.commandable n (.updateTransfer rsc) →
    exec (.updateTransfer n rsc) s =
      .next ((s.issued n (.updateTransfer rsc)).setRet (s.commandResult (.updateTransfer rsc)))

/-- END_TRANSFER on a busy endpoint: on success the endpoint is no longer busy, and its TRBs are S's; on an error or a timeout
both stay. The index operand is any value, and H ends the endpoint's transfer whatever it is: that is the model's choice (log 13),
the procedures of S giving `ep[n].rsc` alone (spec/40_command_dispatcher.md R166). -/
def Obligations.EndTransferCompletes : Prop :=
  ∀ (s : State) (n : EpIdx) (rsc : BitVec 7), s.ep[n].busy = true → s.ep[n].rsc ≠ none →
    s.commandable n (.endTransfer rsc) →
    exec (.endTransfer n rsc) s =
      .next ((if s.performs then (s.issued n (.endTransfer rsc)).updEp n Ep.idle
        else s.issued n (.endTransfer rsc)).setRet (s.commandResult (.endTransfer rsc)))

/-- Cmd, with the words its arguments make: the result H's answer gives, or a timeout. That Cmd alone changes no record of
S, and that its index is H's to ignore, is the model's choice (log 13), as is that H ignores the EP_NUMBER of a
SET_EP_CONFIG (log 38); what UPDATE_TRANSFER does to a transfer that H has ended is log 10 (spec/70_reset_and_hazards.md
R439). That H is told of the endpoint's TRBs from the write of DEPCMD on is log 40. That H performs a START_CONFIG on
another endpoint than 0 too is log 13, that a TRB's address may be no multiple of 16 log 42. -/
def Obligations.CmdCompletes : Prop :=
  ∀ (s : State) (n : EpIdx) (typ : CmdTyp) (grp : EpGroup) (p0 p1 : Word) (rsc : BitVec 7) (c : Command),
    let w := cmdword s.params.enc typ (cmdParam typ grp rsc)
    s.initialised → decodeCommand s.params.enc w p0 p1 = .ok c → (typ = .startTransfer → s.ep[n].busy = false) →
    s.commandable n c →
    exec (.cmd n.val typ grp p0 p1 rsc) s = .next ((s.commanded n w p0 p1 c).setRet (s.commandResult c))

/-- A command that H does not answer within the retry budget ends with ERR_TIMEOUT and is still executing, with the answer
that comes later, if one does; S's records and the ownership of TRBs do not change. That no listed answer means no answer is
the model's choice (log 1). That H is told of the endpoint's TRBs from the write of DEPCMD on is log 40. -/
def Obligations.UnansweredCommandTimesOut : Prop :=
  ∀ (s : State) (n : EpIdx) (c : Command), s.issuable n c → s.ready n → s.timely = false →
    exec (Instr.ofCommand n c) s =
      .next ((s.overdue n (cmdword s.params.enc c.typ c.param) (c.par0 s.params.enc) (c.par1 s.params.enc) c).setRet
        (.err .timeout))

/-- Cmd returns exactly one of success, a hardware error and a timeout, whatever the other agents do. -/
def Obligations.CmdReturnsOneResult : Prop :=
  ∀ (s t : State) (n : Nat) (typ : CmdTyp) (grp : EpGroup) (p0 p1 : Word) (rsc : BitVec 7),
    exec (.cmd n typ grp p0 p1 rsc) s = .next t →
    (t.ret = .ok ∧ typ ≠ .startTransfer) ∨ ((∃ idx, t.ret = .okIdx idx) ∧ typ = .startTransfer) ∨
      t.ret = .err .noResource ∨ t.ret = .err .busExpiry ∨ t.ret = .err .unknownStatus ∨ t.ret = .err .timeout

/-- Cmd restores the PHY registers, whatever its result. -/
def Obligations.CmdRestoresPhyBits : Prop :=
  ∀ (s t : State) (n : Nat) (typ : CmdTyp) (grp : EpGroup) (p0 p1 : Word) (rsc : BitVec 7),
    s.quiet → phyMaskOk s.params → exec (.cmd n typ grp p0 p1 rsc) s = .next t →
    t.regs.gusb2phycfg = s.regs.gusb2phycfg ∧ t.regs.gusb3pipectl = s.regs.gusb3pipectl

/-- Where a command faults: a START_TRANSFER on a busy endpoint, a command that uses the index of an endpoint that is
not busy, and a command to an endpoint where H still executes one. The first two are raised at the raw command rows by
the model's choice (log 13). -/
def Obligations.CommandsFault : Prop :=
  (∀ (s : State) (n : EpIdx) (g : GAddr), n.val < s.params.numEps → s.ep[n].busy = true →
    exec (.startTransfer n g) s = .fault .doubleStart) ∧
  (∀ (s : State) (n : EpIdx) (rsc : BitVec 7), n.val < s.params.numEps → s.ep[n].busy = false →
    exec (.updateTransfer n rsc) s = .fault .rscInvalid ∧ exec (.endTransfer n rsc) s = .fault .rscInvalid) ∧
  (∀ (s : State) (n : EpIdx) (c d : Command) (x : Option Answer), s.issuable n c → s.quiet → phyMaskOk s.params →
    n.val < s.params.numEps → s.hw.ep[n].cmd = .executing d x →
    exec (Instr.ofCommand n c) s = .fault .cmdWhileActive)

/-- A command on an endpoint the controller lacks is refused, with no access made. -/
def Obligations.MissingEndpointIsRefused : Prop :=
  (∀ (s : State) (n : Nat) (typ : CmdTyp) (grp : EpGroup) (p0 p1 : Word) (rsc : BitVec 7),
    s.initialised → s.params.numEps ≤ n → exec (.cmd n typ grp p0 p1 rsc) s = .refused .cmdBadEp) ∧
  (∀ (s : State) (n : EpIdx) (c : Command), (c.typ = .startConfig → n = 0) → s.params.numEps ≤ n.val →
    exec (Instr.ofCommand n c) s = .refused .cmdBadEp)

/-! ### TRBs -/

/-- A TRB that carries data, a status stage or a zero-length packet, which H owns and takes up, or works on already: the
data of an OUT TRB follows what was moved before in its buffer. The TRB ends where BUFSIZ bytes have come, with a short
packet, at once where it is a ZLP TRB, and otherwise where the host says so (a packet of no bytes, or an IN TRB that ends
with bytes left); where it does not end, H waits for more. Where it does, the TRB is written back, which makes it S's
(spec/10_state.md R30), the completion is reported, and the transfer ends or goes on to the next TRB. The buffer of an IN
TRB that S has handed over H does not read before the START_TRANSFER or UPDATE_TRANSFER that follows: nothing is moved then,
and the TRB stays H's (spec/20_memory.md R83). That this holds from the write of DEPCMD on is log 40, that the isochronous
types run so log 16, what a stalled endpoint does, and to which control transfer a report belongs, log 17, that the report
follows the endpoint's configuration log 18, the reported status log 31, the steps H's work is cut into and what of an end
the host says log 10, what H reads of a TRB log 37. That CHN, CSP and ISP_IMI have no effect is log 41, that the TRB may
stand at any address log 42, that a CLEAR_STALL of endpoint 1 ends no stall of endpoint 0 there log 17. That a ZLP TRB on an
OUT endpoint, of which R250 says nothing, ends with no byte stored and BUFSIZ bytes remaining is the model's choice (log 10). -/
def Obligations.DataTrbCompletes : Prop :=
  ∀ (s : State) (n : EpIdx) (k : TrbKind) (f : TrbFields) (r : Run) (j : Job) (m : Moved) (ms : List Moved)
    (w c : Word),
    let len := movedLen k f j.len m.bytes.length
    let v : State := { s with env := { s.env with moved := ms } }
    let u := if dirOf n = .out then v.hStore (f.buf + BitVec.ofNat 64 j.len) (m.bytes.take len) else v
    let t := u.writtenBack r.ptr w c (f.bufsiz - BitVec.ofNat 24 (j.len + len)) m.sts
    let reported := (f.ioc || f.lst) && s.reportsComplete n
    let ends := s.endsTrb n k f j.len m
    let begun : Run := if r.job = none then r.dropHeld r.ptr else r
    let early : Prop := dirOf n = .inp ∧ 0 < len ∧ ∃ x ∈ s.handed, x.trb = r.ptr ∧ x.told = false
    let x := if reported then
        t.reportedOwed n { status := m.evStatus, param := m.evParam, kind := k, threeStage := false
                           transfer := s.hw.ctlNum } else t
    k ≠ .link → k ≠ .controlSetup → s.hw.ep[n].xfer = .active r → s.hw.ep[n].owed = none →
    ((r.waiting = false ∧ r.job = none ∧ f.hwo = true ∧ j = Job.start k f) ∨
      (r.job = some j ∧ j.phase = .moving ∧ j.kind = k ∧ j.trb = f)) →
    s.hStalled n = false → s.env.moved = m :: ms →
    ((k = .zlp ∨ f.bufsiz.toNat ≤ j.len + m.bytes.length ∨ shortPacket (s.packetSize n) m.bytes.length = true ∨
      m.last = true) ↔ ends = true) ∧
    (early → exec (Instr.ofTrb n k f) s = .next (v.withRun n { begun with job := some j })) ∧
    (¬ early →
      (ends = false →
        exec (Instr.ofTrb n k f) s =
          .next (u.withRun n { begun with job := some (j.after s.hw.ctlNum len m false) })) ∧
      (ends = true → s.params.enc.ok = true → s.hSeesMemory r.ptr → u.backWords r.ptr w c →
        (reported = true → s.hasRoom) →
        t.ownsTrb r.ptr = false ∧ exec (Instr.ofTrb n k f) s = .next (if f.lst then { x with hw := x.hw.ended n r.rsc }
          else x.withRun n { r.dropHeld r.ptr with ptr := r.ptr + 16, job := none })))

/-- The SETUP TRB, which H owns and takes up: the packet goes to its buffer, the TRB is written back with 0 remaining, which
makes it S's (spec/10_state.md R30), the transfer ends and with it a stall of the pair, a control transfer begins, and the
completion is reported. The buffer is the TRB's, all of the packet goes there and 0 remain whatever its BUFSIZ is, and the
stage and the number of the control transfer are recorded, by the model's choice (log 17); that the completion is appended
only where the endpoint's configuration enables it is log 18 (spec/60_exceptions.md R385), the reported status log 31, what
H reads of the TRB log 37. That CHN, CSP and ISP_IMI have no effect is log 41, that the TRB may stand at any address log 42.
-/
def Obligations.SetupTrbCompletes : Prop :=
  ∀ (s : State) (n : EpIdx) (f : TrbFields) (r : Run) (a : Arrival) (as : List Arrival) (w c : Word),
    let u := s.hStore f.buf a.packet.bytes
    let v : State := { u.writtenBack r.ptr w c 0 a.sts with
      hw := { s.hw.ended n r.rsc with ctl := .none, ctlNum := s.hw.ctlNum + 1 }
      env := { s.env with setups := as } }
    let t := (v.updHEp 0 fun h => { h with stalled := false }).updHEp 1 fun h => { h with stalled := false }
    s.takesUp n r → f.hwo = true → s.env.setups = a :: as → s.params.enc.ok = true → s.hSeesMemory r.ptr →
    u.backWords r.ptr w c →
    (s.reportsComplete n = true → s.hasRoom) →
    (u.writtenBack r.ptr w c 0 a.sts).ownsTrb r.ptr = false ∧
    exec (.trbControlSetup n f) s = .next (if s.reportsComplete n then
      t.reportedOwed n { status := a.evStatus, param := a.evParam, kind := .controlSetup,
                         threeStage := decide (a.packet.wLength ≠ 0), transfer := s.hw.ctlNum + 1 } else t)

/-- A link TRB, which H owns for ever: the transfer's pointer moves to the TRB's buffer pointer, what H held of the link TRB
is used up, and nothing else changes. That CHN, CSP and ISP_IMI have no effect is log 41, that the pointer may become any
address log 42. -/
def Obligations.LinkTrbIsFollowed : Prop :=
  ∀ (s : State) (n : EpIdx) (f : TrbFields) (r : Run), s.takesUp n r → f.hwo = true →
    exec (.trbLink n f) s = .next (s.withRun n { r.dropHeld r.ptr with ptr := f.buf })

/-- A TRB of any type that H does not own makes the transfer wait; a waiting or idle transfer processes nothing, and H
appends the event it owes of the TRB before, where it owes one; no room for that is a fault. That H may owe an event then, and
drops what it holds where it waits, is the model's cut of its work (log 10). -/
def Obligations.UnownedTrbWaits : Prop :=
  (∀ (s : State) (n : EpIdx) (k : TrbKind) (f : TrbFields) (r : Run), s.takesUp n r → f.hwo = false →
    exec (Instr.ofTrb n k f) s = .next (s.withRun n { r with waiting := true, held := [] })) ∧
  (∀ (s : State) (n : EpIdx) (k : TrbKind) (f : TrbFields), s.hw.ep[n].xfer.unarmed = true →
    s.hw.ep[n].xfer.working = false →
    (s.hw.ep[n].owed = none → exec (Instr.ofTrb n k f) s = .next s) ∧
    (∀ r : Report, s.hw.ep[n].owed = some r → s.hasRoom → exec (Instr.ofTrb n k f) s = .next (s.reportedOwed n r)) ∧
    (∀ r : Report, s.hw.ep[n].owed = some r → ¬ s.hasRoom → exec (Instr.ofTrb n k f) s = .fault .eventOverflow))

/-! ### Events -/

/-- LINK_STATE_CHANGE caches the new link state, and the other events that have no action are logged: WAKEUP,
HIBERNATION_REQ, XFER_IN_PROGRESS, EP_CMD_COMPLETE, and XFER_NOT_READY of an endpoint beyond the pair. Nothing else
changes. An endpoint event that names an endpoint the controller lacks faults. -/
def Obligations.PassiveEventsComplete : Prop :=
  (∀ (s : State) (info : BitVec 9),
    exec (.evtLinkStateChange info) s = .next (s.updCtx fun c => { c with linkState := some (info.extractLsb' 0 4) }) ∧
    exec (.evtWakeup info) s = .next (s.logged .wakeup) ∧
    exec (.evtHibernationReq info) s = .next (s.logged .hibernationReq)) ∧
  (∀ (s : State) (n : EpIdx) (st : BitVec 4) (p : BitVec 16), n.val < s.params.numEps →
    exec (.evtXferInProgress n st p) s = .next (s.logged (.ignoredEpEvent n s.params.enc.evt.xferInProgress)) ∧
    exec (.evtEpCmdComplete n st p) s = .next (s.logged (.ignoredEpEvent n s.params.enc.evt.epCmdComplete)) ∧
    (2 ≤ n.val → exec (.evtXferNotReady n st p) s =
      .next (s.logged (.ignoredEpEvent n s.params.enc.evt.xferNotReady)))) ∧
  (∀ (s : State) (n : EpIdx) (st : BitVec 4) (p : BitVec 16), s.params.numEps ≤ n.val →
    exec (.evtXferComplete n st p) s = .fault .eventBadEp ∧ exec (.evtXferInProgress n st p) s = .fault .eventBadEp ∧
    exec (.evtXferNotReady n st p) s = .fault .eventBadEp ∧ exec (.evtEpCmdComplete n st p) s = .fault .eventBadEp)

/-- What H may append on its own account, and that a word it may not append changes nothing: a device event that DEVTEN
enables; XFER_NOT_READY that the endpoint's configuration enables, on the control pair only while no TRB is armed there, after
the XFER_COMPLETE of the SETUP stage and, for the status stage of a 3-stage transfer, of the data stage; no XFER_COMPLETE,
XFER_IN_PROGRESS or EP_CMD_COMPLETE of an endpoint it has; any other word. That these are the events withheld is deduced from
the rules by the model; that a stall of endpoint 0 withholds no XFER_NOT_READY of the control pair is its choice (log 18). -/
def Obligations.OwnEventsAreGated : Prop :=
  ∀ (s : State) (w : Word) (rest : List Turn) (more : List (List Act)),
    let u : State := ({ s with agenda := rest } : State).setEnv { s.env with acts := more }
    let withheld : Prop := step s = .next u
    let appended : Prop := (s.hasRoom → step s = .next (u.reported w)) ∧ (¬ s.hasRoom → step s = .fault .eventOverflow)
    s.agenda = .others :: rest → s.env.acts = [.event w] :: more →
    (∀ (e : Event) (b : Nat), decodeEvent s.params.enc w = .ok e → devtenBit s.params.enc.reg e = some b →
      (bit s.regs.devten b = true → appended) ∧ (bit s.regs.devten b = false → withheld)) ∧
    (∀ (n : EpIdx) (st : BitVec 4) (p : BitVec 16),
      let stage := stageOf s.params.enc.evt st
      decodeEvent s.params.enc w = .ok (.xferNotReady n st p) → n.val < s.params.numEps →
      (s.reportsNotReady n = false → withheld) ∧
      (s.reportsNotReady n = true →
        (2 ≤ n.val → appended) ∧
        (n.val < 2 → (s.hw.ep[n].xfer.unarmed = false ∨ stage = .neither ∨ s.hw.ctl = .none ∨
          (stage = .controlStatus ∧ s.hw.ctl = .setupDone true)) → withheld) ∧
        (n.val < 2 → s.hw.ep[n].xfer.unarmed = true → s.hw.ctl ≠ .none →
          (stage = .controlData ∨ (stage = .controlStatus ∧ s.hw.ctl ≠ .setupDone true)) → appended))) ∧
    (∀ (n : EpIdx) (st : BitVec 4) (p : BitVec 16),
      (decodeEvent s.params.enc w = .ok (.xferComplete n st p) ∨ decodeEvent s.params.enc w = .ok (.xferInProgress n st p) ∨
        decodeEvent s.params.enc w = .ok (.epCmdComplete n st p)) → n.val < s.params.numEps → withheld) ∧
    (∀ (n : EpIdx) (st : BitVec 4) (p : BitVec 16),
      (decodeEvent s.params.enc w = .ok (.xferComplete n st p) ∨ decodeEvent s.params.enc w = .ok (.xferInProgress n st p) ∨
        decodeEvent s.params.enc w = .ok (.xferNotReady n st p) ∨ decodeEvent s.params.enc w = .ok (.epCmdComplete n st p)) →
      s.params.numEps ≤ n.val → appended) ∧
    (∀ x : DecodeError, decodeEvent s.params.enc w = .error x → appended)

/-- DISCONNECT: the control pair aborted, no setup pending, the states set, the callback called. -/
def Obligations.DisconnectCompletes : Prop :=
  ∀ (s : State) (info : BitVec 9), s.calm → s.pairAbortable →
    exec (.evtDisconnect info) s =
      .next (((s.pairAborted.updCtx fun c => { c with ep0State := .setup, devState := .unattached }).updEp 0 fun e =>
        { e with pending := false }).called .onDisconnect)

/-- RESET, with busy and stalled endpoints among them or none: END_TRANSFER of every busy endpoint, then CLEAR_STALL of every
stalled one, whatever H answers and whenever, an error or a timeout being logged; then every record cleared, and the ring made
anew of every endpoint from 2 on that is enabled and not busy; the device address 0, the callback called. -/
def Obligations.BusResetCompletes : Prop :=
  ∀ (s : State) (info : BitVec 9), s.quiet → s.calm → s.busResettable →
    exec (.evtReset info) s =
      .next (((s.busReset.putReg .dcfg (putField s.regs.dcfg s.params.enc.reg.devaddr 0#7)).updCtx fun c =>
        { c with devState := .default, ep0State := .setup }).called .onReset)

/-- RESET on every state, busy and stalled endpoints among it: what it clears and what it keeps, where it completes. An
endpoint whose END_TRANSFER failed, or timed out, keeps its index, its cursors, what it has handed to H, its ring, and H's
transfer; one whose END_TRANSFER succeeded has no index and H no transfer; one enabled from 2 on that is not busy has its
cursors at 0. What holds of H's transfers, and of what stays handed to H, is said for an ENC that tells its members apart
(`Enc.ok`), which INIT checks and no step changes. -/
def Obligations.BusResetClearsAndKeeps : Prop :=
  ∀ (s t : State) (info : BitVec 9), s.quiet → s.calm → phyMaskOk s.params → exec (.evtReset info) s = .next t →
    (∀ n : EpIdx, n.val < s.params.numEps →
      (t.ep[n].busy = true →
        s.ep[n].busy = true ∧ t.ep[n].rsc = s.ep[n].rsc ∧
        (s.params.enc.ok = true →
          (∀ x ∈ s.handed, x.ep = n → x ∈ t.handed) ∧ t.hw.ep[n].xfer = s.hw.ep[n].xfer) ∧
        (2 ≤ n.val → s.params.layoutOk = true → s.params.boundsOk = true → s.cacheLegal →
          (∀ x y : LAddr, s.params.global x = s.params.global y → x = y) →
          ∀ i : Nat, i < trbBytes * ringSlots →
            t.viewByte (s.params.ringAddr[n] + BitVec.ofNat 32 i) = s.viewByte (s.params.ringAddr[n] + BitVec.ofNat 32 i))) ∧
      (t.ep[n].busy = false → s.ep[n].busy = true →
        t.ep[n].rsc = none ∧ (∀ x ∈ t.handed, x.ep ≠ n) ∧ (s.params.enc.ok = true → t.hw.ep[n].xfer = .idle)) ∧
      (2 ≤ n.val → s.ep[n].enabled = true → t.ep[n].busy = false → t.ep[n].enq = 0 ∧ t.ep[n].deq = 0 ∧ t.ep[n].out = 0) ∧
      ((n.val < 2 ∨ s.ep[n].enabled = false ∨ t.ep[n].busy = true) →
        t.ep[n].enq = s.ep[n].enq ∧ t.ep[n].deq = s.ep[n].deq ∧ t.ep[n].out = s.ep[n].out)) ∧
    (∀ n : EpIdx, n.val < s.params.numEps →
      t.ep[n].stalled = false ∧ t.ep[n].wedge = false ∧ t.ep[n].pending = false ∧ t.ep[n].requested = 0 ∧
      t.ep[n].actual = 0 ∧ t.ep[n].rounded = false) ∧
    (∀ n : EpIdx, t.ep[n].enabled = s.ep[n].enabled ∧ t.ep[n].mps = s.ep[n].mps ∧ t.ep[n].type = s.ep[n].type) ∧
    t.regs.dalepena = s.regs.dalepena ∧ t.regs.dcfg = putField s.regs.dcfg s.params.enc.reg.devaddr 0#7 ∧
    t.ctx.ep0Started = s.ctx.ep0Started ∧ t.ctx.epsStarted = s.ctx.epsStarted ∧
    t.ctx.devState = .default ∧ t.ctx.ep0State = .setup ∧ t.trace = s.trace ++ [.callback .onReset]

/-- CONNECT_DONE: the speed and LPM recorded, the callback called, the SETUP TRB armed. That H is told of the endpoint's
TRBs from the write of DEPCMD on is log 40. -/
def Obligations.ConnectDoneCompletes : Prop :=
  ∀ (s : State) (info : BitVec 9),
    let u := ((s.updCtx fun c => { c with speed := some (field s.regs.dsts s.params.enc.reg.connectspd 3), lpm := true }).putReg
      .dcfg (putField s.regs.dcfg s.params.enc.reg.lpmcap 1#1)).called .onConnect
    s.quiet → s.calm → u.setupArmable → exec (.evtConnectDone info) s = .next u.setupArmed

/-! ### The EP0 machine -/

/-- SETUP completion: the packet cached, the transfer classified, the callback called. -/
def Obligations.SetupCompletionCompletes : Prop :=
  ∀ (s : State) (st : BitVec 4) (q : BitVec 16) (p : Setup),
    let a := s.params.setupBufAddr
    let u := (s.updEp 0 fun e => { e.idle with stalled := false }).refetched a setupLen a
    0 < s.params.numEps → s.ctx.ep0State = .setup → s.ep[(0 : EpIdx)].busy = true → s.quiet → s.calm →
    (∀ i : Fin 8, lineOf s.params (a + BitVec.ofNat 32 i.val) = lineOf s.params a ∧
      u.viewByte (a + BitVec.ofNat 32 i.val) = p.bytes[i.val]?) →
    exec (.evtXferComplete 0 st q) s =
      .next (((u.updCtx fun c => c.afterSetup p).updEp 0 fun e => { e with pending := true }).called .onSetupReceived)

/-- A SETUP completion with wLength = 0 never moves the state to DATA; one with wLength > 0 always does. -/
def Obligations.SetupLengthDecidesDataStage : Prop :=
  ∀ (s t : State) (st : BitVec 4) (q : BitVec 16), s.ctx.ep0State = .setup → s.ep[(0 : EpIdx)].busy = true →
    exec (.evtXferComplete 0 st q) s = .next t →
    ∃ p : Setup, t.ctx.setup = some p ∧
      (p.wLength = 0 → t.ctx.ep0State = .status ∧ t.ctx.threeStage = some false) ∧
      (p.wLength ≠ 0 → t.ctx.ep0State = .data ∧ t.ctx.threeStage = some true ∧ t.ctx.ep0Dir = some (setupDir p))

/-- Data completion on a busy endpoint of the pair; more bytes remaining than requested is a fault. -/
def Obligations.DataCompletionCompletes : Prop :=
  ∀ (s : State) (n : EpIdx) (st : BitVec 4) (q : BitVec 16) (w : Word),
    let a := s.params.ep0TrbAddr
    let e := s.ep[n]
    let u := s.refetched a trbBytes (s.sizeWordAt a)
    let rem := s.remainingIn w
    n.val < 2 → n.val < s.params.numEps → s.ctx.ep0State = .data → e.busy = true → s.quiet → s.calm →
    u.viewWord (s.sizeWordAt a) = some w →
    (rem ≤ e.requested → e.hasBuffer (dirOf n) →
      exec (.evtXferComplete n st q) s =
        .next ((((u.updEp n fun x => { x.idle with actual := e.requested - rem }).bufferDropped e (dirOf n)).updCtx
          fun c => { c with ep0State := .status }).called (dataCallback n (dirOf n)))) ∧
    (e.requested < rem → exec (.evtXferComplete n st q) s = .fault .remainingExceedsRequest)

/-- Status completion on a busy endpoint of the pair: no setup pending, the next SETUP armed. That H is told of the
endpoint's TRBs from the write of DEPCMD on is log 40. -/
def Obligations.StatusCompletionCompletes : Prop :=
  ∀ (s : State) (n : EpIdx) (st : BitVec 4) (q : BitVec 16),
    let u := (s.updEp n fun e => { e.idle with actual := 0 }).updEp 0 fun e => { e with pending := false }
    n.val < 2 → n.val < s.params.numEps → s.ctx.ep0State = .status → s.ep[n].busy = true → u.setupArmable →
    exec (.evtXferComplete n st q) s = .next u.setupArmed

/-- The status trigger: already armed; armed now; armed after the address was programmed; the address rejected. That H is
told of the endpoint's TRBs from the write of DEPCMD on is log 40. -/
def Obligations.StatusTriggerCompletes : Prop :=
  ∀ (s : State) (n : EpIdx) (st : BitVec 4) (q : BitVec 16),
    n.val < 2 → n.val < s.params.numEps → s.ctx.ep0State = .status → stageOf s.params.enc.evt st = .controlStatus →
    (s.ep0Busy = true → exec (.evtXferNotReady n st q) s = .next (s.logged .ep0StatusAlreadyArmed)) ∧
    (∀ (p : Setup) (three : Bool), s.ep0Busy = false → s.ctx.setup = some p → s.ctx.threeStage = some three →
      (p.isSetAddress = false → s.armable n →
        exec (.evtXferNotReady n st q) s =
          .next ((s.ep0Submitted n s.params.setupBufAddr 0 (statusKind three) false).loggedIf s.startResult)) ∧
      (p.isSetAddress = true → s.addressError p.wValue = none → s.armable n →
        exec (.evtXferNotReady n st q) s =
          .next (((s.addressSet p.wValue).ep0Submitted n s.params.setupBufAddr 0 (statusKind three) false).loggedIf
            s.startResult)) ∧
      (∀ e : Err, p.isSetAddress = true → s.addressError p.wValue = some e → (s.logged (.error e)).recoverable →
        exec (.evtXferNotReady n st q) s = .next (s.logged (.error e)).recovered))

/-- XFER_NOT_READY in state DATA: nothing where the direction agrees, the recovery where it does not. That H is told of the
endpoint's TRBs from the write of DEPCMD on is log 40. -/
def Obligations.DataNotReadyCompletes : Prop :=
  ∀ (s : State) (n : EpIdx) (st : BitVec 4) (q : BitVec 16) (d : Dir),
    n.val < 2 → n.val < s.params.numEps → s.ctx.ep0State = .data → stageOf s.params.enc.evt st = .controlData → s.ctx.ep0Dir = some d →
    (dirOf n = d → exec (.evtXferNotReady n st q) s = .next s) ∧
    (dirOf n ≠ d → s.abortable (ep0Of d) → (s.aborted (ep0Of d)).recoverable →
      exec (.evtXferNotReady n st q) s = .next (s.aborted (ep0Of d)).recovered)

/-- The EP0 events without an action: logged, and nothing else changes. -/
def Obligations.OtherEp0EventsAreLogged : Prop :=
  ∀ (s : State) (n : EpIdx) (st : BitVec 4) (q : BitVec 16), n.val < 2 → n.val < s.params.numEps →
    (s.ctx.ep0State = .unconnected →
      exec (.evtXferComplete n st q) s = .next (s.logged (.ignoredEp0Event n .unconnected)) ∧
      exec (.evtXferNotReady n st q) s = .next (s.logged (.ignoredEp0Event n .unconnected))) ∧
    (s.ctx.ep0State = .setup →
      ((n ≠ 0 ∨ s.ep[(0 : EpIdx)].busy = false) →
        exec (.evtXferComplete n st q) s = .next (s.logged (.ignoredEp0Event n .setup))) ∧
      exec (.evtXferNotReady n st q) s = .next (s.logged (.ignoredEp0Event n .setup))) ∧
    (s.ctx.ep0State = .data →
      (s.ep[n].busy = false → exec (.evtXferComplete n st q) s = .next (s.logged (.ignoredEp0Event n .data))) ∧
      (stageOf s.params.enc.evt st ≠ .controlData →
        exec (.evtXferNotReady n st q) s = .next (s.logged (.ignoredEp0Event n .data)))) ∧
    (s.ctx.ep0State = .status →
      (s.ep[n].busy = false → exec (.evtXferComplete n st q) s = .next (s.logged (.ignoredEp0Event n .status))) ∧
      (stageOf s.params.enc.evt st ≠ .controlStatus →
        exec (.evtXferNotReady n st q) s = .next (s.logged (.ignoredEp0Event n .status))))

/-- SETUP_SET_ADDRESS: the address programmed and the device state set; an address out of range, or one set while
CONFIGURED, logged and the request stalled. That the row caches the packet and takes the step outside a status trigger is
the model's choice (log 27). That H is told of the endpoint's TRBs from the write of DEPCMD on is log 40. -/
def Obligations.SetAddressCompletes : Prop :=
  ∀ (s : State) (v i l : BitVec 16),
    let u := s.updCtx fun c => { c with setup := some (setAddressPacket v i l) }
    (s.addressError v = none → s.quiet → exec (.setupSetAddress v i l) s = .next ((u.addressSet v).setRet .ok)) ∧
    (∀ e : Err, s.addressError v = some e → (u.logged (.error e)).recoverable →
      exec (.setupSetAddress v i l) s = .next ((u.logged (.error e)).recovered.setRet (.err e)))

/-! ### Completion and the interrupt -/

/-- COMPLETE, called or reached from an event: the TRB at the dequeue cursor is taken, the callback called; a completion of
an idle endpoint is logged; more bytes remaining than requested is a fault. Called, it returns no error. That a call of it
names any endpoint from 2 on, one the controller lacks among them, is the model's choice (log 43). -/
def Obligations.CompleteCompletes : Prop :=
  ∀ (s : State) (n : EpIdx) (i : Instr) (st : BitVec 4) (q : BitVec 16) (w : Word),
    let e := s.ep[n]
    let a := slotAddr s.params n e.deq
    let u := s.refetched a trbBytes (s.sizeWordAt a)
    let rem := s.remainingIn w
    let done (t : State) : State := if i = .complete n then t.setRet .ok else t
    2 ≤ n.val → ((i = .complete n ∧ s.initialised) ∨ (i = .evtXferComplete n st q ∧ n.val < s.params.numEps)) →
    ((e.busy = false ∨ e.out = 0) → exec i s = .next (done (s.logged (.spuriousComplete n)))) ∧
    (e.busy = true → e.out ≠ 0 → s.quiet → s.calm → u.viewWord (s.sizeWordAt a) = some w →
      (rem ≤ e.requested → e.hasBuffer e.dir →
        exec i s = .next (done (((u.updEp n fun x =>
            { x.idle with actual := e.requested - rem, deq := (e.deq + 1) % ringDepth, out := e.out - 1 }).bufferDropped
          e e.dir).called (dataCallback n e.dir)))) ∧
      (e.requested < rem → exec i s = .fault .remainingExceedsRequest))

/-- IRQ with a count of 0: logged, and no register written; with a count that is no multiple of 4, or more than the
buffer holds: a fault. -/
def Obligations.IrqChecksCount : Prop :=
  ∀ s : State, s.initialised → s.quiet →
    (s.pendingBytes = 0 → exec .irq s = .next ((s.logged .spuriousIrq).setRet .ok)) ∧
    (s.pendingBytes ≠ 0 → (s.pendingBytes.toNat % 4 ≠ 0 ∨ evtBufSize < s.pendingBytes.toNat) →
      exec .irq s = .fault .eventCountInvalid)

/-- IRQ with one pending word: the event interrupt masked before and unmasked after, the word dispatched, the cursor moved, the
word acknowledged. Where the word is an event's, its instruction runs: a pending WAKEUP and a pending LINK_STATE_CHANGE always
complete. A word that is no event's is logged and passed: an endpoint event of a reserved type, unless it names an endpoint
the controller lacks; a device word whose class is not 0; a device event of a reserved type. -/
def Obligations.IrqRunsOneWord : Prop :=
  ∀ (s : State) (w : Word),
    let v := s.params.enc.evt
    let a := s.params.evtBufAddr + BitVec.ofNat 32 s.ctx.evt.lpos
    let masked := (s.updCtx fun c => { c with evt := { c.evt with count := 4 } }).putReg .gevntsiz
      (withIntMask s.params.enc.reg s.regs.gevntsiz true)
    let u := masked.refetched s.params.evtBufAddr evtBufSize a
    let drained (t : State) : State :=
      (((t.updCtx fun c => { c with evt := { c.evt with lpos := (c.evt.lpos + 4) % evtBufSize, count := 0 } }).withPending
        (t.pendingBytes - 4)).putReg .gevntsiz (withIntMask t.params.enc.reg t.regs.gevntsiz false)).setRet .ok
    s.initialised → s.quiet → s.pendingBytes = 4 → u.viewWord a = some w →
    (∀ e : Event, decodeEvent s.params.enc w = .ok e →
      (∀ t : State, exec (Instr.ofEvent e) u = .next t → t.quiet → t.ctx.evt.count = 4 →
        exec .irq s = .next (drained t)) ∧
      (∀ info : BitVec 9, e = .wakeup info → exec .irq s = .next (drained (u.logged .wakeup))) ∧
      (∀ info : BitVec 9, e = .linkStateChange info →
        exec .irq s = .next (drained (u.updCtx fun c => { c with linkState := some (info.extractLsb' 0 4) })))) ∧
    (bit w 0 = v.epBit → field w v.epEvt 4 ∉ [v.xferComplete, v.xferInProgress, v.xferNotReady, v.epCmdComplete] →
      ((field w v.epNum 5).toNat < s.params.numEps →
        exec .irq s = .next (drained (u.logged (.ignoredEpEvent (eventEp v w) (field w v.epEvt 4))))) ∧
      (s.params.numEps ≤ (field w v.epNum 5).toNat → exec .irq s = .fault .eventBadEp)) ∧
    (bit w 0 ≠ v.epBit → field w v.devClass 7 ≠ 0 → exec .irq s = .next (drained (u.logged (.unknownEventClass w)))) ∧
    (bit w 0 ≠ v.epBit → field w v.devClass 7 = 0 →
      field w v.devEvt 4 ∉ [v.disconnect, v.reset, v.connectDone, v.linkStateChange, v.wakeup, v.hibernationReq] →
      exec .irq s = .next (drained (u.logged (.reservedDeviceEvent (field w v.devEvt 4)))))

/-- IRQ drains exactly the count it read at entry, whatever the words are and whatever the other agents do meanwhile: where
it completes, the cursor has moved by that count and the buffer's count is 0; each word was acknowledged with 4 bytes, so that
what H has appended since stays counted; and the interrupt is unmasked. A count of 0 is a spurious interrupt. With silent
agents the count is the one before, and none is left. -/
def Obligations.IrqDrainsSnapshot : Prop :=
  ∀ s t : State, s.params.enc.ok = true → phyMaskOk s.params → s.hw.softReset = .idle → s.ctx.evt.lpos < evtBufSize →
    exec .irq s = .next t →
    ∃ c : Nat, c % 4 = 0 ∧ c ≤ evtBufSize ∧ s.pendingBytes.toNat ≤ c ∧
      t.ctx.evt.lpos = (s.ctx.evt.lpos + c) % evtBufSize ∧
      (t.pendingBytes.toNat + c + s.hw.wpos) % evtBufSize = (s.pendingBytes.toNat + t.hw.wpos) % evtBufSize ∧
      (c ≠ 0 → t.ctx.evt.count = 0 ∧ t.regs.gevntsiz = withIntMask s.params.enc.reg s.regs.gevntsiz false) ∧
      (c = 0 → t.ctx = (s.logged .spuriousIrq).ctx ∧ t.regs.gevntsiz = s.regs.gevntsiz) ∧
      (s.quiet → c = s.pendingBytes.toNat ∧ t.pendingBytes = 0)

/-! ### The operations -/

/-- Before INIT has returned OK every other operation is refused; a second INIT is refused, and so is INIT on a launch
whose regions are not laid out as required. That the rows of the word formats are not operations in this sense is the
model's choice (log 12); where the layout is checked is log 14. -/
def Obligations.NothingRunsBeforeInit : Prop :=
  (∀ s : State, ¬ s.initialised →
    (∀ num dir type mps interval, exec (.enable num dir type mps interval) s = .refused .notInitialised) ∧
    (∀ num dir, exec (.disable num dir) s = .refused .notInitialised ∧ exec (.stall num dir) s = .refused .notInitialised ∧
      exec (.clearStall num dir) s = .refused .notInitialised) ∧
    (∀ num dir buf len, exec (.send num dir buf len) s = .refused .notInitialised ∧
      exec (.recv num dir buf len) s = .refused .notInitialised) ∧
    (∀ buf len, exec (.ep0Send buf len) s = .refused .notInitialised ∧
      exec (.ep0Recv buf len) s = .refused .notInitialised) ∧
    (∀ d, exec (.ep0Status d) s = .refused .notInitialised) ∧
    exec .armSetup s = .refused .notInitialised ∧ exec .abortEp0 s = .refused .notInitialised ∧
    (∀ n, exec (.complete n) s = .refused .notInitialised) ∧ exec .irq s = .refused .notInitialised ∧
    (∀ target, exec (.setDevState target) s = .refused .notInitialised) ∧
    (∀ n typ grp p0 p1 rsc, exec (.cmd n typ grp p0 p1 rsc) s = .refused .notInitialised)) ∧
  (∀ s : State, s.ctx.init ≠ .notRun → exec .init s = .refused .reinit) ∧
  (∀ s : State, s.ctx.init = .notRun → s.params.layoutOk = false → exec .init s = .refused .regionLayout)

/-- INIT on a fresh context, with a soft reset that ends within the retry budget and every command granted. How a soft
reset ends stands in the environment (log 1, log 19). After it the EP0 TRB is not armed: its HWO bit is 0 in memory, and what
else of it held no value is free (log 36). -/
def Obligations.InitCompletes : Prop :=
  ∀ (s : State) (img : ResetImage) (imgs : List ResetImage) (a1 a2 a3 a4 a5 : Answer) (rest : List Answer),
    let enc := s.params.enc
    let trb0 := s.params.global s.params.ep0TrbAddr
    s.ctx.init = .notRun → s.params.layoutOk = true → s.params.boundsOk = true → s.quiet → phyMaskOk s.params →
    (∀ x ∈ s.params.phyConfig, x.1 = .gusb2phycfg ∨ x.1 = .gusb3pipectl) →
    s.params.coreIdOk.contains s.regs.gsnpsid = true → s.params.modeOk.contains s.regs.ghwparams0 = true →
    s.hw.softReset = .idle → s.env.resets = img :: imgs → img.wait < s.params.retryBudget →
    s.env.answers = a1 :: a2 :: a3 :: a4 :: a5 :: rest →
    (∀ a ∈ [a1, a2, a3, a4, a5], a.status = enc.cmd.success ∧ a.wait < s.params.retryBudget) →
    s.ctx.ep0Started = false → s.ep[(0 : EpIdx)].enabled = false → s.ep[(1 : EpIdx)].enabled = false →
    ∃ t : State, exec .init s = .next t ∧ t.ret = .ok ∧
      t.ctx = { s.ctx with
        init := .done
        caps := some { numEps := BitVec.ofNat 6 s.params.numEps, numInEps := BitVec.ofNat 5 s.params.numInEps,
                       phyType := s.params.phyType }
        evt := { s.ctx.evt with lpos := 0, count := 0 }
        ep0Started := true
        ep0State := .unconnected } ∧
      (∀ n : EpIdx, t.ep[n] = if n.val < 2 then
          { s.ep[n] with enabled := true, mps := some (BitVec.ofNat 11 s.params.ep0Mps), type := some .control }
        else s.ep[n]) ∧
      t.regs.dalepena = 3 ∧ t.regs.devten = devtenAll enc.reg ∧ bit t.regs.dctl enc.reg.runStop = true ∧
      bit t.regs.dctl enc.reg.csftrst = false ∧ field t.regs.dcfg enc.reg.devaddr 7 = 0 ∧
      field t.regs.gctl enc.reg.prtcapdir 2 = 2 ∧
      t.regs.gevntadrlo = lo32 (s.params.global s.params.evtBufAddr) ∧
      t.regs.gevntadrhi = hi32 (s.params.global s.params.evtBufAddr) ∧
      (field t.regs.gevntsiz enc.reg.evtSize 16).toNat = evtBufSize ∧ bit t.regs.gevntsiz enc.reg.intMask = false ∧
      t.pendingBytes = 0 ∧
      (∀ n : EpIdx, t.hw.ep[n].xfer = .idle ∧ t.hw.ep[n].cmd = .idle ∧ t.hw.ep[n].owed = none) ∧ t.hw.wpos = 0 ∧
      t.mem = s.mem.disarm enc.trb trb0 (Config.freeTrb0 s.env.ctr) ∧
      (∃ w : Word, t.mem.readWord (trb0 + BitVec.ofNat 64 enc.trb.controlAt) = some w ∧
        bit w (enc.trb.hwo % 32) = false) ∧
      t.params = s.params ∧ t.cache = s.cache ∧ t.handed = s.handed ∧ t.agenda = s.agenda ∧ t.trace = s.trace

/-- INIT that fails: on a wrong core, and on a core of a wrong mode, with nothing else changed but that INIT has failed; where
the soft reset does not end within the retry budget; and where one of its commands, after `k` granted ones, is answered with
an error or not within the budget. The device is not started then, and the context holds what was done. That an empty list of
answers means no answer and an empty list of resets a soft reset that never ends is the model's choice (log 1), as is that
DEVTEN then holds the word of the image the soft reset drew (log 19). -/
def Obligations.InitChecksCore : Prop :=
  ∀ s : State, s.ctx.init = .notRun → s.params.layoutOk = true → s.quiet →
    (s.params.coreIdOk.contains s.regs.gsnpsid = false →
      exec .init s = .next ((s.updCtx fun c => { c with init := .failed }).setRet (.err .coreId))) ∧
    (s.params.coreIdOk.contains s.regs.gsnpsid = true → s.params.modeOk.contains s.regs.ghwparams0 = false →
      exec .init s = .next ((s.updCtx fun c => { c with init := .failed }).setRet (.err .mode))) ∧
    (s.params.coreIdOk.contains s.regs.gsnpsid = true → s.params.modeOk.contains s.regs.ghwparams0 = true →
      s.params.boundsOk = true → s.hw.softReset = .idle →
      ((∀ img : ResetImage, s.env.resets.head? = some img → s.params.retryBudget ≤ img.wait) →
        ∃ t : State, exec .init s = .next t ∧ t.ret = .err .softResetTimeout ∧
          t.ctx = { s.ctx with init := .failed } ∧ t.ep = s.ep ∧
          t.regs = { s.regs with dctl := putField s.regs.dctl s.params.enc.reg.csftrst 1#1 } ∧
          t.hw.softReset ≠ .idle ∧ t.mem = s.mem ∧ t.cache = s.cache ∧ t.handed = s.handed ∧ t.trace = s.trace) ∧
      (∀ (img : ResetImage) (imgs : List ResetImage) (good bad : List Answer) (e : Err),
        phyMaskOk s.params → (∀ x ∈ s.params.phyConfig, x.1 = .gusb2phycfg ∨ x.1 = .gusb3pipectl) →
        s.env.resets = img :: imgs → img.wait < s.params.retryBudget →
        s.env.answers = good ++ bad → good.length < 5 →
        (∀ a ∈ good, a.status = s.params.enc.cmd.success ∧ a.wait < s.params.retryBudget) →
        ((bad = [] ∧ e = .timeout) ∨
          ∃ (a : Answer) (as : List Answer), bad = a :: as ∧
            ((s.params.retryBudget ≤ a.wait ∧ e = .timeout) ∨
              (a.wait < s.params.retryBudget ∧ a.status ≠ s.params.enc.cmd.success ∧
                e = statusError s.params.enc.cmd a.status))) →
        s.ctx.ep0Started = false → s.ep[(0 : EpIdx)].enabled = false → s.ep[(1 : EpIdx)].enabled = false →
        ∃ t : State, exec .init s = .next t ∧ t.ret = .err e ∧ t.ctx.init = .failed ∧
          t.ctx.ep0Started = decide (1 ≤ good.length) ∧ t.ctx.ep0State = s.ctx.ep0State ∧
          t.regs.dalepena = (if good.length < 3 then 0 else 1) ∧ t.regs.devten = img.regs.devten ∧
          bit t.regs.dctl s.params.enc.reg.runStop = false ∧ t.mem = s.mem ∧ t.handed = s.handed ∧
          t.trace = s.trace))

/-- ENABLE, first and later, of the control pair and of another endpoint: with every command granted it goes through its
three steps; an error or a timeout of START_CONFIG, of SET_EP_CONFIG or of SET_XFER_RESOURCE is its result, and what the steps
before it did stays. -/
def Obligations.EnableCompletes : Prop :=
  ∀ (s : State) (num : Nat) (dir : Dir) (type : EpType) (mps interval : Nat) (n : EpIdx),
    let base : Command := .startConfig (startBase (groupOf n))
    let cfg := confFor n type mps interval
    let s1 := s.groupReady n
    let s2 := s1.configured n cfg
    s.initialised → n.val = num * 2 + dirBit dir → num ≤ maxLogical → n.val < s.params.numEps → type ≠ .isochronous →
    (num = 0 ↔ type = .control) → 1 ≤ mps → mps ≤ 2047 →
    (s.ctx.groupStarted n = false → s.commandable 0 base → s.performs = false →
      exec (.enable num dir type mps interval) s = .next ((s.issued 0 base).setRet (s.commandResult base))) ∧
    ((s.ctx.groupStarted n = false → s.granted 0 base) →
      (s1.commandable n (.setEpConfig cfg) → s1.performs = false →
        exec (.enable num dir type mps interval) s =
          .next ((s1.issued n (.setEpConfig cfg)).setRet (s1.commandResult (.setEpConfig cfg)))) ∧
      (s1.granted n (.setEpConfig cfg) →
        ((s.ep[n].enabled = false → s2.granted n (.setXferResource 1) ∧ (2 ≤ n.val → s.ringFree n)) →
          exec (.enable num dir type mps interval) s = .next ((s2.firstEnabled n).setRet .ok)) ∧
        (s.ep[n].enabled = false → s2.commandable n (.setXferResource 1) → s2.performs = false →
          exec (.enable num dir type mps interval) s =
            .next ((s2.issued n (.setXferResource 1)).setRet (s2.commandResult (.setXferResource 1))))))

/-- The checks of ENABLE, in order. -/
def Obligations.EnableChecks : Prop :=
  ∀ (s : State) (num : Nat) (dir : Dir) (type : EpType) (mps interval : Nat), s.initialised → s.params.numEps ≤ 32 →
    ((maxLogical < num ∨ s.params.numEps ≤ num * 2 + dirBit dir) →
      exec (.enable num dir type mps interval) s = .next (s.setRet (.err .invalidEp))) ∧
    (num ≤ maxLogical → num * 2 + dirBit dir < s.params.numEps →
      (type = .isochronous → exec (.enable num dir type mps interval) s = .refused .isoUnsupported) ∧
      (type ≠ .isochronous → ¬ (num = 0 ↔ type = .control) →
        exec (.enable num dir type mps interval) s = .next (s.setRet (.err .invalidEp))) ∧
      (type ≠ .isochronous → (num = 0 ↔ type = .control) → (mps = 0 ∨ 2047 < mps) →
        exec (.enable num dir type mps interval) s = .refused .badMps))

/-- DISABLE clears the endpoint's bit of DALEPENA and its flag, and nothing else; an index out of range is an error. -/
def Obligations.DisableCompletes : Prop :=
  ∀ (s : State) (num : Nat) (dir : Dir), s.initialised → s.quiet → s.params.numEps ≤ 32 →
    (∀ n : EpIdx, num ≤ maxLogical → n.val = num * 2 + dirBit dir → n.val < s.params.numEps →
      exec (.disable num dir) s =
        .next (((s.putReg .dalepena (s.regs.dalepena &&& ~~~(1#32 <<< n.val))).updEp n fun e =>
          { e with enabled := false }).setRet .ok)) ∧
    ((maxLogical < num ∨ s.params.numEps ≤ num * 2 + dirBit dir) →
      exec (.disable num dir) s = .next (s.setRet (.err .invalidEp)))

/-- STALL and CLEAR_STALL of an enabled endpoint: the flags follow the command's success, and an error or a timeout is the
result and leaves them; an endpoint that is absent or not enabled is an error. -/
def Obligations.StallAndClearStallComplete : Prop :=
  ∀ (s : State) (num : Nat) (dir : Dir), s.initialised → s.params.numEps ≤ 32 →
    (∀ n : EpIdx, num ≤ maxLogical → n.val = num * 2 + dirBit dir → n.val < s.params.numEps →
      (s.ep[n].enabled = false →
        exec (.stall num dir) s = .next (s.setRet (.err .invalidEp)) ∧
        exec (.clearStall num dir) s = .next (s.setRet (.err .invalidEp))) ∧
      (s.ep[n].enabled = true → s.commandable n .setStall →
        exec (.stall num dir) s =
          .next ((if s.performs then (s.issued n .setStall).updEp n fun e => { e with stalled := true }
            else s.issued n .setStall).setRet (s.commandResult .setStall))) ∧
      (s.ep[n].enabled = true → s.commandable n .clearStall →
        exec (.clearStall num dir) s =
          .next ((if s.performs then
              (s.issued n .clearStall).updEp n fun e => { e with stalled := false, wedge := false }
            else s.issued n .clearStall).setRet (s.commandResult .clearStall)))) ∧
    ((maxLogical < num ∨ s.params.numEps ≤ num * 2 + dirBit dir) →
      exec (.stall num dir) s = .next (s.setRet (.err .invalidEp)) ∧
      exec (.clearStall num dir) s = .next (s.setRet (.err .invalidEp)))

/-- SET_DEV_STATE writes the device state and returns OK. -/
def Obligations.SetDevStateCompletes : Prop :=
  ∀ (s : State) (target : SettableState), s.initialised →
    exec (.setDevState target) s =
      .next ((s.updCtx fun c => { c with devState := devStateOf target }).setRet .ok)

/-- SEND on an enabled IN endpoint with room: the buffer flushed, one TRB of type NORMAL, or ZLP where the length is 0,
handed over in the next slot, and START_TRANSFER or UPDATE_TRANSFER, whatever H answers and whenever: on an error and on a
timeout the cursor and the count of outstanding TRBs stay advanced; on a timeout, and on any error of UPDATE_TRANSFER, the
TRB stays handed over (spec/42_trb_ring.md R242, spec/70_reset_and_hazards.md R430). What H does with an UPDATE_TRANSFER of
a transfer it has ended is any value of the ruling for R439, and the answer that says it is the model's choice (log 10).
That H is told of the endpoint's TRBs from the write of DEPCMD on is log 40. -/
def Obligations.SendCompletes : Prop :=
  ∀ (s : State) (num : Nat) (buf : LAddr) (len : Nat) (n : EpIdx),
    let v := s.sendReady buf len
    let u := v.enqueued n buf len (if len = 0 then .zlp else .normal) false
    let g := s.params.global (s.nextSlot n)
    s.initialised → num ≤ maxLogical → n.val = num * 2 + 1 → 2 ≤ n.val → s.ep[n].enabled = true → len ≤ trbSizeMax →
    s.ep[n].out < ringDepth → v.ownsTrb g = false →
    (s.ep[n].busy = false → s.commandable n (.startTransfer g) →
      exec (.send num .inp buf len) s = .next ((u.started n g).setRet s.startResult)) ∧
    (∀ r : BitVec 7, s.ep[n].busy = true → s.ep[n].rsc = some r → s.commandable n (.updateTransfer r) →
      exec (.send num .inp buf len) s =
        .next ((u.issued n (.updateTransfer r)).setRet (s.commandResult (.updateTransfer r))))

/-- RECV on an enabled OUT endpoint with room: the size rounded up to a multiple of the packet size, the buffer flushed over
it, one NORMAL TRB of that size handed over in the next slot, and START_TRANSFER or UPDATE_TRANSFER, whatever H answers and
whenever: on an error and on a timeout the cursor and the count of outstanding TRBs stay advanced; on a timeout, and on any
error of UPDATE_TRANSFER, the TRB stays handed over (spec/42_trb_ring.md R242, spec/70_reset_and_hazards.md R430). For a
recorded packet size of 0 the size is a free value (log 22). What H does with an UPDATE_TRANSFER of a transfer it has ended
is any value of the ruling for R439, and the answer that says it is the model's choice (log 10). That H is told of the
endpoint's TRBs from the write of DEPCMD on is log 40. -/
def Obligations.RecvCompletes : Prop :=
  ∀ (s : State) (num : Nat) (buf : LAddr) (len size : Nat) (n : EpIdx) (mps : BitVec 11),
    let v := (s.sizedFor mps).flush buf size
    let u := v.enqueued n buf size .normal (decide (size ≠ len))
    let g := s.params.global (s.nextSlot n)
    s.initialised → num ≤ maxLogical → n.val = num * 2 → 2 ≤ n.val → s.ep[n].enabled = true → s.ep[n].mps = some mps →
    s.receiveSizeIs len mps size → size ≤ trbSizeMax →
    s.ep[n].out < ringDepth → v.ownsTrb g = false →
    (s.ep[n].busy = false → s.commandable n (.startTransfer g) →
      exec (.recv num .out buf len) s = .next ((u.started n g).setRet s.startResult)) ∧
    (∀ r : BitVec 7, s.ep[n].busy = true → s.ep[n].rsc = some r → s.commandable n (.updateTransfer r) →
      exec (.recv num .out buf len) s =
        .next ((u.issued n (.updateTransfer r)).setRet (s.commandResult (.updateTransfer r))))

/-- The checks of SEND and RECV, in order, with nothing written before one fails; a full ring is refused. For a recorded
packet size of 0 the size that a check sees is a free value (log 22). -/
def Obligations.SubmissionChecks : Prop :=
  ∀ (s : State) (num : Nat) (dir : Dir) (buf : LAddr) (len : Nat), s.initialised → s.params.numEps ≤ 32 →
    ((maxLogical < num ∨ s.params.numEps ≤ num * 2 + dirBit dir ∨ num = 0) →
      exec (.send num dir buf len) s = .next (s.setRet (.err .invalidEp)) ∧
      exec (.recv num dir buf len) s = .next (s.setRet (.err .invalidEp))) ∧
    (∀ n : EpIdx, num ≤ maxLogical → n.val = num * 2 + dirBit dir → n.val < s.params.numEps → 2 ≤ n.val →
      (s.ep[n].enabled = false →
        exec (.send num dir buf len) s = .next (s.setRet (.err .invalidEp)) ∧
        exec (.recv num dir buf len) s = .next (s.setRet (.err .invalidEp))) ∧
      (s.ep[n].enabled = true →
        (dir = .out → exec (.send num dir buf len) s = .next (s.setRet (.err .wrongDir))) ∧
        (dir = .inp → exec (.recv num dir buf len) s = .next (s.setRet (.err .wrongDir))) ∧
        (dir = .inp → trbSizeMax < len → exec (.send num dir buf len) s = .next (s.setRet (.err .invalidLength))) ∧
        (dir = .inp → len ≤ trbSizeMax → ringDepth ≤ s.ep[n].out →
          exec (.send num dir buf len) s = .refused .ringFull) ∧
        (∀ (mps : BitVec 11) (size : Nat), dir = .out → s.ep[n].mps = some mps → s.receiveSizeIs len mps size →
          (trbSizeMax < size →
            exec (.recv num dir buf len) s = .next ((s.sizedFor mps).setRet (.err .invalidLength))) ∧
          (size ≤ trbSizeMax → ringDepth ≤ s.ep[n].out → exec (.recv num dir buf len) s = .refused .ringFull))))

/-- EP0_SEND, EP0_RECV and EP0_STATUS on an idle pair: the EP0 TRB handed over, of type CONTROL_DATA on endpoint 1 or 0, or
of the status type of the transfer's kind, over the setup buffer and with no data, whatever H answers and whenever: on an
error the record is as before and the TRB is S's again, on a timeout the record is as before and the TRB stays handed over
(spec/44_ep0_control.md R322, spec/70_reset_and_hazards.md R430). For a recorded packet size of 0 the size of a receive is a
free value (log 22). That H is told of the endpoint's TRBs from the write of DEPCMD on is log 40. -/
def Obligations.Ep0OperationsComplete : Prop :=
  (∀ (s : State) (buf : LAddr) (len : Nat), s.initialised → s.ep0Busy = false → len ≤ trbSizeMax →
    (s.sendReady buf len).armable 1 →
    exec (.ep0Send buf len) s =
      .next (((s.sendReady buf len).ep0Submitted 1 buf len .controlData false).setRet s.startResult)) ∧
  (∀ (s : State) (buf : LAddr) (len size : Nat) (mps : BitVec 11), s.initialised → s.ep0Busy = false →
    s.ep[(0 : EpIdx)].mps = some mps → s.receiveSizeIs len mps size → size ≤ trbSizeMax →
    ((s.sizedFor mps).flush buf size).armable 0 →
    exec (.ep0Recv buf len) s =
      .next ((((s.sizedFor mps).flush buf size).ep0Submitted 0 buf size .controlData (decide (size ≠ len))).setRet
        s.startResult)) ∧
  (∀ (s : State) (d : Dir) (three : Bool), s.initialised → s.ep0Busy = false → s.ctx.threeStage = some three →
    s.armable (ep0Of d) →
    exec (.ep0Status d) s =
      .next ((s.ep0Submitted (ep0Of d) s.params.setupBufAddr 0
        (if three then .controlStatus3 else .controlStatus2) false).setRet s.startResult))

/-- The busy and the length checks of the EP0 operations, in order, with nothing written before one fails. For a recorded
packet size of 0 the size that the check sees is a free value (log 22). -/
def Obligations.Ep0Checks : Prop :=
  ∀ (s : State) (buf : LAddr) (len : Nat) (d : Dir), s.initialised →
    (s.ep0Busy = true →
      exec (.ep0Send buf len) s = .next (s.setRet (.err .busy)) ∧
      exec (.ep0Recv buf len) s = .next (s.setRet (.err .recvBusy)) ∧
      exec (.ep0Status d) s = .next (s.setRet (.err .busy))) ∧
    (s.ep0Busy = false →
      (trbSizeMax < len → exec (.ep0Send buf len) s = .next (s.setRet (.err .invalidLength))) ∧
      (∀ (mps : BitVec 11) (size : Nat), s.ep[(0 : EpIdx)].mps = some mps → s.receiveSizeIs len mps size →
        trbSizeMax < size →
        exec (.ep0Recv buf len) s = .next ((s.sizedFor mps).setRet (.err .invalidLength))))

/-- ABORT_EP0 and ARM_SETUP, whatever is in flight on the pair, and whatever H answers and whenever. That H is told of the
endpoint's TRBs from the write of DEPCMD on is log 40. -/
def Obligations.AbortAndArmSetupComplete : Prop :=
  ∀ s : State, s.initialised →
    (s.pairAbortable → exec .abortEp0 s = .next (s.pairAborted.setRet .ok)) ∧
    (s.setupArmable → exec .armSetup s = .next (s.setupArmed.setRet s.setupArmResult))

/-! ### Ownership -/

/-- A write by S to a TRB that H owns faults: of a submission whose slot H owns once the buffer is flushed, of an EP0 operation
or of ARM_SETUP while H owns the EP0 TRB, and of the RingInit of an ENABLE or of a bus reset that meets a slot of H's, in a bus
reset once the rings before it are made anew (spec/10_state.md R30; spec/70_reset_and_hazards.md R433, R434). When a TRB is H's
is log 11; that a stranded TRB makes the RingInit of a bus reset fault is the model's choice (log 35). -/
def Obligations.OwnedTrbIsNotWritten : Prop :=
  ∀ s : State, s.quiet →
    (∀ (num : Nat) (buf : LAddr) (len : Nat) (n : EpIdx), s.initialised → num ≤ maxLogical → 2 ≤ n.val →
      n.val < s.params.numEps → s.ep[n].enabled = true → s.ep[n].out < ringDepth →
      (n.val = num * 2 + 1 → len ≤ trbSizeMax →
        (s.sendReady buf len).ownsTrb (s.params.global (s.nextSlot n)) = true →
        exec (.send num .inp buf len) s = .fault .trbOwnedWrite) ∧
      (∀ (mps : BitVec 11) (size : Nat), n.val = num * 2 → s.ep[n].mps = some mps → s.receiveSizeIs len mps size →
        size ≤ trbSizeMax → (s.flush buf size).ownsTrb (s.params.global (s.nextSlot n)) = true →
        exec (.recv num .out buf len) s = .fault .trbOwnedWrite)) ∧
    (s.initialised → s.ep0Busy = false →
      let g := s.params.global s.params.ep0TrbAddr
      (s.ownsTrb g = true → exec .armSetup s = .fault .trbOwnedWrite) ∧
      (∀ (buf : LAddr) (len : Nat), len ≤ trbSizeMax → (s.sendReady buf len).ownsTrb g = true →
        exec (.ep0Send buf len) s = .fault .trbOwnedWrite) ∧
      (∀ (buf : LAddr) (len size : Nat) (mps : BitVec 11), s.ep[(0 : EpIdx)].mps = some mps →
        s.receiveSizeIs len mps size → size ≤ trbSizeMax → (s.flush buf size).ownsTrb g = true →
        exec (.ep0Recv buf len) s = .fault .trbOwnedWrite) ∧
      (∀ (d : Dir) (three : Bool), s.ctx.threeStage = some three → s.ownsTrb g = true →
        exec (.ep0Status d) s = .fault .trbOwnedWrite)) ∧
    (∀ (num : Nat) (dir : Dir) (type : EpType) (mps interval : Nat) (n : EpIdx),
      s.initialised → n.val = num * 2 + dirBit dir → num ≤ maxLogical → 2 ≤ n.val → type ≠ .isochronous →
      type ≠ .control → 1 ≤ mps → mps ≤ 2047 → s.ep[n].enabled = false → s.ctx.groupStarted n = true →
      s.granted n (.setEpConfig (confFor n type mps interval)) →
      (s.configured n (confFor n type mps interval)).granted n (.setXferResource 1) → ¬ s.ringFree n →
      exec (.enable num dir type mps interval) s = .fault .trbOwnedWrite) ∧
    (∀ (info : BitVec 9) (n : EpIdx),
      (∀ m : EpIdx, m.val < s.params.numEps → s.ep[m].busy = false ∧ s.ep[m].stalled = false) →
      n.val < s.params.numEps → 2 ≤ n.val → s.ep[n].enabled = true →
      ¬ (((epList s.params).takeWhile fun m => decide (m ≠ n)).foldl State.resetOne s).ringFree n →
      exec (.evtReset info) s = .fault .trbOwnedWrite)

/-! ### Memory and reset -/

/-- After an invalidate S reads what memory holds, whatever may be picked for a stale byte, and after a flush memory holds
what S wrote, and H reads it there, whatever H may pick. Local addresses wrap by the model's choice (log 21). -/
def Obligations.CacheOperationsMakeVisible : Prop :=
  ∀ (s : State) (a : LAddr) (k : Nat), 4 ≤ k → k ≤ 31 → s.params.cacheLine = 2 ^ k → s.cacheLegal →
    (∀ (n i : Nat), i < n → n ≤ 2 ^ 31 →
      (s.invalidate a n).viewByte (a + BitVec.ofNat 32 i) =
        s.mem.read1 (s.params.global (a + BitVec.ofNat 32 i)).toNat ∧
      ∀ picks, (s.invalidate a n).seenByte picks (a + BitVec.ofNat 32 i) =
        s.mem.read1 (s.params.global (a + BitVec.ofNat 32 i)).toNat) ∧
    (∀ b : Byte, (∀ x y : LAddr, s.params.global x = s.params.global y → x = y) →
      let t := (s.cacheWrite1 a b).flush a 1
      t.mem.read1 (s.params.global a).toNat = some b ∧ ∀ picks, t.hByte picks (s.params.global a) = some b)

/-- The machine right after attach, in the fields for which the spec gives a value. That memory lists nothing is the
model's choice (log 8); the launch is L0 (log 5). -/
def Obligations.AttachValues : Prop :=
  State.reset.ctx.setup = none ∧ State.reset.ctx.caps = none ∧ State.reset.ctx.linkState = none ∧
  State.reset.ctx.devState = .unattached ∧ State.reset.ctx.ep0State = .unconnected ∧
  State.reset.ctx.threeStage = none ∧ State.reset.ctx.ep0Dir = none ∧ State.reset.ctx.ep0Started = false ∧
  State.reset.ctx.epsStarted = false ∧ State.reset.ctx.speed = none ∧ State.reset.ctx.lpm = false ∧
  State.reset.ctx.log = [] ∧ State.reset.ctx.evt.lpos = 0 ∧ State.reset.ctx.evt.count = 0 ∧
  State.reset.ctx.evt.size = 4096 ∧ State.reset.mem = [] ∧
  ∀ n : EpIdx, State.reset.ep[n] = Ep.attach n
end

