-- ==== Sys2Proof/Laws/Words.lean ====
section
/-! SUPPORT. Fields and bits of words: what reading a field of a written word gives (spec/00_scope.md R9, R10). -/

namespace Sys2Proof

/-- The bits of a word after a field was replaced. -/
theorem getLsbD_putField (w : Word) (lo : Nat) {n : Nat} (v : BitVec n) (i : Nat) (hn : lo + n ≤ 32) :
    (putField w lo v).getLsbD i = if lo ≤ i ∧ i < lo + n then v.getLsbD (i - lo) else w.getLsbD i := by
  unfold putField
  simp only [BitVec.getLsbD_or, BitVec.getLsbD_and, BitVec.getLsbD_not, BitVec.getLsbD_shiftLeft,
    BitVec.truncate_eq_setWidth, BitVec.getLsbD_setWidth, BitVec.getLsbD_allOnes]
  by_cases h1 : lo ≤ i
  · by_cases h2 : i < lo + n
    · have a1 : i < 32 := by omega
      have a2 : ¬ i < lo := by omega
      have a3 : i - lo < n := by omega
      have a4 : i - lo < 32 := by omega
      simp [h1, h2, a1, a2, a3, a4]
    · have a3 : ¬ i - lo < n := by omega
      by_cases a1 : i < 32
      · simp [h2, a1, a3, BitVec.getLsbD_of_ge v (i - lo) (by omega)]
      · simp [h2, a1, BitVec.getLsbD_of_ge w i (by omega)]
  · have a2 : i < lo := by omega
    by_cases a1 : i < 32
    · simp [h1, a1, a2]
    · omega

/-- A field that was just written. -/
@[simp] theorem field_putField_same (w : Word) (lo : Nat) {n : Nat} (v : BitVec n) (hn : lo + n ≤ 32) :
    field (putField w lo v) lo n = v := by
  apply BitVec.eq_of_getLsbD_eq
  intro i hi
  simp [field, getLsbD_putField w lo v (lo + i) hn, hi]

/-- A field beside the one written. -/
theorem field_putField_apart (w : Word) (lo : Nat) {n : Nat} (v : BitVec n) (k m : Nat) (hn : lo + n ≤ 32)
    (h : k + m ≤ lo ∨ lo + n ≤ k) : field (putField w lo v) k m = field w k m := by
  apply BitVec.eq_of_getLsbD_eq
  intro i hi
  have : ¬ (lo ≤ k + i ∧ k + i < lo + n) := by omega
  simp [field, getLsbD_putField w lo v (k + i) hn, this]

/-- A bit of the field written. -/
theorem bit_putField_same (w : Word) (lo : Nat) {n : Nat} (v : BitVec n) (i : Nat) (hn : lo + n ≤ 32)
    (h : lo ≤ i ∧ i < lo + n) : bit (putField w lo v) i = v.getLsbD (i - lo) := by
  unfold bit
  rw [getLsbD_putField w lo v i hn, if_pos h]

/-- A bit beside the field written. -/
theorem bit_putField_apart (w : Word) (lo : Nat) {n : Nat} (v : BitVec n) (i : Nat) (hn : lo + n ≤ 32)
    (h : i < lo ∨ lo + n ≤ i) : bit (putField w lo v) i = bit w i := by
  unfold bit
  rw [getLsbD_putField w lo v i hn, if_neg (by omega)]

/-- Writing back what was read changes nothing. -/
theorem putField_field (w : Word) (lo n : Nat) (hn : lo + n ≤ 32) : putField w lo (field w lo n) = w := by
  apply BitVec.eq_of_getLsbD_eq
  intro i hi
  rw [getLsbD_putField w lo _ i hn]
  split
  · next h =>
    have a : i - lo < n := by omega
    have b : lo + (i - lo) = i := by omega
    simp [field, a, b]
  · rfl

/-- A bit is a field of width 1. -/
theorem bit_eq_field {w : Word} {i : Nat} {b : Bool} (h : field w i 1 = BitVec.ofBool b) : bit w i = b := by
  have := congrArg (fun v => v.getLsbD 0) h
  simpa [field, bit] using this

/-- The low bits of a field. -/
theorem field_low (w : Word) (lo : Nat) {n m : Nat} (h : m ≤ n) : field w lo m = (field w lo n).extractLsb' 0 m := by
  apply BitVec.eq_of_getLsbD_eq
  intro i hi
  simp [field, hi, show i < n by omega]

/-- What a layout says of its first field. -/
theorem layoutOk_cons {f : Nat × Nat} {fs : List (Nat × Nat)} (h : layoutOk (f :: fs) = true) :
    f.1 + f.2 ≤ 32 ∧ (∀ g ∈ fs, f.1 + f.2 ≤ g.1 ∨ g.1 + g.2 ≤ f.1) ∧ layoutOk fs = true := by
  simp only [layoutOk, fieldsApart, Bool.and_eq_true, decide_eq_true_eq, List.all_eq_true, Bool.or_eq_true] at h
  exact ⟨h.1.1, h.1.2, h.2⟩

/-- A field of a packed word reads the value packed there. -/
theorem field_pack {l : List Placed} (h : layoutOk (l.map fun f => (f.lo, f.width)) = true) {f : Placed} (hf : f ∈ l) :
    field (pack l) f.lo f.width = f.val := by
  induction l with
  | nil => cases hf
  | cons g gs ih =>
    obtain ⟨hb, ha, ht⟩ := layoutOk_cons h
    rcases List.mem_cons.1 hf with rfl | hf
    · exact field_putField_same _ _ _ hb
    · have := ha (f.lo, f.width) (List.mem_map.2 ⟨f, hf, rfl⟩)
      unfold pack
      rw [field_putField_apart _ _ _ _ _ hb this.symm]
      exact ih ht hf

/-- A one-bit field of a packed word. -/
theorem bit_pack {l : List Placed} (h : layoutOk (l.map fun f => (f.lo, f.width)) = true) {i : Nat} {b : Bool}
    (hf : (⟨i, 1, BitVec.ofBool b⟩ : Placed) ∈ l) : bit (pack l) i = b := bit_eq_field (field_pack h hf)

/-- The word of the bytes of a word. -/
@[simp] theorem wordOfBytes_bytes (w : Word) :
    wordOfBytes (w.extractLsb' 0 8) (w.extractLsb' 8 8) (w.extractLsb' 16 8) (w.extractLsb' 24 8) = w := by
  apply BitVec.eq_of_getLsbD_eq
  intro i hi
  simp only [wordOfBytes, BitVec.getLsbD_append, BitVec.getLsbD_extractLsb']
  split
  · next h => simp [h]
  · split
    · next h h' => simp only [show i - 8 < 8 by omega, decide_true, Bool.true_and]; congr 1; omega
    · split
      · next h h' h'' => simp only [show i - 8 - 8 < 8 by omega, decide_true, Bool.true_and]; congr 1; omega
      · next h h' h'' => simp only [show i - 8 - 8 - 8 < 8 by omega, decide_true, Bool.true_and]; congr 1; omega

/-- The high and the low word of a global address are the address. -/
@[simp] theorem hi32_append_lo32 (g : GAddr) : hi32 g ++ lo32 g = g := by
  apply BitVec.eq_of_getLsbD_eq
  intro i hi
  simp only [hi32, lo32, BitVec.getLsbD_append, BitVec.getLsbD_extractLsb']
  split
  · next h => simp [h]
  · next h => simp only [show i - 32 < 32 by omega, decide_true, Bool.true_and]; congr 1; omega

end Sys2Proof
end

