-- ==== Sys2Proof/Laws/Encoding.lean ====
section
/-! SUPPORT. The encoding record, and the command words S assembles, read back by the decoder (spec/00_scope.md R14,
spec/30_encoding.md R103 to R105, R127). -/

namespace Sys2Proof

/-! ### The encoding record -/

/-- What an encoding record that tells its members apart gives. -/
structure Enc.Facts (enc : Enc) : Prop where
  cmd : layoutOk enc.cmd.layout = true
  cfg : ∀ i < 2, layoutOk (layoutIn enc.cfg.layout i) = true
  cfgInside : ∀ f ∈ enc.cfg.layout, f.1 < 64
  trb : ∀ i < 4, layoutOk (layoutIn enc.trb.layout i) = true
  trbInside : ∀ f ∈ enc.trb.layout, f.1 < 128
  trbApart : enc.trb.bufsiz / 32 ≠ enc.trb.hwo / 32
  epEvent : layoutOk (epEventLayout enc.evt) = true
  devEvent : layoutOk (devEventLayout enc.evt) = true
  reg : ∀ l ∈ enc.reg.layouts, layoutOk l = true
  cmdCodes : (CmdTyp.all.map (CmdTyp.code enc.cmd)).Nodup
  statusCodes : [enc.cmd.success, enc.cmd.noResource, enc.cmd.busExpiry].Nodup
  cfgCodes : [enc.cfg.control, enc.cfg.isochronous, enc.cfg.bulk, enc.cfg.interrupt].Nodup
  trbCodes : (TrbKind.all.map (TrbKind.code enc.trb)).Nodup
  devCodes : [enc.evt.disconnect, enc.evt.reset, enc.evt.connectDone, enc.evt.linkStateChange, enc.evt.wakeup,
    enc.evt.hibernationReq].Nodup
  epCodes : [enc.evt.xferComplete, enc.evt.xferInProgress, enc.evt.xferNotReady, enc.evt.epCmdComplete].Nodup
  stages : enc.evt.controlData ≠ enc.evt.controlStatus

/-- An encoding record that passes its check gives them all. -/
theorem Enc.ok_facts {enc : Enc} (h : enc.ok = true) : enc.Facts := by
  simp only [Enc.ok, CmdEnc.codesOk, CfgEnc.codesOk, TrbEnc.codesOk, EvtEnc.codesOk, CfgEnc.layouts, CfgEnc.wordsOk,
    TrbEnc.layouts, TrbEnc.wordsOk, Bool.and_eq_true, List.all_map, List.all_eq_true, List.mem_range,
    Function.comp_apply, decide_eq_true_eq] at h
  constructor <;> tauto

/-- The layout of one of several words, from the fields that lie there. -/
theorem map_inWord (l : List Placed) (i : Nat) :
    (inWord l i).map (fun x => (x.lo, x.width)) = layoutIn (l.map fun x => (x.lo, x.width)) i := by
  induction l with
  | nil => rfl
  | cons x xs ih =>
    unfold inWord layoutIn at *
    simp only [List.map_cons, List.filterMap_cons]
    split_ifs <;> simp [ih]

/-- A field of several words that hold a list of fields. -/
theorem partOf_inWord {l : List Placed} {w : Nat → Word} {x : Placed} (hx : x ∈ l)
    (hw : w (x.lo / 32) = pack (inWord l (x.lo / 32)))
    (hl : layoutOk (layoutIn (l.map fun x => (x.lo, x.width)) (x.lo / 32)) = true) : partOf w x.lo x.width = x.val := by
  unfold partOf
  rw [hw]
  refine field_pack (f := ⟨x.lo % 32, x.width, x.val⟩) ?_ ?_
  · rw [map_inWord]; exact hl
  · exact List.mem_filterMap.2 ⟨x, hx, by simp⟩

/-- The first member of a list with a code of its own is the one found for that code. -/
theorem find?_code {α β : Type} [DecidableEq β] {f : α → β} {l : List α} (h : (l.map f).Nodup) {a : α} (ha : a ∈ l) :
    l.find? (fun x => decide (f x = f a)) = some a := by
  induction l with
  | nil => cases ha
  | cons x xs ih =>
    simp only [List.map_cons, List.nodup_cons] at h
    by_cases e : f x = f a
    · rcases List.mem_cons.1 ha with rfl | ha
      · simp
      · exact absurd (List.mem_map.2 ⟨a, ha, e.symm⟩) h.1
    · rcases List.mem_cons.1 ha with rfl | ha
      · exact absurd rfl e
      · simp [e, ih h.2 ha]

/-- Every type of a command has its code. -/
theorem CmdTyp.ofCode_code {enc : Enc} (h : enc.ok = true) (t : CmdTyp) : CmdTyp.ofCode enc.cmd (t.code enc.cmd) = some t :=
  find?_code (Enc.ok_facts h).cmdCodes (by cases t <;> simp [CmdTyp.all])

/-- Every type of a TRB has its code. -/
theorem TrbKind.ofCode_code {enc : Enc} (h : enc.ok = true) (k : TrbKind) :
    TrbKind.ofCode enc.trb (k.code enc.trb) = some k :=
  find?_code (Enc.ok_facts h).trbCodes (by cases k <;> simp [TrbKind.all])

/-- Every type of an endpoint has its code. -/
theorem EpType.ofCode_code {enc : Enc} (h : enc.ok = true) (t : EpType) :
    EpType.ofCode enc.cfg (t.code enc.cfg) = t := by
  have hn := (Enc.ok_facts h).cfgCodes
  simp only [List.nodup_cons, List.mem_cons, List.not_mem_nil, or_false, not_or] at hn
  obtain ⟨⟨h1, h2, h3⟩, ⟨h4, h5⟩, h6, -⟩ := hn
  cases t <;> simp [EpType.ofCode, EpType.code, Ne.symm h1, Ne.symm h2, Ne.symm h3, Ne.symm h4, Ne.symm h5, Ne.symm h6]

/-! ### Command words -/

variable {enc : Enc} (h : enc.ok = true)
include h

/-- The command type of a word that S assembles (30_encoding.md R103). -/
theorem field_cmdword_typ (t : CmdTyp) (q : BitVec 16) : field (cmdword enc t q) enc.cmd.typ 4 = t.code enc.cmd :=
  field_pack (l := cmdFields enc.cmd t q) (Enc.ok_facts h).cmd (f := ⟨enc.cmd.typ, 4, t.code enc.cmd⟩) (by simp [cmdFields])

/-- It starts the command (30_encoding.md R103). -/
theorem bit_cmdword_act (t : CmdTyp) (q : BitVec 16) : bit (cmdword enc t q) enc.cmd.act = true :=
  bit_pack (l := cmdFields enc.cmd t q) (Enc.ok_facts h).cmd (by simp [cmdFields])

/-- It forces END_TRANSFER and no other command (30_encoding.md R104). -/
theorem bit_cmdword_force (t : CmdTyp) (q : BitVec 16) :
    bit (cmdword enc t q) enc.cmd.force = decide (t = .endTransfer) :=
  bit_pack (l := cmdFields enc.cmd t q) (Enc.ok_facts h).cmd (by simp [cmdFields])

/-- Its parameter field (30_encoding.md R103). -/
theorem field_cmdword_param (t : CmdTyp) (q : BitVec 16) : field (cmdword enc t q) enc.cmd.param 16 = q :=
  field_pack (l := cmdFields enc.cmd t q) (Enc.ok_facts h).cmd (f := ⟨enc.cmd.param, 16, q⟩) (by simp [cmdFields])

/-- The resource index in its parameter field (30_encoding.md R104). -/
theorem field_cmdword_rsc (t : CmdTyp) (r : BitVec 7) : field (cmdword enc t (r.zeroExtend 16)) enc.cmd.param 7 = r := by
  rw [field_low (n := 16) _ _ (by omega), field_cmdword_param h]
  apply BitVec.eq_of_getLsbD_eq
  intro i hi
  simp [hi, show i < 16 by omega]

/-- The command of a word that S assembles is of the type S gave it. -/
theorem typ_of_decodeCommand {t : CmdTyp} {q : BitVec 16} {p0 p1 : Word} {c : Command}
    (hd : decodeCommand enc (cmdword enc t q) p0 p1 = .ok c) : c.typ = t := by
  unfold decodeCommand at hd
  rw [bit_cmdword_act h, field_cmdword_typ h, CmdTyp.ofCode_code h, bit_cmdword_force h] at hd
  cases t <;> simp at hd <;> subst hd <;> rfl

/-- A field of a configuration in its two parameter words (30_encoding.md R105). -/
theorem EpConf.part_words (c : EpConf) {x : Placed} (hx : x ∈ c.fields enc.cfg) :
    partOf (parWord (c.word0 enc.cfg) (c.word1 enc.cfg)) x.lo x.width = x.val := by
  have hl : (c.fields enc.cfg).map (fun x => (x.lo, x.width)) = enc.cfg.layout := rfl
  have hi : x.lo / 32 < 2 := by
    have := (Enc.ok_facts h).cfgInside (x.lo, x.width) (hl ▸ List.mem_map.2 ⟨x, hx, rfl⟩)
    simp only at this
    omega
  refine partOf_inWord hx ?_ (by rw [hl]; exact (Enc.ok_facts h).cfg _ hi)
  match x.lo / 32, hi with
  | 0, _ => rfl
  | 1, _ => rfl

/-- A configuration in its two parameter words (30_encoding.md R105). -/
theorem EpConf.ofWords_words (c : EpConf) : EpConf.ofWords enc.cfg (c.word0 enc.cfg) (c.word1 enc.cfg) = c := by
  have p : ∀ x ∈ c.fields enc.cfg, partOf (parWord (c.word0 enc.cfg) (c.word1 enc.cfg)) x.lo x.width = x.val :=
    fun _ => EpConf.part_words h c
  have b : ∀ {q : Nat} {b : Bool}, (⟨q, 1, BitVec.ofBool b⟩ : Placed) ∈ c.fields enc.cfg →
      flagOf (parWord (c.word0 enc.cfg) (c.word1 enc.cfg)) q = b := fun hx => bit_eq_field (EpConf.part_words h c hx)
  unfold EpConf.ofWords
  rw [p ⟨enc.cfg.type, 2, c.type.code enc.cfg⟩ (by simp [EpConf.fields]), p ⟨enc.cfg.mps, 11, c.mps⟩ (by simp [EpConf.fields]),
    p ⟨enc.cfg.fifo, 5, c.fifo⟩ (by simp [EpConf.fields]),
    b (q := enc.cfg.xferCompleteEn) (b := c.xferCompleteEn) (by simp [EpConf.fields]),
    b (q := enc.cfg.xferNotReadyEn) (b := c.xferNotReadyEn) (by simp [EpConf.fields]),
    p ⟨enc.cfg.bintervalM1, 8, c.bintervalM1⟩ (by simp [EpConf.fields]),
    p ⟨enc.cfg.epNumber, 5, c.epNumber⟩ (by simp [EpConf.fields]), EpType.ofCode_code h]

/-- A command with the words 30_encoding.md R104 gives it decodes to itself. -/
theorem decodeCommand_words (c : Command) :
    decodeCommand enc (cmdword enc c.typ c.param) (c.par0 enc) (c.par1 enc) = .ok c := by
  unfold decodeCommand
  rw [bit_cmdword_act h, field_cmdword_typ h, CmdTyp.ofCode_code h, bit_cmdword_force h]
  cases c with
  | startConfig base => simp [Command.typ, Command.param, field_cmdword_param h]
  | setEpConfig cfg => simp [Command.typ, Command.par0, Command.par1, EpConf.ofWords_words h]
  | startTransfer g => simp [Command.typ, Command.par0, Command.par1]
  | updateTransfer r =>
    have := field_cmdword_rsc h .updateTransfer r
    simpa [Command.typ, Command.param] using this
  | endTransfer r =>
    have := field_cmdword_rsc h .endTransfer r
    simpa [Command.typ, Command.param] using this
  | _ => simp [Command.typ, Command.par0]

/-! ### TRBs -/

omit h in
/-- Word `i` of the words of a TRB holds the fields that lie there. -/
theorem TrbFields.word_words (f : TrbFields) (k : TrbKind) {i : Nat} (hi : i < 4) :
    (f.words enc k).word i = pack (inWord (f.fields enc.trb k) i) := by
  match i, hi with
  | 0, _ => rfl
  | 1, _ => rfl
  | 2, _ => rfl
  | 3, _ => rfl

/-- A field of a TRB in the TRB's words (30_encoding.md R110). -/
theorem TrbFields.part_words (f : TrbFields) (k : TrbKind) {x : Placed} (hx : x ∈ f.fields enc.trb k) :
    (f.words enc k).part x.lo x.width = x.val := by
  have hl : (f.fields enc.trb k).map (fun x => (x.lo, x.width)) = enc.trb.layout := rfl
  have hi : x.lo / 32 < 4 := by
    have := (Enc.ok_facts h).trbInside (x.lo, x.width) (hl ▸ List.mem_map.2 ⟨x, hx, rfl⟩)
    simp only at this
    omega
  exact partOf_inWord hx (f.word_words k hi) (by rw [hl]; exact (Enc.ok_facts h).trb _ hi)

/-- A bit of a TRB in the TRB's words (30_encoding.md R110). -/
theorem TrbFields.flag_words (f : TrbFields) (k : TrbKind) {p : Nat} {b : Bool}
    (hx : (⟨p, 1, BitVec.ofBool b⟩ : Placed) ∈ f.fields enc.trb k) : (f.words enc k).flag p = b :=
  bit_eq_field (TrbFields.part_words h f k hx)

/-- The fields of a TRB in its words (30_encoding.md R110). -/
theorem TrbFields.ofWords_words (f : TrbFields) (k : TrbKind) : TrbFields.ofWords enc.trb (f.words enc k) = f := by
  have p : ∀ x ∈ f.fields enc.trb k, (f.words enc k).part x.lo x.width = x.val := fun _ => TrbFields.part_words h f k
  have b : ∀ {q : Nat} {b : Bool}, (⟨q, 1, BitVec.ofBool b⟩ : Placed) ∈ f.fields enc.trb k → (f.words enc k).flag q = b :=
    fun hx => TrbFields.flag_words h f k hx
  unfold TrbFields.ofWords
  rw [p ⟨enc.trb.bph, 32, hi32 f.buf⟩ (by simp [TrbFields.fields]), p ⟨enc.trb.bpl, 32, lo32 f.buf⟩ (by simp [TrbFields.fields]),
    p ⟨enc.trb.bufsiz, 24, f.bufsiz⟩ (by simp [TrbFields.fields]), p ⟨enc.trb.pcm1, 2, f.pcm1⟩ (by simp [TrbFields.fields]),
    p ⟨enc.trb.trbsts, 4, f.trbsts⟩ (by simp [TrbFields.fields]), p ⟨enc.trb.sidSofn, 16, f.sidSofn⟩ (by simp [TrbFields.fields]),
    b (q := enc.trb.hwo) (b := f.hwo) (by simp [TrbFields.fields]), b (q := enc.trb.lst) (b := f.lst) (by simp [TrbFields.fields]),
    b (q := enc.trb.chn) (b := f.chn) (by simp [TrbFields.fields]), b (q := enc.trb.csp) (b := f.csp) (by simp [TrbFields.fields]),
    b (q := enc.trb.ispImi) (b := f.ispImi) (by simp [TrbFields.fields]),
    b (q := enc.trb.ioc) (b := f.ioc) (by simp [TrbFields.fields]), hi32_append_lo32]

/-- A TRB with the words that 30_encoding.md R110 gives it decodes to itself. -/
theorem decodeTrb_words (f : TrbFields) (k : TrbKind) : decodeTrb enc (f.words enc k) = .ok (k, f) := by
  have e := TrbFields.part_words h f k (x := ⟨enc.trb.trbctl, 6, k.code enc.trb⟩) (by simp [TrbFields.fields])
  unfold decodeTrb
  rw [e, TrbKind.ofCode_code h, TrbFields.ofWords_words h]

end Sys2Proof
end

