-- ==== Sys2Proof/Laws/State.lean ====
section
/-! SUPPORT. One lemma for each field of the state and each named update of it. -/

namespace Sys2Proof.Machine

/-! ### `updCtx` -/

@[simp] theorem State.updCtx_params (s : State) (f : Ctx → Ctx) : (s.updCtx f).params = s.params := rfl
@[simp] theorem State.updCtx_ctx (s : State) (f : Ctx → Ctx) : (s.updCtx f).ctx = f s.ctx := rfl
@[simp] theorem State.updCtx_ep (s : State) (f : Ctx → Ctx) : (s.updCtx f).ep = s.ep := rfl
@[simp] theorem State.updCtx_regs (s : State) (f : Ctx → Ctx) : (s.updCtx f).regs = s.regs := rfl
@[simp] theorem State.updCtx_hw (s : State) (f : Ctx → Ctx) : (s.updCtx f).hw = s.hw := rfl
@[simp] theorem State.updCtx_mem (s : State) (f : Ctx → Ctx) : (s.updCtx f).mem = s.mem := rfl
@[simp] theorem State.updCtx_cache (s : State) (f : Ctx → Ctx) : (s.updCtx f).cache = s.cache := rfl
@[simp] theorem State.updCtx_handed (s : State) (f : Ctx → Ctx) : (s.updCtx f).handed = s.handed := rfl
@[simp] theorem State.updCtx_env (s : State) (f : Ctx → Ctx) : (s.updCtx f).env = s.env := rfl
@[simp] theorem State.updCtx_agenda (s : State) (f : Ctx → Ctx) : (s.updCtx f).agenda = s.agenda := rfl
@[simp] theorem State.updCtx_ret (s : State) (f : Ctx → Ctx) : (s.updCtx f).ret = s.ret := rfl
@[simp] theorem State.updCtx_trace (s : State) (f : Ctx → Ctx) : (s.updCtx f).trace = s.trace := rfl

/-! ### `updEp` -/

@[simp] theorem State.updEp_params (s : State) (n : EpIdx) (f : Ep → Ep) : (s.updEp n f).params = s.params := rfl
@[simp] theorem State.updEp_ctx (s : State) (n : EpIdx) (f : Ep → Ep) : (s.updEp n f).ctx = s.ctx := rfl
@[simp] theorem State.updEp_ep (s : State) (n : EpIdx) (f : Ep → Ep) : (s.updEp n f).ep = s.ep.set n (f s.ep[n]) := rfl
@[simp] theorem State.updEp_regs (s : State) (n : EpIdx) (f : Ep → Ep) : (s.updEp n f).regs = s.regs := rfl
@[simp] theorem State.updEp_hw (s : State) (n : EpIdx) (f : Ep → Ep) : (s.updEp n f).hw = s.hw := rfl
@[simp] theorem State.updEp_mem (s : State) (n : EpIdx) (f : Ep → Ep) : (s.updEp n f).mem = s.mem := rfl
@[simp] theorem State.updEp_cache (s : State) (n : EpIdx) (f : Ep → Ep) : (s.updEp n f).cache = s.cache := rfl
@[simp] theorem State.updEp_handed (s : State) (n : EpIdx) (f : Ep → Ep) : (s.updEp n f).handed = s.handed := rfl
@[simp] theorem State.updEp_env (s : State) (n : EpIdx) (f : Ep → Ep) : (s.updEp n f).env = s.env := rfl
@[simp] theorem State.updEp_agenda (s : State) (n : EpIdx) (f : Ep → Ep) : (s.updEp n f).agenda = s.agenda := rfl
@[simp] theorem State.updEp_ret (s : State) (n : EpIdx) (f : Ep → Ep) : (s.updEp n f).ret = s.ret := rfl
@[simp] theorem State.updEp_trace (s : State) (n : EpIdx) (f : Ep → Ep) : (s.updEp n f).trace = s.trace := rfl

/-! ### `updHEp` -/

@[simp] theorem State.updHEp_params (s : State) (n : EpIdx) (f : HEp → HEp) : (s.updHEp n f).params = s.params := rfl
@[simp] theorem State.updHEp_ctx (s : State) (n : EpIdx) (f : HEp → HEp) : (s.updHEp n f).ctx = s.ctx := rfl
@[simp] theorem State.updHEp_ep (s : State) (n : EpIdx) (f : HEp → HEp) : (s.updHEp n f).ep = s.ep := rfl
@[simp] theorem State.updHEp_regs (s : State) (n : EpIdx) (f : HEp → HEp) : (s.updHEp n f).regs = s.regs := rfl
@[simp] theorem State.updHEp_hw (s : State) (n : EpIdx) (f : HEp → HEp) : (s.updHEp n f).hw = { s.hw with ep := s.hw.ep.set n (f s.hw.ep[n]) } := rfl
@[simp] theorem State.updHEp_mem (s : State) (n : EpIdx) (f : HEp → HEp) : (s.updHEp n f).mem = s.mem := rfl
@[simp] theorem State.updHEp_cache (s : State) (n : EpIdx) (f : HEp → HEp) : (s.updHEp n f).cache = s.cache := rfl
@[simp] theorem State.updHEp_handed (s : State) (n : EpIdx) (f : HEp → HEp) : (s.updHEp n f).handed = s.handed := rfl
@[simp] theorem State.updHEp_env (s : State) (n : EpIdx) (f : HEp → HEp) : (s.updHEp n f).env = s.env := rfl
@[simp] theorem State.updHEp_agenda (s : State) (n : EpIdx) (f : HEp → HEp) : (s.updHEp n f).agenda = s.agenda := rfl
@[simp] theorem State.updHEp_ret (s : State) (n : EpIdx) (f : HEp → HEp) : (s.updHEp n f).ret = s.ret := rfl
@[simp] theorem State.updHEp_trace (s : State) (n : EpIdx) (f : HEp → HEp) : (s.updHEp n f).trace = s.trace := rfl

/-! ### `putReg` -/

@[simp] theorem State.putReg_params (s : State) (r : Reg) (v : Word) : (s.putReg r v).params = s.params := rfl
@[simp] theorem State.putReg_ctx (s : State) (r : Reg) (v : Word) : (s.putReg r v).ctx = s.ctx := rfl
@[simp] theorem State.putReg_ep (s : State) (r : Reg) (v : Word) : (s.putReg r v).ep = s.ep := rfl
@[simp] theorem State.putReg_regs (s : State) (r : Reg) (v : Word) : (s.putReg r v).regs = s.regs.put v r := rfl
@[simp] theorem State.putReg_hw (s : State) (r : Reg) (v : Word) : (s.putReg r v).hw = s.hw := rfl
@[simp] theorem State.putReg_mem (s : State) (r : Reg) (v : Word) : (s.putReg r v).mem = s.mem := rfl
@[simp] theorem State.putReg_cache (s : State) (r : Reg) (v : Word) : (s.putReg r v).cache = s.cache := rfl
@[simp] theorem State.putReg_handed (s : State) (r : Reg) (v : Word) : (s.putReg r v).handed = s.handed := rfl
@[simp] theorem State.putReg_env (s : State) (r : Reg) (v : Word) : (s.putReg r v).env = s.env := rfl
@[simp] theorem State.putReg_agenda (s : State) (r : Reg) (v : Word) : (s.putReg r v).agenda = s.agenda := rfl
@[simp] theorem State.putReg_ret (s : State) (r : Reg) (v : Word) : (s.putReg r v).ret = s.ret := rfl
@[simp] theorem State.putReg_trace (s : State) (r : Reg) (v : Word) : (s.putReg r v).trace = s.trace := rfl

/-! ### `setMem` -/

@[simp] theorem State.setMem_params (s : State) (m : Memory) : (s.setMem m).params = s.params := rfl
@[simp] theorem State.setMem_ctx (s : State) (m : Memory) : (s.setMem m).ctx = s.ctx := rfl
@[simp] theorem State.setMem_ep (s : State) (m : Memory) : (s.setMem m).ep = s.ep := rfl
@[simp] theorem State.setMem_regs (s : State) (m : Memory) : (s.setMem m).regs = s.regs := rfl
@[simp] theorem State.setMem_hw (s : State) (m : Memory) : (s.setMem m).hw = s.hw := rfl
@[simp] theorem State.setMem_mem (s : State) (m : Memory) : (s.setMem m).mem = m := rfl
@[simp] theorem State.setMem_cache (s : State) (m : Memory) : (s.setMem m).cache = s.cache := rfl
@[simp] theorem State.setMem_handed (s : State) (m : Memory) : (s.setMem m).handed = s.handed := rfl
@[simp] theorem State.setMem_env (s : State) (m : Memory) : (s.setMem m).env = s.env := rfl
@[simp] theorem State.setMem_agenda (s : State) (m : Memory) : (s.setMem m).agenda = s.agenda := rfl
@[simp] theorem State.setMem_ret (s : State) (m : Memory) : (s.setMem m).ret = s.ret := rfl
@[simp] theorem State.setMem_trace (s : State) (m : Memory) : (s.setMem m).trace = s.trace := rfl

/-! ### `setEnv` -/

@[simp] theorem State.setEnv_params (s : State) (e : Env) : (s.setEnv e).params = s.params := rfl
@[simp] theorem State.setEnv_ctx (s : State) (e : Env) : (s.setEnv e).ctx = s.ctx := rfl
@[simp] theorem State.setEnv_ep (s : State) (e : Env) : (s.setEnv e).ep = s.ep := rfl
@[simp] theorem State.setEnv_regs (s : State) (e : Env) : (s.setEnv e).regs = s.regs := rfl
@[simp] theorem State.setEnv_hw (s : State) (e : Env) : (s.setEnv e).hw = s.hw := rfl
@[simp] theorem State.setEnv_mem (s : State) (e : Env) : (s.setEnv e).mem = s.mem := rfl
@[simp] theorem State.setEnv_cache (s : State) (e : Env) : (s.setEnv e).cache = s.cache := rfl
@[simp] theorem State.setEnv_handed (s : State) (e : Env) : (s.setEnv e).handed = s.handed := rfl
@[simp] theorem State.setEnv_env (s : State) (e : Env) : (s.setEnv e).env = e := rfl
@[simp] theorem State.setEnv_agenda (s : State) (e : Env) : (s.setEnv e).agenda = s.agenda := rfl
@[simp] theorem State.setEnv_ret (s : State) (e : Env) : (s.setEnv e).ret = s.ret := rfl
@[simp] theorem State.setEnv_trace (s : State) (e : Env) : (s.setEnv e).trace = s.trace := rfl

/-! ### `setHanded` -/

@[simp] theorem State.setHanded_params (s : State) (h : List Handed) : (s.setHanded h).params = s.params := rfl
@[simp] theorem State.setHanded_ctx (s : State) (h : List Handed) : (s.setHanded h).ctx = s.ctx := rfl
@[simp] theorem State.setHanded_ep (s : State) (h : List Handed) : (s.setHanded h).ep = s.ep := rfl
@[simp] theorem State.setHanded_regs (s : State) (h : List Handed) : (s.setHanded h).regs = s.regs := rfl
@[simp] theorem State.setHanded_hw (s : State) (h : List Handed) : (s.setHanded h).hw = s.hw := rfl
@[simp] theorem State.setHanded_mem (s : State) (h : List Handed) : (s.setHanded h).mem = s.mem := rfl
@[simp] theorem State.setHanded_cache (s : State) (h : List Handed) : (s.setHanded h).cache = s.cache := rfl
@[simp] theorem State.setHanded_handed (s : State) (h : List Handed) : (s.setHanded h).handed = h := rfl
@[simp] theorem State.setHanded_env (s : State) (h : List Handed) : (s.setHanded h).env = s.env := rfl
@[simp] theorem State.setHanded_agenda (s : State) (h : List Handed) : (s.setHanded h).agenda = s.agenda := rfl
@[simp] theorem State.setHanded_ret (s : State) (h : List Handed) : (s.setHanded h).ret = s.ret := rfl
@[simp] theorem State.setHanded_trace (s : State) (h : List Handed) : (s.setHanded h).trace = s.trace := rfl

/-! ### `setRet` -/

@[simp] theorem State.setRet_params (s : State) (r : Result) : (s.setRet r).params = s.params := rfl
@[simp] theorem State.setRet_ctx (s : State) (r : Result) : (s.setRet r).ctx = s.ctx := rfl
@[simp] theorem State.setRet_ep (s : State) (r : Result) : (s.setRet r).ep = s.ep := rfl
@[simp] theorem State.setRet_regs (s : State) (r : Result) : (s.setRet r).regs = s.regs := rfl
@[simp] theorem State.setRet_hw (s : State) (r : Result) : (s.setRet r).hw = s.hw := rfl
@[simp] theorem State.setRet_mem (s : State) (r : Result) : (s.setRet r).mem = s.mem := rfl
@[simp] theorem State.setRet_cache (s : State) (r : Result) : (s.setRet r).cache = s.cache := rfl
@[simp] theorem State.setRet_handed (s : State) (r : Result) : (s.setRet r).handed = s.handed := rfl
@[simp] theorem State.setRet_env (s : State) (r : Result) : (s.setRet r).env = s.env := rfl
@[simp] theorem State.setRet_agenda (s : State) (r : Result) : (s.setRet r).agenda = s.agenda := rfl
@[simp] theorem State.setRet_ret (s : State) (r : Result) : (s.setRet r).ret = r := rfl
@[simp] theorem State.setRet_trace (s : State) (r : Result) : (s.setRet r).trace = s.trace := rfl

/-! ### `observe` -/

@[simp] theorem State.observe_params (s : State) (o : Observed) : (s.observe o).params = s.params := rfl
@[simp] theorem State.observe_ctx (s : State) (o : Observed) : (s.observe o).ctx = s.ctx := rfl
@[simp] theorem State.observe_ep (s : State) (o : Observed) : (s.observe o).ep = s.ep := rfl
@[simp] theorem State.observe_regs (s : State) (o : Observed) : (s.observe o).regs = s.regs := rfl
@[simp] theorem State.observe_hw (s : State) (o : Observed) : (s.observe o).hw = s.hw := rfl
@[simp] theorem State.observe_mem (s : State) (o : Observed) : (s.observe o).mem = s.mem := rfl
@[simp] theorem State.observe_cache (s : State) (o : Observed) : (s.observe o).cache = s.cache := rfl
@[simp] theorem State.observe_handed (s : State) (o : Observed) : (s.observe o).handed = s.handed := rfl
@[simp] theorem State.observe_env (s : State) (o : Observed) : (s.observe o).env = s.env := rfl
@[simp] theorem State.observe_agenda (s : State) (o : Observed) : (s.observe o).agenda = s.agenda := rfl
@[simp] theorem State.observe_ret (s : State) (o : Observed) : (s.observe o).ret = s.ret := rfl
@[simp] theorem State.observe_trace (s : State) (o : Observed) : (s.observe o).trace = s.trace ++ [o] := rfl

/-! ### `flush` -/

@[simp] theorem State.flush_params (s : State) (a : LAddr) (n : Nat) : (s.flush a n).params = s.params := rfl
@[simp] theorem State.flush_ctx (s : State) (a : LAddr) (n : Nat) : (s.flush a n).ctx = s.ctx := rfl
@[simp] theorem State.flush_ep (s : State) (a : LAddr) (n : Nat) : (s.flush a n).ep = s.ep := rfl
@[simp] theorem State.flush_regs (s : State) (a : LAddr) (n : Nat) : (s.flush a n).regs = s.regs := rfl
@[simp] theorem State.flush_hw (s : State) (a : LAddr) (n : Nat) : (s.flush a n).hw = s.hw := rfl
@[simp] theorem State.flush_handed (s : State) (a : LAddr) (n : Nat) : (s.flush a n).handed = s.handed := rfl
@[simp] theorem State.flush_setHanded (s : State) (h : List Handed) (a : LAddr) (n : Nat) :
    (s.setHanded h).flush a n = (s.flush a n).setHanded h := rfl
@[simp] theorem State.flush_env (s : State) (a : LAddr) (n : Nat) : (s.flush a n).env = s.env := rfl
@[simp] theorem State.flush_agenda (s : State) (a : LAddr) (n : Nat) : (s.flush a n).agenda = s.agenda := rfl
@[simp] theorem State.flush_ret (s : State) (a : LAddr) (n : Nat) : (s.flush a n).ret = s.ret := rfl
@[simp] theorem State.flush_trace (s : State) (a : LAddr) (n : Nat) : (s.flush a n).trace = s.trace := rfl

/-! ### `invalidate` -/

@[simp] theorem State.invalidate_params (s : State) (a : LAddr) (n : Nat) : (s.invalidate a n).params = s.params := rfl
@[simp] theorem State.invalidate_ctx (s : State) (a : LAddr) (n : Nat) : (s.invalidate a n).ctx = s.ctx := rfl
@[simp] theorem State.invalidate_ep (s : State) (a : LAddr) (n : Nat) : (s.invalidate a n).ep = s.ep := rfl
@[simp] theorem State.invalidate_regs (s : State) (a : LAddr) (n : Nat) : (s.invalidate a n).regs = s.regs := rfl
@[simp] theorem State.invalidate_hw (s : State) (a : LAddr) (n : Nat) : (s.invalidate a n).hw = s.hw := rfl
@[simp] theorem State.invalidate_mem (s : State) (a : LAddr) (n : Nat) : (s.invalidate a n).mem = s.mem := rfl
@[simp] theorem State.invalidate_handed (s : State) (a : LAddr) (n : Nat) : (s.invalidate a n).handed = s.handed := rfl
@[simp] theorem State.invalidate_env (s : State) (a : LAddr) (n : Nat) : (s.invalidate a n).env = s.env := rfl
@[simp] theorem State.invalidate_agenda (s : State) (a : LAddr) (n : Nat) : (s.invalidate a n).agenda = s.agenda := rfl
@[simp] theorem State.invalidate_ret (s : State) (a : LAddr) (n : Nat) : (s.invalidate a n).ret = s.ret := rfl
@[simp] theorem State.invalidate_trace (s : State) (a : LAddr) (n : Nat) : (s.invalidate a n).trace = s.trace := rfl

/-! ### `evict` -/

@[simp] theorem State.evict_params (s : State) (i : Nat) : (s.evict i).params = s.params := rfl
@[simp] theorem State.evict_ctx (s : State) (i : Nat) : (s.evict i).ctx = s.ctx := rfl
@[simp] theorem State.evict_ep (s : State) (i : Nat) : (s.evict i).ep = s.ep := rfl
@[simp] theorem State.evict_regs (s : State) (i : Nat) : (s.evict i).regs = s.regs := rfl
@[simp] theorem State.evict_hw (s : State) (i : Nat) : (s.evict i).hw = s.hw := rfl
@[simp] theorem State.evict_handed (s : State) (i : Nat) : (s.evict i).handed = s.handed := rfl
@[simp] theorem State.evict_env (s : State) (i : Nat) : (s.evict i).env = s.env := rfl
@[simp] theorem State.evict_agenda (s : State) (i : Nat) : (s.evict i).agenda = s.agenda := rfl
@[simp] theorem State.evict_ret (s : State) (i : Nat) : (s.evict i).ret = s.ret := rfl
@[simp] theorem State.evict_trace (s : State) (i : Nat) : (s.evict i).trace = s.trace := rfl

/-! ### `hStore` -/

@[simp] theorem State.hStore_params (s : State) (g : GAddr) (bs : List Byte) : (s.hStore g bs).params = s.params := rfl
@[simp] theorem State.hStore_ctx (s : State) (g : GAddr) (bs : List Byte) : (s.hStore g bs).ctx = s.ctx := rfl
@[simp] theorem State.hStore_ep (s : State) (g : GAddr) (bs : List Byte) : (s.hStore g bs).ep = s.ep := rfl
@[simp] theorem State.hStore_regs (s : State) (g : GAddr) (bs : List Byte) : (s.hStore g bs).regs = s.regs := rfl
@[simp] theorem State.hStore_hw (s : State) (g : GAddr) (bs : List Byte) : (s.hStore g bs).hw = s.hw := rfl
@[simp] theorem State.hStore_mem (s : State) (g : GAddr) (bs : List Byte) : (s.hStore g bs).mem = s.mem.writeBytes g bs := rfl
@[simp] theorem State.hStore_handed (s : State) (g : GAddr) (bs : List Byte) : (s.hStore g bs).handed = s.handed := rfl
@[simp] theorem State.hStore_env (s : State) (g : GAddr) (bs : List Byte) : (s.hStore g bs).env = s.env := rfl
@[simp] theorem State.hStore_agenda (s : State) (g : GAddr) (bs : List Byte) : (s.hStore g bs).agenda = s.agenda := rfl
@[simp] theorem State.hStore_ret (s : State) (g : GAddr) (bs : List Byte) : (s.hStore g bs).ret = s.ret := rfl
@[simp] theorem State.hStore_trace (s : State) (g : GAddr) (bs : List Byte) : (s.hStore g bs).trace = s.trace := rfl

/-! ### `withPending` -/

@[simp] theorem State.withPending_params (s : State) (c : BitVec 16) : (s.withPending c).params = s.params := rfl
@[simp] theorem State.withPending_ctx (s : State) (c : BitVec 16) : (s.withPending c).ctx = s.ctx := rfl
@[simp] theorem State.withPending_ep (s : State) (c : BitVec 16) : (s.withPending c).ep = s.ep := rfl
@[simp] theorem State.withPending_regs (s : State) (c : BitVec 16) : (s.withPending c).regs = s.regs.put (putField s.regs.gevntcount s.params.enc.reg.evntCount c) .gevntcount := rfl
@[simp] theorem State.withPending_hw (s : State) (c : BitVec 16) : (s.withPending c).hw = s.hw := rfl
@[simp] theorem State.withPending_mem (s : State) (c : BitVec 16) : (s.withPending c).mem = s.mem := rfl
@[simp] theorem State.withPending_cache (s : State) (c : BitVec 16) : (s.withPending c).cache = s.cache := rfl
@[simp] theorem State.withPending_handed (s : State) (c : BitVec 16) : (s.withPending c).handed = s.handed := rfl
@[simp] theorem State.withPending_env (s : State) (c : BitVec 16) : (s.withPending c).env = s.env := rfl
@[simp] theorem State.withPending_agenda (s : State) (c : BitVec 16) : (s.withPending c).agenda = s.agenda := rfl
@[simp] theorem State.withPending_ret (s : State) (c : BitVec 16) : (s.withPending c).ret = s.ret := rfl
@[simp] theorem State.withPending_trace (s : State) (c : BitVec 16) : (s.withPending c).trace = s.trace := rfl

/-! ### Lines of S's view -/

@[simp] theorem State.hStore_lines (s : State) (g : GAddr) (bs : List Byte) : (s.hStore g bs).cache.lines = s.cache.lines := rfl
@[simp] theorem State.invalidate_lines (s : State) (a : LAddr) (n : Nat) :
    (s.invalidate a n).cache.lines = s.cache.lines.filter fun l => !overlaps s.params l.idx a n := rfl
@[simp] theorem State.evict_lines (s : State) (i : Nat) :
    (s.evict i).cache.lines = s.cache.lines.filter fun l => decide (l.idx ≠ i) := rfl

/-! ### Bytes that S has written and not flushed -/

@[simp] theorem State.hStore_unflushed (s : State) (g : GAddr) (bs : List Byte) :
    (s.hStore g bs).cache.unflushed = s.cache.unflushed := rfl
@[simp] theorem State.flush_unflushed (s : State) (a : LAddr) (n : Nat) : (s.flush a n).cache.unflushed =
    s.cache.unflushed.filter fun b => !overlaps s.params (lineOf s.params b) a n := rfl
@[simp] theorem State.invalidate_unflushed (s : State) (a : LAddr) (n : Nat) : (s.invalidate a n).cache.unflushed =
    s.cache.unflushed.filter fun b => !overlaps s.params (lineOf s.params b) a n := rfl
@[simp] theorem State.evict_unflushed (s : State) (i : Nat) :
    (s.evict i).cache.unflushed = s.cache.unflushed.filter fun b => decide (lineOf s.params b ≠ i) := rfl

/-! ### Endpoint records -/

@[simp] theorem State.updEp_same (s : State) (n : EpIdx) (f : Ep → Ep) : (s.updEp n f).ep[n] = f s.ep[n] := by
  simp [State.updEp]

theorem State.updEp_other (s : State) (n m : EpIdx) (f : Ep → Ep) (h : n ≠ m) : (s.updEp n f).ep[m] = s.ep[m] := by
  have hv : n.val ≠ m.val := fun e => h (Fin.ext e)
  simp [State.updEp, hv]

@[simp] theorem State.updHEp_same (s : State) (n : EpIdx) (f : HEp → HEp) : (s.updHEp n f).hw.ep[n] = f s.hw.ep[n] := by
  simp [State.updHEp]

theorem State.updHEp_other (s : State) (n m : EpIdx) (f : HEp → HEp) (h : n ≠ m) :
    (s.updHEp n f).hw.ep[m] = s.hw.ep[m] := by
  have hv : n.val ≠ m.val := fun e => h (Fin.ext e)
  simp [State.updHEp, hv]

/-! ### Registers -/

/-- A register reads what was stored in it. -/
@[simp] theorem Regs.get_put (r : Regs) (v : Word) (x : Reg) : (r.put v x).get x = v := by
  cases x <;> simp [Regs.put, Regs.get]

/-- Storing a register leaves every other one. -/
theorem Regs.get_put_other (r : Regs) (v : Word) (x y : Reg) (h : x ≠ y) : (r.put v x).get y = r.get y := by
  cases x <;> cases y <;> simp_all [Regs.put, Regs.get, Vector.getElem_set] <;>
    (split <;> simp_all [Fin.ext_iff])

/-- Every register but GHWPARAMS3 reads what is stored in it. -/
theorem State.regValue_stored (s : State) {r : Reg} (h : r ≠ .ghwparams3) : s.regValue r = s.regs.get r := if_neg h

/-- GHWPARAMS3 reads the launch's capabilities. -/
@[simp] theorem State.regValue_caps (s : State) : s.regValue .ghwparams3 = capsWord s.params s.regs.ghwparams3 := rfl

end Sys2Proof.Machine
end

