-- ==== Sys2Proof/Laws/Memory.lean ====
section
/-! SUPPORT. Memory and the cache: every operation keeps memory's canonical form, reads give what writes put, and the lines
of S's view stay whole. -/

namespace Sys2Proof.Machine

/-! ### The canonical form -/

/-- The form of a list with a head: the head's address lies below every other. -/
theorem Memory.wf_cons (a : Nat) (v : Byte) (m : Memory) :
    Memory.wf ((a, v) :: m) = true ↔ (∀ x ∈ m, a < x.1) ∧ Memory.wf m = true := by
  induction m generalizing a v with
  | nil => simp [Memory.wf]
  | cons h t ih =>
    obtain ⟨k, w⟩ := h
    simp only [Memory.wf, Bool.and_eq_true, decide_eq_true_eq, List.mem_cons, forall_eq_or_imp]
    constructor
    · rintro ⟨hak, ht⟩
      exact ⟨⟨hak, fun x hx => lt_trans hak (((ih k w).1 ht).1 x hx)⟩, ht⟩
    · rintro ⟨⟨hak, _⟩, ht⟩
      exact ⟨hak, ht⟩

/-- What a write leaves in memory. -/
theorem Memory.mem_write1 {m : Memory} {a : Nat} {b : Byte} {x : Host.Cell} (h : x ∈ m.write1 a b) :
    x = (a, b) ∨ x ∈ m := by
  induction m with
  | nil => simpa [Memory.write1] using h
  | cons c t ih =>
    obtain ⟨k, v⟩ := c
    simp only [Memory.write1] at h
    split at h
    · simpa using h
    · split at h
      · simp only [List.mem_cons] at h ⊢
        tauto
      · simp only [List.mem_cons] at h ⊢
        rcases h with h | h
        · tauto
        · rcases ih h with h | h <;> tauto

/-- What an erasure leaves in memory. -/
theorem Memory.mem_erase1 {m : Memory} {a : Nat} {x : Host.Cell} (h : x ∈ m.erase1 a) : x ∈ m := by
  induction m with
  | nil => exact h
  | cons c t ih =>
    obtain ⟨k, v⟩ := c
    simp only [Memory.erase1] at h
    split at h
    · exact List.mem_cons_of_mem _ h
    · rcases List.mem_cons.1 h with h | h
      · exact List.mem_cons.2 (.inl h)
      · exact List.mem_cons_of_mem _ (ih h)

/-- A write keeps the canonical form. -/
theorem Memory.wf_write1 {m : Memory} (a : Nat) (b : Byte) (h : m.wf = true) : (m.write1 a b).wf = true := by
  induction m with
  | nil => rfl
  | cons c t ih =>
    obtain ⟨k, v⟩ := c
    obtain ⟨hk, ht⟩ := (Memory.wf_cons k v t).1 h
    simp only [Memory.write1]
    split
    · next hlt =>
      refine (Memory.wf_cons _ _ _).2 ⟨?_, h⟩
      intro x hx
      rcases List.mem_cons.1 hx with hx | hx
      · exact hx ▸ hlt
      · exact lt_trans hlt (hk x hx)
    · split
      · next heq => exact (Memory.wf_cons _ _ _).2 ⟨heq ▸ hk, ht⟩
      · refine (Memory.wf_cons _ _ _).2 ⟨?_, ih ht⟩
        intro x hx
        rcases Memory.mem_write1 hx with hx | hx
        · subst hx; simp only; omega
        · exact hk x hx

/-- An erasure keeps the canonical form. -/
theorem Memory.wf_erase1 {m : Memory} (a : Nat) (h : m.wf = true) : (m.erase1 a).wf = true := by
  induction m with
  | nil => rfl
  | cons c t ih =>
    obtain ⟨k, v⟩ := c
    obtain ⟨hk, ht⟩ := (Memory.wf_cons k v t).1 h
    simp only [Memory.erase1]
    split
    · exact ht
    · exact (Memory.wf_cons _ _ _).2 ⟨fun x hx => hk x (Memory.mem_erase1 hx), ih ht⟩

/-- Putting a byte, or no value, keeps the canonical form. -/
theorem Memory.wf_put {m : Memory} (a : Nat) (b : Option Byte) (h : m.wf = true) : (m.put a b).wf = true := by
  cases b with
  | none => exact Memory.wf_erase1 a h
  | some b => exact Memory.wf_write1 a b h

/-- Writing bytes keeps the canonical form. -/
theorem Memory.wf_writeBytes {m : Memory} (g : GAddr) (bs : List Byte) (h : m.wf = true) :
    (m.writeBytes g bs).wf = true := by
  induction bs generalizing m g with
  | nil => exact h
  | cons b bs ih => exact ih (g + 1) (Memory.wf_write1 _ _ h)

/-- Writing a word keeps the canonical form. -/
theorem Memory.wf_writeWord {m : Memory} (g : GAddr) (w : Word) (h : m.wf = true) : (m.writeWord g w).wf = true :=
  Memory.wf_writeBytes g _ h

/-- Writing a line's bytes back keeps the canonical form. -/
theorem wf_writeBack (p : Params) {m : Memory} (a : LAddr) (bs : List (Option Byte)) (h : m.wf = true) :
    (writeBack p m a bs).wf = true := by
  induction bs generalizing m a with
  | nil => exact h
  | cons b bs ih => exact ih (a + 1) (Memory.wf_put _ _ h)

/-- Writing a line back keeps the canonical form. -/
theorem Memory.wf_afterLine (p : Params) {m : Memory} (l : Line) (h : m.wf = true) : (m.afterLine p l).wf = true := by
  unfold Memory.afterLine
  split
  · exact wf_writeBack p _ _ h
  · exact h

/-- Writing lines back keeps the canonical form. -/
theorem Memory.wf_foldLines (p : Params) {m : Memory} (ls : List Line) (h : m.wf = true) :
    (ls.foldl (Memory.afterLine p) m).wf = true := by
  induction ls generalizing m with
  | nil => exact h
  | cons l ls ih => exact ih (Memory.wf_afterLine p l h)

/-- H's stores keep memory's canonical form. -/
theorem State.wf_hStore {s : State} (g : GAddr) (bs : List Byte) (h : s.mem.wf = true) : (s.hStore g bs).mem.wf = true :=
  Memory.wf_writeBytes g bs h

/-- Filling bytes that hold no value keeps the canonical form. -/
theorem Memory.wf_fill {m : Memory} (g : GAddr) (bs : List Byte) (h : m.wf = true) : (m.fill g bs).wf = true := by
  induction bs generalizing m g with
  | nil => exact h
  | cons b bs ih =>
    refine ih (g + 1) ?_
    split
    · exact h
    · exact Memory.wf_write1 _ _ h

/-- Disarming a TRB keeps the canonical form. -/
theorem Memory.wf_disarm (e : TrbEnc) {m : Memory} (g : GAddr) (t : TrbWords) (h : m.wf = true) :
    (m.disarm e g t).wf = true := by
  unfold Memory.disarm
  simp only
  split
  · exact Memory.wf_writeWord _ _ (Memory.wf_fill _ _ h)
  · exact Memory.wf_fill _ _ h

/-- A flush keeps memory's canonical form. -/
theorem State.wf_flush {s : State} (a : LAddr) (n : Nat) (h : s.mem.wf = true) : (s.flush a n).mem.wf = true :=
  Memory.wf_foldLines _ _ h

/-- An eviction keeps memory's canonical form. -/
theorem State.wf_evict {s : State} (i : Nat) (h : s.mem.wf = true) : (s.evict i).mem.wf = true :=
  Memory.wf_foldLines _ _ h

/-- Memory at reset has the canonical form. -/
theorem reset_memory_wf : State.reset.mem.wf = true := rfl

/-! ### Reads and writes of one byte -/

/-- A read after a write to the same address gives the value written. -/
@[simp] theorem Memory.read1_write1_same (m : Memory) (a : Nat) (b : Byte) : (m.write1 a b).read1 a = some b := by
  induction m with
  | nil => simp [Memory.write1, Memory.read1]
  | cons c t ih =>
    obtain ⟨k, v⟩ := c
    simp only [Memory.write1]
    split
    · simp [Memory.read1]
    · split
      · simp [Memory.read1]
      · next h => simp [Memory.read1, Ne.symm h, ih]

/-- A write leaves every other address alone. -/
theorem Memory.read1_write1_other (m : Memory) (a x : Nat) (b : Byte) (h : x ≠ a) :
    (m.write1 a b).read1 x = m.read1 x := by
  induction m with
  | nil => simp [Memory.write1, Memory.read1, Ne.symm h]
  | cons c t ih =>
    obtain ⟨k, v⟩ := c
    simp only [Memory.write1]
    split
    · simp [Memory.read1, Ne.symm h]
    · split
      · next hk => subst hk; simp [Memory.read1, Ne.symm h]
      · simp [Memory.read1, ih]

/-- An address below every listed one holds no value. -/
theorem Memory.read1_below {m : Memory} {a : Nat} (h : ∀ x ∈ m, a < x.1) : m.read1 a = none := by
  induction m with
  | nil => rfl
  | cons c t ih =>
    obtain ⟨k, v⟩ := c
    have hk : a < k := h (k, v) (List.mem_cons.2 (.inl rfl))
    simp only [Memory.read1, (show k ≠ a by omega), if_false]
    exact ih fun x hx => h x (List.mem_cons_of_mem _ hx)

/-- An erased address holds no value. -/
theorem Memory.read1_erase1_same {m : Memory} (a : Nat) (h : m.wf = true) : (m.erase1 a).read1 a = none := by
  induction m with
  | nil => rfl
  | cons c t ih =>
    obtain ⟨k, v⟩ := c
    obtain ⟨hk, ht⟩ := (Memory.wf_cons k v t).1 h
    simp only [Memory.erase1]
    split
    · next heq => exact Memory.read1_below (heq ▸ hk)
    · next hne => simp [Memory.read1, hne, ih ht]

/-- An erasure leaves every other address alone. -/
theorem Memory.read1_erase1_other (m : Memory) (a x : Nat) (h : x ≠ a) : (m.erase1 a).read1 x = m.read1 x := by
  induction m with
  | nil => rfl
  | cons c t ih =>
    obtain ⟨k, v⟩ := c
    simp only [Memory.erase1]
    split
    · next hk => subst hk; simp [Memory.read1, Ne.symm h]
    · simp [Memory.read1, ih]

/-- Two memories in canonical form that read alike are equal. -/
theorem Memory.ext_read1 {m k : Memory} (hm : m.wf = true) (hk : k.wf = true) (h : ∀ a, m.read1 a = k.read1 a) :
    m = k := by
  induction m generalizing k with
  | nil =>
    cases k with
    | nil => rfl
    | cons c t => have := h c.1; simp [Memory.read1] at this
  | cons c t ih =>
    obtain ⟨a, v⟩ := c
    obtain ⟨hat, ht⟩ := (Memory.wf_cons a v t).1 hm
    cases k with
    | nil => have := h a; simp [Memory.read1] at this
    | cons d u =>
      obtain ⟨b, w⟩ := d
      obtain ⟨hbu, hu⟩ := (Memory.wf_cons b w u).1 hk
      have hab : a = b := by
        rcases lt_trichotomy a b with hlt | heq | hgt
        · have h1 := h a
          have h2 : Memory.read1 ((b, w) :: u) a = none := by
            apply Memory.read1_below
            intro x hx
            rcases List.mem_cons.1 hx with hx | hx
            · exact hx ▸ hlt
            · exact lt_trans hlt (hbu x hx)
          rw [h2] at h1
          simp [Memory.read1] at h1
        · exact heq
        · have h1 := h b
          have h2 : Memory.read1 ((a, v) :: t) b = none := by
            apply Memory.read1_below
            intro x hx
            rcases List.mem_cons.1 hx with hx | hx
            · exact hx ▸ hgt
            · exact lt_trans hgt (hat x hx)
          rw [h2] at h1
          simp [Memory.read1] at h1
      subst hab
      have hv : v = w := by simpa [Memory.read1] using h a
      subst hv
      congr 1
      apply ih ht hu
      intro x
      by_cases hx : x = a
      · subst hx
        rw [Memory.read1_below hat, Memory.read1_below hbu]
      · simpa [Memory.read1, Ne.symm hx] using h x

/-! ### Lines of S's view -/

/-- The lines after one is put among them. -/
theorem mem_insertLine {l x : Line} {ls : List Line} (h : x ∈ insertLine l ls) : x = l ∨ x ∈ ls := by
  induction ls with
  | nil => simpa [insertLine] using h
  | cons k ks ih =>
    simp only [insertLine] at h
    split at h
    · simpa using h
    · split at h
      · simp only [List.mem_cons] at h ⊢
        tauto
      · simp only [List.mem_cons] at h ⊢
        rcases h with h | h
        · tauto
        · rcases ih h with h | h <;> tauto

/-- Putting a line among others in rising order keeps the order. -/
theorem sorted_insertLine {l : Line} {ls : List Line} (h : ls.Pairwise fun x y => x.idx < y.idx) :
    (insertLine l ls).Pairwise fun x y => x.idx < y.idx := by
  induction ls with
  | nil => simp [insertLine]
  | cons k ks ih =>
    obtain ⟨hk, hks⟩ := List.pairwise_cons.1 h
    simp only [insertLine]
    split
    · next hlt =>
      refine List.pairwise_cons.2 ⟨?_, h⟩
      intro x hx
      rcases List.mem_cons.1 hx with hx | hx
      · exact hx ▸ hlt
      · exact lt_trans hlt (hk x hx)
    · split
      · next heq => exact List.pairwise_cons.2 ⟨fun x hx => heq ▸ hk x hx, hks⟩
      · next h1 h2 =>
        refine List.pairwise_cons.2 ⟨?_, ih hks⟩
        intro x hx
        rcases mem_insertLine hx with hx | hx
        · subst hx; omega
        · exact hk x hx

/-- A line loaded from memory is whole. -/
@[simp] theorem State.loadLine_length (s : State) (i : Nat) : (s.loadLine i).bytes.length = s.params.cacheLine := by
  simp [State.loadLine]

/-- The line of a local address lies within the local address space. -/
theorem lineOf_bound (p : Params) (a : LAddr) : lineOf p a * p.cacheLine < 2 ^ 32 :=
  lt_of_le_of_lt (Nat.div_mul_le_self _ _) a.isLt

end Sys2Proof.Machine
end

