-- ==== Sys2Proof/Laws/Run.lean ====
section
/-! SUPPORT. How operations run: what each primitive and each shared operation of S does, said once. -/

namespace Sys2Proof.Machine

/-! ### Running -/

theorem M.bind_apply {α β : Type} (m : M α) (f : α → M β) (s : State) :
    (m >>= f) s = match m s with
      | .ok (a, t) => f a t
      | .error e => .error e := by
  show (StateT.bind m f) s = _
  unfold StateT.bind
  show (m s >>= _) = _
  cases m s <;> rfl

/-- A sequence whose first part answers runs its second part on the state that leaves. -/
theorem M.bind_of_ok {α β : Type} {m : M α} {f : α → M β} {s t : State} {a : α} (h : m s = .ok (a, t)) :
    (m >>= f) s = f a t := by
  rw [M.bind_apply, h]

/-- A sequence whose first part stops, stops. -/
theorem M.bind_of_error {α β : Type} {m : M α} {f : α → M β} {s : State} {e : Stop} (h : m s = .error e) :
    (m >>= f) s = .error e := by
  rw [M.bind_apply, h]

/-- A sequence answers exactly when both its parts do. -/
theorem M.bind_eq_ok {α β : Type} {m : M α} {f : α → M β} {s u : State} {b : β} :
    (m >>= f) s = .ok (b, u) ↔ ∃ a t, m s = .ok (a, t) ∧ f a t = .ok (b, u) := by
  rw [M.bind_apply]
  cases h : m s with
  | error e => simp
  | ok p =>
    obtain ⟨a, t⟩ := p
    simp only [Except.ok.injEq, Prod.mk.injEq]
    constructor
    · intro hf; exact ⟨a, t, ⟨rfl, rfl⟩, hf⟩
    · rintro ⟨a', t', ⟨rfl, rfl⟩, hf⟩; exact hf

@[simp] theorem M.pure_apply {α : Type} (a : α) (s : State) : (pure a : M α) s = .ok (a, s) := rfl
@[simp] theorem M.get_apply (s : State) : (get : M State) s = .ok (s, s) := rfl
@[simp] theorem M.set_apply (t s : State) : (set t : M PUnit) s = .ok (⟨⟩, t) := rfl
@[simp] theorem M.modify_apply (f : State → State) (s : State) : (modify f : M PUnit) s = .ok (⟨⟩, f s) := rfl
@[simp] theorem raise_apply {α : Type} (r : Fault) (s : State) : (raise r : M α) s = .error (.fault r) := rfl
@[simp] theorem refuse_apply {α : Type} (r : Refusal) (s : State) : (refuse r : M α) s = .error (.refuse r) := rfl
@[simp] theorem modifyEp_apply (n : EpIdx) (f : Ep → Ep) (s : State) : modifyEp n f s = .ok (⟨⟩, s.updEp n f) := rfl
@[simp] theorem modifyHEp_apply (n : EpIdx) (f : HEp → HEp) (s : State) : modifyHEp n f s = .ok (⟨⟩, s.updHEp n f) := rfl
@[simp] theorem modifyCtx_apply (f : Ctx → Ctx) (s : State) : modifyCtx f s = .ok (⟨⟩, s.updCtx f) := rfl
@[simp] theorem getEp_apply (n : EpIdx) (s : State) : getEp n s = .ok (s.ep[n], s) := rfl
@[simp] theorem logEntry_apply (e : LogEntry) (s : State) : logEntry e s = .ok (⟨⟩, s.logged e) := rfl
@[simp] theorem written_some {α : Type} (a : α) (s : State) : (written (some a) : M α) s = .ok (a, s) := rfl
@[simp] theorem written_none {α : Type} (s : State) : (written (none : Option α)) s = .error (.fault .unwrittenState) := rfl
@[simp] theorem takeBack_apply (g : GAddr) (s : State) :
    takeBack g s = .ok (⟨⟩, s.setHanded (s.handed.filter fun h => decide (h.trb ≠ g))) := rfl
@[simp] theorem takeBackAll_apply (n : EpIdx) (s : State) :
    takeBackAll n s = .ok (⟨⟩, s.setHanded (s.handed.filter fun h => decide (h.ep ≠ n))) := rfl
@[simp] theorem handOver_apply (n : EpIdx) (g : GAddr) (s : State) :
    handOver n g s = .ok (⟨⟩, s.setHanded (handedWith s.handed n g)) := rfl

/-- The index of a busy endpoint whose index is valid. -/
theorem readRsc_busy {s : State} {n : EpIdx} {r : BitVec 7} (hb : s.ep[n].busy = true) (hr : s.ep[n].rsc = some r) :
    readRsc n s = .ok (r, s) := by
  unfold readRsc
  rw [M.bind_of_ok (getEp_apply n s), hb, hr]
  rfl

/-- The index of an endpoint that is not busy is not valid. -/
theorem readRsc_idle {s : State} {n : EpIdx} (hb : s.ep[n].busy = false) :
    readRsc n s = .error (.fault .rscInvalid) := by
  unfold readRsc
  rw [M.bind_of_ok (getEp_apply n s), hb]
  rfl

/-- After INIT the operations are admitted. -/
theorem requireInit_done {s : State} (h : s.initialised) : requireInit s = .ok (⟨⟩, s) := by
  unfold requireInit
  rw [M.bind_of_ok (M.get_apply s), if_pos h]
  rfl

/-- Before INIT has returned OK they are refused. -/
theorem requireInit_not {s : State} (h : ¬ s.initialised) : requireInit s = .error (.refuse .notInitialised) := by
  unfold requireInit
  rw [M.bind_of_ok (M.get_apply s), if_neg h]
  rfl

/-- A TRB H does not own may be written. -/
theorem requireOwned_free {s : State} {g : GAddr} (h : s.ownsTrb g = false) : requireOwned g s = .ok (⟨⟩, s) := by
  unfold requireOwned
  rw [M.bind_of_ok (M.get_apply s), h]
  rfl

/-- A TRB H owns may not. -/
theorem requireOwned_owned {s : State} {g : GAddr} (h : s.ownsTrb g = true) :
    requireOwned g s = .error (.fault .trbOwnedWrite) := by
  unfold requireOwned
  rw [M.bind_of_ok (M.get_apply s), h]
  rfl

/-- An operation that answers is a next state. -/
theorem outcome_of_ok {α : Type} {m : M α} {s t : State} {a : α} (h : m s = .ok (a, t)) : outcome m s = .next t := by
  unfold outcome
  rw [h]

/-- An operation ends in a next state exactly when it answers. -/
theorem outcome_eq_next {α : Type} {m : M α} {s t : State} : outcome m s = .next t ↔ ∃ a, m s = .ok (a, t) := by
  unfold outcome
  cases h : m s with
  | ok p => obtain ⟨a, u⟩ := p; simp
  | error e => cases e <;> simp

/-- An operation whose result is recorded. -/
theorem returning_of_ok {m : M Result} {s t : State} {r : Result} (h : m s = .ok (r, t)) :
    returning m s = .ok (⟨⟩, t.setRet r) := by
  unfold returning
  rw [M.bind_of_ok h]
  rfl

/-! ### The other agents -/

/-- Silent agents do nothing. -/
theorem othersTurn_quiet {s : State} (h : s.quiet) : othersTurn s = .ok (⟨⟩, s) := by
  have hd : drawActs s = .ok ([], s) := by
    unfold drawActs
    rw [M.bind_of_ok (M.get_apply s)]
    simp [h.1, h.2.1]
  unfold othersTurn
  rw [M.bind_of_ok hd]
  rfl

/-- Listed acts: the first entry is taken and its acts run. -/
theorem othersTurn_listed {s : State} {as : List Act} {rest : List (List Act)} (h : s.env.acts = as :: rest) :
    othersTurn s = runActs as (s.setEnv { s.env with acts := rest }) := by
  have hd : drawActs s = .ok (as, s.setEnv { s.env with acts := rest }) := by
    unfold drawActs
    rw [M.bind_of_ok (M.get_apply s)]
    simp [h, M.bind_apply]
  unfold othersTurn
  rw [M.bind_of_ok hd]

/-! ### Registers -/

/-- A read of a register in which nothing is due. -/
theorem readReg_quiet {s : State} {r : Reg} (h : s.quiet) (hr : hBeforeRead r s = .ok (⟨⟩, s)) :
    readReg r s = .ok (s.regValue r, s) := by
  unfold readReg
  rw [M.bind_of_ok (othersTurn_quiet h), M.bind_of_ok hr, M.bind_of_ok (M.get_apply s)]
  rfl

/-- A PHY register has no side effect. -/
abbrev Reg.isPhy (r : Reg) : Prop := r = .gusb2phycfg ∨ r = .gusb3pipectl

theorem readReg_phy {s : State} {r : Reg} (h : s.quiet) (hr : r.isPhy) : readReg r s = .ok (s.regs.get r, s) := by
  rw [← s.regValue_stored (r := r) (by rcases hr with rfl | rfl <;> simp)]
  apply readReg_quiet h
  rcases hr with rfl | rfl <;> rfl

theorem writeReg_phy {s : State} {r : Reg} (v : Word) (h : s.quiet) (hr : r.isPhy) :
    writeReg r v s = .ok (⟨⟩, s.putReg r v) := by
  unfold writeReg
  rw [M.bind_of_ok (othersTurn_quiet h)]
  rcases hr with rfl | rfl <;> rfl

theorem writeReg_par0 {s : State} (n : EpIdx) (v : Word) (h : s.quiet) :
    writeReg (.depcmdpar0 n) v s = .ok (⟨⟩, s.putReg (.depcmdpar0 n) v) := by
  unfold writeReg
  rw [M.bind_of_ok (othersTurn_quiet h)]
  rfl

theorem writeReg_par1 {s : State} (n : EpIdx) (v : Word) (h : s.quiet) :
    writeReg (.depcmdpar1 n) v s = .ok (⟨⟩, s.putReg (.depcmdpar1 n) v) := by
  unfold writeReg
  rw [M.bind_of_ok (othersTurn_quiet h)]
  rfl

/-! ### Memory -/

/-- A read of which nothing is picked returns what S's view gives. -/
@[simp] theorem State.seenByte_nil (s : State) (a : LAddr) : s.seenByte [] a = s.viewByte a := by
  simp [State.seenByte]

@[simp] theorem State.seenWord_nil (s : State) (a : LAddr) : s.seenWord [] a = s.viewWord a := by
  simp [State.seenWord, State.viewWord]

/-- Silent agents pick nothing. -/
theorem drawSeen_quiet {s : State} (a : LAddr) (n : Nat) (h : s.quiet) : drawSeen a n s = .ok ([], s) := by
  unfold drawSeen
  rw [M.bind_of_ok (M.get_apply s)]
  split
  · simp [h.2.1, h.2.2]
  · rfl

theorem memRead_quiet {s : State} {a : LAddr} {w : Word} (h : s.quiet)
    (hw : (s.withLine (lineOf s.params a)).viewWord a = some w) :
    memRead a s = .ok (w, s.withLine (lineOf s.params a)) := by
  have ht : (s.withLine (lineOf s.params a)).quiet := by
    unfold State.withLine
    split <;> exact h
  unfold memRead
  rw [M.bind_of_ok (othersTurn_quiet h), M.bind_of_ok (M.modify_apply _ s), M.bind_of_ok (drawSeen_quiet a 4 ht),
    M.bind_of_ok (M.get_apply _), State.seenWord_nil, hw]
  rfl

theorem memWrite_quiet {s : State} (a : LAddr) (v : Word) (h : s.quiet) :
    memWrite a v s = .ok (⟨⟩, s.cacheWrite a (bytesOfWord v)) := by
  unfold memWrite
  rw [M.bind_of_ok (othersTurn_quiet h)]
  rfl

theorem memWriteTrb_quiet {s : State} (t : LAddr) (k : Nat) (v : Word) (h : s.quiet)
    (ho : s.ownsTrb (s.params.global t) = false) :
    memWriteTrb t k v s = .ok (⟨⟩, s.cacheWrite (t + BitVec.ofNat 32 (4 * k)) (bytesOfWord v)) := by
  unfold memWriteTrb
  rw [M.bind_of_ok (othersTurn_quiet h), M.bind_of_ok (M.get_apply s), M.bind_of_ok (requireOwned_free ho)]
  rfl

theorem cacheFlush_quiet {s : State} (a : LAddr) (n : Nat) (h : s.quiet) :
    cacheFlush a n s = .ok (⟨⟩, s.flush a n) := by
  unfold cacheFlush
  rw [M.bind_of_ok (othersTurn_quiet h)]
  rfl

theorem cacheInvalidate_quiet {s : State} (a : LAddr) (n : Nat) (h : s.quiet) :
    cacheInvalidate a n s = .ok (⟨⟩, s.invalidate a n) := by
  unfold cacheInvalidate
  rw [M.bind_of_ok (othersTurn_quiet h)]
  rfl

/-! ### H's reads -/

/-- A read of H at which nothing is picked returns what memory holds. -/
@[simp] theorem State.hByte_nil (s : State) (g : GAddr) : s.hByte [] g = s.mem.read1 g.toNat := rfl

@[simp] theorem State.hWord_nil (s : State) (g : GAddr) : s.hWord [] g = s.mem.readWord g := by
  simp [State.hWord, Memory.readWord]

@[simp] theorem State.hWords_nil (s : State) (g : GAddr) : s.hWords [] g = s.mem.readTrb g := by
  simp [State.hWords, Memory.readTrb]

@[simp] theorem State.hTrb_nil (s : State) (g : GAddr) : s.hTrb [] g = s.mem.readTrb g := by
  unfold State.hTrb
  rw [State.hWords_nil]
  cases h : s.mem.readTrb g with
  | none => rfl
  | some t => simp

/-- A byte that S has flushed, or not written, H reads from memory whatever is picked. -/
theorem State.hByte_flushed {s : State} {g : GAddr} (picks : List GAddr)
    (h : ∀ a ∈ localsOf s.params g, a ∉ s.cache.unflushed) : s.hByte picks g = s.mem.read1 g.toNat := by
  unfold State.hByte
  split
  · have : (localsOf s.params g).find? (fun a => s.cache.unflushed.contains a) = none := by
      rw [List.find?_eq_none]
      intro a ha
      simpa using h a ha
    rw [this]
  · rfl

/-- A TRB that H sees with HWO = 1 is as memory has it, or as S wrote it, in all its words (20_memory.md R81). -/
theorem State.hTrb_whole {s : State} {picks : List GAddr} {g : GAddr} {t : TrbWords} (h : s.hTrb picks g = some t)
    (ho : t.flag s.params.enc.trb.hwo = true) :
    s.mem.readTrb g = some t ∨ s.hWords ((List.range trbBytes).map fun i => g + BitVec.ofNat 64 i) g = some t := by
  unfold State.hTrb at h
  split at h
  · cases h
  · next u hu =>
    split at h
    · left; rw [State.hWords_nil] at h; exact h
    · next hn =>
      cases h
      right
      simpa [ho] using hn

/-- The local addresses of some of the global addresses of a range are among those of the range. -/
theorem mem_localsFrom {p : Params} {g : GAddr} {i k n : Nat} {a : LAddr} (h : i + k ≤ n)
    (ha : a ∈ localsFrom p (g + BitVec.ofNat 64 i) k) : a ∈ localsFrom p g n := by
  induction i generalizing g n with
  | zero =>
    induction k generalizing g n with
    | zero => simp [localsFrom] at ha
    | succ k ih =>
      obtain ⟨m, rfl⟩ : ∃ m, n = m + 1 := ⟨n - 1, by omega⟩
      have hg : g + BitVec.ofNat 64 0 = g := by simp
      rw [hg] at ha
      simp only [localsFrom, List.mem_append] at ha ⊢
      rcases ha with ha | ha
      · exact .inl ha
      · exact .inr (ih (g := g + 1) (n := m) (by omega) (by rwa [show g + 1 + BitVec.ofNat 64 0 = g + 1 by simp]))
  | succ i ih =>
    obtain ⟨m, rfl⟩ : ∃ m, n = m + 1 := ⟨n - 1, by omega⟩
    simp only [localsFrom, List.mem_append]
    right
    refine ih (g := g + 1) (n := m) (by omega) ?_
    have e : g + 1 + BitVec.ofNat 64 i = g + BitVec.ofNat 64 (i + 1) := by
      rw [BitVec.ofNat_add, BitVec.add_assoc, BitVec.add_comm 1]
      rfl
    rwa [e]

/-- H's reads of part of a TRB of which it sees what memory holds draw nothing. -/
theorem drawFresh_sees {s : State} {g : GAddr} (i k : Nat) (hk : i + k ≤ trbBytes) (h : s.hSeesMemory g) :
    drawFresh (g + BitVec.ofNat 64 i) k s = .ok ([], s) := by
  unfold drawFresh
  rw [M.bind_of_ok (M.get_apply s)]
  rcases h with h | ⟨h1, h2⟩
  · rw [if_neg]
    · rfl
    · intro hc
      simp only [State.unflushedAt, List.any_eq_true] at hc
      obtain ⟨a, ha, hu⟩ := hc
      have : s.unflushedAt g trbBytes = true := by
        simp only [State.unflushedAt, List.any_eq_true]
        exact ⟨a, mem_localsFrom hk ha, hu⟩
      rw [h] at this
      cases this
  · split
    · simp [h1, h2]
    · rfl

/-- H reads a word of a TRB of which it sees what memory holds. -/
theorem hReadWord_sees {s : State} {g x : GAddr} {w : Word} (i : Nat) (hx : x = g + BitVec.ofNat 64 i)
    (hi : i + 4 ≤ trbBytes) (h : s.hSeesMemory g) (hw : s.mem.readWord x = some w) : hReadWord x s = .ok (w, s) := by
  subst hx
  unfold hReadWord
  rw [M.bind_of_ok (drawFresh_sees i 4 hi h), M.bind_of_ok (M.get_apply s), State.hWord_nil, hw]
  rfl

/-- H reads a TRB of which it sees what memory holds. -/
theorem hReadTrb_sees {s : State} {g : GAddr} (h : s.hSeesMemory g) : hReadTrb g s = .ok (s.mem.readTrb g, s) := by
  have hd := drawFresh_sees (s := s) (g := g) 0 trbBytes (le_refl _) h
  rw [show g + BitVec.ofNat 64 0 = g by simp] at hd
  unfold hReadTrb
  rw [M.bind_of_ok hd, M.bind_of_ok (M.get_apply s), State.hTrb_nil]
  rfl

/-! ### What writes to S's view leave alone -/

/-- Loading a line changes S's view alone. -/
theorem State.withLine_cache (s : State) (i : Nat) : ∃ c, s.withLine i = { s with cache := c } := by
  unfold State.withLine
  split
  · exact ⟨s.cache, rfl⟩
  · exact ⟨_, rfl⟩

/-- Writing bytes into S's view changes S's view alone. -/
theorem State.cacheWrite_cache (s : State) (a : LAddr) (bs : List Byte) :
    ∃ c, s.cacheWrite a bs = { s with cache := c } := by
  induction bs generalizing s a with
  | nil => exact ⟨s.cache, rfl⟩
  | cons b bs ih =>
    obtain ⟨c, hc⟩ := s.withLine_cache (lineOf s.params a)
    obtain ⟨d, hd⟩ := ih (s.cacheWrite1 a b) (a + 1)
    refine ⟨d, ?_⟩
    show (s.cacheWrite1 a b).cacheWrite (a + 1) bs = _
    rw [hd]
    simp only [State.cacheWrite1, hc]

/-- Writing words of a TRB into S's view changes S's view alone. -/
theorem State.wordsWritten_cache (s : State) (t : LAddr) (w : TrbWords) (l : List Nat) :
    ∃ c, s.wordsWritten t w l = { s with cache := c } := by
  induction l generalizing s with
  | nil => exact ⟨s.cache, rfl⟩
  | cons i is ih =>
    obtain ⟨c, hc⟩ := s.cacheWrite_cache (t + BitVec.ofNat 32 (4 * i)) (bytesOfWord (w.word i))
    obtain ⟨d, hd⟩ := ih { s with cache := c }
    exact ⟨d, by unfold State.wordsWritten; rw [hc, hd]⟩

/-- Writing a TRB into S's view changes S's view alone. -/
theorem State.trbWritten_cache (s : State) (t : LAddr) (w : TrbWords) : ∃ c, s.trbWritten t w = { s with cache := c } :=
  s.wordsWritten_cache t w _

/-- Words of a TRB that H does not own, written in order. -/
theorem writeTrbWords_quiet {s : State} (t : LAddr) (w : TrbWords) (l : List Nat) (h : s.quiet)
    (ho : s.ownsTrb (s.params.global t) = false) : writeTrbWords t w l s = .ok (⟨⟩, s.wordsWritten t w l) := by
  induction l generalizing s with
  | nil => rfl
  | cons i is ih =>
    obtain ⟨c, hc⟩ := s.cacheWrite_cache (t + BitVec.ofNat 32 (4 * i)) (bytesOfWord (w.word i))
    unfold writeTrbWords State.wordsWritten
    rw [M.bind_of_ok (memWriteTrb_quiet t i (w.word i) h ho), hc]
    exact ih (s := { s with cache := c }) h ho

/-- The four words of a TRB that H does not own, written in order. -/
theorem writeTrb_quiet {s : State} (t : LAddr) (w : TrbWords) (h : s.quiet)
    (ho : s.ownsTrb (s.params.global t) = false) : writeTrb t w s = .ok (⟨⟩, s.trbWritten t w) := by
  unfold writeTrb
  rw [M.bind_of_ok (M.get_apply s)]
  exact writeTrbWords_quiet t w _ h ho

end Sys2Proof.Machine
end

