-- ==== Sys2Proof/Laws/Commands.lean ====
section
/-! SUPPORT. The command dispatcher: what the PHY save and restore, the poll and a whole command do, said once
(spec/40_command_dispatcher.md R150 to R155, R180 to R182). -/

namespace Sys2Proof.Machine

/-! ### The PHY registers -/

/-- The registers with the two PHY words replaced. -/
def Regs.withPhy (r : Regs) (a b : Word) : Regs := { r with gusb2phycfg := a, gusb3pipectl := b }

@[simp] theorem Regs.withPhy_self (r : Regs) : r.withPhy r.gusb2phycfg r.gusb3pipectl = r := rfl
@[simp] theorem Regs.withPhy_withPhy (r : Regs) (a b c d : Word) : (r.withPhy a b).withPhy c d = r.withPhy c d := rfl
@[simp] theorem Regs.withPhy_gusb2phycfg (r : Regs) (a b : Word) : (r.withPhy a b).gusb2phycfg = a := rfl
@[simp] theorem Regs.withPhy_gusb3pipectl (r : Regs) (a b : Word) : (r.withPhy a b).gusb3pipectl = b := rfl
@[simp] theorem Regs.withPhy_dep (r : Regs) (a b : Word) : (r.withPhy a b).dep = r.dep := rfl

/-- What PhySave answers and leaves: the registers of the list have their mask bits clear, the saved words are the words
they held, and a register that was not saved is unchanged. -/
theorem phySave_quiet {ps : List (Reg × Word)} {s : State} (h : s.quiet) (hp : ∀ x ∈ ps, x.1.isPhy)
    (hn : (ps.map fun x => x.1).Nodup) :
    ∃ saved x y, phySave ps s = .ok (saved, { s with regs := s.regs.withPhy x y }) ∧
      (∀ p ∈ ps, (s.regs.withPhy x y).get p.1 &&& p.2 = 0) ∧
      (∀ p ∈ saved, p.1 ∈ ps.map (fun x => x.1) ∧ p.2 = s.regs.get p.1) ∧
      (x = s.regs.gusb2phycfg ∨ ∃ p ∈ saved, p.1 = .gusb2phycfg) ∧
      (y = s.regs.gusb3pipectl ∨ ∃ p ∈ saved, p.1 = .gusb3pipectl) ∧
      (.gusb2phycfg ∉ ps.map (fun x => x.1) → x = s.regs.gusb2phycfg) ∧
      (.gusb3pipectl ∉ ps.map (fun x => x.1) → y = s.regs.gusb3pipectl) := by
  induction ps generalizing s with
  | nil => exact ⟨[], _, _, rfl, by simp⟩
  | cons p ps ih =>
    obtain ⟨r, m⟩ := p
    have hr : r.isPhy := hp (r, m) (by simp)
    have hps : ∀ x ∈ ps, x.1.isPhy := fun x hx => hp x (List.mem_cons_of_mem _ hx)
    simp only [List.map_cons, List.nodup_cons] at hn
    obtain ⟨hnot, hnd⟩ := hn
    by_cases hz : s.regs.get r &&& m = 0
    · obtain ⟨saved, x, y, he, hc, hs, hx, hy, fx, fy⟩ := ih h hps hnd
      refine ⟨saved, x, y, ?_, ?_, fun q hq => ⟨List.mem_cons_of_mem _ (hs q hq).1, (hs q hq).2⟩, hx, hy,
        fun hh => fx fun h' => hh (List.mem_cons_of_mem _ h'), fun hh => fy fun h' => hh (List.mem_cons_of_mem _ h')⟩
      · unfold phySave
        rw [M.bind_of_ok (readReg_phy h hr), if_pos hz, he]
      · intro q hq
        rcases List.mem_cons.1 hq with rfl | hq
        · rcases hr with rfl | rfl
          · have := fx hnot; subst this; exact hz
          · have := fy hnot; subst this; exact hz
        · exact hc q hq
    · have hclear : s.regs.get r &&& ~~~m &&& m = 0 := by
        rw [BitVec.and_assoc, BitVec.and_comm (~~~m) m]; simp
      obtain ⟨saved, x, y, he, hc, hs, hx, hy, fx, fy⟩ :=
        ih (s := s.putReg r (s.regs.get r &&& ~~~m)) h hps hnd
      have hreg : (s.putReg r (s.regs.get r &&& ~~~m)).regs.withPhy x y = s.regs.withPhy x y := by
        rcases hr with rfl | rfl <;> rfl
      rw [hreg] at hc
      have hst : ({ s.putReg r (s.regs.get r &&& ~~~m) with
          regs := (s.putReg r (s.regs.get r &&& ~~~m)).regs.withPhy x y } : State) =
          { s with regs := s.regs.withPhy x y } := by rw [hreg]; rfl
      rw [hst] at he
      refine ⟨(r, s.regs.get r) :: saved, x, y, ?_, ?_, ?_, ?_, ?_, ?_, ?_⟩
      · unfold phySave
        rw [M.bind_of_ok (readReg_phy h hr), if_neg hz, M.bind_of_ok (writeReg_phy _ h hr), M.bind_of_ok he]
        rfl
      · intro q hq
        rcases List.mem_cons.1 hq with rfl | hq
        · rcases hr with rfl | rfl
          · have := fx hnot; subst this; exact hclear
          · have := fy hnot; subst this; exact hclear
        · exact hc q hq
      · intro q hq
        rcases List.mem_cons.1 hq with rfl | hq
        · exact ⟨List.mem_cons_self .., rfl⟩
        · obtain ⟨h1, h2⟩ := hs q hq
          refine ⟨List.mem_cons_of_mem _ h1, ?_⟩
          rw [h2]
          exact Regs.get_put_other _ _ _ _ fun e => hnot (e ▸ h1)
      · rcases hr with rfl | rfl
        · exact .inr ⟨_, List.mem_cons_self .., rfl⟩
        · rcases hx with hx | ⟨q, hq, e⟩
          · exact .inl hx
          · exact .inr ⟨q, List.mem_cons_of_mem _ hq, e⟩
      · rcases hr with rfl | rfl
        · rcases hy with hy | ⟨q, hq, e⟩
          · exact .inl hy
          · exact .inr ⟨q, List.mem_cons_of_mem _ hq, e⟩
        · exact .inr ⟨_, List.mem_cons_self .., rfl⟩
      · intro hh
        simp only [List.map_cons, List.mem_cons, not_or] at hh
        rw [fx hh.2]
        rcases hr with rfl | rfl
        · exact absurd rfl hh.1
        · rfl
      · intro hh
        simp only [List.map_cons, List.mem_cons, not_or] at hh
        rw [fy hh.2]
        rcases hr with rfl | rfl
        · rfl
        · exact absurd rfl hh.1

/-- What PhyRestore leaves: the words `a` and `b` in the PHY registers, where every other word is `a` or `b` already. -/
theorem phyRestore_quiet {saved : List (Reg × Word)} {a b : Word} {t : State} (h : t.quiet)
    (hs : ∀ p ∈ saved, (p.1 = .gusb2phycfg ∧ p.2 = a) ∨ (p.1 = .gusb3pipectl ∧ p.2 = b))
    (ha : t.regs.gusb2phycfg = a ∨ ∃ p ∈ saved, p.1 = .gusb2phycfg)
    (hb : t.regs.gusb3pipectl = b ∨ ∃ p ∈ saved, p.1 = .gusb3pipectl) :
    phyRestore saved t = .ok (⟨⟩, { t with regs := t.regs.withPhy a b }) := by
  induction saved generalizing t with
  | nil =>
    simp only [List.not_mem_nil, false_and, exists_false, or_false] at ha hb
    subst ha hb
    rfl
  | cons p ps ih =>
    obtain ⟨r, v⟩ := p
    have hps := fun q hq => hs q (List.mem_cons_of_mem _ hq)
    unfold phyRestore
    rcases hs (r, v) (List.mem_cons_self ..) with ⟨e1, e2⟩ | ⟨e1, e2⟩
    · simp only at e1 e2
      subst e1 e2
      rw [M.bind_of_ok (writeReg_phy _ h (Or.inl rfl)), ih (t := t.putReg .gusb2phycfg v) h hps (.inl rfl)]
      · rfl
      · rcases hb with hb | ⟨q, hq, e⟩
        · exact .inl hb
        · rcases List.mem_cons.1 hq with rfl | hq
          · cases e
          · exact .inr ⟨q, hq, e⟩
    · simp only at e1 e2
      subst e1 e2
      rw [M.bind_of_ok (writeReg_phy _ h (Or.inr rfl)), ih (t := t.putReg .gusb3pipectl v) h hps _ (.inl rfl)]
      · rfl
      · rcases ha with ha | ⟨q, hq, e⟩
        · exact .inl ha
        · rcases List.mem_cons.1 hq with rfl | hq
          · cases e
          · exact .inr ⟨q, hq, e⟩

/-! ### H's completion of a command -/

/-- H's hidden state with another command on endpoint `n`. -/
def Hw.setCmd (h : Hw) (n : EpIdx) (x : CmdRun) : Hw := { h with ep := h.ep.set n { h.ep[n] with cmd := x } }

/-- The state after H has completed the command `c` it executes on `n` with answer `a`. -/
def State.afterComplete (s : State) (n : EpIdx) (c : Command) (a : Answer) : State :=
  { s with
    regs := { s.regs with dep := s.regs.dep.set n { s.regs.dep[n] with
      par2 := if c = .getEpState ∧ a.status = s.params.enc.cmd.success then a.word else s.regs.dep[n].par2
      cmd := completedWord s.params.enc.cmd s.regs.dep[n].cmd c a } }
    hw := (if a.status = s.params.enc.cmd.success then s.hw.performed n c a else s.hw).setCmd n .idle }

/-- What a command does in H, as a function of the state (40_command_dispatcher.md R182). -/
theorem hEffect_apply (n : EpIdx) (c : Command) (a : Answer) (s : State) :
    hEffect n c a s = .ok (⟨⟩, { s with
      regs := if c = .getEpState then s.regs.put a.word (.depcmdpar2 n) else s.regs
      hw := s.hw.performed n c a }) := by
  cases c <;> try rfl
  · simp only [hEffect, M.bind_apply, M.get_apply, Hw.performed]
    cases hx : s.hw.ep[n].xfer with
    | idle =>
      simp only [hResume, M.bind_apply, M.get_apply]
      cases a.resume with
      | none => rfl
      | some g =>
        simp only
        split <;> rfl
    | active r => rfl
  · simp only [hEffect, M.bind_apply, M.get_apply, Hw.performed]
    cases hx : s.hw.ep[n].xfer with
    | idle => simp
    | active r => rfl

/-- H completes the command it executes, where it may give this answer. -/
theorem hComplete_executing {s : State} {n : EpIdx} {c : Command} {a : Answer} {x : Option Answer}
    (hc : s.hw.ep[n].cmd = .executing c x) (hm : a.status = s.params.enc.cmd.success → s.maySucceed n c a = true) :
    hComplete n a s = .ok (⟨⟩, s.afterComplete n c a) := by
  unfold hComplete
  rw [M.bind_of_ok (M.get_apply s), hc]
  by_cases h0 : a.status = s.params.enc.cmd.success
  · have hm' := hm h0
    simp only [h0, hm', decide_true, Bool.not_true, Bool.and_false, Bool.false_eq_true, if_false, if_true]
    rw [M.bind_of_ok (hEffect_apply n c a s), M.bind_of_ok (M.modify_apply _ _), modifyHEp_apply]
    congr 2
    unfold State.afterComplete State.putReg State.updHEp Regs.put Regs.get Hw.setCmd
    by_cases hg : c = .getEpState
    · subst hg; simp [h0]
    · simp [h0, hg]
  · simp only [h0, decide_false, Bool.false_and, Bool.false_eq_true, if_false]
    rw [M.bind_of_ok (M.modify_apply _ _), modifyHEp_apply]
    congr 2
    unfold State.afterComplete State.putReg State.updHEp Regs.put Regs.get Hw.setCmd
    simp [h0]

/-- The status field of a command word stands apart from its parameter field and the CMDACT bit (30_encoding.md R100). -/
theorem cmd_places {enc : Enc} (h : enc.ok = true) :
    enc.cmd.act < 32 ∧ enc.cmd.status + 4 ≤ 32 ∧ enc.cmd.param + 16 ≤ 32 ∧
      (enc.cmd.act < enc.cmd.param ∨ enc.cmd.param + 16 ≤ enc.cmd.act) ∧
      (enc.cmd.status + 4 ≤ enc.cmd.param ∨ enc.cmd.param + 16 ≤ enc.cmd.status) ∧
      (enc.cmd.act < enc.cmd.status ∨ enc.cmd.status + 4 ≤ enc.cmd.act) := by
  have := (Enc.ok_facts h).cmd
  simp only [CmdEnc.layout, layoutOk, fieldsApart, Bool.and_eq_true, decide_eq_true_eq, List.all_cons, List.all_nil,
    Bool.or_eq_true] at this
  omega

/-- A completed command reads CMDACT = 0. -/
theorem cmdact_completedWord {enc : Enc} (h : enc.ok = true) (w : Word) (c : Command) (a : Answer) :
    cmdact enc.cmd (completedWord enc.cmd w c a) = false := by
  obtain ⟨h1, -, h3, h4, -, -⟩ := cmd_places h
  have h : cmdact enc.cmd (putField (putField w enc.cmd.status a.status) enc.cmd.act 0#1) = false := by
    unfold cmdact
    rw [bit_putField_same _ _ _ _ (by omega) (by omega)]
    exact BitVec.getLsbD_zero
  unfold completedWord
  split
  · unfold cmdact
    rw [bit_putField_apart _ _ _ _ (by omega) (by omega)]
    exact h
  · exact h

/-- Whether an index is free rests on H's transfers and its indices in use alone. -/
theorem Hw.indexFree_congr {g h : Hw} (r : BitVec 7) (hx : ∀ m : EpIdx, g.ep[m].xfer = h.ep[m].xfer)
    (hu : g.rscUsed = h.rscUsed) : g.indexFree r = h.indexFree r := by
  unfold Hw.indexFree
  simp only [hx, hu]

/-- Whether H may succeed rests on its transfers and its indices in use alone. -/
theorem maySucceed_congr {s t : State} (n : EpIdx) (c : Command) {a b : Answer}
    (hx : ∀ m : EpIdx, t.hw.ep[m].xfer = s.hw.ep[m].xfer) (hu : t.hw.rscUsed = s.hw.rscUsed) (hr : b.rsc = a.rsc) :
    t.maySucceed n c b = s.maySucceed n c a := by
  unfold State.maySucceed
  cases c <;> try rfl
  simp only [hx, hr, Hw.indexFree_congr a.rsc hx hu]

/-- Changing what H holds for an endpoint, its transfer apart, changes no transfer. -/
theorem updHEp_xfer {s : State} {n : EpIdx} {f : HEp → HEp} (hf : ∀ h, (f h).xfer = h.xfer) (m : EpIdx) :
    (s.updHEp n f).hw.ep[m].xfer = s.hw.ep[m].xfer := by
  by_cases h : n = m
  · subst h; simp [hf]
  · rw [State.updHEp_other s n m f h]

/-- How long H waits is no part of what it does. -/
theorem afterComplete_wait (s : State) (n : EpIdx) (c : Command) (a : Answer) (k : Nat) :
    s.afterComplete n c { a with wait := k } = s.afterComplete n c a := by
  unfold State.afterComplete
  cases c <;> rfl

/-- Storing what is stored already changes nothing. -/
theorem set_getElem_self {α : Type} (v : Vector α 32) (n : EpIdx) (x : α) (h : v[n] = x) : v.set n x = v := by
  subst h
  apply Vector.ext
  intro i hi
  by_cases hni : n.val = i
  · subst hni; simp
  · rw [Vector.getElem_set_ne _ _ hni]

/-- The command H executes decides nothing of what it performs, and the performing leaves it alone. -/
theorem Hw.performed_setCmd (h : Hw) (n : EpIdx) (c : Command) (a : Answer) (x : CmdRun) :
    (h.setCmd n x).performed n c a = (h.performed n c a).setCmd n x := by
  have hf : ∀ r, (h.setCmd n x).indexFree r = h.indexFree r := fun r => by
    refine Hw.indexFree_congr r (fun m => ?_) rfl
    by_cases hm : n = m
    · subst hm; simp [Hw.setCmd]
    · have : n.val ≠ m.val := fun e => hm (Fin.ext e)
      simp [Hw.setCmd, Vector.getElem_set_ne, this]
  have hx : ∃ y, h.ep[n.val]'n.isLt = y := ⟨_, rfl⟩
  obtain ⟨⟨xf, cm, cf, rs, st, ow⟩, hx⟩ := hx
  cases c with
  | updateTransfer rsc =>
    cases xf with
    | active r => simp [Hw.performed, Hw.setCmd, hx]
    | idle =>
      have hi : (h.setCmd n x).ep[n].xfer = .idle := by simp [Hw.setCmd, hx]
      have hi' : h.ep[n].xfer = .idle := by simp [hx]
      simp only [Hw.performed, hi, hi', hf]
      cases a.resume with
      | none => rfl
      | some g =>
        simp only
        split
        · simp [Hw.started, Hw.setCmd, hx]
        · rfl
  | startTransfer g => simp [Hw.performed, Hw.setCmd, Hw.started, hx]
  | endTransfer rsc => cases xf <;> simp [Hw.performed, Hw.setCmd, hx]
  | _ => simp [Hw.performed, Hw.setCmd, hx]

/-- The command H executes is over once it has completed. -/
theorem afterComplete_updHEp (s : State) (n : EpIdx) (c : Command) (a : Answer) (x : CmdRun) :
    (s.updHEp n fun h => { h with cmd := x }).afterComplete n c a = s.afterComplete n c a := by
  have hh : (s.updHEp n fun h => { h with cmd := x }).hw = s.hw.setCmd n x := rfl
  have hs : ∀ h : Hw, (h.setCmd n x).setCmd n .idle = h.setCmd n .idle := fun h => by simp [Hw.setCmd]
  unfold State.afterComplete
  rw [hh, Hw.performed_setCmd, ← apply_ite (fun h : Hw => h.setCmd n x), hs]
  rfl

/-- What the poll answers, and what it leaves, where H's answer comes within its budget. -/
theorem poll_answered {s : State} {n : EpIdx} {t : CmdTyp} {c : Command} {a : Answer} {k : Nat} (h : s.quiet)
    (ho : s.params.enc.ok = true) (hc : s.hw.ep[n].cmd = .executing c (some a))
    (ha : cmdact s.params.enc.cmd s.regs.dep[n].cmd = true)
    (hm : a.status = s.params.enc.cmd.success → s.maySucceed n c a = true) (hk : a.wait < k) :
    poll n t k s = .ok (decodeStatus s.params.enc.cmd t (completedWord s.params.enc.cmd s.regs.dep[n].cmd c a),
      s.afterComplete n c a) := by
  induction k generalizing s a with
  | zero => omega
  | succ k ih =>
    unfold poll readReg
    simp only [bind_assoc]
    rw [M.bind_of_ok (othersTurn_quiet h)]
    unfold hBeforeRead hBeforePoll
    simp only [bind_assoc]
    rw [M.bind_of_ok (M.get_apply s), hc]
    by_cases hw : a.wait = 0
    · simp only [hw, if_true]
      rw [M.bind_of_ok (hComplete_executing hc hm), M.bind_of_ok (M.get_apply _), M.bind_of_ok (M.pure_apply _ _),
        M.bind_of_ok (M.get_apply _)]
      have e : (s.afterComplete n c a).regValue (.depcmd n) = completedWord s.params.enc.cmd s.regs.dep[n].cmd c a := by
        simp [State.afterComplete, State.regValue, Regs.get]
      have ep : (s.afterComplete n c a).params = s.params := rfl
      rw [e, ep, cmdact_completedWord ho]
      rfl
    · simp only [hw, if_false]
      rw [M.bind_of_ok (modifyHEp_apply _ _ s), M.bind_of_ok (M.get_apply _), M.bind_of_ok (M.pure_apply _ _),
        M.bind_of_ok (M.get_apply _)]
      generalize hf : (fun h : HEp => { h with cmd := CmdRun.executing c (some { a with wait := a.wait - 1 }) }) = f
      have e : (s.updHEp n f).regValue (.depcmd n) = s.regs.dep[n].cmd := rfl
      have ep : (s.updHEp n f).params = s.params := rfl
      have hx := updHEp_xfer (s := s) (n := n) (f := f) (by subst hf; intro h; rfl)
      have hst := State.updHEp_same s n f
      rw [e, ep, if_pos ha, ih (s := s.updHEp n f) (a := { a with wait := a.wait - 1 }) h ho (by rw [hst, ← hf]) ha]
      · rw [afterComplete_wait]
        subst hf
        rw [afterComplete_updHEp]
        congr 2
      · intro h0
        rw [maySucceed_congr n c hx rfl rfl]
        exact hm h0
      · simp only; omega

/-- A poll whose answer does not come within its budget ends with a timeout; the command is executing still
(40_command_dispatcher.md R152). -/
theorem poll_late {s : State} {n : EpIdx} {t : CmdTyp} {c : Command} {x : Option Answer} {k : Nat} (h : s.quiet)
    (hc : s.hw.ep[n].cmd = .executing c x) (ha : cmdact s.params.enc.cmd s.regs.dep[n].cmd = true)
    (hk : ∀ a, x = some a → k ≤ a.wait) :
    poll n t k s = .ok (.err .timeout,
      { s with hw := s.hw.setCmd n (.executing c (x.map fun a => { a with wait := a.wait - k })) }) := by
  induction k generalizing s x with
  | zero =>
    have hx : (x.map fun a => { a with wait := a.wait - 0 }) = x := by cases x <;> rfl
    have hs : s.hw.setCmd n (.executing c x) = s.hw := by
      unfold Hw.setCmd
      rw [set_getElem_self s.hw.ep n _ (by rw [← hc])]
    rw [hx, hs]
    rfl
  | succ k ih =>
    unfold poll readReg
    simp only [bind_assoc]
    rw [M.bind_of_ok (othersTurn_quiet h)]
    unfold hBeforeRead hBeforePoll
    simp only [bind_assoc]
    rw [M.bind_of_ok (M.get_apply s), hc]
    cases x with
    | none =>
      simp only
      rw [M.bind_of_ok (M.pure_apply _ s), M.bind_of_ok (M.get_apply s), M.bind_of_ok (M.pure_apply _ _),
        M.bind_of_ok (M.get_apply s)]
      have e : s.regValue (.depcmd n) = s.regs.dep[n].cmd := rfl
      rw [e, if_pos ha]
      exact ih h hc ha (by simp)
    | some a =>
      have hw := hk a rfl
      simp only [show ¬ a.wait = 0 by omega, if_false]
      rw [M.bind_of_ok (modifyHEp_apply _ _ s), M.bind_of_ok (M.get_apply _), M.bind_of_ok (M.pure_apply _ _),
        M.bind_of_ok (M.get_apply _)]
      generalize hf : (fun h : HEp => { h with cmd := CmdRun.executing c (some { a with wait := a.wait - 1 }) }) = f
      have e : (s.updHEp n f).regValue (.depcmd n) = s.regs.dep[n].cmd := rfl
      have ep : (s.updHEp n f).params = s.params := rfl
      have hst := State.updHEp_same s n f
      rw [e, ep, if_pos ha, ih (s := s.updHEp n f) (x := some { a with wait := a.wait - 1 }) h (by rw [hst, ← hf]) ha
        (by simp only [Option.some.injEq]; rintro b rfl; simp only; omega)]
      subst hf
      congr 2
      simp [State.updHEp, Hw.setCmd, Nat.sub_sub, Nat.add_comm]

/-- The result S reads from a completed command (40_command_dispatcher.md R153). -/
theorem decodeStatus_completedWord {enc : Enc} (h : enc.ok = true) (w : Word) (c : Command) (a : Answer) :
    decodeStatus enc.cmd c.typ (completedWord enc.cmd w c a) = answerResult enc.cmd c a := by
  obtain ⟨p1, p2, p3, p4, p5, p6⟩ := cmd_places h
  have hs : cmdstatus enc.cmd (completedWord enc.cmd w c a) = a.status := by
    have h : field (putField (putField w enc.cmd.status a.status) enc.cmd.act 0#1) enc.cmd.status 4 = a.status := by
      rw [field_putField_apart _ _ _ _ _ (by omega) (by omega), field_putField_same _ _ _ (by omega)]
    unfold cmdstatus completedWord
    split
    · rw [field_putField_apart _ _ _ _ _ (by omega) (by omega), h]
    · exact h
  unfold decodeStatus answerResult
  rw [hs]
  by_cases h0 : a.status = enc.cmd.success
  · rw [if_pos h0, if_pos h0]
    by_cases ht : c.typ = .startTransfer
    · rw [if_pos ht, if_pos ht]
      unfold completedWord
      rw [if_pos (by simp [ht, h0]), field_putField_same _ _ _ (by omega)]
    · rw [if_neg ht, if_neg ht]
  · rw [if_neg h0, if_neg h0]

/-! ### A whole command -/

/-- Starting a command: H latches it, with the answer it will give, if it will give one. -/
theorem hStartCommand_idle {s : State} {n : EpIdx} {w : Word} {c : Command} (hi : s.hw.ep[n].cmd = .idle)
    (hl : s.phyLow = false) (ho : s.env.isOpen = false)
    (hd : decodeCommand s.params.enc w s.regs.dep[n].par0 s.regs.dep[n].par1 = .ok c) :
    hStartCommand n w s = .ok (⟨⟩, { s.putReg (.depcmd n) w with
      env := { s.env with answers := s.env.answers.tail }
      hw := s.hw.setCmd n (.executing c s.env.answers.head?)
      handed := toldOf s.handed n c }) := by
  unfold hStartCommand
  rw [M.bind_of_ok (M.get_apply s), hi]
  simp only [hl, Bool.false_eq_true, if_false]
  have hd' : decodeCommand s.params.enc w (s.regs.get (.depcmdpar0 n)) (s.regs.get (.depcmdpar1 n)) = .ok c := hd
  rw [hd']
  simp only
  rw [M.bind_of_ok (M.modify_apply _ s), M.bind_of_ok (M.modify_apply _ _)]
  have hda : drawAnswer ((s.putReg (.depcmd n) w).setHanded (toldOf s.handed n c)) = .ok (s.env.answers.head?,
      ((s.putReg (.depcmd n) w).setHanded (toldOf s.handed n c)).setEnv
        { s.env with answers := s.env.answers.tail }) := by
    unfold drawAnswer
    rw [M.bind_of_ok (M.get_apply _)]
    cases he : s.env.answers with
    | nil =>
      have hs : ({ s.env with answers := ([] : List Answer).tail } : Env) = s.env := by
        cases h : s.env with
        | _ => rw [h] at he; simp only at he; simp [he]
      rw [hs]
      simp [he, ho]
      rfl
    | cons a as => simp [he, M.bind_apply]
  rw [show (s.putReg (.depcmd n) w).handed = s.handed from rfl, M.bind_of_ok hda, modifyHEp_apply]
  rfl

/-- Performing a command leaves an endpoint without a command as it is without one. -/
theorem performed_idle {h : Hw} {n : EpIdx} (c : Command) (a : Answer) (hi : h.ep[n].cmd = .idle) :
    (h.performed n c a).ep.set n { (h.performed n c a).ep[n] with cmd := .idle } = (h.performed n c a).ep := by
  have hs : h.setCmd n .idle = h := by
    unfold Hw.setCmd
    rw [set_getElem_self h.ep n _ (by rw [← hi])]
  have := h.performed_setCmd n c a .idle
  rw [hs] at this
  exact (congrArg Hw.ep this).symm

/-- A result is one of hardware's errors exactly where H's status is not that of success. -/
theorem isHwError_answerResult (e : CmdEnc) (c : Command) (a : Answer) :
    (answerResult e c a).isHwError = decide (a.status ≠ e.success) := by
  unfold answerResult statusError
  by_cases h0 : a.status = e.success
  · simp only [h0, if_true, ne_eq, not_true_eq_false, decide_false]
    split <;> rfl
  · simp only [h0, if_false, ne_eq, not_false_eq_true, decide_true]
    split
    · rfl
    · split <;> rfl

/-- A result is OK exactly where H's status is that of success. -/
theorem isOk_answerResult (e : CmdEnc) (c : Command) (a : Answer) :
    (answerResult e c a).isOk = decide (a.status = e.success) := by
  unfold answerResult
  by_cases h0 : a.status = e.success
  · simp only [h0, if_true, decide_true]
    split <;> rfl
  · simp only [h0, if_false, decide_false]
    rfl

/-- A command performed answers with success. -/
theorem State.commandResult_performs {s : State} (c : Command) (h : s.performs = true) :
    s.commandResult c = if c.typ = .startTransfer then .okIdx s.nextAnswer.rsc else .ok := by
  unfold State.performs at h
  simp only [Bool.and_eq_true, decide_eq_true_eq] at h
  unfold State.commandResult answerResult
  rw [if_pos h.1, if_pos h.2]

/-- A command not performed ends with an error or a timeout, which is no error of the hardware where it is a timeout. -/
theorem State.commandResult_not {s : State} (h : s.performs = false) :
    ∃ e, ∀ c, s.commandResult c = .err e := by
  unfold State.performs at h
  unfold State.commandResult answerResult
  cases ht : s.timely with
  | false => exact ⟨.timeout, fun c => by simp⟩
  | true =>
    simp only [ht, Bool.true_and, decide_eq_false_iff_not] at h
    exact ⟨statusError s.params.enc.cmd s.nextAnswer.status, fun c => by simp only [if_true]; rw [if_neg h]⟩

/-- A result is OK exactly where the command is performed. -/
theorem State.isOk_commandResult (s : State) (c : Command) : (s.commandResult c).isOk = s.performs := by
  unfold State.commandResult State.performs
  cases s.timely with
  | false => rfl
  | true => simp [isOk_answerResult]

/-- What a command's result says of the TRBs handed to H (10_state.md R30). -/
theorem settle_answer {t : CmdTyp} {c : Command} (ht : c.typ = t) (e : CmdEnc) (n : EpIdx) (p0 p1 : Word) (a : Answer)
    (s : State) : settle n t p0 p1 (answerResult e c a) s = .ok (⟨⟩, s.setHanded (settled e s.handed n c p0 p1 a)) := by
  unfold settle settled
  rw [isHwError_answerResult, isOk_answerResult, ht]
  by_cases h0 : a.status = e.success
  · by_cases he : t = .endTransfer
    · simp [h0, he]
    · simp [h0, he, State.setHanded]
  · by_cases he : t = .startTransfer
    · simp [h0, he]
    · simp [h0, he, State.setHanded]

/-- A timeout gives no TRB back (40_command_dispatcher.md R180). -/
theorem settle_timeout (t : CmdTyp) (n : EpIdx) (p0 p1 : Word) (s : State) :
    settle n t p0 p1 (.err .timeout) s = .ok (⟨⟩, s) := by
  unfold settle
  simp [Result.isHwError, Result.isOk]

/-- The state in which a command has been latched: its words written, H executing it with the answer it will give. -/
def State.latched (s : State) (n : EpIdx) (w p0 p1 : Word) (c : Command) : State :=
  { s with
    regs := { s.regs with dep := s.regs.dep.set n { par2 := s.regs.dep[n].par2, par1 := p1, par0 := p0, cmd := w } }
    hw := s.hw.setCmd n (.executing c s.env.answers.head?)
    env := { s.env with answers := s.env.answers.tail }
    handed := toldOf s.handed n c }

/-- Cmd up to its poll, and what is left of it after: the PHY words put back, and the result settled. -/
theorem dispatchCmd_ready {s : State} {n : EpIdx} {t : CmdTyp} {q : BitVec 16} {p0 p1 : Word} {c : Command}
    (hd : decodeCommand s.params.enc (cmdword s.params.enc t q) p0 p1 = .ok c) (hb : t = .startTransfer → s.ep[n].busy = false)
    (h : s.ready n) :
    ∃ x y, ∀ (r : Result) (u : State),
      let l := s.latched n (cmdword s.params.enc t q) p0 p1 c
      poll n t s.params.retryBudget { l with regs := l.regs.withPhy x y } =
        .ok (r, { u with regs := u.regs.withPhy x y }) → u.quiet →
      u.regs.gusb2phycfg = s.regs.gusb2phycfg → u.regs.gusb3pipectl = s.regs.gusb3pipectl →
      dispatchCmd n t q p0 p1 s = ((do settle n t p0 p1 r; pure r) : M Result) u := by
  obtain ⟨hq, ⟨hp1, hp2⟩, hn, hi, ho⟩ := h
  have hact : cmdact s.params.enc.cmd (cmdword s.params.enc t q) = true := bit_cmdword_act ho t q
  obtain ⟨saved, x, y, hsv, hclear, hs, hx, hy, -, -⟩ := phySave_quiet hq hp1 hp2
  refine ⟨x, y, ?_⟩
  intro r u l hpoll hu ha hbb
  unfold dispatchCmd
  rw [M.bind_of_ok (M.get_apply s)]
  rw [if_neg (by
    simp only [Bool.and_eq_true, decide_eq_true_eq, not_and]
    intro e; rw [hb e]; decide)]
  rw [M.bind_of_ok hsv]
  have q1 : ({ s with regs := s.regs.withPhy x y } : State).quiet := hq
  rw [M.bind_of_ok (writeReg_par0 n p0 q1)]
  have q2 : (State.putReg { s with regs := s.regs.withPhy x y } (.depcmdpar0 n) p0).quiet := hq
  rw [M.bind_of_ok (writeReg_par1 n p1 q2)]
  generalize hr : ({ s.regs.withPhy x y with
    dep := s.regs.dep.set n { s.regs.dep[n] with par0 := p0, par1 := p1 } } : Regs) = g
  have hs3 : (State.putReg { s with regs := s.regs.withPhy x y } (.depcmdpar0 n) p0).putReg (.depcmdpar1 n) p1 =
      ({ s with regs := g } : State) := by
    subst hr
    simp [State.putReg, Regs.put]
  rw [hs3]
  have hrn : g.dep[n] = { s.regs.dep[n] with par0 := p0, par1 := p1 } := by subst hr; simp
  have hlow : ({ s with regs := g } : State).phyLow = false := by
    simp only [State.phyLow, List.any_eq_false, decide_eq_true_eq, not_not]
    intro z hz
    have := hclear z hz
    rcases hp1 z hz with e | e <;> rw [e] at this ⊢ <;> subst hr <;> exact this
  have hwr : writeReg (.depcmd n) (cmdword s.params.enc t q) { s with regs := g } =
      .ok (⟨⟩, { l with regs := l.regs.withPhy x y }) := by
    unfold writeReg
    rw [M.bind_of_ok (othersTurn_quiet (s := { s with regs := g }) hq)]
    simp only
    unfold writeDepcmd
    rw [M.bind_of_ok (M.get_apply _)]
    simp only [hi]
    rw [show cmdact ({ s with regs := g } : State).params.enc.cmd (cmdword s.params.enc t q) = true from hact]
    rw [if_pos rfl, hStartCommand_idle (s := { s with regs := g }) hi hlow hq.2.1 (by rw [hrn]; exact hd)]
    subst hr
    congr 2
    simp [State.putReg, Regs.put, l, State.latched, Regs.withPhy]
  rw [M.bind_of_ok hwr, M.bind_of_ok hpoll]
  have hres : phyRestore saved { u with regs := u.regs.withPhy x y } = .ok (⟨⟩, u) := by
    rw [phyRestore_quiet (a := s.regs.gusb2phycfg) (b := s.regs.gusb3pipectl)
      (t := { u with regs := u.regs.withPhy x y }) hu _ hx hy]
    · simp only [Regs.withPhy_withPhy]
      rw [← ha, ← hbb]
      rfl
    · intro p hp
      obtain ⟨h1, h2⟩ := hs p hp
      obtain ⟨z, hz, e⟩ := List.mem_map.1 h1
      rcases hp1 z hz with e' | e'
      · left
        have : p.1 = .gusb2phycfg := by rw [← e, e']
        exact ⟨this, by rw [h2, this]; rfl⟩
      · right
        have : p.1 = .gusb3pipectl := by rw [← e, e']
        exact ⟨this, by rw [h2, this]; rfl⟩
  rw [M.bind_of_ok hres]

/-- Cmd where H answers within the budget. -/
theorem dispatchCmd_timely {s : State} {n : EpIdx} {t : CmdTyp} {q : BitVec 16} {p0 p1 : Word} {c : Command}
    (hd : decodeCommand s.params.enc (cmdword s.params.enc t q) p0 p1 = .ok c) (hb : t = .startTransfer → s.ep[n].busy = false)
    (h : s.ready n) (hm : s.nextAnswer.status = s.params.enc.cmd.success → s.maySucceed n c s.nextAnswer = true) (ht : s.timely = true) :
    dispatchCmd n t q p0 p1 s = .ok (answerResult s.params.enc.cmd c s.nextAnswer,
      s.completed n (cmdword s.params.enc t q) p0 p1 c) := by
  obtain ⟨x, y, hdisp⟩ := dispatchCmd_ready hd hb h
  obtain ⟨hq, -, -, hi, ho⟩ := h
  have htyp := typ_of_decodeCommand ho hd
  have hact : cmdact s.params.enc.cmd (cmdword s.params.enc t q) = true := bit_cmdword_act ho t q
  obtain ⟨a, as, he⟩ : ∃ a as, s.env.answers = a :: as := by
    cases h : s.env.answers with
    | nil => simp [State.timely, h] at ht
    | cons a as => exact ⟨a, as, rfl⟩
  have ha : s.nextAnswer = a := by unfold State.nextAnswer; rw [he]; rfl
  have hw : a.wait < s.params.retryBudget := by
    unfold State.timely at ht
    rw [ha] at ht
    simp only [Bool.and_eq_true, decide_eq_true_eq] at ht
    exact ht.2
  rw [ha] at hm ⊢
  generalize hW : cmdword s.params.enc t q = w at *
  have hd0 : ∀ z : DepRegs, (s.regs.dep.set n z)[n] = z := fun z => by simp
  rw [hdisp (answerResult s.params.enc.cmd c a) { s.completed n w p0 p1 c with handed := toldOf s.handed n c }]
  · rw [M.bind_of_ok (settle_answer htyp _ n p0 p1 a _)]
    simp only [State.completed, ha]
    rfl
  · generalize hl : ({ s.latched n w p0 p1 c with regs := (s.latched n w p0 p1 c).regs.withPhy x y } : State) = l
    have lp : l.params = s.params := by subst hl; rfl
    have lq : l.quiet := by subst hl; exact hq
    have ld : l.regs.dep[n] = { par2 := s.regs.dep[n].par2, par1 := p1, par0 := p0, cmd := w } := by
      subst hl; exact hd0 _
    have lc : l.hw.ep[n].cmd = .executing c (some a) := by subst hl; simp [State.latched, Hw.setCmd, he]
    have lx : ∀ m : EpIdx, l.hw.ep[m].xfer = s.hw.ep[m].xfer := by
      subst hl
      intro m
      exact updHEp_xfer (s := s) (n := n) (f := fun h => { h with cmd := .executing c s.env.answers.head? }) (fun _ => rfl) m
    rw [← lp, poll_answered (c := c) (a := a) lq (by rw [lp]; exact ho) lc (by rw [ld, lp]; exact hact)
      (fun h0 => (maySucceed_congr n c lx (by subst hl; rfl) rfl).trans (hm (lp ▸ h0))) (by rw [lp]; exact hw), ← htyp, lp,
      decodeStatus_completedWord ho]
    congr 2
    unfold State.afterComplete
    rw [ld, lp]
    have hh : l.hw = s.hw.setCmd n (.executing c s.env.answers.head?) := by subst hl; rfl
    have hs : ∀ h : Hw, (h.setCmd n (.executing c s.env.answers.head?)).setCmd n .idle = h.setCmd n .idle :=
      fun h => by simp [Hw.setCmd]
    have hz : (if a.status = s.params.enc.cmd.success then s.hw.performed n c a else s.hw).setCmd n .idle =
        if a.status = s.params.enc.cmd.success then s.hw.performed n c a else s.hw := by
      unfold Hw.setCmd
      by_cases h0 : a.status = s.params.enc.cmd.success
      · simp only [h0, if_true]
        rw [performed_idle c a hi]
      · simp only [h0, if_false]
        rw [set_getElem_self s.hw.ep n _ (by rw [← hi])]
    rw [hh, Hw.performed_setCmd, ← apply_ite (fun h : Hw => h.setCmd n _), hs, hz]
    subst hl
    simp [State.latched, State.completed, DepRegs.completed, ha, Regs.withPhy]
  · exact hq
  · rfl
  · rfl

/-- Cmd where H gives no answer within the budget. -/
theorem dispatchCmd_overdue {s : State} {n : EpIdx} {t : CmdTyp} {q : BitVec 16} {p0 p1 : Word} {c : Command}
    (hd : decodeCommand s.params.enc (cmdword s.params.enc t q) p0 p1 = .ok c) (hb : t = .startTransfer → s.ep[n].busy = false)
    (h : s.ready n) (ht : s.timely = false) :
    dispatchCmd n t q p0 p1 s = .ok (.err .timeout, s.overdue n (cmdword s.params.enc t q) p0 p1 c) := by
  obtain ⟨x, y, hdisp⟩ := dispatchCmd_ready hd hb h
  obtain ⟨hq, -, -, hi, ho⟩ := h
  have hact : cmdact s.params.enc.cmd (cmdword s.params.enc t q) = true := bit_cmdword_act ho t q
  generalize hW : cmdword s.params.enc t q = w at *
  rw [hdisp (.err .timeout) (s.overdue n w p0 p1 c)]
  · rw [M.bind_of_ok (settle_timeout t n p0 p1 _)]
    rfl
  · generalize hl : ({ s.latched n w p0 p1 c with regs := (s.latched n w p0 p1 c).regs.withPhy x y } : State) = l
    have lp : l.params = s.params := by subst hl; rfl
    have lq : l.quiet := by subst hl; exact hq
    have ld : l.regs.dep[n].cmd = w := by
      subst hl; simp [State.latched, Regs.withPhy]
    have lc : l.hw.ep[n].cmd = .executing c s.env.answers.head? := by subst hl; simp [State.latched, Hw.setCmd]
    rw [poll_late lq lc (by rw [ld, lp]; exact hact)]
    · subst hl
      simp [State.latched, State.overdue, Hw.setCmd]
    · intro a hx
      unfold State.timely State.nextAnswer at ht
      cases he : s.env.answers with
      | nil => rw [he] at hx; cases hx
      | cons b bs =>
        rw [he] at hx ht
        cases hx
        simpa using ht
  · exact hq
  · rfl
  · rfl

/-- A command is completed, or overdue. -/
theorem State.commanded_eq (s : State) (n : EpIdx) (w p0 p1 : Word) (c : Command) :
    s.commanded n w p0 p1 c = if s.timely then s.completed n w p0 p1 c else s.overdue n w p0 p1 c := by
  unfold State.commanded
  cases s.timely <;> rfl

/-- Cmd, whatever H answers and whenever: the result, and everything it leaves. -/
theorem dispatchCmd_commandable {s : State} {n : EpIdx} {t : CmdTyp} {q : BitVec 16} {p0 p1 : Word} {c : Command}
    (hd : decodeCommand s.params.enc (cmdword s.params.enc t q) p0 p1 = .ok c) (hb : t = .startTransfer → s.ep[n].busy = false)
    (h : s.commandable n c) :
    dispatchCmd n t q p0 p1 s = .ok (s.commandResult c, s.commanded n (cmdword s.params.enc t q) p0 p1 c) := by
  rw [State.commanded_eq]
  unfold State.commandResult
  cases ht : s.timely with
  | false => exact dispatchCmd_overdue hd hb h.1 ht
  | true =>
    refine dispatchCmd_timely hd hb h.1 (fun h0 => h.2 ?_) ht
    simp [State.performs, ht, h0]

/-- The controller has the endpoint. -/
theorem requireEp_present {s : State} {n : EpIdx} (h : n.val < s.params.numEps) : requireEp n s = .ok (⟨⟩, s) := by
  unfold requireEp
  rw [M.bind_of_ok (M.get_apply s), if_pos h]
  rfl

/-- The controller lacks the endpoint (40_command_dispatcher.md R157). -/
theorem requireEp_absent {s : State} {n : EpIdx} (h : ¬ n.val < s.params.numEps) :
    requireEp n s = .error (.refuse .cmdBadEp) := by
  unfold requireEp
  rw [M.bind_of_ok (M.get_apply s), if_neg h]
  rfl

/-- A command with the words 30_encoding.md R104 gives it, whatever H answers and whenever. -/
theorem issue_commandable {s : State} {n : EpIdx} {c : Command} (hb : c.typ = .startTransfer → s.ep[n].busy = false)
    (h : s.commandable n c) : issue n c s = .ok (s.commandResult c, s.issued n c) := by
  unfold issue
  rw [M.bind_of_ok (requireEp_present h.1.2.2.1), M.bind_of_ok (M.get_apply s)]
  exact dispatchCmd_commandable (decodeCommand_words h.1.2.2.2.2 c) hb h

/-- A command changes no record of S. -/
@[simp] theorem State.issued_ep (s : State) (n : EpIdx) (c : Command) : (s.issued n c).ep = s.ep := rfl
@[simp] theorem State.issued_ctx (s : State) (n : EpIdx) (c : Command) : (s.issued n c).ctx = s.ctx := rfl
@[simp] theorem State.issued_params (s : State) (n : EpIdx) (c : Command) : (s.issued n c).params = s.params := rfl
@[simp] theorem State.issued_mem (s : State) (n : EpIdx) (c : Command) : (s.issued n c).mem = s.mem := rfl
@[simp] theorem State.issued_cache (s : State) (n : EpIdx) (c : Command) : (s.issued n c).cache = s.cache := rfl
@[simp] theorem State.issued_agenda (s : State) (n : EpIdx) (c : Command) : (s.issued n c).agenda = s.agenda := rfl
@[simp] theorem State.issued_trace (s : State) (n : EpIdx) (c : Command) : (s.issued n c).trace = s.trace := rfl
@[simp] theorem State.issued_env (s : State) (n : EpIdx) (c : Command) :
    (s.issued n c).env = { s.env with answers := s.env.answers.tail } := rfl

/-- Silent agents stay silent over a command. -/
theorem State.issued_quiet {s : State} (n : EpIdx) (c : Command) (h : s.quiet) : (s.issued n c).quiet := h

/-- START_TRANSFER on an idle endpoint, whatever H answers and whenever. -/
theorem cmdStartTransfer_commandable {s : State} {n : EpIdx} {g : GAddr} (hb : s.ep[n].busy = false)
    (h : s.commandable n (.startTransfer g)) :
    cmdStartTransfer n g s = .ok (s.commandResult (.startTransfer g), s.started n g) := by
  unfold cmdStartTransfer
  rw [M.bind_of_ok (issue_commandable (fun _ => hb) h)]
  unfold State.started
  cases hp : s.performs with
  | true =>
    rw [State.commandResult_performs _ hp]
    simp [Command.typ, M.bind_apply]
  | false =>
    obtain ⟨e, he⟩ := State.commandResult_not hp
    rw [he]
    simp

/-- UPDATE_TRANSFER on a busy endpoint, whatever H answers and whenever. -/
theorem cmdUpdateTransfer_commandable {s : State} {n : EpIdx} {r q : BitVec 7} (hb : s.ep[n].busy = true)
    (hr : s.ep[n].rsc = some r) (h : s.commandable n (.updateTransfer q)) :
    cmdUpdateTransfer n q s = .ok (s.commandResult (.updateTransfer q), s.issued n (.updateTransfer q)) := by
  unfold cmdUpdateTransfer
  rw [M.bind_of_ok (requireEp_present h.1.2.2.1), M.bind_of_ok (readRsc_busy hb hr)]
  exact issue_commandable (by intro e; cases e) h

/-- END_TRANSFER on a busy endpoint, whatever H answers and whenever. -/
theorem cmdEndTransfer_commandable {s : State} {n : EpIdx} {r q : BitVec 7} (hb : s.ep[n].busy = true)
    (hr : s.ep[n].rsc = some r) (h : s.commandable n (.endTransfer q)) :
    cmdEndTransfer n q s = .ok (s.commandResult (.endTransfer q),
      if s.performs then (s.issued n (.endTransfer q)).updEp n Ep.idle else s.issued n (.endTransfer q)) := by
  unfold cmdEndTransfer
  rw [M.bind_of_ok (requireEp_present h.1.2.2.1), M.bind_of_ok (readRsc_busy hb hr),
    M.bind_of_ok (issue_commandable (by intro e; cases e) h), State.isOk_commandResult]
  cases s.performs <;> simp [M.bind_apply]

/-- Logging a result. -/
@[simp] theorem logIfError_apply (r : Result) (s : State) : logIfError r s = .ok (⟨⟩, s.loggedIf r) := by
  cases r <;> rfl

end Sys2Proof.Machine
end

