-- ==== Sys2Proof/Laws/Control.lean ====
section
/-! SUPPORT. The shared procedures of S: hand-over of a TRB, the ring, the EP0 TRB, the aborts, ARM_SETUP, the recovery and a
callback, each said once (spec/42_trb_ring.md R221, spec/41_endpoint_lifecycle.md R196, spec/44_ep0_control.md R322 to R324,
R344). -/

namespace Sys2Proof.Machine

/-! ### Hand-over -/

/-- A TRB written and flushed changes S's view and memory alone. -/
theorem State.handedTo_frame (s : State) (n : EpIdx) (t : LAddr) (w : TrbWords) :
    ∃ m c, s.handedTo n t w = { s with
      mem := m, cache := c, handed := handedWith s.handed n (s.params.global t) } := by
  unfold State.handedTo
  obtain ⟨c, hc⟩ := s.trbWritten_cache t w
  rw [hc]
  exact ⟨_, _, rfl⟩

/-- A TRB S owns, written, handed over and flushed. -/
theorem handOver_quiet {s : State} (n : EpIdx) (t : LAddr) (w : TrbWords) (h : s.quiet)
    (ho : s.ownsTrb (s.params.global t) = false) {α : Type} (f : M α) :
    ((do writeTrb t w; handOver n (s.params.global t); cacheFlush t trbBytes; f) : M α) s = f (s.handedTo n t w) := by
  rw [M.bind_of_ok (writeTrb_quiet t w h ho), M.bind_of_ok (handOver_apply _ _ _)]
  obtain ⟨c, hc⟩ := s.trbWritten_cache t w
  have hq : ((s.trbWritten t w).setHanded (handedWith (s.trbWritten t w).handed n (s.params.global t))).quiet := by
    rw [hc]; exact h
  have hh : (s.trbWritten t w).handed = s.handed := by rw [hc]
  rw [M.bind_of_ok (cacheFlush_quiet t trbBytes hq), hh, State.flush_setHanded]
  rfl

/-- A hand-over leaves what a command needs. -/
theorem commandable_handedTo {s : State} {n : EpIdx} {c : Command} (d : EpIdx) (t : LAddr) (w : TrbWords)
    (h : s.commandable n c) : (s.handedTo d t w).commandable n c ∧ (s.handedTo d t w).performs = s.performs := by
  obtain ⟨m, k, e⟩ := s.handedTo_frame d t w
  rw [e]
  exact ⟨h, rfl⟩

/-! ### Rings -/

/-- The zeroing of slots changes S's view alone. -/
theorem State.zeroed_cache (s : State) (n : EpIdx) (k : Nat) : ∃ c, s.zeroed n k = { s with cache := c } := by
  induction k with
  | zero => exact ⟨s.cache, rfl⟩
  | succ k ih =>
    obtain ⟨c, hc⟩ := ih
    obtain ⟨d, hd⟩ := State.trbWritten_cache { s with cache := c } (slotAddr s.params n k) { w0 := 0, w1 := 0, w2 := 0, w3 := 0 }
    refine ⟨d, ?_⟩
    unfold State.zeroed
    rw [hc, hd]

/-- Slots zeroed in order, where H owns none of them. -/
theorem zeroSlots_quiet {s : State} {n : EpIdx} (i k : Nat) (h : s.quiet)
    (ho : ∀ j, i ≤ j → j < i + k → s.ownsTrb (s.params.global (slotAddr s.params n j)) = false) :
    zeroSlots n i k (s.zeroed n i) = .ok (⟨⟩, s.zeroed n (i + k)) := by
  induction k generalizing i with
  | zero => rfl
  | succ k ih =>
    unfold zeroSlots
    obtain ⟨c, hc⟩ := s.zeroed_cache n i
    have hp : (s.zeroed n i).params = s.params := by rw [hc]
    have hq : (s.zeroed n i).quiet := by rw [hc]; exact h
    have hw : (s.zeroed n i).ownsTrb ((s.zeroed n i).params.global (slotAddr (s.zeroed n i).params n i)) = false := by
      rw [hp, hc]; exact ho i (le_refl _) (by omega)
    rw [M.bind_of_ok (M.get_apply _), M.bind_of_ok (writeTrb_quiet _ _ hq hw), hp]
    have := ih (i + 1) (fun j h1 h2 => ho j (by omega) (by omega))
    rw [show i + (k + 1) = i + 1 + k by omega]
    exact this

/-- RingInit, where H owns no TRB of the ring. -/
theorem ringInit_quiet {s : State} {n : EpIdx} (h : s.quiet) (hf : s.ringFree n) :
    ringInit n s = .ok (⟨⟩, s.ringReady n) := by
  have hz : zeroSlots n 0 ringDepth s = .ok (⟨⟩, s.zeroed n ringDepth) := by
    have := zeroSlots_quiet (s := s) (n := n) 0 ringDepth h (by
      intro j _ hj
      exact hf ⟨j, by unfold ringDepth at hj; omega⟩)
    rwa [Nat.zero_add] at this
  unfold ringInit
  rw [M.bind_of_ok hz, M.bind_of_ok (M.get_apply _)]
  obtain ⟨c, hc⟩ := s.zeroed_cache n ringDepth
  have hp : (s.zeroed n ringDepth).params = s.params := by rw [hc]
  have hq : (s.zeroed n ringDepth).quiet := by rw [hc]; exact h
  have hw : (s.zeroed n ringDepth).ownsTrb
      ((s.zeroed n ringDepth).params.global (slotAddr (s.zeroed n ringDepth).params n ringDepth)) = false := by
    rw [hp, hc]; exact hf ⟨8, by omega⟩
  simp only [hp] at hw ⊢
  unfold State.ringReady
  generalize s.zeroed n ringDepth = z at *
  generalize (linkTrb (s.params.global s.params.ringAddr[n])).words s.params.enc .link = l
  rw [M.bind_of_ok (writeTrb_quiet _ _ hq (by rw [hp]; exact hw))]
  obtain ⟨d, hd⟩ := z.trbWritten_cache (slotAddr s.params n ringDepth) l
  have hq2 : (z.trbWritten (slotAddr s.params n ringDepth) l).quiet := by rw [hd]; exact hq
  rw [M.bind_of_ok (cacheFlush_quiet _ _ hq2), modifyEp_apply]

/-- Enqueue, where S owns the slot at the enqueue cursor (42_trb_ring.md R221). -/
theorem enqueue_quiet {s : State} {n : EpIdx} (buf : LAddr) (size : Nat) (k : TrbKind) (h : s.quiet)
    (ho : s.ownsTrb (s.params.global (s.nextSlot n)) = false) :
    enqueue n buf size k s = .ok (s.params.global (s.nextSlot n),
      (s.handedTo n (s.nextSlot n) (s.submission buf size k)).updEp n fun e =>
        { e with enq := (s.ep[n].enq + 1) % ringDepth, out := e.out + 1 }) := by
  unfold enqueue
  rw [M.bind_of_ok (M.get_apply s)]
  exact handOver_quiet n (s.nextSlot n) (s.submission buf size k) h ho _

/-! ### The EP0 TRB -/

/-- Ep0Arm, where the EP0 TRB is S's, the endpoint is idle and its command can be issued (44_ep0_control.md R322). -/
theorem ep0Arm_armable {s : State} {d : EpIdx} (buf : LAddr) (size : Nat) (k : TrbKind) (h : s.armable d) :
    ep0Arm d buf size k s = .ok (s.startResult, s.ep0Armed d buf size k) := by
  obtain ⟨hb, ho, ha⟩ := h
  unfold ep0Arm
  rw [M.bind_of_ok (M.get_apply s)]
  have hsub : (handedTrb (s.params.global buf) size).words s.params.enc k = s.submission buf size k := rfl
  rw [hsub, handOver_quiet d s.params.ep0TrbAddr (s.submission buf size k) ha.1.1 ho]
  obtain ⟨ha', hn⟩ := commandable_handedTo d s.params.ep0TrbAddr (s.submission buf size k) ha
  obtain ⟨m, c, e⟩ := s.handedTo_frame d s.params.ep0TrbAddr (s.submission buf size k)
  have hb' : (s.handedTo d s.params.ep0TrbAddr (s.submission buf size k)).ep[d].busy = false := by
    rw [e]; exact hb
  have hc : ∀ g, (s.handedTo d s.params.ep0TrbAddr (s.submission buf size k)).commandResult (.startTransfer g) =
      s.commandResult (.startTransfer 0) := by
    intro g
    rw [e]
    rfl
  rw [M.bind_of_ok (cmdStartTransfer_commandable hb' ha'), hc]
  unfold State.ep0Armed State.startResult
  cases hp : s.performs with
  | true =>
    rw [State.commandResult_performs _ hp]
    simp [Command.typ, M.bind_apply]
  | false =>
    obtain ⟨x, hx⟩ := State.commandResult_not hp
    rw [hx]
    simp

/-! ### Aborts, ARM_SETUP, the recovery -/

/-- Logging changes the log alone. -/
theorem State.loggedIf_frame (s : State) (r : Result) : ∃ l, s.loggedIf r = s.updCtx fun c => { c with log := l } := by
  unfold State.loggedIf
  split
  · exact ⟨_, rfl⟩
  · exact ⟨s.ctx.log, rfl⟩

/-- What an abort leaves alone. -/
theorem State.aborted_frame (s : State) (n : EpIdx) :
    ∃ regs hw env handed ep log, s.aborted n = { s with
      regs := regs, hw := hw, env := env, handed := handed, ep := ep, ctx := { s.ctx with log := log } } := by
  unfold State.aborted
  split
  · simp only
    split
    · exact ⟨_, _, _, _, _, _, rfl⟩
    · obtain ⟨l, hl⟩ := (s.issued n (.endTransfer _)).loggedIf_frame (s.commandResult (.endTransfer _))
      rw [hl]
      exact ⟨_, _, _, _, _, _, rfl⟩
  · exact ⟨_, _, _, _, _, _, rfl⟩

@[simp] theorem State.aborted_params (s : State) (n : EpIdx) : (s.aborted n).params = s.params := by
  obtain ⟨_, _, _, _, _, _, h⟩ := s.aborted_frame n
  rw [h]

@[simp] theorem State.pairAborted_params (s : State) : s.pairAborted.params = s.params := by
  unfold State.pairAborted
  rw [State.aborted_params, State.aborted_params]

/-- END_TRANSFER on a busy endpoint, its error logged (44_ep0_control.md R323). -/
theorem abortEp_abortable {s : State} {n : EpIdx} (h : s.abortable n) : abortEp n s = .ok (⟨⟩, s.aborted n) := by
  unfold abortEp State.aborted
  rw [M.bind_of_ok (getEp_apply n s)]
  cases hb : s.ep[n].busy with
  | false => simp
  | true =>
    obtain ⟨r, hr, ha⟩ := h hb
    simp only [hr, if_true]
    unfold endOwnTransfer
    simp only [bind_assoc]
    rw [M.bind_of_ok (readRsc_busy hb hr), M.bind_of_ok (cmdEndTransfer_commandable hb hr ha), logIfError_apply]
    congr 2
    cases hp : s.performs with
    | true =>
      rw [State.commandResult_performs _ hp]
      rfl
    | false => rfl

/-- ABORT_EP0, where both aborts can run. -/
theorem abortEp0_abortable {s : State} (h : s.pairAbortable) : abortEp0 s = .ok (⟨⟩, s.pairAborted) := by
  unfold abortEp0
  rw [M.bind_of_ok (abortEp_abortable h.1)]
  exact abortEp_abortable h.2

/-- ARM_SETUP, where it can run to its end (44_ep0_control.md R324). -/
theorem armSetup_armable {s : State} (h : s.setupArmable) : armSetup s = .ok (s.setupArmResult, s.setupArmed) := by
  obtain ⟨hp, ha⟩ := h
  unfold armSetup State.setupArmResult State.setupArmed
  rw [M.bind_of_ok (abortEp0_abortable hp), M.bind_of_ok (modifyCtx_apply _ _), M.bind_of_ok (M.get_apply _)]
  generalize hu : (s.pairAborted.updCtx fun c => { c with ep0State := .setup }) = u
  have hbusy : u.ep0Busy = s.pairAborted.ep0Busy := by subst hu; rfl
  have hres : u.startResult = s.pairAborted.startResult := by subst hu; rfl
  cases hb : s.pairAborted.ep0Busy with
  | true =>
    simp only [hbusy, hb, if_true]
    rw [M.bind_of_ok (logEntry_apply _ _)]
    rfl
  | false =>
    simp only [hbusy, hb, Bool.false_eq_true, if_false]
    have hua : u.armable 0 := by subst hu; exact ha hb
    rw [M.bind_of_ok (ep0Arm_armable _ _ _ hua), M.bind_of_ok (logIfError_apply _ _), hres]
    have hpar : u.params = s.params := by subst hu; exact s.pairAborted_params
    simp only [M.pure_apply, hpar]

/-- The stall of endpoint 0, and its record (44_ep0_control.md R344). -/
theorem stallEp0_commandable {s : State} (h : s.commandable 0 .setStall) : stallEp0 s = .ok (⟨⟩, s.ep0Stalled) := by
  unfold stallEp0 State.ep0Stalled cmdSetStall
  rw [M.bind_of_ok (issue_commandable (by intro e; cases e) h)]
  cases hp : s.performs with
  | true =>
    rw [State.commandResult_performs _ hp]
    simp [Command.typ]
  | false =>
    obtain ⟨e, he⟩ := State.commandResult_not hp
    rw [he]
    simp

/-- The recovery, where it can run to its end (44_ep0_control.md R344, R347). -/
theorem stallAndRearm_recoverable {s : State} (h : s.recoverable) : stallAndRearm s = .ok (⟨⟩, s.recovered) := by
  unfold stallAndRearm State.recovered
  rw [M.bind_of_ok (stallEp0_commandable h.1), M.bind_of_ok (modifyEp_apply _ _ _), M.bind_of_ok (armSetup_armable h.2)]
  rfl

/-! ### The loops of RESET -/

/-- A loop over endpoints whose every turn can run on what those before it leave. -/
theorem forEps_able {able : State → EpIdx → Prop} {after : State → EpIdx → State} {f : EpIdx → M Unit}
    (hf : ∀ s n, able s n → f n s = .ok (⟨⟩, after s n)) {l : List EpIdx} {s : State} (h : ableOver able after l s) :
    forEps f l s = .ok (⟨⟩, l.foldl after s) := by
  induction l generalizing s with
  | nil => rfl
  | cons n l ih =>
    unfold forEps
    rw [M.bind_of_ok (hf s n h.1)]
    exact ih h.2

/-- CLEAR_STALL of a stalled endpoint, its error logged (43_event_buffer.md R281). -/
theorem unstallEp_unstallable {s : State} {n : EpIdx} (h : s.unstallable n) : unstallEp n s = .ok (⟨⟩, s.unstalled n) := by
  unfold unstallEp State.unstalled
  rw [M.bind_of_ok (getEp_apply n s)]
  cases hb : s.ep[n].stalled with
  | false => rfl
  | true =>
    simp only [if_true]
    unfold cmdClearStall
    rw [M.bind_of_ok (issue_commandable (by intro e; cases e) (h hb)), logIfError_apply]

/-! ### Callbacks -/

/-- A callback inside which L makes no call (60_exceptions.md R392). -/
theorem callL_calm {s : State} (c : Callback) (h : s.calm) : callL c s = .ok (⟨⟩, s.called c) := by
  unfold callL
  rw [M.bind_of_ok (M.modify_apply _ s)]
  have hd : drawCalls (s.observe (.callback c)) = .ok ([], s.observe (.callback c)) := by
    unfold drawCalls
    rw [M.bind_of_ok (M.get_apply _)]
    simp [h.1, h.2]
  rw [M.bind_of_ok hd]
  rfl

end Sys2Proof.Machine
end

