-- ==== Sys2Proof/Laws/Controller.lean ====
section
/-! SUPPORT. The controller's shared operations: an event appended, a TRB written back, a transfer ended
(spec/43_event_buffer.md R300, spec/42_trb_ring.md R250, spec/30_encoding.md R113); and what S reads of them
(spec/42_trb_ring.md R235, spec/43_event_buffer.md R272). -/

namespace Sys2Proof.Machine

/-! ### Events -/

/-- H appends an event where there is room. -/
theorem hAppendEvent_room {s : State} (w : Word) (h : s.hasRoom) : hAppendEvent w s = .ok (⟨⟩, s.reported w) := by
  unfold hAppendEvent
  rw [M.bind_of_ok (M.get_apply s)]
  simp only
  rw [if_neg (by unfold State.hasRoom at h; omega)]
  rfl

/-- H has an event to append and no room (43_event_buffer.md R302). -/
theorem hAppendEvent_full {s : State} (w : Word) (h : ¬ s.hasRoom) :
    hAppendEvent w s = .error (.fault .eventOverflow) := by
  unfold hAppendEvent
  rw [M.bind_of_ok (M.get_apply s)]
  simp only
  rw [if_pos (by unfold State.hasRoom at h; omega)]
  rfl

/-- H appends the event it owes, where there is room. -/
theorem hReportOwed_room {s : State} {n : EpIdx} {r : Report} (ho : s.hw.ep[n].owed = some r) (h : s.hasRoom) :
    hReportOwed n s = .ok (⟨⟩, s.reportedOwed n r) := by
  unfold hReportOwed
  rw [M.bind_of_ok (M.get_apply s)]
  simp only [ho]
  rw [M.bind_of_ok (hAppendEvent_room _ h), M.bind_of_ok (modifyHEp_apply _ _ _), M.modify_apply]
  rfl

/-- H owes no event. -/
theorem hReportOwed_none {s : State} {n : EpIdx} (ho : s.hw.ep[n].owed = none) : hReportOwed n s = .ok (⟨⟩, s) := by
  unfold hReportOwed
  rw [M.bind_of_ok (M.get_apply s)]
  simp only [ho]
  rfl

/-! ### TRBs -/

/-- A transfer ends. -/
theorem hEndTransfer_apply (n : EpIdx) (r : BitVec 7) (s : State) :
    hEndTransfer n r s = .ok (⟨⟩, { s with hw := s.hw.ended n r }) := rfl

/-- A read of a byte apart from a word just written. -/
theorem Memory.read1_writeWord_other (m : Memory) (g : GAddr) (w : Word) (x : Nat)
    (h : x ≠ g.toNat ∧ x ≠ (g + 1).toNat ∧ x ≠ (g + 1 + 1).toNat ∧ x ≠ (g + 1 + 1 + 1).toNat) :
    (m.writeWord g w).read1 x = m.read1 x := by
  unfold Memory.writeWord bytesOfWord
  simp only [Memory.writeBytes]
  rw [Memory.read1_write1_other _ _ _ _ h.2.2.2, Memory.read1_write1_other _ _ _ _ h.2.2.1,
    Memory.read1_write1_other _ _ _ _ h.2.1, Memory.read1_write1_other _ _ _ _ h.1]

/-- A word of a TRB reads as before another of its words is written. -/
theorem Memory.readWord_apart (m : Memory) (ptr : GAddr) (w : Word) {i j : Nat} (hi : i < 4) (hj : j < 4) (h : i ≠ j) :
    (m.writeWord (ptr + BitVec.ofNat 64 (4 * i)) w).readWord (ptr + BitVec.ofNat 64 (4 * j)) =
      m.readWord (ptr + BitVec.ofNat 64 (4 * j)) := by
  unfold Memory.readWord
  rw [Memory.read1_writeWord_other _ _ _ _ (by refine ⟨?_, ?_, ?_, ?_⟩ <;> bv_omega),
    Memory.read1_writeWord_other _ _ _ _ (by refine ⟨?_, ?_, ?_, ?_⟩ <;> bv_omega),
    Memory.read1_writeWord_other _ _ _ _ (by refine ⟨?_, ?_, ?_, ?_⟩ <;> bv_omega),
    Memory.read1_writeWord_other _ _ _ _ (by refine ⟨?_, ?_, ?_, ?_⟩ <;> bv_omega)]

/-- The control word of a TRB reads as before its size word is written (30_encoding.md R110). -/
theorem Memory.readWord_control {enc : Enc} (h : enc.ok = true) (m : Memory) (ptr : GAddr) (w : Word) :
    (m.writeWord (ptr + BitVec.ofNat 64 enc.trb.sizeAt) w).readWord (ptr + BitVec.ofNat 64 enc.trb.controlAt) =
      m.readWord (ptr + BitVec.ofNat 64 enc.trb.controlAt) := by
  have f := Enc.ok_facts h
  have h1 := f.trbInside (enc.trb.bufsiz, 24) (by simp [TrbEnc.layout])
  have h2 := f.trbInside (enc.trb.hwo, 1) (by simp [TrbEnc.layout])
  exact Memory.readWord_apart m ptr w (by simp only at h1; omega) (by simp only at h2; omega) f.trbApart

/-- A word just written reads so. -/
theorem Memory.readWord_writeWord (m : Memory) (g : GAddr) (w : Word) : (m.writeWord g w).readWord g = some w := by
  have e2 : g + 1 + 1 = g + 2 := by bv_omega
  have e3 : g + 2 + 1 = g + 3 := by bv_omega
  unfold Memory.readWord Memory.writeWord bytesOfWord
  simp only [Memory.writeBytes, e2, e3]
  rw [Memory.read1_write1_same, Memory.read1_write1_other _ _ (g + 2).toNat _ (by bv_omega), Memory.read1_write1_same,
    Memory.read1_write1_other _ _ (g + 1).toNat _ (by bv_omega), Memory.read1_write1_other _ _ (g + 1).toNat _ (by bv_omega),
    Memory.read1_write1_same, Memory.read1_write1_other _ _ g.toNat _ (by bv_omega),
    Memory.read1_write1_other _ _ g.toNat _ (by bv_omega), Memory.read1_write1_other _ _ g.toNat _ (by bv_omega),
    Memory.read1_write1_same]
  exact congrArg some (wordOfBytes_bytes w)

/-- The control word of a TRB written back has HWO = 0 (30_encoding.md R113). -/
theorem bit_controlWritten (e : TrbEnc) (w : Word) (sts : BitVec 4) : bit (controlWritten e w sts) (e.hwo % 32) = false := by
  unfold controlWritten released
  rw [bit_putField_same _ (e.hwo % 32) 0#1 (e.hwo % 32) (by omega) ⟨le_refl _, Nat.lt_succ_self _⟩]
  simp

/-- A TRB that H has written back is S's (10_state.md R30, route 1). -/
theorem State.ownsTrb_writtenBack (s : State) (ptr : GAddr) (w c : Word) (remaining : BitVec 24) (sts : BitVec 4) :
    (s.writtenBack ptr w c remaining sts).ownsTrb ptr = false := by
  have h : (s.writtenBack ptr w c remaining sts).mem.readWord (ptr + BitVec.ofNat 64 s.params.enc.trb.controlAt) =
      some (controlWritten s.params.enc.trb c sts) :=
    Memory.readWord_writeWord _ _ _
  have hp : (s.writtenBack ptr w c remaining sts).params = s.params := rfl
  simp only [State.ownsTrb, State.hwoInMemory, hp, h]
  exact (congrArg (_ && ·) (bit_controlWritten s.params.enc.trb c sts)).trans (Bool.and_false _)

/-- The TRB H works on, and the phase it has come to. -/
theorem State.job?_some {s : State} {n : EpIdx} {p : Phase} {r : Run} {j : Job} (hx : s.hw.ep[n].xfer = .active r)
    (hj : r.job = some j) (hp : j.phase = p) : s.job? n p = some (r, j) := by
  unfold State.job?
  rw [hx]
  simp [hj, hp]

/-- H writes back the size word of the TRB whose data have moved (30_encoding.md R113). -/
theorem hWriteSize_moved {s : State} {n : EpIdx} {r : Run} {j : Job} {w : Word} (h : s.job? n .moved = some (r, j))
    (ho : s.params.enc.ok = true) (hm : s.hSeesMemory r.ptr)
    (hw : s.mem.readWord (r.ptr + BitVec.ofNat 64 s.params.enc.trb.sizeAt) = some w) :
    hWriteSize n s = .ok (⟨⟩, (s.hStore (r.ptr + BitVec.ofNat 64 s.params.enc.trb.sizeAt)
      (bytesOfWord (sizeWritten s.params.enc.trb w (j.trb.bufsiz - BitVec.ofNat 24 j.len) j.sts))).withRun n
        { r with job := some { j with phase := .sized } }) := by
  have hi := (Enc.ok_facts ho).trbInside (s.params.enc.trb.bufsiz, 24) (by simp [TrbEnc.layout])
  simp only at hi
  unfold hWriteSize
  rw [M.bind_of_ok (M.get_apply s), h]
  simp only
  rw [M.bind_of_ok (hReadWord_sees s.params.enc.trb.sizeAt rfl (by unfold TrbEnc.sizeAt trbBytes; omega) hm hw)]
  unfold hWriteWord hWriteBytes
  rw [M.bind_of_ok (M.modify_apply _ _)]
  rfl

/-- H writes back the control word of the TRB whose size it has written, and H owes the event that reports it
(30_encoding.md R113, 10_state.md R30). -/
theorem hWriteControl_sized {s : State} {n : EpIdx} {r : Run} {j : Job} {c : Word} (h : s.job? n .sized = some (r, j))
    (ho : s.params.enc.ok = true) (hm : s.hSeesMemory r.ptr)
    (hw : s.mem.readWord (r.ptr + BitVec.ofNat 64 s.params.enc.trb.controlAt) = some c) :
    hWriteControl n s = .ok (⟨⟩,
      let t := (s.hStore (r.ptr + BitVec.ofNat 64 s.params.enc.trb.controlAt)
        (bytesOfWord (controlWritten s.params.enc.trb c j.sts))).withRun n
          { r.dropHeld r.ptr with job := some { j with phase := .released } }
      if s.owes n j then t.updHEp n fun h => { h with owed := some j.report } else t) := by
  have hi := (Enc.ok_facts ho).trbInside (s.params.enc.trb.hwo, 1) (by simp [TrbEnc.layout])
  simp only at hi
  unfold hWriteControl
  rw [M.bind_of_ok (M.get_apply s), h]
  simp only
  rw [M.bind_of_ok (hReadWord_sees s.params.enc.trb.controlAt rfl (by unfold TrbEnc.controlAt trbBytes; omega) hm hw)]
  unfold hWriteWord hWriteBytes setRun
  rw [M.bind_of_ok (M.modify_apply _ _), M.bind_of_ok (modifyHEp_apply _ _ _)]
  split <;> rfl

/-! ### S's reads of what H wrote -/

/-- What S reads of a TRB: the bytes transferred, or a fault where more remain than were requested (42_trb_ring.md R236). -/
theorem transferred_apply {s : State} {n : EpIdx} {a : LAddr} {w : Word} (h : s.quiet)
    (hw : (s.refetched a trbBytes (s.sizeWordAt a)).viewWord (s.sizeWordAt a) = some w) :
    transferred n a s =
      if s.ep[n].requested < s.remainingIn w then .error (.fault .remainingExceedsRequest)
      else .ok (s.ep[n].requested - s.remainingIn w, s.refetched a trbBytes (s.sizeWordAt a)) := by
  unfold transferred
  obtain ⟨c, hc⟩ := (s.invalidate a trbBytes).withLine_cache (lineOf s.params (s.sizeWordAt a))
  have he : s.refetched a trbBytes (s.sizeWordAt a) = { s.invalidate a trbBytes with cache := c } := hc
  rw [M.bind_of_ok (M.get_apply s), M.bind_of_ok (cacheInvalidate_quiet a trbBytes h),
    show a + BitVec.ofNat 32 s.params.enc.trb.sizeAt = s.sizeWordAt a from rfl,
    M.bind_of_ok (memRead_quiet (s := s.invalidate a trbBytes) h hw), M.bind_of_ok (getEp_apply _ _)]
  have hq : ((s.invalidate a trbBytes).withLine (lineOf (s.invalidate a trbBytes).params (s.sizeWordAt a))).ep[n].requested =
      s.ep[n].requested := by
    show ((s.refetched a trbBytes (s.sizeWordAt a)).ep[n]).requested = _
    rw [he]; rfl
  simp only [hq]
  show (if s.ep[n].requested < s.remainingIn w then _ else _ : M Nat) _ = _
  split <;> rfl

/-- The bytes transferred, where no more remain than were requested (42_trb_ring.md R236). -/
theorem transferred_quiet {s : State} {n : EpIdx} {a : LAddr} {w : Word} (h : s.quiet)
    (hw : (s.refetched a trbBytes (s.sizeWordAt a)).viewWord (s.sizeWordAt a) = some w)
    (hr : s.remainingIn w ≤ s.ep[n].requested) :
    transferred n a s = .ok (s.ep[n].requested - s.remainingIn w, s.refetched a trbBytes (s.sizeWordAt a)) := by
  rw [transferred_apply h hw, if_neg (by omega)]

/-- More bytes remaining than were requested (42_trb_ring.md R236). -/
theorem transferred_exceeds {s : State} {n : EpIdx} {a : LAddr} {w : Word} (h : s.quiet)
    (hw : (s.refetched a trbBytes (s.sizeWordAt a)).viewWord (s.sizeWordAt a) = some w)
    (hr : s.ep[n].requested < s.remainingIn w) :
    transferred n a s = .error (.fault .remainingExceedsRequest) := by
  rw [transferred_apply h hw, if_pos hr]

/-- After a word is dispatched, the cursor moves and the word is acknowledged (43_event_buffer.md R272, R278, R279). -/
theorem finishEventWord_quiet {s : State} (h : s.quiet) :
    finishEventWord s = .ok (⟨⟩, (s.updCtx fun c => { c with evt := { c.evt with
        lpos := (c.evt.lpos + 4) % evtBufSize, count := c.evt.count - 4 } }).withPending (s.pendingBytes - 4)) := by
  unfold finishEventWord writeReg
  rw [M.bind_of_ok (modifyCtx_apply _ _)]
  have hq := othersTurn_quiet (s := s.updCtx fun c => { c with evt := { c.evt with
        lpos := (c.evt.lpos + 4) % evtBufSize, count := c.evt.count - 4 } }) h
  rw [M.bind_of_ok hq]
  rfl

/-! ### S's view stays made of whole lines -/

/-- Loading a line keeps S's view made of whole lines. -/
theorem State.cacheLegal_withLine {s : State} (a : LAddr) (h : s.cacheLegal) :
    (s.withLine (lineOf s.params a)).cacheLegal := by
  unfold State.withLine
  split
  · exact h
  · obtain ⟨h1, h2⟩ := h
    refine ⟨sorted_insertLine h1, ?_⟩
    intro l hl
    rcases mem_insertLine hl with rfl | hl
    · exact ⟨lineOf_bound s.params a, State.loadLine_length s _⟩
    · exact h2 l hl

/-- A byte written into S's view keeps it so. -/
theorem State.cacheLegal_cacheWrite1 {s : State} (a : LAddr) (b : Byte) (h : s.cacheLegal) :
    (s.cacheWrite1 a b).cacheLegal := by
  obtain ⟨h1, h2⟩ := State.cacheLegal_withLine a h
  obtain ⟨c, hc⟩ := s.withLine_cache (lineOf s.params a)
  rw [hc] at h1 h2
  simp only at h1 h2
  unfold State.cacheWrite1
  rw [hc]
  refine ⟨?_, ?_⟩
  · simp only
    rw [List.pairwise_map]
    refine h1.imp ?_
    intro x y hxy
    split <;> split <;> simpa using hxy
  · intro l hl
    simp only [List.mem_map] at hl
    obtain ⟨k, hk, rfl⟩ := hl
    have := h2 k hk
    split <;> simpa using this

/-- Bytes written into S's view keep it so. -/
theorem State.cacheLegal_cacheWrite {s : State} (a : LAddr) (bs : List Byte) (h : s.cacheLegal) :
    (s.cacheWrite a bs).cacheLegal := by
  induction bs generalizing s a with
  | nil => exact h
  | cons b bs ih => exact ih (a + 1) (State.cacheLegal_cacheWrite1 a b h)

/-- A flush keeps it so. -/
theorem State.cacheLegal_flush {s : State} (a : LAddr) (n : Nat) (h : s.cacheLegal) : (s.flush a n).cacheLegal := by
  obtain ⟨h1, h2⟩ := h
  refine ⟨?_, ?_⟩
  · simp only [State.flush]
    rw [List.pairwise_map]
    refine h1.imp ?_
    intro x y hxy
    split <;> split <;> simpa using hxy
  · intro l hl
    simp only [State.flush, List.mem_map] at hl
    obtain ⟨k, hk, rfl⟩ := hl
    have := h2 k hk
    split <;> simpa using this

/-- An invalidate keeps it so. -/
theorem State.cacheLegal_invalidate {s : State} (a : LAddr) (n : Nat) (h : s.cacheLegal) :
    (s.invalidate a n).cacheLegal :=
  ⟨h.1.sublist List.filter_sublist, fun l hl => h.2 l (List.mem_of_mem_filter hl)⟩

/-- An eviction keeps it so. -/
theorem State.cacheLegal_evict {s : State} (i : Nat) (h : s.cacheLegal) : (s.evict i).cacheLegal :=
  ⟨h.1.sublist List.filter_sublist, fun l hl => h.2 l (List.mem_of_mem_filter hl)⟩

end Sys2Proof.Machine
end

