-- ==== Sys2Proof/Laws/PerInstr.lean ====
section
/-! SUPPORT. Statements about every instruction as syntax, with one lemma for each constructor. -/

namespace Sys2Proof.Laws.EncodedLength

/-- The bytes of an instruction are as many as its format has: a command word and two parameter words, a TRB's four words,
an event word, a setup packet; none for an operation (spec/30_encoding.md R99, R130). -/
def Statement (i : Instr) : Prop :=
  ∀ enc : Enc, (encode enc i).length =
    match formatOf i with
    | some (.command, _) => 12
    | some (.trb, _) => 16
    | some (.event, _) => 4
    | some (.setup, _) => 8
    | none => 0

theorem startConfig (base : BitVec 16) : Statement (.startConfig base) := fun _ => rfl
theorem setEpConfig (n : EpIdx) (cfg : EpConf) : Statement (.setEpConfig n cfg) := fun _ => rfl
theorem setXferResource (n : EpIdx) (count : Word) : Statement (.setXferResource n count) := fun _ => rfl
theorem getEpState (n : EpIdx) : Statement (.getEpState n) := fun _ => rfl
theorem setStall (n : EpIdx) : Statement (.setStall n) := fun _ => rfl
theorem clearStallCmd (n : EpIdx) : Statement (.clearStallCmd n) := fun _ => rfl
theorem startTransfer (n : EpIdx) (trb : GAddr) : Statement (.startTransfer n trb) := fun _ => rfl
theorem updateTransfer (n : EpIdx) (rsc : BitVec 7) : Statement (.updateTransfer n rsc) := fun _ => rfl
theorem endTransfer (n : EpIdx) (rsc : BitVec 7) : Statement (.endTransfer n rsc) := fun _ => rfl
theorem trbNormal (n : EpIdx) (f : TrbFields) : Statement (.trbNormal n f) := fun _ => rfl
theorem trbControlSetup (n : EpIdx) (f : TrbFields) : Statement (.trbControlSetup n f) := fun _ => rfl
theorem trbControlStatus2 (n : EpIdx) (f : TrbFields) : Statement (.trbControlStatus2 n f) := fun _ => rfl
theorem trbControlStatus3 (n : EpIdx) (f : TrbFields) : Statement (.trbControlStatus3 n f) := fun _ => rfl
theorem trbControlData (n : EpIdx) (f : TrbFields) : Statement (.trbControlData n f) := fun _ => rfl
theorem trbZlp (n : EpIdx) (f : TrbFields) : Statement (.trbZlp n f) := fun _ => rfl
theorem trbIsochronousFirst (n : EpIdx) (f : TrbFields) : Statement (.trbIsochronousFirst n f) := fun _ => rfl
theorem trbIsochronous (n : EpIdx) (f : TrbFields) : Statement (.trbIsochronous n f) := fun _ => rfl
theorem trbLink (n : EpIdx) (f : TrbFields) : Statement (.trbLink n f) := fun _ => rfl
theorem evtXferComplete (n : EpIdx) (status : BitVec 4) (param : BitVec 16) : Statement (.evtXferComplete n status param) := fun _ => rfl
theorem evtXferInProgress (n : EpIdx) (status : BitVec 4) (param : BitVec 16) : Statement (.evtXferInProgress n status param) := fun _ => rfl
theorem evtXferNotReady (n : EpIdx) (status : BitVec 4) (param : BitVec 16) : Statement (.evtXferNotReady n status param) := fun _ => rfl
theorem evtEpCmdComplete (n : EpIdx) (status : BitVec 4) (param : BitVec 16) : Statement (.evtEpCmdComplete n status param) := fun _ => rfl
theorem evtDisconnect (info : BitVec 9) : Statement (.evtDisconnect info) := fun _ => rfl
theorem evtReset (info : BitVec 9) : Statement (.evtReset info) := fun _ => rfl
theorem evtConnectDone (info : BitVec 9) : Statement (.evtConnectDone info) := fun _ => rfl
theorem evtLinkStateChange (info : BitVec 9) : Statement (.evtLinkStateChange info) := fun _ => rfl
theorem evtWakeup (info : BitVec 9) : Statement (.evtWakeup info) := fun _ => rfl
theorem evtHibernationReq (info : BitVec 9) : Statement (.evtHibernationReq info) := fun _ => rfl
theorem setupSetAddress (wValue wIndex wLength : BitVec 16) : Statement (.setupSetAddress wValue wIndex wLength) := fun _ => rfl
theorem init : Statement .init := fun _ => rfl
theorem enable (num : Nat) (dir : Dir) (type : EpType) (mps : Nat) (interval : Nat) : Statement (.enable num dir type mps interval) := fun _ => rfl
theorem disable (num : Nat) (dir : Dir) : Statement (.disable num dir) := fun _ => rfl
theorem stall (num : Nat) (dir : Dir) : Statement (.stall num dir) := fun _ => rfl
theorem clearStall (num : Nat) (dir : Dir) : Statement (.clearStall num dir) := fun _ => rfl
theorem send (num : Nat) (dir : Dir) (buf : LAddr) (len : Nat) : Statement (.send num dir buf len) := fun _ => rfl
theorem recv (num : Nat) (dir : Dir) (buf : LAddr) (len : Nat) : Statement (.recv num dir buf len) := fun _ => rfl
theorem ep0Send (buf : LAddr) (len : Nat) : Statement (.ep0Send buf len) := fun _ => rfl
theorem ep0Recv (buf : LAddr) (len : Nat) : Statement (.ep0Recv buf len) := fun _ => rfl
theorem ep0Status (d : Dir) : Statement (.ep0Status d) := fun _ => rfl
theorem armSetup : Statement .armSetup := fun _ => rfl
theorem abortEp0 : Statement .abortEp0 := fun _ => rfl
theorem complete (n : EpIdx) : Statement (.complete n) := fun _ => rfl
theorem irq : Statement .irq := fun _ => rfl
theorem setDevState (target : SettableState) : Statement (.setDevState target) := fun _ => rfl
theorem cmd (n : Nat) (typ : CmdTyp) (grp : EpGroup) (p0 p1 : Word) (rsc : BitVec 7) : Statement (.cmd n typ grp p0 p1 rsc) := fun _ => rfl

end Sys2Proof.Laws.EncodedLength
end

