-- ==== Sys2Proof/Tests/Slice0.lean ====
section
/-! SUPPORT. Tests: ill-formed terms, words written out from the spec's encodings, one step on small states with the
results of spec/95_test_vectors.md, and for every obligation with hypotheses a state that meets them. -/

set_option Elab.async false

namespace Sys2Proof.Tests

open Sys2Proof.Machine

/-! ### Helpers -/

/-- A next state that satisfies `p`. -/
def yields (o : Host.Outcome State Fault Refusal) (p : State → Bool) : Bool :=
  match o with
  | .next t => p t
  | .fault _ => false
  | .refused _ => false

/-- A fault. -/
def faults (o : Host.Outcome State Fault Refusal) (r : Fault) : Bool :=
  match o with
  | .fault q => decide (q = r)
  | _ => false

/-- A refusal. -/
def refuses (o : Host.Outcome State Fault Refusal) (r : Refusal) : Bool :=
  match o with
  | .refused q => decide (q = r)
  | _ => false

theorem next_of_yields {o : Host.Outcome State Fault Refusal} {p : State → Bool} (h : yields o p = true) :
    ∃ t, o = .next t ∧ p t = true := by
  cases o with
  | next t => exact ⟨t, rfl, h⟩
  | fault r => cases h
  | refused r => cases h

theorem fault_of_faults {o : Host.Outcome State Fault Refusal} {r : Fault} (h : faults o r = true) : o = .fault r := by
  cases o with
  | next t => cases h
  | fault q => exact congrArg _ (of_decide_eq_true h)
  | refused q => cases h

theorem refused_of_refuses {o : Host.Outcome State Fault Refusal} {r : Refusal} (h : refuses o r = true) :
    o = .refused r := by
  cases o with
  | next t => cases h
  | fault q => cases h
  | refused q => exact congrArg _ (of_decide_eq_true h)

/-- H answers with success, and this index. -/
def good (rsc : BitVec 7) : Answer := { wait := 0, status := 0, rsc := rsc, word := 0, resume := none }

/-- H answers with an error status. -/
def bad (status : BitVec 4) : Answer := { wait := 0, status := status, rsc := 0, word := 0, resume := none }

/-- H answers one read too late. -/
def tardy (rsc : BitVec 7) : Answer := { good rsc with wait := 1000 }

/-- The answers H will give. -/
def answering (s : State) (as : List Answer) : State := s.setEnv { s.env with answers := as }

/-- A soft reset that ends at the first read, every open field 0. -/
def image : ResetImage := { wait := 0, regs := Regs.attach, ep := Hw.attach.ep }

/-- The attach state, with a soft reset that ends and the five commands of INIT granted. -/
def fresh : State :=
  State.reset.setEnv { State.reset.env with resets := [image], answers := [good 0, good 0, good 0, good 0, good 0] }

/-- After INIT and the ENABLE of endpoints 4 and 5 (95_test_vectors.md V-EN-1, V-EN-3). -/
def up : State :=
  { State.reset with
    ctx := { State.reset.ctx with
      init := .done
      ep0Started := true
      epsStarted := true
      ep0State := .setup
      devState := .default }
    ep := Vector.ofFn fun n =>
      if n.val < 2 then { Ep.attach n with enabled := true, mps := some 64, type := some .control }
      else if n.val = 4 ∨ n.val = 5 then { Ep.attach n with enabled := true, mps := some 512, type := some .bulk }
      else Ep.attach n
    regs := { State.reset.regs with dalepena := 0x33, gevntsiz := 0x1000, devten := 0x3F, gusb2phycfg := 0x148 }
    hw := { State.reset.hw with ep := State.reset.hw.ep.map fun h => { h with conf := some (confFor 0 .bulk 512 0) } } }

/-- A transfer with this index is active on an endpoint, for S and for H. -/
def running (s : State) (n : EpIdx) (r : BitVec 7) (g : GAddr) : State :=
  let t := (s.updEp n fun e => { e with busy := true, rsc := some r }).updHEp n fun h =>
    { h with xfer := .active (Run.start r g) }
  { t with hw := { t.hw with rscUsed := r :: t.hw.rscUsed } }

/-- Memory holds these words from a global address upward. -/
def holding (s : State) (g : GAddr) (ws : List Word) : State :=
  s.setMem (s.mem.writeBytes g (ws.flatMap bytesOfWord))

/-- One TRB of 64 bytes outstanding on endpoint 5, H's write-back reporting `rem` bytes remaining. -/
def sent (rem : Word) : State :=
  holding ((running up 5 3 0x20000500).updEp 5 fun e => { e with enq := 1, out := 1, requested := 64, buf := some 0x20002000 })
    0x20000500 [0x20002000, 0, rem, 0x812]

/-- An EP0 transfer is running on the pair, in a state of the EP0 machine, H's write-back reporting `rem`. -/
def control (st : Ep0State) (n : EpIdx) (rem : Word) : State :=
  let s := (running up n 1 0x20011020).updEp n fun e => { e with requested := 18, buf := some 0x20003000 }
  (holding s 0x20011020 [0x20003000, 0, rem, 0x852]).updCtx fun c =>
    { c with ep0State := st, ep0Dir := some (dirOf n), threeStage := some true, setup := some (Setup.ofBytes 0x80 6 0 1 0 0 18 0) }

/-- The pair idle, in state STATUS, with this request cached. -/
def awaiting (p : Setup) : State :=
  up.updCtx fun c => { c with ep0State := .status, setup := some p, threeStage := some (decide (p.wLength ≠ 0)) }

/-- The SET_ADDRESS packet with this address. -/
def setAddr (v : BitVec 16) : Setup := setAddressPacket v 0 0

/-- The SETUP TRB is armed, and the setup buffer holds these bytes. -/
def setupIn (bs : List Byte) : State :=
  let s := running up 0 0 0x20011020
  s.setMem (s.mem.writeBytes 0x20011000 bs)

/-- H has appended these event words. -/
def pending (s : State) (ws : List Word) : State :=
  (holding s (0x20010000 + BitVec.ofNat 64 s.ctx.evt.lpos) ws).putReg .gevntcount (BitVec.ofNat 32 (4 * ws.length))

/-- An OUT TRB of 512 bytes on endpoint 4, in memory and in H's hands, three bytes arriving. -/
def receiving : State :=
  let s := (holding (running up 4 2 0x20000400) 0x20000400 [0x20003000, 0, 0x200, 0x813]).setHanded
    [{ ep := 4, trb := 0x20000400, told := true }]
  s.setEnv { s.env with moved := [{ bytes := [1, 2, 3], last := true, sts := 0, evStatus := 0, evParam := 0 }] }

/-- The fields of that TRB. -/
def trb512 : TrbFields := handedTrb 0x20003000 512

/-- The SETUP TRB in memory and in H's hands, a packet arriving. -/
def arriving : State :=
  let s := (holding (running up 0 0 0x20011020) 0x20011020 [0x20011000, 0, 8, 0x823]).setHanded
    [{ ep := 0, trb := 0x20011020, told := true }]
  s.setEnv { s.env with setups := [{ packet := setAddr 5, sts := 0, evStatus := 0, evParam := 0 }] }

/-! ### Ill-formed terms -/

theorem test_wf_commands_refused :
    (Instr.startConfig 1).wf = false ∧
    (Instr.setEpConfig 5 { confFor 5 .bulk 512 0 with type := .isochronous }).wf = false ∧
    (Instr.setEpConfig 5 { confFor 5 .bulk 512 0 with mps := 0 }).wf = false ∧
    (Instr.setEpConfig 5 { confFor 5 .bulk 512 0 with fifo := 1 }).wf = false ∧
    (Instr.setEpConfig 5 { confFor 5 .bulk 512 0 with epNumber := 4 }).wf = false ∧
    (Instr.setEpConfig 5 { confFor 5 .bulk 512 0 with xferCompleteEn := false }).wf = false ∧
    (Instr.setEpConfig 5 { confFor 5 .bulk 512 0 with xferNotReadyEn := false }).wf = false ∧
    (Instr.setXferResource 5 2).wf = false ∧ (Instr.setEpConfig 5 (confFor 5 .bulk 512 0)).wf = true := by decide

theorem test_wf_handed_refused :
    ({ trb512 with hwo := false } : TrbFields).handed = false ∧ ({ trb512 with lst := false } : TrbFields).handed = false ∧
    ({ trb512 with ioc := false } : TrbFields).handed = false ∧ ({ trb512 with pcm1 := 1 } : TrbFields).plain = false ∧
    ({ trb512 with trbsts := 1 } : TrbFields).plain = false ∧ ({ trb512 with chn := true } : TrbFields).plain = false ∧
    ({ trb512 with csp := true } : TrbFields).plain = false ∧ ({ trb512 with ispImi := true } : TrbFields).plain = false ∧
    ({ trb512 with sidSofn := 1 } : TrbFields).plain = false ∧ trb512.handed = true := by decide

theorem test_wf_trbs_refused :
    (Instr.trbNormal 1 trb512).wf = false ∧ (Instr.trbNormal 2 (handedTrb 0 0)).wf = false ∧
    (Instr.trbNormal 2 { trb512 with lst := false }).wf = false ∧
    (Instr.trbControlSetup 1 (handedTrb 0 8)).wf = false ∧ (Instr.trbControlSetup 0 (handedTrb 0 7)).wf = false ∧
    (Instr.trbControlStatus2 2 (handedTrb 0 0)).wf = false ∧ (Instr.trbControlStatus2 0 (handedTrb 0 1)).wf = false ∧
    (Instr.trbControlStatus3 2 (handedTrb 0 0)).wf = false ∧ (Instr.trbControlStatus3 0 (handedTrb 0 1)).wf = false ∧
    (Instr.trbControlData 2 trb512).wf = false ∧ (Instr.trbZlp 1 (handedTrb 0 0)).wf = false ∧
    (Instr.trbZlp 4 (handedTrb 0 0)).wf = false ∧ (Instr.trbZlp 5 (handedTrb 0 1)).wf = false ∧
    (Instr.trbIsochronousFirst 2 trb512).wf = false ∧ (Instr.trbIsochronous 2 trb512).wf = false ∧
    (Instr.complete 1).wf = false := by decide

theorem test_wf_link_refused :
    (Instr.trbLink 1 (linkTrb 0)).wf = false ∧ (Instr.trbLink 5 { linkTrb 0 with hwo := false }).wf = false ∧
    (Instr.trbLink 5 { linkTrb 0 with lst := true }).wf = false ∧ (Instr.trbLink 5 { linkTrb 0 with ioc := true }).wf = false ∧
    (Instr.trbLink 5 { linkTrb 0 with bufsiz := 1 }).wf = false ∧ (Instr.trbLink 5 { linkTrb 0 with chn := true }).wf = false ∧
    (Instr.trbLink 5 (linkTrb 0)).wf = true := by decide

/-- 20_memory.md R72, R74: each breach of the layout. -/
theorem test_layout_refused :
    launchL0.layoutOk = true ∧ ({ launchL0 with ep0TrbAddr := 0x20011028 } : Params).layoutOk = false ∧
    ({ launchL0 with ringAddr := launchL0.ringAddr.set 5 0x20000508 } : Params).layoutOk = false ∧
    ({ launchL0 with evtBufAddr := 0x20020010 } : Params).layoutOk = false ∧
    ({ launchL0 with setupBufAddr := 0x20021010 } : Params).layoutOk = false ∧
    ({ launchL0 with ep0TrbAddr := 0x20011010 } : Params).layoutOk = false ∧
    ({ launchL0 with ringAddr := launchL0.ringAddr.set 5 0x20000600 } : Params).layoutOk = false ∧
    ({ launchL0 with ringAddr := launchL0.ringAddr.set 5 0xFFFFFFC0 } : Params).layoutOk = false := by decide +kernel

/-- 00_scope.md R7: each breach of a bound. -/
theorem test_bounds_refused :
    launchL0.boundsOk = true ∧ ({ launchL0 with numEps := 1 } : Params).boundsOk = false ∧
    ({ launchL0 with numEps := 33 } : Params).boundsOk = false ∧ ({ launchL0 with ep0Mps := 0 } : Params).boundsOk = false ∧
    ({ launchL0 with ep0Mps := 2048 } : Params).boundsOk = false ∧ ({ launchL0 with cacheLine := 8 } : Params).boundsOk = false ∧
    ({ launchL0 with cacheLine := 48 } : Params).boundsOk = false ∧ ({ launchL0 with numInEps := 32 } : Params).boundsOk = false ∧
    ({ launchL0 with enc := { hardwareEnc with off := { hardwareEnc.off with dcfg := 0xC701 } } } : Params).boundsOk = false ∧
    ({ launchL0 with enc := { hardwareEnc with off := { hardwareEnc.off with dcfg := 0xC80C } } } : Params).boundsOk = false ∧
    ({ launchL0 with enc := { hardwareEnc with trb := { hardwareEnc.trb with zlp := 8 } } } : Params).boundsOk = false := by decide +kernel

/-- Each breach of an encoding record: a field across another, a field outside the word, two members of one code. -/
theorem test_enc_refused :
    hardwareEnc.ok = true ∧ ({ hardwareEnc with cmd := { hardwareEnc.cmd with act := 12 } } : Enc).ok = false ∧
    ({ hardwareEnc with cfg := { hardwareEnc.cfg with mps := 22 } } : Enc).ok = false ∧
    ({ hardwareEnc with trb := { hardwareEnc.trb with bufsiz := 9 } } : Enc).ok = false ∧
    ({ hardwareEnc with evt := { hardwareEnc.evt with epNum := 0 } } : Enc).ok = false ∧
    ({ hardwareEnc with evt := { hardwareEnc.evt with devEvt := 7 } } : Enc).ok = false ∧
    ({ hardwareEnc with reg := { hardwareEnc.reg with devaddr := 16 } } : Enc).ok = false ∧
    ({ hardwareEnc with cmd := { hardwareEnc.cmd with setStall := 5 } } : Enc).ok = false ∧
    ({ hardwareEnc with cmd := { hardwareEnc.cmd with noResource := 0 } } : Enc).ok = false ∧
    ({ hardwareEnc with cfg := { hardwareEnc.cfg with bulk := 3 } } : Enc).ok = false ∧
    ({ hardwareEnc with cfg := { hardwareEnc.cfg with epNumber := 64 } } : Enc).ok = false ∧
    ({ hardwareEnc with cmd := { hardwareEnc.cmd with success := 1 } } : Enc).ok = false ∧
    ({ hardwareEnc with evt := { hardwareEnc.evt with wakeup := 5 } } : Enc).ok = false ∧
    ({ hardwareEnc with evt := { hardwareEnc.evt with controlData := 2 } } : Enc).ok = false ∧ layoutOk [(31, 2)] = false := by
  decide +kernel

/-! ### Words written out from the encodings -/

/-- The encoding with `EVT_EP_BIT` = 0. -/
def deviceFirst : Enc := { hardwareEnc with evt := { hardwareEnc.evt with epBit := false } }

/-- 30_encoding.md R100 to R104; 95_test_vectors.md V-CMD-1 to V-CMD-7b, V-PAR-3, V-PAR-5. -/
theorem test_decode_commands :
    decodeTableWord 32 0x00000409 = some (.startConfig 0) ∧ decodeTableWord 32 0x00020409 = some (.startConfig 2) ∧
    decodeCommand hardwareEnc 0x00000401 0x00041004 0x0A000500 = .ok (.setEpConfig ⟨.bulk, 512, 2, true, true, 0, 5⟩) ∧
    decodeCommand hardwareEnc 0x00000401 0x00020046 0x06030500 = .ok (.setEpConfig ⟨.interrupt, 8, 1, true, true, 3, 3⟩) ∧
    decodeCommand hardwareEnc 0x00000402 1 0 = .ok (.setXferResource 1) ∧
    decodeTableWord 32 0x00000401 = some (.setEpConfig 0 ⟨.control, 0, 0, false, false, 0, 0⟩) ∧
    decodeTableWord 32 0x00000402 = some (.setXferResource 0 0) ∧
    decodeTableWord 32 0x00000403 = some (.getEpState 0) ∧ decodeTableWord 32 0x00000404 = some (.setStall 0) ∧
    decodeTableWord 32 0x00000405 = some (.clearStallCmd 0) ∧
    decodeTableWord 32 0x00000406 = some (.startTransfer 0 0) ∧
    decodeCommand hardwareEnc 0x00000406 0x00000001 0x20000500 = .ok (.startTransfer 0x0000000120000500) ∧
    decodeTableWord 32 0x00030407 = some (.updateTransfer 0 3) ∧
    decodeTableWord 32 0x007F0C08 = some (.endTransfer 0 127) := by decide

/-- 30_encoding.md R110 to R112; 95_test_vectors.md V-TRB-1 to V-TRB-9. -/
theorem test_decode_trbs :
    decodeTableWord 32 0x00000813 = some (.trbNormal 0 (handedTrb 0 0)) ∧
    decodeTableWord 32 0x00000823 = some (.trbControlSetup 0 (handedTrb 0 0)) ∧
    decodeTableWord 32 0x00000833 = some (.trbControlStatus2 0 (handedTrb 0 0)) ∧
    decodeTableWord 32 0x00000843 = some (.trbControlStatus3 0 (handedTrb 0 0)) ∧
    decodeTableWord 32 0x00000853 = some (.trbControlData 0 (handedTrb 0 0)) ∧
    decodeTableWord 32 0x00000863 = some (.trbIsochronousFirst 0 (handedTrb 0 0)) ∧
    decodeTableWord 32 0x00000873 = some (.trbIsochronous 0 (handedTrb 0 0)) ∧
    decodeTableWord 32 (0x00000803 ||| 9 <<< 4) = some (.trbZlp 0 (handedTrb 0 0)) ∧
    decodeTrb hardwareEnc ⟨0x20000500, 0, 0, 0x00000081⟩ = .ok (.link, linkTrb 0x20000500) ∧
    decodeTrb hardwareEnc ⟨0x20002000, 0, 0x200, 0x00000813⟩ = .ok (.normal, handedTrb 0x20002000 512) ∧
    decodeTrb hardwareEnc ⟨1, 2, 0xF3000004, 0x3FFFCC1F⟩ =
      .ok (.normal, ⟨0x0000000200000001, 4, 3, 15, true, true, true, true, true, true, 0xFFFF⟩) := by decide

/-- 30_encoding.md R120 to R126; 95_test_vectors.md V-EVT-1 to V-EVT-22. -/
theorem test_decode_events :
    decodeTableWord 32 0x00000041 = some (.evtXferComplete 0 0 0) ∧ decodeTableWord 32 0x0000004B = some (.evtXferComplete 5 0 0) ∧
    decodeTableWord 32 0x00000081 = some (.evtXferInProgress 0 0 0) ∧
    decodeTableWord 32 0x000020C3 = some (.evtXferNotReady 1 2 0) ∧
    decodeTableWord 32 0x000001C1 = some (.evtEpCmdComplete 0 0 0) ∧
    decodeTableWord 32 0x00000000 = some (.evtDisconnect 0) ∧ decodeTableWord 32 0x00000100 = some (.evtReset 0) ∧
    decodeTableWord 32 0x00000200 = some (.evtConnectDone 0) ∧
    decodeTableWord 32 0x00050300 = some (.evtLinkStateChange 5) ∧
    decodeTableWord 32 0x00000400 = some (.evtWakeup 0) ∧
    decodeEvent hardwareEnc 0x00000500 = .ok (.hibernationReq 0) ∧
    decodeEvent hardwareEnc 0x00000600 = .error (.reservedDeviceEvent 6) ∧
    decodeEvent hardwareEnc 0x0000000E = .error .unknownEventClass ∧
    decodeEvent deviceFirst 0x00000040 = .ok (.xferComplete 0 0 0) ∧
    decodeEvent deviceFirst 0x00000101 = .ok (.reset 0) ∧
    decodeEvent deviceFirst 0x00000041 = .error .unknownEventClass ∧
    decodeEvent deviceFirst 0x00000100 = .error (.reservedEpEvent 0 4) ∧
    decodeTableWord 64 0x0000000000050500 = some (.setupSetAddress 5 0 0) := by decide

/-- The encoder writes the words of 95_test_vectors.md V-CMD-3, V-PAR-5, V-PAR-7, V-TRB-2, V-TRB-7. -/
theorem test_encode_words :
    encode hardwareEnc (.setEpConfig 5 (confFor 5 .bulk 512 0)) =
      bytesOfWord 0x00000401 ++ bytesOfWord 0x00041004 ++ bytesOfWord 0x0A000500 ∧
    encode hardwareEnc (.setEpConfig 3 (confFor 3 .interrupt 8 4)) =
      bytesOfWord 0x00000401 ++ bytesOfWord 0x00020046 ++ bytesOfWord 0x06030500 ∧
    encode hardwareEnc (.setEpConfig 6 (confFor 6 .interrupt 2047 255)) =
      bytesOfWord 0x00000401 ++ bytesOfWord 0x00003FFE ++ bytesOfWord 0x0CFE0500 ∧
    encode hardwareEnc (.trbZlp 5 (handedTrb 0x20002000 0)) =
      bytesOfWord 0x20002000 ++ bytesOfWord 0 ++ bytesOfWord 0 ++ bytesOfWord (0x00000803 ||| 9 <<< 4) ∧
    encode hardwareEnc (.trbLink 5 (linkTrb 0x20000500)) =
      bytesOfWord 0x20000500 ++ bytesOfWord 0 ++ bytesOfWord 0 ++ bytesOfWord 0x00000081 := by decide

/-- Every word of the opcode table that has one decodes to its own row, and the next step runs it (the command words, of
endpoint 0). -/
theorem test_step_runs_placed_word :
    yields (step (State.reset.withFetchWord 32 0x00000400)) (fun t => decide (t.ctx.log = [.wakeup])) = true ∧
    yields (step (State.reset.withFetchWord 32 0x00050300)) (fun t => decide (t.ctx.linkState = some 5)) = true ∧
    yields (step (State.reset.withFetchWord 32 0x00000404)) (fun t => decide (t.ret = .err .timeout)) = true ∧
    yields (step (State.reset.withFetchWord 64 0x50500)) (fun t => decide (field t.regs.dcfg 3 7 = 5)) = true := by
  decide +kernel

/-! ### A state for the hypotheses of each obligation

`abortable` holds of an idle endpoint, and of a busy one by its index. -/

theorem abortable_idle {s : State} {n : EpIdx} (h : s.ep[n].busy = false) : s.abortable n := fun hb => by
  rw [h] at hb; cases hb

theorem abortable_busy {s : State} {n : EpIdx} (r : BitVec 7) (h : s.ep[n].rsc = some r ∧ s.commandable n (.endTransfer r)) :
    s.abortable n := fun _ => ⟨r, h.1, h.2⟩

/-- What runs to a next state. -/
abbrev runs (i : Instr) (s : State) : Prop := yields (exec i s) (fun _ => true) = true

theorem next_of_runs {i : Instr} {s : State} (h : runs i s) : ∃ t, exec i s = .next t :=
  let ⟨t, ht, _⟩ := next_of_yields h
  ⟨t, ht⟩

theorem witness_DecodeOfEncode :
    hardwareEnc.ok = true ∧ formatOf (.setEpConfig 31 (confFor 31 .interrupt 2047 255)) = some (.command, 31) ∧
    formatOf (.startTransfer 5 0xFFFFFFFFFFFFFFFF) = some (.command, 5) ∧
    formatOf (.trbZlp 31 { trb512 with sidSofn := 0xFFFF }) = some (.trb, 31) ∧
    formatOf (.evtXferComplete 31 15 0xFFFF) = some (.event, 0) ∧ formatOf (.evtHibernationReq 511) = some (.event, 0) ∧
    formatOf (.setupSetAddress 5 0 0) = some (.setup, 0) ∧
    deviceFirst.ok = true ∧ ({ hardwareEnc with trb := { hardwareEnc.trb with zlp := 0 } } : Enc).ok = true := by
  decide +kernel

theorem witness_EncodeOfDecodedEvent :
    (decodeEvent hardwareEnc 0x000010C1 = .ok (.xferNotReady 0 1 0) ∧ eventReservedClear hardwareEnc 0x000010C1 = true) ∧
    (decodeEvent hardwareEnc 0x01FF0500 = .ok (.hibernationReq 511) ∧ eventReservedClear hardwareEnc 0x01FF0500 = true) ∧
    (decodeEvent deviceFirst 0xFFFFF07E = .ok (.xferComplete 31 15 0xFFFF) ∧
      eventReservedClear deviceFirst 0xFFFFF07E = true ∧ deviceFirst.ok = true) ∧ hardwareEnc.ok = true := by decide +kernel

theorem witness_ReservedCodesAreRefused :
    (bit 0x400 hardwareEnc.cmd.act = true ∧ ∀ t : CmdTyp, t.code hardwareEnc.cmd ≠ field 0x400 hardwareEnc.cmd.typ 4) ∧
    (bit 0x40A hardwareEnc.cmd.act = true ∧ ∀ t : CmdTyp, t.code hardwareEnc.cmd ≠ field 0x40A hardwareEnc.cmd.typ 4) ∧
    (∀ k : TrbKind, k.code hardwareEnc.trb ≠ field 0x001 hardwareEnc.trb.trbctl 6) ∧
    (∀ k : TrbKind, k.code hardwareEnc.trb ≠ field 0x0A1 hardwareEnc.trb.trbctl 6) ∧
    (∀ k : TrbKind, k.code hardwareEnc.trb ≠ field 0x3F1 hardwareEnc.trb.trbctl 6) :=
  ⟨⟨by decide, fun t => by cases t <;> decide⟩, ⟨by decide, fun t => by cases t <;> decide⟩,
    fun k => by cases k <;> decide, fun k => by cases k <;> decide, fun k => by cases k <;> decide⟩

/-- H has begun that TRB. -/
def begun : State :=
  receiving.withRun 4 { Run.start 2 0x20000400 with job := some (Job.start .normal trb512) }

/-- H has read that TRB ahead. -/
def ahead : State :=
  receiving.withRun 4 { Run.start 2 0x20000400 with held := [(0x20000400, ⟨0x20003000, 0, 0x200, 0x813⟩)] }

/-- S has written the third word of that TRB and not flushed it, and H picks the bytes it reads. -/
def rewritten (picks : List GAddr) : State :=
  let s := (receiving.cacheWrite 0x20000408 (bytesOfWord 0x100)).setEnv { receiving.env with fresh := [picks] }
  { s with agenda := [.trb 4] }

/-- Each of the clauses, and the places a TRB is taken from: memory, what H holds, and S's write. -/
theorem witness_StepRunsDecodedInstruction :
    (({ up with agenda := [.call .armSetup] } : State).agenda = .call .armSetup :: []) ∧
    (({ up with agenda := [.command 5 0x404 0 0] } : State).agenda = .command 5 0x404 0 0 :: [] ∧
      decode up.params.enc .command 5 (bytesOfWord 0x404 ++ bytesOfWord 0 ++ bytesOfWord 0) = .ok (.setStall 5)) ∧
    (({ receiving with agenda := [.trb 4] } : State).hw.ep[4].xfer = .active (Run.start 2 0x20000400) ∧
      (Run.start 2 0x20000400).heldTrb = none ∧ receiving.mem.readTrb 0x20000400 = some ⟨0x20003000, 0, 0x200, 0x813⟩ ∧
      decode up.params.enc .trb 4 (TrbWords.bytes ⟨0x20003000, 0, 0x200, 0x813⟩) = .ok (.trbNormal 4 trb512)) ∧
    (ahead.hw.ep[4].xfer.unarmed = false ∧
      ({ Run.start 2 0x20000400 with held := [(0x20000400, ⟨0x20003000, 0, 0x200, 0x813⟩)] } : Run).heldTrb =
        some ⟨0x20003000, 0, 0x200, 0x813⟩) ∧
    (receiving.hSeesMemory 0x20000400 ∧ (rewritten []).unflushedAt 0x20000400 trbBytes = true ∧
      (rewritten []).hTrb [] 0x20000400 = some ⟨0x20003000, 0, 0x200, 0x813⟩) ∧
    (begun.hw.ep[4].xfer.working = true) ∧
    (({ awaiting (setAddr 5) with agenda := [.setup] } : State).ctx.setup = some (setAddr 5) ∧
      decode up.params.enc .setup 0 (setAddr 5).bytes = .ok (.setupSetAddress 5 0 0)) ∧
    ((pending up [0x400]).agenda = [] ∧ (pending up [0x400]).irqAsserted = true ∧ (pending up [0x400]).initialised) := by
  decide +kernel

/-- The event word 0x00000400 pending, its count already in the buffer's record. -/
def eventDue : State := (pending up [0x400]).updCtx fun c => { c with evt := { c.evt with count := 4 } }

theorem witness_StepRunsEventWord :
    let u := eventDue.withLine (lineOf up.params 0x20010000)
    eventDue.quiet ∧ eventDue.ctx.evt.count ≠ 0 ∧ u.viewWord 0x20010000 = some 0x400 ∧
    decode up.params.enc .event 0 (bytesOfWord 0x400) = .ok (.evtWakeup 0) ∧
    yields (exec (.evtWakeup 0) u) (fun t => decide t.quiet) = true := by decide +kernel

/-- The same with an event that faults, on an endpoint the controller lacks. -/
theorem witness_StepRunsEventWord_fault :
    decode up.params.enc .event 0 (bytesOfWord 0x7F) = .ok (.evtXferComplete 31 0 0) ∧
    faults (exec (.evtXferComplete 31 0 0) up) .eventBadEp = true := by decide +kernel

theorem witness_StepKeepsLegal :
    (pending up [0x400]).legal ∧ yields (step (pending up [0x400])) (fun t => decide (t.ctx.evt.lpos = 4)) = true ∧
    receiving.mem.wf = true ∧
    yields (step { receiving with agenda := [.trb 4] }) (fun t => decide (t.mem ≠ receiving.mem)) = true := by
  decide +kernel

theorem witness_StepKeepsLaunch :
    yields (step (pending up [0x400])) (fun t => decide (t.ctx.log = [.wakeup])) = true := by decide +kernel

/-- Every premise of the five clauses. -/
theorem witness_StatesNeverReached :
    yields (step (pending up [0x400])) (fun _ => true) = true ∧ up.ctx.init ≠ .notRun ∧
    up.ctx.ep0State ≠ .unconnected ∧ up.ctx.devState ≠ .suspended ∧ up.ep[(5 : EpIdx)].wedge = false ∧
    up.ep[(5 : EpIdx)].pending = false := by decide +kernel

theorem witness_PlainCommandsComplete :
    (answering up [good 0]).commandable 0 (.startConfig 2) ∧ (answering up [good 0]).commandable 5 (.setXferResource 1) ∧
    (answering up [bad 2]).commandable 4 .setStall ∧ (answering up [{ bad 15 with wait := 999 }]).commandable 4 .clearStall := by
  decide +kernel

/-- No answer, and one too late. -/
theorem witness_PlainCommandsComplete_timeout :
    (up.commandable 4 .clearStall ∧ up.performs = false) ∧ (answering up [tardy 0]).commandable 4 .setStall := by
  decide +kernel

theorem witness_ConfigAndStateCommandsComplete :
    (answering up [good 0]).commandable 5 (.setEpConfig (confFor 5 .bulk 512 0)) ∧
    (answering up [bad 1]).commandable 5 (.setEpConfig (confFor 5 .bulk 512 0)) ∧
    (answering up [{ good 0 with word := 7 }]).commandable 5 .getEpState ∧ up.commandable 5 .getEpState := by decide +kernel

theorem witness_StartTransferCompletes :
    ((answering up [good 3]).ep[(5 : EpIdx)].busy = false ∧
      (answering up [good 3]).commandable 5 (.startTransfer 0x20000500)) ∧
    (answering up [bad 1]).commandable 5 (.startTransfer 0x20000500) ∧
    ((answering up [tardy 3]).commandable 5 (.startTransfer 0x20000500) ∧ (answering up [tardy 3]).performs = false) := by
  decide +kernel

theorem witness_UpdateTransferCompletes :
    let s := answering (running up 5 3 0x20000500) [good 0]
    (s.ep[(5 : EpIdx)].busy = true ∧ s.ep[(5 : EpIdx)].rsc ≠ none ∧ s.commandable 5 (.updateTransfer 3)) ∧
    (running up 5 3 0x20000500).commandable 5 (.updateTransfer 3) := by decide +kernel

theorem witness_EndTransferCompletes :
    let s := answering (running up 5 127 0x20000500) [good 0]
    s.ep[(5 : EpIdx)].busy = true ∧ s.ep[(5 : EpIdx)].rsc ≠ none ∧ s.commandable 5 (.endTransfer 127) ∧
    (running up 5 127 0x20000500).commandable 5 (.endTransfer 127) := by decide +kernel

theorem witness_CmdCompletes :
    (let s := answering up [good 3];
      s.initialised ∧
      decodeCommand hardwareEnc (cmdword hardwareEnc .startTransfer (cmdParam .startTransfer .others 0)) 0 0x20000500 =
        .ok (.startTransfer 0x20000500) ∧
      s.ep[(5 : EpIdx)].busy = false ∧ s.commandable 5 (.startTransfer 0x20000500)) ∧
    (let s := answering up [bad 1];
      s.initialised ∧
      decodeCommand hardwareEnc (cmdword hardwareEnc .startConfig (cmdParam .startConfig .others 0)) 0 0 = .ok (.startConfig 2) ∧
      s.commandable 0 (.startConfig 2)) := by decide +kernel

theorem witness_UnansweredCommandTimesOut :
    up.issuable 5 .setStall ∧ up.issuable 0 (.startConfig 2) ∧ up.issuable 5 (.startTransfer 0) ∧ up.ready 5 ∧ up.ready 0 ∧
    up.timely = false ∧ (running up 5 3 0).issuable 5 (.endTransfer 3) ∧ (running up 5 3 0).ready 5 ∧
    (answering up [tardy 0]).timely = false ∧ (answering up [{ good 0 with wait := 999 }]).timely = true :=
  ⟨trivial, by show (0 : EpIdx) = 0; rfl, by show _ = false; decide +kernel, by decide +kernel, by decide +kernel,
    by decide +kernel, by show _ ∧ _; decide +kernel, by decide +kernel, by decide +kernel, by decide +kernel⟩

/-- A success, an index, a hardware error, and a timeout. -/
theorem witness_CmdReturnsOneResult :
    runs (.cmd 4 .setStall .others 0 0 0) (answering up [good 0]) ∧
    runs (.cmd 5 .startTransfer .others 0 0x20000500 0) (answering up [good 3]) ∧
    runs (.cmd 4 .setStall .others 0 0 0) (answering up [bad 2]) ∧ runs (.cmd 4 .setStall .others 0 0 0) up := by
  decide +kernel

theorem witness_CmdRestoresPhyBits :
    (up.quiet ∧ phyMaskOk up.params ∧ runs (.cmd 4 .setStall .others 0 0 0) up) ∧
    ((answering up [good 0]).quiet ∧ runs (.cmd 4 .setStall .others 0 0 0) (answering up [good 0])) := by decide +kernel

/-- Endpoint 5 with a command that H still executes. -/
def stuck : State := up.updHEp 5 fun h => { h with cmd := .executing .setStall none }

theorem witness_CommandsFault :
    (5 < up.params.numEps ∧ (running up 5 3 0).ep[(5 : EpIdx)].busy = true) ∧ up.ep[(5 : EpIdx)].busy = false ∧
    (stuck.issuable 5 .clearStall ∧ stuck.quiet ∧ phyMaskOk stuck.params ∧
      stuck.hw.ep[5].cmd = .executing .setStall none) :=
  ⟨by decide +kernel, by decide +kernel, trivial, by decide +kernel, by decide +kernel, by decide +kernel⟩

theorem witness_MissingEndpointIsRefused :
    up.initialised ∧ up.params.numEps ≤ 8 ∧ up.params.numEps ≤ 40 ∧
    (Command.typ .getEpState = .startConfig → (8 : EpIdx) = 0) ∧
    (Command.typ (.endTransfer 3) = .startConfig → (31 : EpIdx) = 0) ∧
    up.params.numEps ≤ (8 : EpIdx).val ∧ up.params.numEps ≤ (31 : EpIdx).val := by decide +kernel

/-- H would send `len` bytes of the TRB at `g` before it is told of it. -/
abbrev tooEarly (s : State) (n : EpIdx) (g : GAddr) (len : Nat) : Prop :=
  dirOf n = .inp ∧ 0 < len ∧ ∃ x ∈ s.handed, x.trb = g ∧ x.told = false

/-- The hypotheses of DataTrbCompletes, of a TRB taken up that ends. -/
abbrev dataHyps (s : State) (n : EpIdx) (k : TrbKind) (f : TrbFields) (r : Run) (m : Moved) (ms : List Moved)
    (w c : Word) : Prop :=
  let v : State := { s with env := { s.env with moved := ms } }
  let u := if dirOf n = .out then v.hStore f.buf (m.bytes.take (movedLen k f 0 m.bytes.length)) else v
  k ≠ .link ∧ k ≠ .controlSetup ∧ s.takesUp n r ∧ f.hwo = true ∧ s.hStalled n = false ∧ s.env.moved = m :: ms ∧
  s.endsTrb n k f 0 m = true ∧ ¬ tooEarly s n r.ptr (movedLen k f 0 m.bytes.length) ∧ s.params.enc.ok = true ∧
  s.hSeesMemory r.ptr ∧ u.backWords r.ptr w c ∧ ((f.ioc || f.lst) = true → s.reportsComplete n = true → s.hasRoom)

/-- The host moves these bytes. -/
def moved (b : List Byte) : Moved := { bytes := b, last := true, sts := 3, evStatus := 2, evParam := 9 }

/-- A TRB of a transfer on endpoint `n`, in memory, in H's hands and told to H, the host moving `m` bytes. -/
def moving (n : EpIdx) (w3 : Word) (size : Word) (m : List Byte) : State :=
  let s := holding (running up n 2 0x20000400) 0x20000400 [0x20003000, 0, size, w3]
  (s.setEnv { s.env with moved := [moved m] }).setHanded
    [{ ep := n, trb := 0x20000400, told := true }]

/-- The same, but H has not been told of the TRB. -/
def untold (n : EpIdx) (w3 : Word) (size : Word) (m : List Byte) : State :=
  (moving n w3 size m).setHanded [{ ep := n, trb := 0x20000400, told := false }]

/-- A TRB of 1024 bytes, one packet of 512 bytes come; then nothing, then a short packet of one byte. -/
def halfway : State :=
  let j := { Job.start .normal { trb512 with bufsiz := 1024 } with len := 512 }
  let s := begun.withRun 4 { Run.start 2 0x20000400 with job := some j }
  s.setEnv { s.env with moved := [{ moved [] with last := false }, { moved [9] with last := false }] }

/-- A TRB that H takes up and ends: its endpoint, its type, its control word and its fields, and the bytes moved. -/
structure DataCase where
  n : EpIdx
  k : TrbKind
  c : Word
  f : TrbFields
  b : List Byte

/-- Every type of TRB that moves data or nothing, with and without LST, in both directions. -/
def dataCases : List DataCase :=
  [⟨4, .normal, 0x813, trb512, [1, 2, 3]⟩, ⟨5, .normal, 0x811, { trb512 with lst := false }, [1, 2, 3]⟩,
    ⟨5, .zlp, 0x893, handedTrb 0x20003000 0, []⟩, ⟨0, .controlData, 0x853, handedTrb 0x20003000 64, [1]⟩,
    ⟨1, .controlStatus2, 0x833, handedTrb 0x20003000 0, []⟩, ⟨1, .controlStatus3, 0x843, handedTrb 0x20003000 0, []⟩,
    ⟨4, .isochronousFirst, 0x863, trb512, [1]⟩, ⟨4, .isochronous, 0x873, trb512, [1]⟩]

theorem witness_DataTrbCompletes :
    ∀ x ∈ dataCases, let w := x.f.bufsiz.zeroExtend 32
      dataHyps (moving x.n x.c w x.b) x.n x.k x.f (Run.start 2 0x20000400) (moved x.b) [] w x.c := by decide +kernel

/-- A TRB in work goes on with nothing, and ends with a short packet, or with the 512 bytes that are left. -/
theorem witness_DataTrbCompletes_inWork :
    let j := { Job.start .normal { trb512 with bufsiz := 1024 } with len := 512 }
    let ends (b : List Byte) : Bool := halfway.endsTrb 4 .normal j.trb 512 { moved b with last := false }
    halfway.hw.ep[4].xfer = .active { Run.start 2 0x20000400 with job := some j } ∧ halfway.hw.ep[4].owed = none ∧
      j.phase = .moving ∧ j.kind = .normal ∧ halfway.hStalled 4 = false ∧
      halfway.env.moved = { moved [] with last := false } :: [{ moved [9] with last := false }] ∧
      ends [] = false ∧ ends [9] = true ∧ ends (List.replicate 512 9) = true := by decide +kernel

/-- A TRB whose bytes H may not read yet. -/
theorem witness_DataTrbCompletes_early :
    let s := untold 5 0x813 64 [7]
    let f := handedTrb 0x20003000 64
    s.takesUp 5 (Run.start 2 0x20000400) ∧ f.hwo = true ∧ s.hStalled 5 = false ∧ s.env.moved = moved [7] :: [] ∧
      tooEarly s 5 0x20000400 (movedLen .normal f 0 (moved [7]).bytes.length) := by decide +kernel

theorem witness_SetupTrbCompletes :
    arriving.takesUp 0 (Run.start 0 0x20011020) ∧ (handedTrb 0x20011000 8).hwo = true ∧
    arriving.env.setups = { packet := setAddr 5, sts := 0, evStatus := 0, evParam := 0 } :: [] ∧
    arriving.params.enc.ok = true ∧ arriving.hSeesMemory 0x20011020 ∧
    (arriving.hStore 0x20011000 (setAddr 5).bytes).backWords 0x20011020 8 0x823 ∧
    (arriving.reportsComplete 0 = true ∧ arriving.hasRoom) := by decide +kernel

theorem witness_LinkTrbIsFollowed :
    (running up 5 3 0x20000580).takesUp 5 (Run.start 3 0x20000580) ∧ (linkTrb 0x20000500).hwo = true := by decide +kernel

/-- Idle, with an event to report, and that with no room for it. -/
theorem witness_UnownedTrbWaits :
    let rep : Report := { status := 0, param := 0, kind := .normal, threeStage := false, transfer := 0 }
    let owing := up.updHEp 5 fun h => { h with owed := some rep }
    ((running up 5 3 0x20000500).takesUp 5 (Run.start 3 0x20000500) ∧
      ({ trb512 with hwo := false } : TrbFields).hwo = false) ∧
    (up.hw.ep[5].xfer.unarmed = true ∧ up.hw.ep[5].xfer.working = false ∧ up.hw.ep[5].owed = none) ∧
    (owing.hw.ep[5].xfer.unarmed = true ∧ owing.hw.ep[5].xfer.working = false ∧ owing.hw.ep[5].owed = some rep ∧
      owing.hasRoom) ∧ ¬ (owing.putReg .gevntcount 4096).hasRoom := by decide +kernel

theorem witness_PassiveEventsComplete :
    ((0 : EpIdx).val < up.params.numEps ∧ (7 : EpIdx).val < up.params.numEps ∧ 2 ≤ (7 : EpIdx).val) ∧
    up.params.numEps ≤ (8 : EpIdx).val ∧ up.params.numEps ≤ (31 : EpIdx).val := by decide +kernel

/-- H's act of appending a word is next. -/
def reporting (s : State) (w : Word) : State := { s.setEnv { s.env with acts := [[.event w]] } with agenda := [.others] }

/-- The control transfer has come this far. -/
def staged (s : State) (c : CtlStage) : State := { s with hw := { s.hw with ctl := c } }

/-- A device event enabled and not; XFER_NOT_READY of endpoint 4 enabled and not, of endpoint 1 in and out of order, and with
a TRB armed; XFER_COMPLETE of endpoint 5; XFER_NOT_READY of an endpoint that is absent; a reserved word; and no room. -/
theorem witness_OwnEventsAreGated :
    let acts (s : State) (w : Word) : Bool :=
      decide ((reporting s w).agenda = .others :: [] ∧ (reporting s w).env.acts = [.event w] :: [])
    (acts up 0x400 = true ∧ decodeEvent up.params.enc 0x400 = .ok (.wakeup 0) ∧
      devtenBit up.params.enc.reg (.wakeup 0) = some 4 ∧ bit up.regs.devten 4 = true ∧
      bit (up.putReg .devten 0).regs.devten 4 = false) ∧
    (decodeEvent up.params.enc 0xC9 = .ok (.xferNotReady 4 0 0) ∧ up.reportsNotReady 4 = true ∧
      (up.updHEp 4 fun h => { h with conf := none }).reportsNotReady 4 = false) ∧
    (decodeEvent up.params.enc 0x20C3 = .ok (.xferNotReady 1 2 0) ∧ stageOf up.params.enc.evt 2 = .controlStatus ∧
      up.reportsNotReady 1 = true ∧ up.hw.ep[1].xfer.unarmed = true ∧ (staged up .none).hw.ctl = .none ∧
      (staged up (.setupDone false)).hw.ctl ≠ .none ∧ (staged up (.setupDone true)).hw.ctl = .setupDone true ∧
      (running up 1 1 0x20011020).hw.ep[1].xfer.unarmed = false) ∧
    (decodeEvent up.params.enc 0x10C3 = .ok (.xferNotReady 1 1 0) ∧ stageOf up.params.enc.evt 1 = .controlData ∧
      stageOf up.params.enc.evt 0 = .neither) ∧
    (decodeEvent up.params.enc 0x4B = .ok (.xferComplete 5 0 0) ∧ (5 : EpIdx).val < up.params.numEps) ∧
    (decodeEvent up.params.enc 0xFF = .ok (.xferNotReady 31 0 0) ∧ up.params.numEps ≤ (31 : EpIdx).val) ∧
    decodeEvent up.params.enc 0x600 = .error (.reservedDeviceEvent 6) ∧
    (up.hasRoom ∧ ¬ (up.putReg .gevntcount 4096).hasRoom) := by decide +kernel

/-- Nothing in flight, and the SETUP TRB armed. -/
theorem witness_DisconnectCompletes :
    (up.calm ∧ up.pairAbortable) ∧
    (let s := answering (running up 0 0 0x20011020) [good 0];
      s.calm ∧ s.pairAbortable) :=
  ⟨⟨by decide +kernel, abortable_idle (by decide +kernel), abortable_idle (by decide +kernel)⟩,
    by decide +kernel, abortable_busy 0 (by decide +kernel), abortable_idle (by decide +kernel)⟩

/-- `abortable` as a check. -/
def abortableB (s : State) (n : EpIdx) : Bool :=
  match s.ep[n].rsc with
  | none => !s.ep[n].busy
  | some r => !s.ep[n].busy || decide (s.commandable n (.endTransfer r))

theorem abortable_of_check {s : State} {n : EpIdx} (h : abortableB s n = true) : s.abortable n := by
  intro hb
  unfold abortableB at h
  split at h
  · rw [hb] at h; cases h
  · next r hr =>
    rw [hb] at h
    exact ⟨r, hr, of_decide_eq_true h⟩

/-- `ableOver` as a check. -/
def ableB (able : State → EpIdx → Bool) (after : State → EpIdx → State) : List EpIdx → State → Bool
  | [], _ => true
  | n :: ns, s => able s n && ableB able after ns (after s n)

theorem ableOver_of_check {a : State → EpIdx → Bool} {able : State → EpIdx → Prop} {after : State → EpIdx → State}
    (ha : ∀ s n, a s n = true → able s n) {l : List EpIdx} {s : State} (h : ableB a after l s = true) :
    ableOver able after l s := by
  induction l generalizing s with
  | nil => trivial
  | cons n l ih =>
    unfold ableB at h
    rw [Bool.and_eq_true] at h
    exact ⟨ha s n h.1, ih h.2⟩

/-- RingInit hands nothing over. -/
theorem ringReady_handed (s : State) (n : EpIdx) : (s.ringReady n).handed = s.handed := by
  obtain ⟨c, hc⟩ := s.zeroed_cache n ringDepth
  unfold State.ringReady
  obtain ⟨d, hd⟩ := (s.zeroed n ringDepth).trbWritten_cache (slotAddr s.params n ringDepth)
    ((linkTrb (s.params.global s.params.ringAddr[n])).words s.params.enc .link)
  rw [State.updEp_handed, State.flush_handed, hd, hc]

/-- With nothing handed over every ring can be made anew. -/
theorem remakeable_of_none {s : State} {l : List EpIdx} (h : s.handed = []) :
    ableOver State.remakeable State.resetOne l s := by
  induction l generalizing s with
  | nil => trivial
  | cons n l ih =>
    refine ⟨fun _ _ _ i => by simp [State.ownsTrb, h], ih ?_⟩
    unfold State.resetOne
    split
    · rw [ringReady_handed]; exact h
    · exact h

/-- The checks that the three loops of RESET can run. -/
abbrev resettable (s : State) : Prop :=
  ableB abortableB State.aborted (epList s.params) s = true ∧
    ableB (fun s n => decide (s.unstallable n)) State.unstalled (epList s.params)
      ((epList s.params).foldl State.aborted s) = true ∧
    s.busEnded.handed = []

theorem resettable_of_check {s : State} (h : resettable s) : s.busResettable :=
  ⟨ableOver_of_check (fun _ _ => abortable_of_check) h.1, ableOver_of_check (fun _ _ h => of_decide_eq_true h) h.2.1,
    remakeable_of_none h.2.2⟩

/-- 95_test_vectors.md V-DEV-1. -/
def busyAndStalled : State :=
  ((answering (running up 5 3 0x20000500) [good 0, good 0]).updEp 4 fun e => { e with stalled := true }).putReg .dcfg 0x28

/-- Nothing in flight; a busy and a stalled endpoint; a busy one whose END_TRANSFER fails, and one where it times out. -/
theorem witness_BusResetCompletes :
    (up.quiet ∧ up.calm ∧ up.busResettable) ∧
    (busyAndStalled.quiet ∧ busyAndStalled.calm ∧ busyAndStalled.busResettable) ∧
    (answering (sent 64) [bad 1]).busResettable ∧ (sent 64).busResettable :=
  ⟨⟨by decide +kernel, by decide +kernel, resettable_of_check (by decide +kernel)⟩,
    ⟨by decide +kernel, by decide +kernel, resettable_of_check (by decide +kernel)⟩,
    resettable_of_check (by decide +kernel), resettable_of_check (by decide +kernel)⟩

/-- Ended; and, with a status of 1, not, with the premises of its ring, and with a TRB in H's hands. -/
theorem witness_BusResetClearsAndKeeps :
    (busyAndStalled.quiet ∧ busyAndStalled.calm ∧ phyMaskOk busyAndStalled.params ∧
      yields (exec (.evtReset 0) busyAndStalled) (fun t => decide (t.ep[(5 : EpIdx)].busy = false)) = true ∧
      busyAndStalled.ep[(5 : EpIdx)].busy = true ∧ busyAndStalled.params.enc.ok = true) ∧
    (let s := (answering (sent 64) [bad 1]).setHanded [⟨5, 0x20000500, true⟩];
      s.quiet ∧ s.calm ∧ phyMaskOk s.params ∧ s.params.enc.ok = true ∧ s.params.layoutOk = true ∧
      s.params.boundsOk = true ∧ s.cacheLegal ∧ (5 : EpIdx).val < s.params.numEps ∧
      (∃ x ∈ s.handed, x.ep = 5) ∧
      yields (exec (.evtReset 0) s) (fun t => decide (t.ep[(5 : EpIdx)].busy = true)) = true) := by
  decide +kernel

/-- An abort of an idle endpoint does nothing. -/
theorem aborted_idle {s : State} {n : EpIdx} (h : s.ep[n].busy = false) : s.aborted n = s := by
  unfold State.aborted
  rw [h]

/-- An abort of a busy endpoint whose END_TRANSFER succeeds. -/
theorem aborted_granted {s : State} {n : EpIdx} {r : BitVec 7}
    (h : s.ep[n].busy = true ∧ s.ep[n].rsc = some r ∧ s.performs = true) :
    s.aborted n = (s.issued n (.endTransfer r)).updEp n Ep.idle := by
  unfold State.aborted
  rw [h.1, h.2.1]
  exact if_pos h.2.2

/-- The EP0 TRB can be armed, both endpoints of the pair being idle. -/
theorem armable_idle {s : State} (h0 : s.ep[(0 : EpIdx)].busy = false ∧ s.ep[(1 : EpIdx)].busy = false)
    (h : s.armable 0) : s.setupArmable := by
  have e0 := aborted_idle h0.1
  have e1 := aborted_idle h0.2
  refine ⟨⟨abortable_idle h0.1, ?_⟩, fun _ => ?_⟩
  · rw [e0]; exact abortable_idle h0.2
  · unfold State.pairAborted; rw [e0, e1]; exact h

theorem witness_ConnectDoneCompletes :
    let s := answering up [good 0]
    let u := ((s.updCtx fun c => { c with speed := some (field s.regs.dsts s.params.enc.reg.connectspd 3), lpm := true }).putReg .dcfg
      (putField s.regs.dcfg s.params.enc.reg.lpmcap 1#1)).called .onConnect
    s.quiet ∧ s.calm ∧ u.setupArmable :=
  ⟨by decide +kernel, by decide +kernel, armable_idle (by decide +kernel) (by decide +kernel)⟩

theorem witness_SetupCompletionCompletes :
    let s := setupIn [0x21, 0x09, 0, 2, 0, 0, 10, 0]
    let a := s.params.setupBufAddr
    let u := (s.updEp 0 fun e => { e.idle with stalled := false }).refetched a setupLen a
    0 < s.params.numEps ∧ s.ctx.ep0State = .setup ∧ s.ep[(0 : EpIdx)].busy = true ∧ s.quiet ∧ s.calm ∧
    ∀ i : Fin 8, lineOf s.params (a + BitVec.ofNat 32 i.val) = lineOf s.params a ∧
      u.viewByte (a + BitVec.ofNat 32 i.val) = (Setup.ofBytes 0x21 0x09 0 2 0 0 10 0).bytes[i.val]? := by decide +kernel

/-- With wLength 0 and with wLength 18. -/
theorem witness_SetupLengthDecidesDataStage :
    (let s := setupIn (setAddr 5).bytes;
      s.ctx.ep0State = .setup ∧ s.ep[(0 : EpIdx)].busy = true ∧ runs (.evtXferComplete 0 0 0) s) ∧
    (let s := setupIn [0x80, 6, 0, 1, 0, 0, 18, 0];
      s.ctx.ep0State = .setup ∧ s.ep[(0 : EpIdx)].busy = true ∧ runs (.evtXferComplete 0 0 0) s) := by decide +kernel

/-- The hypotheses that the clauses of DataCompletionCompletes share, H's write-back on the data TRB being `w`. -/
abbrev ep0DataHyps (n : EpIdx) (w : Word) : Prop :=
  n.val < 2 ∧ n.val < up.params.numEps ∧ (control .data n w).ctx.ep0State = .data ∧
  (control .data n w).ep[n].busy = true ∧ (control .data n w).quiet ∧ (control .data n w).calm ∧
  ((control .data n w).refetched 0x20011020 trbBytes (up.sizeWordAt 0x20011020)).viewWord (up.sizeWordAt 0x20011020) = some w

/-- Both directions with every byte moved, and one byte more remaining than requested. -/
theorem witness_DataCompletionCompletes :
    (ep0DataHyps 0 18 ∧ up.remainingIn 18 ≤ (control .data 0 18).ep[(0 : EpIdx)].requested ∧
      (control .data 0 18).ep[(0 : EpIdx)].hasBuffer (dirOf 0)) ∧
    (ep0DataHyps 1 0 ∧ up.remainingIn 0 ≤ (control .data 1 0).ep[(1 : EpIdx)].requested ∧
      (control .data 1 0).ep[(1 : EpIdx)].hasBuffer (dirOf 1)) ∧
    (ep0DataHyps 1 19 ∧ (control .data 1 19).ep[(1 : EpIdx)].requested < up.remainingIn 19) := by decide +kernel

theorem witness_StatusCompletionCompletes :
    let s := answering (control .status 1 0) [good 0]
    let u := (s.updEp 1 fun e => { e.idle with actual := 0 }).updEp 0 fun e => { e with pending := false }
    (1 : EpIdx).val < 2 ∧ (1 : EpIdx).val < s.params.numEps ∧ s.ctx.ep0State = .status ∧ s.ep[(1 : EpIdx)].busy = true ∧
    u.setupArmable :=
  ⟨by decide, by decide +kernel, by decide +kernel, by decide +kernel, armable_idle (by decide +kernel) (by decide +kernel)⟩

/-- After the stall of the idle pair, the SETUP TRB can be armed. -/
theorem recoverable_idle {s : State} (h : s.commandable 0 .setStall)
    (h0 : s.performs = true ∧ s.ep[(0 : EpIdx)].busy = false ∧ s.ep[(1 : EpIdx)].busy = false)
    (ha : (((s.issued 0 .setStall).updEp 0 fun e => { e with stalled := true }).updEp 0 fun e =>
      { e with pending := false }).armable 0) : s.recoverable := by
  have e : s.ep0Stalled = (s.issued 0 .setStall).updEp 0 fun e => { e with stalled := true } := by
    unfold State.ep0Stalled
    exact if_pos h0.1
  refine ⟨h, ?_⟩
  rw [e]
  refine armable_idle ⟨?_, ?_⟩ ha
  · simpa using h0.2.1
  · rw [State.updEp_other _ _ _ _ (by decide), State.updEp_other _ _ _ _ (by decide)]
    exact h0.2.2

/-- Already armed; a request that is not SET_ADDRESS; SET_ADDRESS of 127 and of 0; of 128, and while CONFIGURED. -/
theorem witness_StatusTriggerCompletes :
    (stageOf hardwareEnc.evt 2 = .controlStatus ∧ (1 : EpIdx).val < 2 ∧ (0 : EpIdx).val < 2 ∧ (1 : EpIdx).val < up.params.numEps) ∧
    ((control .status 1 0).ctx.ep0State = .status ∧ (control .status 1 0).ep0Busy = true) ∧
    (let s := answering (awaiting (Setup.ofBytes 0x21 9 0 2 0 0 10 0)) [good 1];
      s.ctx.ep0State = .status ∧ s.ep0Busy = false ∧ s.ctx.setup = some (Setup.ofBytes 0x21 9 0 2 0 0 10 0) ∧
      s.ctx.threeStage = some true ∧ (Setup.ofBytes 0x21 9 0 2 0 0 10 0).isSetAddress = false ∧ s.armable 1) ∧
    (let s := answering (awaiting (setAddr 127)) [good 1];
      s.ctx.ep0State = .status ∧ s.ep0Busy = false ∧ s.ctx.setup = some (setAddr 127) ∧ s.ctx.threeStage = some false ∧
      (setAddr 127).isSetAddress = true ∧ s.addressError 127 = none ∧ s.addressError 0 = none ∧ s.armable 1) ∧
    (let s := answering (awaiting (setAddr 128)) [good 0, good 0];
      s.ctx.ep0State = .status ∧ s.ep0Busy = false ∧ s.ctx.setup = some (setAddr 128) ∧ s.ctx.threeStage = some false ∧
      (setAddr 128).isSetAddress = true ∧ s.addressError 128 = some .addrRange ∧
      (s.updCtx fun c => { c with devState := .configured }).addressError 5 = some .addrConfigured) ∧
    ((answering (awaiting (setAddr 128)) [good 0, good 0]).logged (.error .addrRange)).recoverable :=
  ⟨by decide +kernel, by decide +kernel, by decide +kernel, by decide +kernel, by decide +kernel,
    recoverable_idle (by decide +kernel) (by decide +kernel) (by decide +kernel)⟩

/-- The data TRB on endpoint 1; the token on 1, and on 0. -/
theorem witness_DataNotReadyCompletes :
    let s := answering (control .data 1 0) [good 0, good 0, good 0]
    ((1 : EpIdx).val < s.params.numEps ∧ s.ctx.ep0State = .data ∧ stageOf hardwareEnc.evt 1 = .controlData ∧ s.ctx.ep0Dir = some .inp ∧
      dirOf 1 = .inp ∧ dirOf 0 ≠ .inp) ∧
    s.abortable (ep0Of .inp) ∧ (s.aborted (ep0Of .inp)).recoverable := by
  intro s
  refine ⟨by decide +kernel, abortable_busy 1 (by decide +kernel), ?_⟩
  rw [show s.aborted (ep0Of .inp) = (s.issued 1 (.endTransfer 1)).updEp 1 Ep.idle from aborted_granted (by decide +kernel)]
  exact recoverable_idle (by decide +kernel) (by decide +kernel) (by decide +kernel)

theorem witness_OtherEp0EventsAreLogged :
    ((0 : EpIdx).val < up.params.numEps ∧ (1 : EpIdx).val < up.params.numEps) ∧
    (up.updCtx fun c => { c with ep0State := .unconnected }).ctx.ep0State = .unconnected ∧
    (up.ctx.ep0State = .setup ∧ (1 : EpIdx) ≠ 0 ∧ up.ep[(0 : EpIdx)].busy = false) ∧
    ((control .data 1 0).ctx.ep0State = .data ∧ (control .data 1 0).ep[(0 : EpIdx)].busy = false ∧
      stageOf hardwareEnc.evt 2 ≠ .controlData ∧ stageOf hardwareEnc.evt 0 ≠ .controlData) ∧
    ((control .status 1 0).ctx.ep0State = .status ∧ (control .status 1 0).ep[(0 : EpIdx)].busy = false ∧
      stageOf hardwareEnc.evt 1 ≠ .controlStatus ∧ stageOf hardwareEnc.evt 15 ≠ .controlStatus) := by decide +kernel

/-- Addresses 0, 5, 127; and 128, 65535 and any while CONFIGURED. -/
theorem witness_SetAddressCompletes :
    (up.addressError 0 = none ∧ up.addressError 5 = none ∧ up.addressError 127 = none ∧ up.quiet) ∧
    (up.addressError 128 = some .addrRange ∧ up.addressError 0xFFFF = some .addrRange ∧
      (up.updCtx fun c => { c with devState := .configured }).addressError 5 = some .addrConfigured) ∧
    (((answering up [good 0, good 0]).updCtx fun c => { c with setup := some (setAddressPacket 128 0 0) }).logged
      (.error .addrRange)).recoverable :=
  ⟨by decide +kernel, by decide +kernel,
    recoverable_idle (by decide +kernel) (by decide +kernel) (by decide +kernel)⟩

/-- Idle; nothing outstanding; every byte moved, and one more remaining than requested; called, and from an event. -/
theorem witness_CompleteCompletes :
    (2 ≤ (5 : EpIdx).val ∧ up.initialised ∧ (5 : EpIdx).val < up.params.numEps) ∧
    (up.ep[(5 : EpIdx)].busy = false ∧ (running up 5 3 0).ep[(5 : EpIdx)].out = 0) ∧
    (let s := sent 64;
      let u := s.refetched (slotAddr s.params 5 s.ep[(5 : EpIdx)].deq) trbBytes (s.sizeWordAt (slotAddr s.params 5 0));
      s.ep[(5 : EpIdx)].busy = true ∧ s.ep[(5 : EpIdx)].out ≠ 0 ∧ s.quiet ∧ s.calm ∧
      u.viewWord (s.sizeWordAt (slotAddr s.params 5 0)) = some 64 ∧ s.remainingIn 64 ≤ s.ep[(5 : EpIdx)].requested ∧
      s.ep[(5 : EpIdx)].hasBuffer s.ep[(5 : EpIdx)].dir) ∧
    (let s := sent 65;
      let u := s.refetched (slotAddr s.params 5 0) trbBytes (s.sizeWordAt (slotAddr s.params 5 0));
      u.viewWord (s.sizeWordAt (slotAddr s.params 5 0)) = some 65 ∧ s.ep[(5 : EpIdx)].requested < s.remainingIn 65) := by
  decide +kernel

theorem witness_IrqChecksCount :
    (up.initialised ∧ up.quiet ∧ up.pendingBytes = 0) ∧
    ((up.putReg .gevntcount 6).pendingBytes ≠ 0 ∧ (up.putReg .gevntcount 6).pendingBytes.toNat % 4 ≠ 0) ∧
    evtBufSize < (up.putReg .gevntcount 4100).pendingBytes.toNat := by decide +kernel

/-- The state in which IRQ dispatches the one word that is pending. -/
def dispatching (w : Word) : State :=
  let s := pending up [w]
  ((s.updCtx fun c => { c with evt := { c.evt with count := 4 } }).putReg .gevntsiz
    (withIntMask s.params.enc.reg s.regs.gevntsiz true)).refetched s.params.evtBufAddr evtBufSize 0x20010000

/-- What IRQ needs to dispatch the one word that is pending. -/
abbrev dispatched (w : Word) : Prop :=
  (pending up [w]).initialised ∧ (pending up [w]).quiet ∧ (pending up [w]).pendingBytes = 4 ∧
    (dispatching w).viewWord 0x20010000 = some w

/-- An endpoint event of a reserved type. -/
abbrev reservedEp (w : Word) : Prop :=
  let v := hardwareEnc.evt
  bit w 0 = v.epBit ∧ field w v.epEvt 4 ∉ [v.xferComplete, v.xferInProgress, v.xferNotReady, v.epCmdComplete]

/-- WAKEUP, LINK_STATE_CHANGE with state 5; an endpoint word of type 4 on endpoint 0 and on endpoint 31, a device word of
class 7, and a device event of type 6. -/
theorem witness_IrqRunsOneWord :
    (dispatched 0x400 ∧ decodeEvent up.params.enc 0x400 = .ok (.wakeup 0) ∧
      yields (exec (Instr.ofEvent (.wakeup 0)) (dispatching 0x400)) (fun t => decide (t.quiet ∧ t.ctx.evt.count = 4)) = true) ∧
    (dispatched 0x50300 ∧ decodeEvent up.params.enc 0x50300 = .ok (.linkStateChange 5)) ∧
    (dispatched 0x101 ∧ reservedEp 0x101 ∧ (field 0x101 hardwareEnc.evt.epNum 5).toNat < up.params.numEps) ∧
    (dispatched 0x13F ∧ reservedEp 0x13F ∧ up.params.numEps ≤ (field 0x13F hardwareEnc.evt.epNum 5).toNat) ∧
    (dispatched 0xE ∧ bit 0xE 0 ≠ hardwareEnc.evt.epBit ∧ field 0xE hardwareEnc.evt.devClass 7 ≠ 0) ∧
    (let v := hardwareEnc.evt;
      dispatched 0x600 ∧ bit 0x600 0 ≠ v.epBit ∧ field 0x600 v.devClass 7 = 0 ∧
        field 0x600 v.devEvt 4 ∉ [v.disconnect, v.reset, v.connectDone, v.linkStateChange, v.wakeup, v.hibernationReq]) :=
  ⟨by decide +kernel, by decide +kernel, by decide +kernel, by decide +kernel, by decide +kernel, by decide +kernel⟩

/-- 95_test_vectors.md P6: three words across the end of the buffer. -/
def wrapping : State :=
  let s := up.updCtx fun c => { c with evt := { c.evt with lpos := 4088 } }
  (holding (holding s 0x20010FF8 [0x30300, 0x50300]) 0x20010000 [0x400]).putReg .gevntcount 12

/-- A word pending, and another that H appends while the first is dispatched. -/
def late : State := (pending up [0x400]).setEnv { up.env with acts := [[], [], [], [], [], [.event 0x500]] }

/-- With silent agents, with an event appended meanwhile, and with none pending. -/
theorem witness_IrqDrainsSnapshot :
    (wrapping.quiet ∧ phyMaskOk wrapping.params ∧ wrapping.params.enc.ok = true ∧ wrapping.hw.softReset = .idle ∧
      wrapping.ctx.evt.lpos < evtBufSize ∧ runs .irq wrapping) ∧
    (late.hw.softReset = .idle ∧ late.ctx.evt.lpos < evtBufSize ∧ runs .irq late) ∧ runs .irq up := by decide +kernel

theorem witness_NothingRunsBeforeInit :
    ¬ State.reset.initialised ∧ up.ctx.init ≠ .notRun ∧
    (({ State.reset with params := { launchL0 with evtBufAddr := 0x20010010 } } : State).ctx.init = .notRun ∧
      ({ launchL0 with evtBufAddr := 0x20010010 } : Params).layoutOk = false) := by decide +kernel

theorem witness_InitCompletes :
    fresh.ctx.init = .notRun ∧ fresh.params.layoutOk = true ∧ fresh.params.boundsOk = true ∧ fresh.quiet ∧
    phyMaskOk fresh.params ∧ (∀ x ∈ fresh.params.phyConfig, x.1 = .gusb2phycfg ∨ x.1 = .gusb3pipectl) ∧
    fresh.params.coreIdOk.contains fresh.regs.gsnpsid = true ∧ fresh.params.modeOk.contains fresh.regs.ghwparams0 = true ∧
    fresh.hw.softReset = .idle ∧ fresh.env.resets = image :: [] ∧ image.wait < fresh.params.retryBudget ∧
    fresh.env.answers = good 0 :: good 0 :: good 0 :: good 0 :: good 0 :: [] ∧
    (∀ a ∈ [good 0, good 0, good 0, good 0, good 0], a.status = fresh.params.enc.cmd.success ∧ a.wait < fresh.params.retryBudget) ∧
    fresh.ctx.ep0Started = false ∧ fresh.ep[(0 : EpIdx)].enabled = false ∧ fresh.ep[(1 : EpIdx)].enabled = false := by
  decide +kernel

/-- 95_test_vectors.md V-INIT-1, V-INIT-2. -/
def wrongCore : State := { State.reset with params := { launchL0 with coreIdOk := [1] } }
@[inherit_doc wrongCore] def wrongMode : State := { State.reset with params := { launchL0 with modeOk := [1] } }

/-- 95_test_vectors.md V-INIT-3: a soft reset that ends one read too late. -/
def slowReset : State :=
  State.reset.setEnv { State.reset.env with resets := [{ image with wait := 1000 }] }

/-- A wrong core, a wrong mode; a soft reset that does not end; and a command answered with an error, too late, or never. -/
theorem witness_InitChecksCore :
    (wrongCore.ctx.init = .notRun ∧ wrongCore.params.layoutOk = true ∧ wrongCore.quiet ∧
      wrongCore.params.coreIdOk.contains wrongCore.regs.gsnpsid = false) ∧
    (wrongMode.ctx.init = .notRun ∧ wrongMode.params.layoutOk = true ∧ wrongMode.quiet ∧
      wrongMode.params.coreIdOk.contains wrongMode.regs.gsnpsid = true ∧
      wrongMode.params.modeOk.contains wrongMode.regs.ghwparams0 = false) ∧
    (slowReset.ctx.init = .notRun ∧ slowReset.params.boundsOk = true ∧ slowReset.hw.softReset = .idle ∧
      (∀ img ∈ slowReset.env.resets.head?, slowReset.params.retryBudget ≤ img.wait) ∧
      State.reset.env.resets.head? = none) ∧
    (phyMaskOk fresh.params ∧ fresh.env.resets = image :: [] ∧
      (answering fresh [good 0, good 0, good 0, bad 2]).env.answers = [good 0, good 0, good 0] ++ [bad 2] ∧
      [good 0, good 0, good 0].length < 5 ∧ (∀ a ∈ [good 0], a.status = fresh.params.enc.cmd.success ∧ a.wait < fresh.params.retryBudget) ∧
      (bad 2).wait < fresh.params.retryBudget ∧ (bad 2).status ≠ 0 ∧
      fresh.params.retryBudget ≤ ({ good 0 with wait := 1000 } : Answer).wait) := by decide +kernel

/-- 95_test_vectors.md P1's end state: no endpoint beyond the pair. -/
def pairOnly : State :=
  let s := { up with ep := Vector.ofFn fun n => if n.val < 2 then up.ep[n] else Ep.attach n }
  (s.updCtx fun c => { c with epsStarted := false }).putReg .dalepena 3

/-- The first enable, a later one, the control pair's, and one that H rejects at each of its three commands. -/
theorem witness_EnableCompletes :
    (let s := answering pairOnly [good 0, good 0, good 0];
      let s1 := s.groupReady 5;
      let cfg := confFor 5 .bulk 512 0;
      s.initialised ∧ (5 : EpIdx).val = 2 * 2 + dirBit .inp ∧ 2 ≤ maxLogical ∧ EpType.bulk ≠ .isochronous ∧
      ((2 = 0) ↔ EpType.bulk = .control) ∧ 1 ≤ 512 ∧ 512 ≤ 2047 ∧
      (s.ctx.groupStarted 5 = false ∧ s.granted 0 (.startConfig (startBase (groupOf 5)))) ∧
      s1.granted 5 (.setEpConfig cfg) ∧ s.ep[(5 : EpIdx)].enabled = false ∧
      (s1.configured 5 cfg).granted 5 (.setXferResource 1) ∧ s.ringFree 5) ∧
    (let s := answering up [good 0];
      s.ctx.groupStarted 5 = true ∧ (s.groupReady 5).granted 5 (.setEpConfig (confFor 5 .bulk 2047 0)) ∧
      s.ep[(5 : EpIdx)].enabled = true) ∧
    (let s := answering up [good 0];
      (1 : EpIdx).val = 0 * 2 + dirBit .inp ∧ (s.groupReady 1).granted 1 (.setEpConfig (confFor 1 .control 64 0))) ∧
    (let s := answering up [bad 1];
      (s.groupReady 5).commandable 5 (.setEpConfig (confFor 5 .bulk 1 0)) ∧ (s.groupReady 5).performs = false) ∧
    (let s := answering pairOnly [bad 1];
      s.ctx.groupStarted 5 = false ∧ s.commandable 0 (.startConfig (startBase (groupOf 5))) ∧ s.performs = false) ∧
    (let s := answering pairOnly [good 0, good 0, bad 2];
      let s2 := (s.groupReady 5).configured 5 (confFor 5 .bulk 512 0);
      s.granted 0 (.startConfig (startBase (groupOf 5))) ∧ (s.groupReady 5).granted 5 (.setEpConfig (confFor 5 .bulk 512 0)) ∧
      s2.commandable 5 (.setXferResource 1) ∧ s2.performs = false) :=
  ⟨by decide +kernel, by decide +kernel, by decide +kernel, by decide +kernel, by decide +kernel, by decide +kernel⟩

/-- A number out of range, an absent endpoint, the three checks after it. -/
theorem witness_EnableChecks :
    up.initialised ∧ up.params.numEps ≤ 32 ∧ maxLogical < 16 ∧ up.params.numEps ≤ 4 * 2 + dirBit .out ∧
    (2 ≤ maxLogical ∧ 2 * 2 + dirBit .inp < up.params.numEps ∧ ((2 = 0) ↔ EpType.bulk = .control)) ∧
    ¬ ((0 = 0) ↔ EpType.bulk = .control) ∧ ¬ ((1 = 0) ↔ EpType.control = .control) ∧ 2047 < 2048 := by
  decide +kernel

theorem witness_DisableCompletes :
    up.initialised ∧ up.quiet ∧ up.params.numEps ≤ 32 ∧
    (2 ≤ maxLogical ∧ (5 : EpIdx).val = 2 * 2 + dirBit .inp ∧ (5 : EpIdx).val < up.params.numEps) ∧
    up.params.numEps ≤ 4 * 2 + dirBit .out ∧ maxLogical < 16 := by decide +kernel

theorem witness_StallAndClearStallComplete :
    up.initialised ∧ up.params.numEps ≤ 32 ∧
    ((4 : EpIdx).val = 2 * 2 + dirBit .out ∧ up.ep[(4 : EpIdx)].enabled = true ∧ (answering up [good 0]).commandable 4 .setStall ∧
      (answering up [bad 1]).commandable 4 .setStall ∧ (answering up [good 0]).commandable 4 .clearStall ∧
      up.commandable 4 .setStall) ∧
    ((7 : EpIdx).val = 3 * 2 + dirBit .inp ∧ (7 : EpIdx).val < up.params.numEps ∧ up.ep[(7 : EpIdx)].enabled = false) ∧
    up.params.numEps ≤ 4 * 2 + dirBit .out ∧ maxLogical < 16 := by decide +kernel

theorem witness_SetDevStateCompletes : up.initialised := by decide +kernel

/-- On an idle endpoint, and behind a transfer that runs; the longest length admitted, and 0. -/
theorem witness_SendCompletes :
    (2 ≤ maxLogical ∧ (5 : EpIdx).val = 2 * 2 + 1 ∧ 2 ≤ (5 : EpIdx).val ∧ 16777215 ≤ trbSizeMax ∧ 0 ≤ trbSizeMax) ∧
    (let s := answering up [good 3];
      s.initialised ∧ s.ep[(5 : EpIdx)].enabled = true ∧ s.ep[(5 : EpIdx)].out < ringDepth ∧
      (s.sendReady 0x20002000 64).ownsTrb (s.params.global (s.nextSlot 5)) = false ∧
      (s.sendReady 0 0).ownsTrb (s.params.global (s.nextSlot 5)) = false ∧ s.ep[(5 : EpIdx)].busy = false ∧
      s.commandable 5 (.startTransfer (s.params.global (s.nextSlot 5)))) ∧
    (let s := answering (running up 5 3 0x20000500) [good 0];
      s.ep[(5 : EpIdx)].busy = true ∧ s.ep[(5 : EpIdx)].rsc = some 3 ∧ s.commandable 5 (.updateTransfer 3) ∧
      (s.sendReady 0x20002000 64).ownsTrb (s.params.global (s.nextSlot 5)) = false) ∧
    (up.commandable 5 (.startTransfer (up.params.global (up.nextSlot 5))) ∧ up.performs = false ∧
      (running up 5 3 0x20000500).commandable 5 (.updateTransfer 3)) :=
  ⟨by decide, by decide +kernel, by decide +kernel, by decide +kernel⟩

theorem witness_RecvCompletes :
    ((4 : EpIdx).val = 2 * 2 ∧ receives 100 (512#11).toNat 512 ∧ receives 0 (512#11).toNat 512 ∧
      receives 1024 (512#11).toNat 1024 ∧ receives 513 (512#11).toNat 1024 ∧ (512#11) ≠ 0 ∧ 512 ≤ trbSizeMax) ∧
    (let s := answering up [good 3];
      s.initialised ∧ s.ep[(4 : EpIdx)].enabled = true ∧ s.ep[(4 : EpIdx)].mps = some 512 ∧
      s.ep[(4 : EpIdx)].out < ringDepth ∧ ((s.sizedFor 512).flush 0x20003000 512).ownsTrb (s.params.global (s.nextSlot 4)) = false ∧
      s.ep[(4 : EpIdx)].busy = false ∧ s.commandable 4 (.startTransfer (s.params.global (s.nextSlot 4)))) ∧
    (let s := answering (running up 4 3 0x20000400) [good 0];
      s.ep[(4 : EpIdx)].busy = true ∧ s.ep[(4 : EpIdx)].rsc = some 3 ∧ s.commandable 4 (.updateTransfer 3)) ∧
    up.commandable 4 (.startTransfer (up.params.global (up.nextSlot 4))) := by decide +kernel

/-- A recorded packet size of 0: the size is a free value, of which nothing more is known. -/
theorem witness_receiveSizeIs_zero : up.receiveSizeIs 100 0 (Config.freeRoundup 100 0) ∧ up.receiveSizeIs 100 512 512 :=
  ⟨⟨fun h => absurd rfl h, fun _ => rfl⟩, ⟨fun _ => by decide, fun h => absurd h (by decide)⟩⟩

/-- Endpoint 5 with a full ring. -/
def fullRing (n : EpIdx) : State := (running up n 3 0).updEp n fun e => { e with out := 8 }

theorem witness_SubmissionChecks :
    up.initialised ∧ up.params.numEps ≤ 32 ∧ maxLogical < 16 ∧ up.params.numEps ≤ 4 * 2 + dirBit .out ∧
    (2 ≤ (7 : EpIdx).val ∧ (7 : EpIdx).val = 3 * 2 + dirBit .inp ∧ (7 : EpIdx).val < up.params.numEps ∧
      up.ep[(7 : EpIdx)].enabled = false) ∧
    (up.ep[(5 : EpIdx)].enabled = true ∧ up.ep[(4 : EpIdx)].enabled = true ∧ trbSizeMax < 16777216) ∧
    (ringDepth ≤ (fullRing 5).ep[(5 : EpIdx)].out ∧ ringDepth ≤ (fullRing 4).ep[(4 : EpIdx)].out) ∧
    (up.ep[(4 : EpIdx)].mps = some 512 ∧ receives 16777215 (512#11).toNat 16777216 ∧ receives 64 (512#11).toNat 512) := by
  decide +kernel

theorem witness_Ep0OperationsComplete :
    let s := answering (awaiting (Setup.ofBytes 0x80 6 0 1 0 0 18 0)) [good 1]
    (s.initialised ∧ s.ep0Busy = false ∧ s.ep[(0 : EpIdx)].mps = some 64 ∧ s.ctx.threeStage = some true ∧
      receives 10 (64#11).toNat 64 ∧ receives 64 (64#11).toNat 64) ∧
    ((s.sendReady 0x20003000 18).armable 1 ∧ (s.sendReady 0 0).armable 1) ∧
    ((s.sizedFor 64).flush 0x20003000 64).armable 0 ∧ s.armable (ep0Of .inp) :=
  ⟨by decide +kernel, by decide +kernel, by decide +kernel, by decide +kernel⟩

/-- A timeout of an EP0 operation's START_TRANSFER. -/
theorem witness_Ep0OperationsComplete_timeout :
    (up.sendReady 0x20003000 18).armable 1 ∧ ((up.sizedFor 64).flush 0x20003000 64).armable 0 ∧ up.armable 0 ∧
    up.performs = false := by decide +kernel

theorem witness_Ep0Checks :
    (up.initialised ∧ (running up 0 0 0).ep0Busy = true ∧ (running up 1 0 0).ep0Busy = true) ∧ up.ep0Busy = false ∧
    trbSizeMax < 16777216 ∧ up.ep[(0 : EpIdx)].mps = some 64 ∧ (64#11) ≠ 0 ∧
    receives 16777215 (64#11).toNat 16777216 := by decide +kernel

/-- Both endpoints idle; endpoint 1 busy, and its END_TRANSFER failing. -/
theorem witness_AbortAndArmSetupComplete :
    (up.initialised ∧ up.pairAbortable ∧ (answering up [good 0]).setupArmable) ∧
    (let s := answering (running up 1 1 0x20011020) [bad 1];
      s.pairAbortable ∧ s.setupArmable) :=
  have h : (answering (running up 1 1 0x20011020) [bad 1]).pairAbortable :=
    ⟨abortable_idle (by decide +kernel), abortable_busy 1 (by decide +kernel)⟩
  ⟨⟨by decide +kernel, ⟨abortable_idle (by decide +kernel), abortable_idle (by decide +kernel)⟩,
      armable_idle (by decide +kernel) (by decide +kernel)⟩,
    h, h, fun hb => absurd hb (by decide +kernel)⟩

theorem witness_CacheOperationsMakeVisible :
    (4 ≤ 5 ∧ 5 ≤ 31 ∧ up.params.cacheLine = 2 ^ 5 ∧ ((up.withLine 0x1000000).cacheWrite1 0x20000001 7).cacheLegal) ∧
    (0 < 1 ∧ (4095 : Nat) < 4096 ∧ 4096 ≤ 2 ^ 31) ∧ ∀ x y : LAddr, up.params.global x = up.params.global y → x = y := by
  refine ⟨by decide +kernel, by decide, fun x y h => ?_⟩
  have hx : ∀ z : LAddr, up.params.global z = 0 + z.zeroExtend 64 := fun _ => rfl
  rw [hx, hx] at h
  bv_omega

/-- Endpoint `n` of the controller with a slot of its ring, or the EP0 TRB, still H's. -/
def owned (s : State) (n : EpIdx) (g : GAddr) : State :=
  (s.setHanded [{ ep := n, trb := g, told := true }]).setMem (s.mem.writeWord (g + 12) 0x813)

/-- A slot at the enqueue cursor, the EP0 TRB, a slot met by a first ENABLE, and one met by a bus reset. -/
theorem witness_OwnedTrbIsNotWritten :
    (let s := owned up 5 0x20000500;
      s.quiet ∧ s.initialised ∧ s.ep[(5 : EpIdx)].enabled = true ∧ s.ep[(5 : EpIdx)].out < ringDepth ∧
      (s.sendReady 0x20002000 64).ownsTrb (s.params.global (s.nextSlot 5)) = true ∧ (5 : EpIdx).val = 2 * 2 + 1 ∧ (5 : EpIdx).val < s.params.numEps) ∧
    (let s := owned up 4 0x20000400;
      (s.flush 0x20003000 512).ownsTrb (s.params.global (s.nextSlot 4)) = true ∧ s.ep[(4 : EpIdx)].mps = some 512 ∧ s.receiveSizeIs 1 512 512) ∧
    (let s := owned (awaiting (setAddr 5)) 0 0x20011020;
      s.ep0Busy = false ∧ s.ownsTrb (s.params.global s.params.ep0TrbAddr) = true ∧
      (s.sendReady 0x20003000 18).ownsTrb (s.params.global s.params.ep0TrbAddr) = true ∧
      (s.flush 0x20003000 64).ownsTrb (s.params.global s.params.ep0TrbAddr) = true ∧ s.ctx.threeStage = some false ∧
      s.ep[(0 : EpIdx)].mps = some 64 ∧ s.receiveSizeIs 1 64 64) ∧
    (let s := owned (answering (up.updEp 5 fun e => { e with enabled := false }) [good 0, good 0]) 5 0x20000510;
      s.ctx.groupStarted 5 = true ∧ s.granted 5 (.setEpConfig (confFor 5 .bulk 512 0)) ∧
      (s.configured 5 (confFor 5 .bulk 512 0)).granted 5 (.setXferResource 1) ∧ ¬ s.ringFree 5) ∧
    (let s := owned up 5 0x20000570;
      (∀ m : EpIdx, m.val < s.params.numEps → s.ep[m].busy = false ∧ s.ep[m].stalled = false) ∧
      ¬ (((epList s.params).takeWhile fun m => decide (m ≠ 5)).foldl State.resetOne s).ringFree 5) :=
  ⟨by decide +kernel, by decide +kernel, by decide +kernel, by decide +kernel, by decide +kernel⟩

/-! ### One step each, with the results of 95_test_vectors.md -/

/-- V-CMD-2, V-CMD-3, V-PAR-3, V-CMD-4, P2: the words the first three commands of an ENABLE leave. -/
theorem test_cmd_config_words :
    yields (exec (.startConfig 2) (answering up [good 0])) (fun t => decide
      (t.regs.dep[0].cmd = 0x00020009 ∧ t.ret = .ok)) = true ∧
    yields (exec (.setEpConfig 5 (confFor 5 .bulk 512 0)) (answering pairOnly [good 0])) (fun t => decide
      (t.regs.dep[5].par0 = 0x00041004 ∧ t.regs.dep[5].par1 = 0x0A000500 ∧ t.regs.dep[5].cmd = 0x00000001 ∧
        t.ep[(5 : EpIdx)].mps = some 512 ∧ t.ep[(5 : EpIdx)].type = some .bulk ∧ t.ret = .ok)) = true ∧
    yields (exec (.setXferResource 5 1) (answering up [good 0])) (fun t => decide
      (t.regs.dep[5].par0 = 1 ∧ t.regs.dep[5].cmd = 0x00000002 ∧ t.hw.ep[5].resources = 1)) = true := by decide +kernel

/-- V-CMD-6, V-CMD-10a, V-CMD-10b, and the state word of GET_EP_STATE (R170). -/
theorem test_cmd_results :
    yields (exec (.setEpConfig 5 (confFor 5 .bulk 512 0)) (answering pairOnly [bad 2])) (fun t => decide
      (t.regs.dep[5].cmd = 0x00002001 ∧ t.ep[(5 : EpIdx)].mps = none ∧ t.ret = .err .busExpiry)) = true ∧
    yields (exec (.setStall 4) (answering up [bad 15])) (fun t => decide
      (t.regs.dep[4].cmd = 0x0000F004 ∧ t.ret = .err .unknownStatus ∧ t.hw.ep[4].stalled = false)) = true ∧
    yields (exec (.clearStallCmd 4) (answering (up.updHEp 4 fun h => { h with stalled := true }) [good 0])) (fun t => decide
      (t.regs.dep[4].cmd = 0x00000005 ∧ t.ret = .ok ∧ t.hw.ep[4].stalled = false)) = true ∧
    yields (exec (.getEpState 2) (answering up [{ good 0 with word := 0xABCD }])) (fun t => decide
      (t.ret = .okState 0xABCD ∧ t.regs.dep[2].par2 = 0xABCD ∧ t.regs.dep[2].cmd = 0x00000003)) = true := by decide +kernel

/-- V-CMD-7 to V-CMD-10, V-CMD-17. -/
theorem test_start_transfer :
    yields (exec (.startTransfer 5 0x20000500) (answering up [good 3])) (fun t => decide
      (t.regs.dep[5].par0 = 0 ∧ t.regs.dep[5].par1 = 0x20000500 ∧ t.regs.dep[5].cmd = 0x00030006 ∧ t.ret = .okIdx 3 ∧
        t.ep[(5 : EpIdx)].busy = true ∧ t.ep[(5 : EpIdx)].rsc = some 3)) = true ∧
    yields (exec (.startTransfer 5 0x20000500) (answering up [bad 1])) (fun t => decide
      (t.regs.dep[5].cmd = 0x00001006 ∧ t.ret = .err .noResource ∧ t.ep[(5 : EpIdx)].busy = false)) = true ∧
    faults (exec (.startTransfer 5 0x20000500) (running up 5 3 0x20000500)) .doubleStart = true := by decide +kernel

/-- V-CMD-7a, V-CMD-7b, P4. -/
theorem test_update_and_end_transfer :
    yields (exec (.updateTransfer 5 3) (answering (running up 5 3 0x20000500) [good 0])) (fun t => decide
      (t.regs.dep[5].cmd = 0x00030007 ∧ t.ret = .ok ∧ t.ep[(5 : EpIdx)].busy = true)) = true ∧
    yields (exec (.endTransfer 1 1) (answering (running up 1 1 0x20011020) [good 0])) (fun t => decide
      (t.regs.dep[1].cmd = 0x00010808 ∧ t.ret = .ok ∧ t.ep[(1 : EpIdx)].busy = false ∧ t.ep[(1 : EpIdx)].rsc = none)) = true ∧
    faults (exec (.endTransfer 5 3) up) .rscInvalid = true := by decide +kernel

/-- V-CMD-11, V-CMD-13, V-CMD-15, V-CMD-16. -/
theorem test_cmd_operation :
    yields (exec (.cmd 5 .setStall .others 0 0 0) up) (fun t => decide
      (t.ret = .err .timeout ∧ t.regs.gusb2phycfg = 0x148 ∧ t.regs.dep[5].cmd = 0x00000404)) = true ∧
    yields (exec (.cmd 0 .startConfig .others 0 0 0) (answering up [good 0])) (fun t => decide
      (t.ret = .ok ∧ t.regs.dep[0].cmd = 0x00020009 ∧ t.regs.gusb2phycfg = 0x148)) = true ∧
    refuses (exec (.cmd 8 .setStall .others 0 0 0) up) .cmdBadEp = true ∧
    faults (exec (.cmd 5 .setStall .others 0 0 0) stuck) .cmdWhileActive = true := by decide +kernel

/-- V-TRB-8 with V-EVT-3: every byte sent; V-CMP-1: 100 bytes of 512 received. -/
theorem test_trb_normal :
    yields (exec (.trbNormal 5 (handedTrb 0x20002000 64)) (moving 5 0x813 64 (List.replicate 64 7))) (fun t => decide
      (t.mem.readTrb 0x20000400 = some ⟨0x20003000, 0, 0x30000000, 0x812⟩ ∧
        t.mem.readWord 0x20010000 = some (0x0000004B ||| 2 <<< 12 ||| 9 <<< 16) ∧
        t.pendingBytes = 4 ∧ t.hw.wpos = 4 ∧ t.hw.ep[5].xfer = .idle ∧ t.ownsTrb 0x20000400 = false)) = true ∧
    yields (exec (.trbNormal 4 trb512) (moving 4 0x813 512 (List.replicate 100 7))) (fun t => decide
      (t.mem.readWord 0x20000408 = some (0x30000000 ||| 412) ∧ t.mem.read1 0x20003063 = some 7 ∧
        t.mem.read1 0x20003064 = none)) = true := by decide +kernel

/-- Data that comes in two packets, one of the endpoint's packet size and a short one, one act of H each, and the words of the write-back in two more (42_trb_ring.md R250,
20_memory.md R78, R83): after the first part the TRB is H's and its words are as they were, after the third act word 2 alone
is written, after the fourth the TRB is S's and the event is not there yet. -/
theorem test_trb_in_steps :
    let s := ((moving 4 0x813 0x200 []).updHEp 4 fun h => { h with conf := some (confFor 4 .bulk 2 0) }).setEnv { up.env with
      acts := [[.work 4, .work 4], [.work 4], [.work 4], [.work 4], [.work 4, .work 4]]
      moved := [{ moved [1, 2] with last := false }, { moved [3] with last := false }] }
    yields (outcome othersTurn s) (fun t => decide
      (t.mem.readWord 0x20003000 = none ∧ t.mem.read1 0x20003001 = some 2 ∧ t.mem.readWord 0x20000408 = some 0x200 ∧
        t.ownsTrb 0x20000400 = true)) = true ∧
    yields (outcome (do othersTurn; othersTurn; othersTurn) s) (fun t => decide
      (t.mem.read1 0x20003002 = some 3 ∧ t.mem.readWord 0x20000408 = some 0x300001FD ∧
        t.mem.readWord 0x2000040C = some 0x813)) = true ∧
    yields (outcome (do othersTurn; othersTurn; othersTurn; othersTurn) s) (fun t => decide
      (t.mem.readWord 0x2000040C = some 0x812 ∧ t.ownsTrb 0x20000400 = false ∧ t.pendingBytes = 0)) = true ∧
    yields (outcome (do othersTurn; othersTurn; othersTurn; othersTurn; othersTurn) s) (fun t => decide
      (t.pendingBytes = 4 ∧ t.hw.ep[4].xfer = .idle)) = true := by decide +kernel

/-- A TRB of two packets ends with the packet that fills it; one of the two leaves it in work (42_trb_ring.md R250). -/
theorem test_trb_ends_at_bufsiz :
    let s (b : List Byte) : State := (((moving 4 0x813 4 []).updHEp 4 fun h => { h with conf := some (confFor 4 .bulk 2 0) }).setEnv
      { up.env with moved := [{ moved b with last := false }] })
    yields (exec (.trbNormal 4 { trb512 with bufsiz := 4 }) (s [1, 2, 3, 4])) (fun t => decide
      (t.mem.readWord 0x20000408 = some 0x30000000 ∧ t.hw.ep[4].xfer = .idle)) = true ∧
    yields (exec (.trbNormal 4 { trb512 with bufsiz := 4 }) (s [1, 2])) (fun t => decide
      (t.mem.readWord 0x20000408 = some 4 ∧ t.hw.ep[4].xfer.working = true)) = true := by decide +kernel

/-- P3: the packet in the setup buffer, the write-back, the event. -/
theorem test_trb_control_setup :
    yields (exec (.trbControlSetup 0 (handedTrb 0x20011000 8)) arriving) (fun t => decide
      (t.mem.readWord 0x20011000 = some 0x00050500 ∧ t.mem.readTrb 0x20011020 = some ⟨0x20011000, 0, 0, 0x822⟩ ∧
        t.mem.readWord 0x20010000 = some 0x41 ∧ t.hw.ep[0].xfer = .idle)) = true := by decide +kernel

/-- The write-back of the other types: HWO cleared, nothing else of word 3 changed (R113, V-TRB-2, V-TRB-4 to V-TRB-6). -/
theorem test_trb_control_and_zlp :
    yields (exec (.trbControlStatus2 1 (handedTrb 0x20003000 0)) (moving 1 0x833 0 [])) (fun t => decide
      (t.mem.readWord 0x2000040C = some 0x832 ∧ t.hw.ep[1].xfer = .idle)) = true ∧
    yields (exec (.trbControlStatus3 0 (handedTrb 0x20003000 0)) (moving 0 0x843 0 [])) (fun t => decide
      (t.mem.readWord 0x2000040C = some 0x842 ∧ t.mem.readWord 0x20010000 = some 0x00092041)) = true ∧
    yields (exec (.trbControlData 0 (handedTrb 0x20003000 64)) (moving 0 0x853 64 (List.replicate 10 7))) (fun t => decide
      (t.mem.readWord 0x20000408 = some (0x30000000 ||| 54) ∧ t.mem.readWord 0x2000040C = some 0x852)) = true ∧
    yields (exec (.trbZlp 5 (handedTrb 0x20003000 0)) (moving 5 0x893 0 [])) (fun t => decide
      (t.mem.readWord 0x20000408 = some 0x30000000 ∧ t.mem.readWord 0x2000040C = some 0x892)) = true := by decide +kernel

/-- R250 of the isochronous types and of a link TRB; a TRB with HWO = 0 makes H wait. -/
theorem test_trb_isochronous_and_link :
    yields (exec (.trbIsochronousFirst 4 { trb512 with lst := false }) (moving 4 0x861 512 [1])) (fun t => decide
      (t.hw.ep[4].xfer = .active (Run.start 2 0x20000410) ∧ t.mem.readWord 0x2000040C = some 0x860)) = true ∧
    yields (exec (.trbIsochronous 4 trb512) (moving 4 0x873 512 [1])) (fun t => decide
      (t.hw.ep[4].xfer = .idle ∧ t.mem.readWord 0x20000408 = some (0x30000000 ||| 511))) = true ∧
    yields (exec (.trbLink 5 (linkTrb 0x20000500)) (running up 5 3 0x20000580)) (fun t => decide
      (t.hw.ep[5].xfer = .active (Run.start 3 0x20000500))) = true ∧
    yields (exec (.trbLink 5 { linkTrb 0x20000500 with hwo := false }) (running up 5 3 0x20000580)) (fun t => decide
      (t.hw.ep[5].xfer = .active { Run.start 3 0x20000580 with waiting := true })) = true := by decide +kernel

/-- V-CMP-1, V-CMP-3, V-CMP-5: COMPLETE reached from an event. -/
theorem test_evt_xfer_complete :
    yields (exec (.evtXferComplete 4 0 0) (holding ((running up 4 2 0x20000400).updEp 4 fun e =>
        { e with enq := 1, out := 1, requested := 512, buf := some 0x20003000 }) 0x20000400 [0x20003000, 0, 412, 0x812]))
      (fun t => decide (t.ep[(4 : EpIdx)].actual = 100 ∧ t.ep[(4 : EpIdx)].deq = 1 ∧ t.ep[(4 : EpIdx)].out = 0 ∧
        t.ep[(4 : EpIdx)].busy = false ∧ t.trace = [.callback (.onDataOut 4)])) = true ∧
    faults (exec (.evtXferComplete 5 0 0) (sent 65)) .remainingExceedsRequest = true ∧
    yields (exec (.evtXferComplete 5 0 0) up) (fun t => decide (t.ctx.log = [.spuriousComplete 5] ∧ t.trace = [])) = true := by
  decide +kernel

/-- V-EP0-1, V-EP0-2, V-EP0-18. -/
theorem test_evt_xfer_complete_ep0 :
    yields (exec (.evtXferComplete 0 0 0) (setupIn (setAddr 5).bytes)) (fun t => decide
      (t.ctx.threeStage = some false ∧ t.ctx.ep0State = .status ∧ t.ep[(0 : EpIdx)].pending = true ∧
        t.ctx.setup = some (setAddr 5) ∧ t.trace = [.callback .onSetupReceived])) = true ∧
    yields (exec (.evtXferComplete 0 0 0) (setupIn [0x80, 6, 0, 1, 0, 0, 18, 0])) (fun t => decide
      (t.ctx.threeStage = some true ∧ t.ctx.ep0Dir = some .inp ∧ t.ctx.ep0State = .data)) = true ∧
    yields (exec (.evtXferComplete 1 0 0) (answering (control .status 1 0) [good 0])) (fun t => decide
      (t.ep[(1 : EpIdx)].busy = false ∧ t.ep[(1 : EpIdx)].actual = 0 ∧ t.ctx.ep0State = .setup ∧
        t.mem.readTrb 0x20011020 = some ⟨0x20011000, 0, 8, 0x823⟩ ∧ t.regs.dep[0].cmd = 0x00000006)) = true := by
  decide +kernel

/-- V-EP0-12, V-EP0-13, V-EP0-17. -/
theorem test_evt_xfer_not_ready_status :
    yields (exec (.evtXferNotReady 1 2 0) (answering (awaiting (setAddr 5)) [good 1])) (fun t => decide
      (field t.regs.dcfg 3 7 = 5 ∧ t.ctx.devState = .addressed ∧ t.regs.dep[1].cmd = 0x00010006 ∧
        t.mem.readTrb 0x20011020 = some ⟨0x20011000, 0, 0, 0x833⟩)) = true ∧
    yields (exec (.evtXferNotReady 1 2 0) (answering (awaiting (setAddr 128)) [good 0, good 0])) (fun t => decide
      (t.ctx.log = [.error .addrRange] ∧ t.ep[(0 : EpIdx)].stalled = true ∧ t.ep[(0 : EpIdx)].pending = false ∧
        field t.regs.dcfg 3 7 = 0 ∧ t.mem.readTrb 0x20011020 = some ⟨0x20011000, 0, 8, 0x823⟩)) = true ∧
    yields (exec (.evtXferNotReady 0 2 0) (answering (awaiting (Setup.ofBytes 0x80 6 0 1 0 0 18 0)) [good 1]))
      (fun t => decide (t.mem.readTrb 0x20011020 = some ⟨0x20011000, 0, 0, 0x843⟩ ∧ t.regs.dep[0].cmd = 0x00010006)) =
      true := by decide +kernel

/-- V-EP0-9, V-EP0-10 with P4's end, V-EP0-19, V-EVT-7. -/
theorem test_evt_xfer_not_ready_data :
    yields (exec (.evtXferNotReady 1 1 0) (control .data 1 0)) (fun t => decide (t = control .data 1 0)) = true ∧
    yields (exec (.evtXferNotReady 0 1 0) (answering (control .data 1 0) [good 0, good 0, good 0])) (fun t => decide
      (t.regs.dep[1].cmd = 0x00010808 ∧ t.ep[(0 : EpIdx)].stalled = true ∧ t.ep[(0 : EpIdx)].busy = true ∧
        t.ep[(1 : EpIdx)].busy = false ∧ t.ctx.ep0State = .setup ∧ t.regs.dep[0].cmd = 0x00000006)) = true ∧
    yields (exec (.evtXferNotReady 0 2 0) up) (fun t => decide (t.ctx.log = [.ignoredEp0Event 0 .setup])) = true ∧
    yields (exec (.evtXferNotReady 4 0 0) up) (fun t => decide (t.ctx.log = [.ignoredEpEvent 4 3])) = true := by
  decide +kernel

/-- V-EVT-8, V-EVT-9, V-EVT-10, V-EVT-14 to V-EVT-16. -/
theorem test_evt_passive :
    yields (exec (.evtEpCmdComplete 0 0 0) up) (fun t => decide (t.ctx.log = [.ignoredEpEvent 0 7])) = true ∧
    yields (exec (.evtXferInProgress 0 0 0) up) (fun t => decide (t.ctx.log = [.ignoredEpEvent 0 2])) = true ∧
    faults (exec (.evtXferComplete 31 0 0) up) .eventBadEp = true ∧
    yields (exec (.evtLinkStateChange 3) up) (fun t => decide (t.ctx.linkState = some 3 ∧ t.trace = [])) = true ∧
    yields (exec (.evtWakeup 0) up) (fun t => decide (t.ctx.log = [.wakeup])) = true ∧
    yields (exec (.evtHibernationReq 0) up) (fun t => decide (t.ctx.log = [.hibernationReq])) = true := by decide +kernel

/-- V-DEV-1. -/
theorem test_evt_reset :
    yields (exec (.evtReset 0) busyAndStalled) (fun t => decide
      (t.ep[(5 : EpIdx)].busy = false ∧ t.regs.dep[5].cmd = 0x00030808 ∧ t.regs.dep[4].cmd = 0x00000005 ∧
        t.ep[(4 : EpIdx)].stalled = false ∧ field t.regs.dcfg 3 7 = 0 ∧ t.ctx.devState = .default ∧
        t.mem.readTrb 0x20000580 = some ⟨0x20000500, 0, 0, 0x81⟩ ∧ t.mem.readWord 0x20000570 = some 0 ∧
        t.trace = [.callback .onReset] ∧ t.ep[(0 : EpIdx)].busy = false)) = true := by decide +kernel

/-- V-DEV-2: the transfer that could not be ended keeps its index and its ring. -/
theorem test_evt_reset_stuck :
    yields (exec (.evtReset 0) (answering (sent 64) [bad 1])) (fun t => decide
      (t.ctx.log = [.error .noResource] ∧ t.ep[(5 : EpIdx)].busy = true ∧ t.ep[(5 : EpIdx)].rsc = some 3 ∧
        t.ep[(5 : EpIdx)].out = 1 ∧ t.mem.readWord 0x20000500 = some 0x20002000)) = true := by decide +kernel

/-- V-DEV-3, V-DEV-4. -/
theorem test_evt_connect_and_disconnect :
    yields (exec (.evtConnectDone 0) (answering (up.putReg .dsts 4) [good 0])) (fun t => decide
      (t.ctx.speed = some 4 ∧ t.ctx.lpm = true ∧ bit t.regs.dcfg 22 = true ∧ t.trace = [.callback .onConnect] ∧
        t.mem.readTrb 0x20011020 = some ⟨0x20011000, 0, 8, 0x823⟩ ∧ t.regs.dep[0].par1 = 0x20011020)) = true ∧
    yields (exec (.evtDisconnect 0) (answering (running up 0 0 0x20011020) [good 0])) (fun t => decide
      (t.regs.dep[0].cmd = 0x00000808 ∧ t.ctx.ep0State = .setup ∧ t.ctx.devState = .unattached ∧
        t.trace = [.callback .onDisconnect])) = true := by decide +kernel

/-- V-EP0-12, V-EP0-15, V-EP0-14 of the Set-Address step alone. -/
theorem test_setup_set_address :
    yields (exec (.setupSetAddress 5 0 0) up) (fun t => decide
      (field t.regs.dcfg 3 7 = 5 ∧ t.ctx.devState = .addressed)) = true ∧
    yields (exec (.setupSetAddress 0 0 0) (up.putReg .dcfg 0x28)) (fun t => decide
      (field t.regs.dcfg 3 7 = 0 ∧ t.ctx.devState = .default)) = true ∧
    yields (exec (.setupSetAddress 5 0 0) (answering (up.updCtx fun c => { c with devState := .configured })
      [good 0, good 0])) (fun t => decide (t.ctx.log = [.error .addrConfigured] ∧ field t.regs.dcfg 3 7 = 0)) = true := by
  decide +kernel

/-- P1. -/
theorem test_init :
    yields (exec .init fresh) (fun t => decide
      (t.ret = .ok ∧ t.ctx.init = .done ∧ t.ctx.ep0Started = true ∧ t.ctx.epsStarted = false ∧
        t.regs.dalepena = 3 ∧ t.regs.devten = 0x3F ∧ bit t.regs.dctl 31 = true ∧ t.regs.gevntadrlo = 0x20010000 ∧
        t.regs.gevntsiz = 0x1000 ∧ t.regs.dep[0].par0 = 1 ∧ t.regs.dep[1].cmd = 2 ∧
        t.ep[(1 : EpIdx)].mps = some 64 ∧ t.ctx.ep0State = .unconnected ∧ t.trace = [])) = true := by decide +kernel

/-- V-INIT-1 to V-INIT-4, V-INIT-6, V-INIT-7. -/
theorem test_init_errors :
    yields (exec .init wrongCore) (fun t => decide (t.ret = .err .coreId)) = true ∧
    yields (exec .init wrongMode) (fun t => decide (t.ret = .err .mode)) = true ∧
    yields (exec .init State.reset) (fun t => decide (t.ret = .err .softResetTimeout)) = true ∧
    yields (exec .init (answering fresh [])) (fun t => decide
      (t.ret = .err .timeout ∧ t.regs.devten = 0 ∧ bit t.regs.dctl 31 = false ∧ t.ctx.init = .failed)) = true ∧
    refuses (exec .init up) .reinit = true ∧ refuses (exec (.send 2 .inp 0x20002000 8) State.reset) .notInitialised = true := by
  decide +kernel

/-- V-EN-1 with the memory image of RingInit(5), V-EN-2. -/
theorem test_enable :
    yields (exec (.enable 2 .inp .bulk 512 0) (answering pairOnly [good 0, good 0, good 0])) (fun t => decide
      (t.ret = .ok ∧ t.regs.dep[0].cmd = 0x00020009 ∧ t.regs.dalepena = 0x23 ∧ t.ctx.epsStarted = true ∧
        t.ep[(5 : EpIdx)].enabled = true ∧ t.mem.readTrb 0x20000500 = some ⟨0, 0, 0, 0⟩ ∧
        t.mem.readTrb 0x20000580 = some ⟨0x20000500, 0, 0, 0x81⟩)) = true ∧
    yields (exec (.enable 2 .inp .bulk 512 0) (answering up [good 0])) (fun t => decide
      (t.ret = .ok ∧ t.regs.dep[5].cmd = 1 ∧ t.regs.dep[0].cmd = 0 ∧ t.regs.dalepena = 0x33 ∧ t.cache.lines = [])) = true := by
  decide +kernel

/-- V-EN-4 to V-EN-9, V-EN-11, V-EN-12. -/
theorem test_enable_errors :
    yields (exec (.enable 0 .inp .bulk 64 0) up) (fun t => decide (t.ret = .err .invalidEp)) = true ∧
    yields (exec (.enable 1 .out .control 64 0) up) (fun t => decide (t.ret = .err .invalidEp)) = true ∧
    yields (exec (.enable 16 .inp .bulk 512 0) up) (fun t => decide (t.ret = .err .invalidEp)) = true ∧
    yields (exec (.enable 4 .out .bulk 512 0) up) (fun t => decide (t.ret = .err .invalidEp)) = true ∧
    refuses (exec (.enable 0 .out .isochronous 64 0) up) .isoUnsupported = true ∧
    refuses (exec (.enable 2 .inp .bulk 2048 0) up) .badMps = true ∧
    yields (exec (.enable 2 .inp .bulk 512 0) (answering pairOnly [bad 1])) (fun t => decide
      (t.ret = .err .noResource ∧ t.ctx.epsStarted = false ∧ t.regs.dep[5].cmd = 0)) = true ∧
    yields (exec (.enable 2 .inp .bulk 512 0) (answering pairOnly [good 0, good 0, bad 2])) (fun t => decide
      (t.ret = .err .busExpiry ∧ t.ctx.epsStarted = true ∧ t.ep[(5 : EpIdx)].mps = some 512 ∧
        t.ep[(5 : EpIdx)].enabled = false ∧ t.regs.dalepena = 3)) = true := by decide +kernel

/-- V-DIS-1 to V-DIS-3. -/
theorem test_disable :
    yields (exec (.disable 2 .inp) (up.putReg .dalepena 0x23)) (fun t => decide
      (t.regs.dalepena = 3 ∧ t.ep[(5 : EpIdx)].enabled = false ∧ t.ret = .ok)) = true ∧
    yields (exec (.disable 3 .inp) up) (fun t => decide (t.regs.dalepena = 0x33 ∧ t.ret = .ok)) = true ∧
    yields (exec (.disable 4 .out) up) (fun t => decide (t.ret = .err .invalidEp)) = true := by decide +kernel

/-- V-STL-1 to V-STL-4. -/
theorem test_stall_and_clear_stall :
    yields (exec (.stall 2 .out) (answering up [good 0])) (fun t => decide
      (t.ep[(4 : EpIdx)].stalled = true ∧ t.regs.dep[4].cmd = 4 ∧ t.ret = .ok)) = true ∧
    yields (exec (.clearStall 2 .out) (answering (up.updEp 4 fun e => { e with stalled := true, wedge := true }) [good 0]))
      (fun t => decide (t.ep[(4 : EpIdx)].stalled = false ∧ t.ep[(4 : EpIdx)].wedge = false ∧ t.regs.dep[4].cmd = 5)) =
      true ∧
    yields (exec (.stall 3 .inp) up) (fun t => decide (t.ret = .err .invalidEp)) = true ∧
    yields (exec (.stall 2 .out) (answering up [bad 1])) (fun t => decide
      (t.ret = .err .noResource ∧ t.ep[(4 : EpIdx)].stalled = false)) = true := by decide +kernel

/-- V-SEND-1, V-SEND-2 (slot 1, UPDATE_TRANSFER), V-SEND-3. -/
theorem test_send :
    yields (exec (.send 2 .inp 0x20002000 64) (answering up [good 3])) (fun t => decide
      (t.mem.readTrb 0x20000500 = some ⟨0x20002000, 0, 64, 0x813⟩ ∧ t.regs.dep[5].par1 = 0x20000500 ∧
        t.regs.dep[5].cmd = 0x00030006 ∧ t.ret = .ok ∧ t.ep[(5 : EpIdx)].enq = 1 ∧ t.ep[(5 : EpIdx)].out = 1 ∧
        t.ep[(5 : EpIdx)].requested = 64 ∧ t.ep[(5 : EpIdx)].rsc = some 3)) = true ∧
    yields (exec (.send 2 .inp 0x20002100 32) (answering (sent 0) [good 0])) (fun t => decide
      (t.mem.readTrb 0x20000510 = some ⟨0x20002100, 0, 32, 0x813⟩ ∧ t.regs.dep[5].cmd = 0x00030007 ∧
        t.ep[(5 : EpIdx)].enq = 2 ∧ t.ep[(5 : EpIdx)].out = 2 ∧ t.ep[(5 : EpIdx)].requested = 32)) = true ∧
    yields (exec (.send 2 .inp 0x20002000 0) (answering up [good 3])) (fun t => decide
      (t.mem.readTrb 0x20000500 = some ⟨0x20002000, 0, 0, 0x893⟩)) = true := by decide +kernel

/-- V-SEND-4, V-SEND-6 to V-SEND-9, V-RING-3. -/
theorem test_send_errors :
    yields (exec (.send 2 .inp 0 16777216) up) (fun t => decide (t.ret = .err .invalidLength)) = true ∧
    yields (exec (.send 2 .out 0 64) up) (fun t => decide (t.ret = .err .wrongDir)) = true ∧
    yields (exec (.send 3 .inp 0 64) up) (fun t => decide (t.ret = .err .invalidEp)) = true ∧
    yields (exec (.send 0 .inp 0 64) up) (fun t => decide (t.ret = .err .invalidEp)) = true ∧
    yields (exec (.send 2 .inp 0x20002000 64) (answering up [bad 1])) (fun t => decide
      (t.ret = .err .noResource ∧ t.ep[(5 : EpIdx)].busy = false ∧ t.ep[(5 : EpIdx)].enq = 1 ∧
        t.ep[(5 : EpIdx)].out = 1 ∧ t.mem.readWord 0x2000050C = some 0x813 ∧ t.handed = [])) = true ∧
    refuses (exec (.send 2 .inp 0x20002000 64) (fullRing 5)) .ringFull = true := by decide +kernel

/-- SEND whose START_TRANSFER times out: the cursor and the count stay advanced, the TRB stays H's, and H executes the command
still (42_trb_ring.md R242, 70_reset_and_hazards.md R430). -/
theorem test_send_timeout :
    yields (exec (.send 2 .inp 0x20002000 64) (answering up [tardy 3])) (fun t => decide
      (t.ret = .err .timeout ∧ t.ep[(5 : EpIdx)].enq = 1 ∧ t.ep[(5 : EpIdx)].out = 1 ∧ t.ep[(5 : EpIdx)].busy = false ∧
        t.ownsTrb 0x20000500 = true ∧ t.hw.ep[5].cmd = .executing (.startTransfer 0x20000500) (some (good 3)))) = true := by
  decide +kernel

/-- Every byte of the TRB at 0x20000400. -/
def wholeTrb : List GAddr := (List.range trbBytes).map fun i => 0x20000400 + BitVec.ofNat 64 i

/-- A submission on endpoint `n` whose transfer stands at the slot `g`, H's acts falling between the write of the control word
and the flush. -/
def early (n : EpIdx) (g : GAddr) (acts : List Act) (picks : List (List GAddr)) : State :=
  let s := answering (running up n 3 g) [good 0]
  let m := moved (List.replicate 64 7)
  s.setEnv { s.env with acts := [[], [], [], [], [], acts], moved := [m, m], fresh := picks }

/-- 10_state.md R30, route 1, before the flush, of an OUT TRB: after an eviction H writes the TRB back, and it is S's; where H
has seen the unflushed bytes, its write-back lies under the flush that follows, and the TRB is H's. -/
theorem test_write_back_before_flush :
    yields (exec (.recv 2 .out 0x20003000 64) (early 4 0x20000400 [.evict (lineOf up.params 0x20000400), .trb 4] []))
      (fun t => decide (t.mem.readWord 0x2000040C = some 0x812 ∧
        t.handed = [{ ep := 4, trb := 0x20000400, told := true }] ∧ t.ownsTrb 0x20000400 = false)) = true ∧
    yields (exec (.recv 2 .out 0x20003000 64) (early 4 0x20000400 [.trb 4] [wholeTrb, wholeTrb, wholeTrb])) (fun t => decide
      (t.mem.readWord 0x2000040C = some 0x813 ∧ t.ownsTrb 0x20000400 = true)) = true := by decide +kernel

/-- 20_memory.md R83, duty 4: H takes the TRB up but sends no byte of its buffer before the UPDATE_TRANSFER that follows the
hand-over, and sends them after it. -/
theorem test_no_data_before_update :
    let sent := exec (.send 2 .inp 0x20002000 64) (early 5 0x20000500 [.evict (lineOf up.params 0x20000500), .trb 5] [])
    yields sent (fun t => decide (t.mem.readWord 0x2000050C = some 0x813 ∧ t.ownsTrb 0x20000500 = true ∧
      t.handed = [{ ep := 5, trb := 0x20000500, told := true }] ∧ t.ret = .ok)) = true ∧
    yields sent (fun t => yields (exec (.trbNormal 5 (handedTrb 0x20002000 64)) t) fun u => decide
      (u.mem.readWord 0x2000050C = some 0x812 ∧ u.hw.ep[5].xfer = .idle)) = true := by decide +kernel

/-- V-RECV-1, V-RECV-2, V-RECV-4, V-RECV-5. -/
theorem test_recv :
    yields (exec (.recv 2 .out 0x20003000 100) (answering up [good 3])) (fun t => decide
      (t.mem.readTrb 0x20000400 = some ⟨0x20003000, 0, 512, 0x813⟩ ∧ t.ep[(4 : EpIdx)].requested = 512 ∧
        t.ep[(4 : EpIdx)].rounded = true ∧ t.regs.dep[4].cmd = 0x00030006)) = true ∧
    yields (exec (.recv 2 .out 0x20003000 0) (answering up [good 3])) (fun t => decide
      (t.ep[(4 : EpIdx)].requested = 512)) = true ∧
    yields (exec (.recv 2 .out 0x20003000 513) (answering up [good 3])) (fun t => decide
      (t.ep[(4 : EpIdx)].requested = 1024)) = true ∧
    yields (exec (.recv 2 .out 0x20003000 16777215) up) (fun t => decide (t.ret = .err .invalidLength)) = true := by
  decide +kernel

/-- V-EP0-4 to V-EP0-8. -/
theorem test_ep0_send_and_recv :
    yields (exec (.ep0Send 0x20003000 18) (running up 0 0 0x20011020)) (fun t => decide (t.ret = .err .busy)) = true ∧
    yields (exec (.ep0Recv 0x20003000 8) (running up 0 0 0x20011020)) (fun t => decide (t.ret = .err .recvBusy)) = true ∧
    yields (exec (.ep0Recv 0x20003000 10) (answering up [good 0])) (fun t => decide
      (t.mem.readTrb 0x20011020 = some ⟨0x20003000, 0, 64, 0x853⟩ ∧ t.ep[(0 : EpIdx)].rounded = true ∧
        t.regs.dep[0].cmd = 6)) = true ∧
    yields (exec (.ep0Send 0x20003000 0) (answering up [good 1])) (fun t => decide
      (t.mem.readTrb 0x20011020 = some ⟨0x20003000, 0, 0, 0x853⟩ ∧ t.regs.dep[1].cmd = 0x00010006)) = true ∧
    yields (exec (.ep0Send 0x20003000 16777216) up) (fun t => decide (t.ret = .err .invalidLength)) = true := by
  decide +kernel

/-- P5's status stage, V-EP0-4's, V-EP0-21. -/
theorem test_ep0_status_arm_abort :
    yields (exec (.ep0Status .inp) (answering (awaiting (Setup.ofBytes 0x21 9 0 2 0 0 10 0)) [good 1])) (fun t => decide
      (t.mem.readTrb 0x20011020 = some ⟨0x20011000, 0, 0, 0x843⟩ ∧ t.regs.dep[1].cmd = 0x00010006)) = true ∧
    yields (exec .armSetup (answering up [good 0])) (fun t => decide
      (t.mem.readTrb 0x20011020 = some ⟨0x20011000, 0, 8, 0x823⟩ ∧ t.ret = .ok ∧ t.ep[(0 : EpIdx)].busy = true)) = true ∧
    yields (exec .armSetup (answering (running up 1 1 0x20011020) [bad 1])) (fun t => decide
      (t.ctx.log = [.error .noResource, .ep0ArmBlocked] ∧ t.ret = .err .busy ∧ t.mem = [])) = true ∧
    yields (exec .abortEp0 (answering (running up 1 1 0x20011020) [good 0])) (fun t => decide
      (t.ep[(1 : EpIdx)].busy = false ∧ t.regs.dep[1].cmd = 0x00010808)) = true := by decide +kernel

/-- V-CMP-4, V-CMP-5, V-CMP-6. -/
theorem test_complete :
    yields (exec (.complete 5) (sent 0)) (fun t => decide
      (t.ep[(5 : EpIdx)].actual = 64 ∧ t.ep[(5 : EpIdx)].deq = 1 ∧ t.ep[(5 : EpIdx)].out = 0 ∧
        t.trace = [.callback (.onDataIn 5)])) = true ∧
    yields (exec (.complete 5) up) (fun t => decide (t.ctx.log = [.spuriousComplete 5])) = true ∧
    yields (exec (.complete 5) ((sent 0).updEp 5 fun e => { e with enq := 2, out := 2 })) (fun t => decide
      (t.ep[(5 : EpIdx)].deq = 1 ∧ t.ep[(5 : EpIdx)].out = 1 ∧ t.ep[(5 : EpIdx)].busy = false)) = true := by decide +kernel

/-- V-DRN-1, V-DRN-2, V-DRN-5, V-DRN-6, V-DRN-8, and P6 (V-DRN-3). -/
theorem test_irq :
    yields (exec .irq up) (fun t => decide (t = (up.logged .spuriousIrq).setRet .ok)) = true ∧
    yields (exec .irq (pending up [0x400])) (fun t => decide
      (t.ctx.evt.lpos = 4 ∧ t.regs.gevntcount = 0 ∧ t.regs.gevntsiz = 0x1000 ∧ t.ctx.log = [.wakeup])) = true ∧
    faults (exec .irq (up.putReg .gevntcount 6)) .eventCountInvalid = true ∧
    faults (exec .irq (up.putReg .gevntcount 4100)) .eventCountInvalid = true ∧
    refuses (exec .irq State.reset) .notInitialised = true ∧
    yields (exec .irq wrapping) (fun t => decide
      (t.ctx.evt.lpos = 4 ∧ t.ctx.evt.count = 0 ∧ t.regs.gevntcount = 0 ∧ t.ctx.linkState = some 5 ∧
        t.ctx.log = [.wakeup])) = true := by decide +kernel

/-- V-DRN-4: a word appended while the first is dispatched waits for the next IRQ; V-DRN-7: no room. -/
theorem test_irq_late_word :
    yields (exec .irq late) (fun t => decide
      (t.ctx.evt.lpos = 4 ∧ t.regs.gevntcount = 4 ∧ t.irqAsserted = true ∧ t.ctx.log = [.wakeup])) = true ∧
    faults (exec .irq ((up.putReg .gevntcount 4096).setEnv { up.env with acts := [[.event 0x500]] })) .eventOverflow =
      true := by decide +kernel

/-- A word H wrote since S last read it, unseen until an invalidate: S sees the old bytes, the new ones, or some of each, and
no other value (20_memory.md R82); after the invalidate the new ones alone. -/
theorem test_stale_read :
    let s := ((holding up 0x20002000 [0x11111111]).withLine (lineOf launchL0 0x20002000)).hStore 0x20002000 [0x22, 0x22, 0x22, 0x22]
    let reads (x : List (LAddr × Byte)) (v : Word) : Bool :=
      match memRead 0x20002000 (s.setEnv { s.env with seen := [x] }) with
      | .ok (w, _) => decide (w = v)
      | .error _ => false
    reads [] 0x11111111 = true ∧ reads [(0x20002001, 0x22), (0x20002003, 0x33)] 0x11112211 = true ∧
    (match memRead 0x20002000 (s.invalidate 0x20002000 4) with
      | .ok (w, _) => decide (w = 0x22222222)
      | .error _ => false) = true := by decide +kernel

/-- A word that S has written and not flushed, read by H: the old bytes, the new ones, or some of each; and a TRB that H sees
with HWO = 1 is the old one whole or the new one whole (93_implementation_defined.md 1.3, 20_memory.md R81). -/
theorem test_fresh_read :
    let s (picks : List GAddr) : State := rewritten picks
    let word (picks : List GAddr) : Option Word :=
      match hReadWord 0x20000408 (s picks) with
      | .ok (w, _) => some w
      | .error _ => none
    let trb (picks : List GAddr) : Option TrbWords :=
      match hReadTrb 0x20000400 (s picks) with
      | .ok (w, _) => w
      | .error _ => none
    word [] = some 0x200 ∧ word [0x20000408] = some 0x200 ∧ word [0x20000409] = some 0x100 ∧
    trb [] = some ⟨0x20003000, 0, 0x200, 0x813⟩ ∧ trb [0x20000409] = some ⟨0x20003000, 0, 0x100, 0x813⟩ ∧
    ((s [0x20000409]).flush 0x20000400 16).hByte [0x20000409] 0x20000409 = some 1 := by decide +kernel

/-- H resumes a transfer it has ended where its answer to UPDATE_TRANSFER names a TRB, the command's index being free, and
does nothing where it names none (70_reset_and_hazards.md R439). -/
theorem test_update_resumes :
    let s := (running up 5 3 0x20000500).updHEp 5 fun h => { h with xfer := .idle }
    let free := { s with hw := { s.hw with rscUsed := [] } }
    let again : Answer := { good 0 with resume := some 0x20000510 }
    yields (exec (.updateTransfer 5 3) (answering free [again])) (fun t => decide
      (t.hw.ep[5].xfer = .active (Run.start 3 0x20000510) ∧ t.hw.rscUsed = [3])) = true ∧
    yields (exec (.updateTransfer 5 3) (answering s [again])) (fun t => decide (t.hw.ep[5].xfer = .idle ∧ t.ret = .ok)) = true ∧
    yields (exec (.updateTransfer 5 3) (answering free [good 0])) (fun t => decide (t.hw.ep[5].xfer = .idle)) = true := by
  decide +kernel

/-- H reads a slot ahead and holds it past S's write of that slot; UPDATE_TRANSFER makes it read anew (20_memory.md R85). -/
theorem test_prefetch :
    yields (outcome (hPrefetch 5 (some 1)) (holding (running up 5 3 0x20000500) 0x20000510 [1, 2, 3, 4])) (fun t => decide
      (t.hw.ep[5].xfer = .active { Run.start 3 0x20000500 with held := [(0x20000510, ⟨1, 2, 3, 4⟩)] })) = true ∧
    yields (exec (.updateTransfer 5 3) (answering ((running up 5 3 0x20000500).withRun 5
      { Run.start 3 0x20000500 with held := [(0x20000510, ⟨1, 2, 3, 4⟩)] }) [good 0])) (fun t => decide
        (t.hw.ep[5].xfer = .active (Run.start 3 0x20000500))) = true := by decide +kernel

/-- A host may send a data token before a status stage and after a data stage; the status stage of a 3-stage transfer is
not reported before its data stage (44_ep0_control.md R356). -/
theorem test_control_orders :
    CtlStage.admits (.setupDone false) .controlData = true ∧ CtlStage.admits .dataDone .controlData = true ∧
    CtlStage.admits (.setupDone true) .controlStatus = false ∧ CtlStage.admits (.setupDone false) .controlStatus = true ∧
    CtlStage.admits .dataDone .controlStatus = true ∧ CtlStage.admits .none .controlData = false := by decide

/-- The XFER_COMPLETE of the data stage is this transfer's, on the control pair (44_ep0_control.md R356): one of the transfer
before, and one of another endpoint, say nothing of it. -/
theorem test_stale_data_report :
    let data (k : Nat) : Report := { status := 0, param := 0, kind := .controlData, threeStage := false, transfer := k }
    CtlStage.afterReport (.setupDone true) 2 1 (data 1) = .setupDone true ∧
    CtlStage.afterReport (.setupDone true) 2 1 (data 2) = .dataDone ∧
    CtlStage.afterReport (.setupDone true) 2 0 (data 2) = .dataDone ∧
    CtlStage.afterReport (.setupDone true) 2 5 (data 2) = .setupDone true := by decide

/-- Another encoding record (00_scope.md R14): the size word first, then the control word, then the pointer; success has code 3
and no resource 0; EP_NUMBER and BURST have changed words. -/
def otherEnc : Enc :=
  { hardwareEnc with
    cmd := { hardwareEnc.cmd with success := 3, noResource := 0 }
    cfg := { hardwareEnc.cfg with epNumber := 22, burst := 57 }
    trb := { hardwareEnc.trb with bufsiz := 0, pcm1 := 24, trbsts := 28, hwo := 32, lst := 33, chn := 34, csp := 35,
                                  trbctl := 36, ispImi := 42, ioc := 43, sidSofn := 46, bpl := 64, bph := 96 } }

theorem test_other_encoding :
    otherEnc.ok = true ∧ (handedTrb 0x20002000 64).words otherEnc .normal = ⟨64, 0x813, 0x20002000, 0⟩ ∧
    decodeTrb otherEnc ⟨64, 0x813, 0x20002000, 0⟩ = .ok (.normal, handedTrb 0x20002000 64) ∧
    (confFor 5 .bulk 512 0).word0 otherEnc.cfg = 0x01441004 ∧ (confFor 5 .bulk 512 0).word1 otherEnc.cfg = 0x500 ∧
    otherEnc.trb.order = [2, 3, 0, 1] ∧ decodeStatus otherEnc.cmd .setStall 0x3005 = .ok ∧
    decodeStatus otherEnc.cmd .setStall 0x0005 = .err .noResource := by decide +kernel

/-- A stranded TRB, of a START_TRANSFER that H never answered: a bus reset of the idle endpoint faults (log 35). -/
theorem test_reset_of_stranded_trb :
    faults (exec (.evtReset 0) (owned up 5 0x20000500)) .trbOwnedWrite = true := by decide +kernel

/-- 60_exceptions.md R393. -/
theorem test_set_dev_state :
    yields (exec (.setDevState .configured) up) (fun t => decide (t.ctx.devState = .configured ∧ t.ret = .ok)) = true := by
  decide +kernel

end Sys2Proof.Tests
end

section
namespace Sys2Proof

/-! ### Decoding what an instruction encodes to (spec/30_encoding.md R99 to R130) -/

/-! #### Setup packets -/

/-- The high and the low byte of a half word are the half word. -/
@[simp] theorem append_bytes_of_halfword (v : BitVec 16) : v.extractLsb' 8 8 ++ v.extractLsb' 0 8 = v := by
  rw [BitVec.extractLsb'_append_extractLsb'_eq_extractLsb' (by rfl), BitVec.extractLsb'_eq_self]

/-- A SET_ADDRESS packet decodes from its bytes (spec/30_encoding.md R126, spec/44_ep0_control.md R352). -/
theorem decode_setAddressBytes (enc : Enc) (n : EpIdx) (wValue wIndex wLength : BitVec 16) :
    decode enc .setup n (setAddressPacket wValue wIndex wLength).bytes = .ok (.setupSetAddress wValue wIndex wLength) := by
  simp [decode, setAddressPacket, Setup.bytes, Setup.ofBytes, decodeSetup, Setup.isSetAddress]

/-! #### The instructions that have words -/

/-- The words of an instruction that issues a command are the command's. -/
theorem encode_of_instrOfCommand (enc : Enc) {n : EpIdx} {c : Command} {i : Instr} (h : instrOfCommand n c = .ok i) :
    encode enc i = c.bytes enc := by
  cases c with
  | startConfig base =>
    simp only [instrOfCommand] at h
    split at h
    · cases h; rfl
    · cases h
  | _ => cases h; rfl

/-- The words of an instruction that processes a TRB are the TRB's. -/
theorem encode_ofTrb (enc : Enc) (n : EpIdx) (k : TrbKind) (f : TrbFields) :
    encode enc (Instr.ofTrb n k f) = trbBytesOf enc k f := by
  cases k <;> rfl

/-- The word of an instruction that handles an event is the event's. -/
theorem encode_ofEvent (enc : Enc) (e : Event) : encode enc (Instr.ofEvent e) = bytesOfWord (e.word enc) := by
  cases e <;> rfl

/-- An instruction that has words issues a command, processes a TRB, handles an event or is a SET_ADDRESS packet
(spec/30_encoding.md R99, R130). -/
theorem formatOf_cases {i : Instr} {f : Format} {n : EpIdx} (h : formatOf i = some (f, n)) :
    (f = .command ∧ ∃ c, instrOfCommand n c = .ok i) ∨ (f = .trb ∧ ∃ k t, i = Instr.ofTrb n k t) ∨
    (f = .event ∧ ∃ e, i = Instr.ofEvent e) ∨ (f = .setup ∧ ∃ v x l, i = .setupSetAddress v x l) :=
  match i, h with
  | .startConfig base, rfl => .inl ⟨rfl, .startConfig base, rfl⟩
  | .setEpConfig _ cfg, rfl => .inl ⟨rfl, .setEpConfig cfg, rfl⟩
  | .setXferResource _ count, rfl => .inl ⟨rfl, .setXferResource count, rfl⟩
  | .getEpState _, rfl => .inl ⟨rfl, .getEpState, rfl⟩
  | .setStall _, rfl => .inl ⟨rfl, .setStall, rfl⟩
  | .clearStallCmd _, rfl => .inl ⟨rfl, .clearStall, rfl⟩
  | .startTransfer _ trb, rfl => .inl ⟨rfl, .startTransfer trb, rfl⟩
  | .updateTransfer _ rsc, rfl => .inl ⟨rfl, .updateTransfer rsc, rfl⟩
  | .endTransfer _ rsc, rfl => .inl ⟨rfl, .endTransfer rsc, rfl⟩
  | .trbNormal _ t, rfl => .inr (.inl ⟨rfl, .normal, t, rfl⟩)
  | .trbControlSetup _ t, rfl => .inr (.inl ⟨rfl, .controlSetup, t, rfl⟩)
  | .trbControlStatus2 _ t, rfl => .inr (.inl ⟨rfl, .controlStatus2, t, rfl⟩)
  | .trbControlStatus3 _ t, rfl => .inr (.inl ⟨rfl, .controlStatus3, t, rfl⟩)
  | .trbControlData _ t, rfl => .inr (.inl ⟨rfl, .controlData, t, rfl⟩)
  | .trbZlp _ t, rfl => .inr (.inl ⟨rfl, .zlp, t, rfl⟩)
  | .trbIsochronousFirst _ t, rfl => .inr (.inl ⟨rfl, .isochronousFirst, t, rfl⟩)
  | .trbIsochronous _ t, rfl => .inr (.inl ⟨rfl, .isochronous, t, rfl⟩)
  | .trbLink _ t, rfl => .inr (.inl ⟨rfl, .link, t, rfl⟩)
  | .evtXferComplete n st p, rfl => .inr (.inr (.inl ⟨rfl, .xferComplete n st p, rfl⟩))
  | .evtXferInProgress n st p, rfl => .inr (.inr (.inl ⟨rfl, .xferInProgress n st p, rfl⟩))
  | .evtXferNotReady n st p, rfl => .inr (.inr (.inl ⟨rfl, .xferNotReady n st p, rfl⟩))
  | .evtEpCmdComplete n st p, rfl => .inr (.inr (.inl ⟨rfl, .epCmdComplete n st p, rfl⟩))
  | .evtDisconnect info, rfl => .inr (.inr (.inl ⟨rfl, .disconnect info, rfl⟩))
  | .evtReset info, rfl => .inr (.inr (.inl ⟨rfl, .reset info, rfl⟩))
  | .evtConnectDone info, rfl => .inr (.inr (.inl ⟨rfl, .connectDone info, rfl⟩))
  | .evtLinkStateChange info, rfl => .inr (.inr (.inl ⟨rfl, .linkStateChange info, rfl⟩))
  | .evtWakeup info, rfl => .inr (.inr (.inl ⟨rfl, .wakeup info, rfl⟩))
  | .evtHibernationReq info, rfl => .inr (.inr (.inl ⟨rfl, .hibernationReq info, rfl⟩))
  | .setupSetAddress v x l, rfl => .inr (.inr (.inr ⟨rfl, v, x, l, rfl⟩))

/-! #### Event words

An encoding record is fixed whose fields share no bit and whose codes are apart (spec/00_scope.md R14). -/

section
variable {enc : Enc} (h : enc.ok = true)
include h

/-- A field of an endpoint event word reads the value put there (spec/30_encoding.md R123). -/
theorem field_epEventWord (c : BitVec 4) (n : EpIdx) (st : BitVec 4) (p : BitVec 16) {x : Placed}
    (hx : x ∈ epEventFields enc.evt c n st p) : field (pack (epEventFields enc.evt c n st p)) x.lo x.width = x.val :=
  field_pack (l := epEventFields enc.evt c n st p) (Enc.ok_facts h).epEvent hx

/-- A field of a device event word reads the value put there (spec/30_encoding.md R121). -/
theorem field_devEventWord (c : BitVec 4) (info : BitVec 9) {x : Placed} (hx : x ∈ devEventFields enc.evt c info) :
    field (pack (devEventFields enc.evt c info)) x.lo x.width = x.val :=
  field_pack (l := devEventFields enc.evt c info) (Enc.ok_facts h).devEvent hx

/-- Bit 0 of an endpoint event word marks it as one (spec/30_encoding.md R120). -/
theorem isEpEvent_epEventWord (c : BitVec 4) (n : EpIdx) (st : BitVec 4) (p : BitVec 16) :
    isEpEvent enc.evt (pack (epEventFields enc.evt c n st p)) = true :=
  decide_eq_true <| bit_eq_field <|
    field_epEventWord h c n st p (x := ⟨0, 1, BitVec.ofBool enc.evt.epBit⟩) (by simp [epEventFields])

/-- Bit 0 of a device event word marks it as no endpoint event (spec/30_encoding.md R120). -/
theorem isEpEvent_devEventWord (c : BitVec 4) (info : BitVec 9) :
    isEpEvent enc.evt (pack (devEventFields enc.evt c info)) = false := by
  have hb : bit (pack (devEventFields enc.evt c info)) 0 = !enc.evt.epBit :=
    bit_eq_field (field_devEventWord h c info (x := ⟨0, 1, BitVec.ofBool (!enc.evt.epBit)⟩) (by simp [devEventFields]))
  simp [isEpEvent, hb]

/-- An endpoint event word is decoded by its type code, with the endpoint, status and parameter put into it
(spec/30_encoding.md R123, R124). -/
theorem decodeEvent_epEventWord (c : BitVec 4) (n : EpIdx) (st : BitVec 4) (p : BitVec 16) :
    decodeEvent enc (pack (epEventFields enc.evt c n st p)) =
      if c = enc.evt.xferComplete then .ok (.xferComplete n st p)
      else if c = enc.evt.xferInProgress then .ok (.xferInProgress n st p)
      else if c = enc.evt.xferNotReady then .ok (.xferNotReady n st p)
      else if c = enc.evt.epCmdComplete then .ok (.epCmdComplete n st p)
      else .error (.reservedEpEvent n c) := by
  have hc := field_epEventWord h c n st p (x := ⟨enc.evt.epEvt, 4, c⟩) (by simp [epEventFields])
  have hn := field_epEventWord h c n st p (x := ⟨enc.evt.epNum, 5, BitVec.ofFin n⟩) (by simp [epEventFields])
  have hst := field_epEventWord h c n st p (x := ⟨enc.evt.epStatus, 4, st⟩) (by simp [epEventFields])
  have hp := field_epEventWord h c n st p (x := ⟨enc.evt.epParam, 16, p⟩) (by simp [epEventFields])
  simp only at hc hn hst hp
  simp only [decodeEvent, isEpEvent_epEventWord h, eventEp, hc, hn, hst, hp, if_true]

/-- A device event word is decoded by its type code, with the information put into it (spec/30_encoding.md R121, R122). -/
theorem decodeEvent_devEventWord (c : BitVec 4) (info : BitVec 9) :
    decodeEvent enc (pack (devEventFields enc.evt c info)) =
      if c = enc.evt.disconnect then .ok (.disconnect info)
      else if c = enc.evt.reset then .ok (.reset info)
      else if c = enc.evt.connectDone then .ok (.connectDone info)
      else if c = enc.evt.linkStateChange then .ok (.linkStateChange info)
      else if c = enc.evt.wakeup then .ok (.wakeup info)
      else if c = enc.evt.hibernationReq then .ok (.hibernationReq info)
      else .error (.reservedDeviceEvent c) := by
  have hc := field_devEventWord h c info (x := ⟨enc.evt.devEvt, 4, c⟩) (by simp [devEventFields])
  have hcl := field_devEventWord h c info (x := ⟨enc.evt.devClass, 7, 0⟩) (by simp [devEventFields])
  have hi := field_devEventWord h c info (x := ⟨enc.evt.evtInfo, 9, info⟩) (by simp [devEventFields])
  simp only at hc hcl hi
  simp [decodeEvent, isEpEvent_devEventWord h, hc, hcl, hi]

/-- An event decodes from its word (spec/30_encoding.md R121 to R124). -/
theorem decodeEvent_word (e : Event) : decodeEvent enc (e.word enc) = .ok e := by
  have hep := (Enc.ok_facts h).epCodes
  have hdev := (Enc.ok_facts h).devCodes
  simp only [List.nodup_cons, List.mem_cons, List.not_mem_nil, or_false, not_or] at hep hdev
  obtain ⟨⟨hcp, hcn, hcc⟩, ⟨hpn, hpc⟩, hnc, -⟩ := hep
  obtain ⟨⟨hdr, hdc, hdl, hdw, hdh⟩, ⟨hrc, hrl, hrw, hrh⟩, ⟨hcl, hcw, hch⟩, ⟨hlw, hlh⟩, hwh, -⟩ := hdev
  cases e with
  | xferComplete n st p => exact (decodeEvent_epEventWord h _ n st p).trans (by simp)
  | xferInProgress n st p => exact (decodeEvent_epEventWord h _ n st p).trans (by simp [Ne.symm hcp])
  | xferNotReady n st p => exact (decodeEvent_epEventWord h _ n st p).trans (by simp [Ne.symm hcn, Ne.symm hpn])
  | epCmdComplete n st p =>
    exact (decodeEvent_epEventWord h _ n st p).trans (by simp [Ne.symm hcc, Ne.symm hpc, Ne.symm hnc])
  | disconnect info => exact (decodeEvent_devEventWord h _ info).trans (by simp)
  | reset info => exact (decodeEvent_devEventWord h _ info).trans (by simp [Ne.symm hdr])
  | connectDone info => exact (decodeEvent_devEventWord h _ info).trans (by simp [Ne.symm hdc, Ne.symm hrc])
  | linkStateChange info =>
    exact (decodeEvent_devEventWord h _ info).trans (by simp [Ne.symm hdl, Ne.symm hrl, Ne.symm hcl])
  | wakeup info =>
    exact (decodeEvent_devEventWord h _ info).trans (by simp [Ne.symm hdw, Ne.symm hrw, Ne.symm hcw, Ne.symm hlw])
  | hibernationReq info =>
    exact (decodeEvent_devEventWord h _ info).trans
      (by simp [Ne.symm hdh, Ne.symm hrh, Ne.symm hch, Ne.symm hlh, Ne.symm hwh])

/-! #### The bytes of each format -/

/-- A command decodes from its twelve bytes to the instruction that issues it (spec/30_encoding.md R99, R104). -/
theorem decode_commandBytes (n : EpIdx) (c : Command) :
    decode enc .command n (c.bytes enc) = instrOfCommand n c := by
  simp only [decode, Command.bytes, bytesOfWord, List.cons_append, List.nil_append, wordOfBytes_bytes,
    decodeCommand_words h]

/-- A TRB decodes from its sixteen bytes to the instruction that processes it (spec/30_encoding.md R99, R110). -/
theorem decode_trbBytes (n : EpIdx) (k : TrbKind) (f : TrbFields) :
    decode enc .trb n (trbBytesOf enc k f) = .ok (Instr.ofTrb n k f) := by
  simp only [decode, trbBytesOf, Machine.TrbWords.bytes, bytesOfWord, List.cons_append, List.nil_append, wordOfBytes_bytes,
    decodeTrb_words h]

/-- An event decodes from its four bytes to the instruction that handles it (spec/30_encoding.md R99, R120). -/
theorem decode_eventBytes (n : EpIdx) (e : Event) :
    decode enc .event n (bytesOfWord (e.word enc)) = .ok (Instr.ofEvent e) := by
  simp only [decode, bytesOfWord, wordOfBytes_bytes, decodeEvent_word h]

/-- What an instruction encodes to decodes to it, in its format and at its endpoint. -/
theorem decode_encode {i : Instr} {f : Format} {n : EpIdx} (hi : formatOf i = some (f, n)) :
    decode enc f n (encode enc i) = .ok i := by
  obtain ⟨rfl, c, hc⟩ | ⟨rfl, k, t, rfl⟩ | ⟨rfl, e, rfl⟩ | ⟨rfl, v, x, l, rfl⟩ := formatOf_cases hi
  · rw [encode_of_instrOfCommand enc hc, decode_commandBytes h, hc]
  · rw [encode_ofTrb, decode_trbBytes h]
  · rw [encode_ofEvent, decode_eventBytes h]
  · exact decode_setAddressBytes enc n v x l

end

/-- Settles O1: every instruction with words issues a command, processes a TRB, handles an event or is a SET_ADDRESS packet,
and each of these decodes from its bytes. -/
theorem decodeOfEncode : Obligations.DecodeOfEncode := fun _ _ _ _ hok hi => decode_encode hok hi

end Sys2Proof
end

section
/-! Elaborated without threads, as the tests are: each thread of the checker's Lean reserves a large stack. -/

set_option Elab.async false

/-! ### What every step keeps (spec/10_state.md R22 to R27, R32, R33, R36, R38)

One relation says how a state may follow another, in three scopes: over the accesses of S and the acts of the other agents,
over the procedures of S, and over INIT. Each operation is shown once to keep to it in its scope. -/

namespace Sys2Proof.Machine

/-- Which part of the model a change of the state comes from: the accesses of S and the acts of the other agents, which leave
the records of S alone; the procedures of S; or the bring-up, the one procedure that makes the EP0 state UNCONNECTED. -/
inductive Scope where
  | access | procedure | bringUp

/-- An offset into the event buffer that stands on a word of it (spec/10_state.md R33, R38). -/
abbrev offsetLegal (x : Nat) : Prop := x < evtBufSize ∧ x % 4 = 0

/-- The offset of the next word of the event buffer, the first after the last (spec/43_event_buffer.md R272, R300). -/
theorem offsetLegal_next {x : Nat} (h : offsetLegal x) : offsetLegal ((x + 4) % evtBufSize) := by
  unfold offsetLegal evtBufSize at *
  omega

/-- The identity words that no write reaches (spec/10_state.md R36). -/
def Regs.identity (r : Regs) : Word × Word × Word := (r.gsnpsid, r.ghwparams0, r.ghwparams3)

/-- How the context may follow another in a scope: an access changes nothing; the launch's part stays and the log grows; the
read cursor stays on a word; INIT once run stays run; the EP0 state stays connected but in the bring-up; the device is not
suspended. Every clause but the first has the proof for a field left as it is. -/
structure CtxEvolves (k : Scope) (c d : Ctx) : Prop where
  same : k = .access → d = c := by nofun
  regBase : d.regBase = c.regBase := by rfl
  cb : d.cb = c.cb := by rfl
  base : d.evt.base = c.evt.base := by rfl
  size : d.evt.size = c.evt.size := by rfl
  log : c.log <+: d.log := by exact List.prefix_rfl
  lpos : offsetLegal c.evt.lpos → offsetLegal d.evt.lpos := by exact id
  run : c.init ≠ .notRun → d.init ≠ .notRun := by exact id
  connected : k ≠ .bringUp → c.ep0State ≠ .unconnected → d.ep0State ≠ .unconnected := by exact fun _ => id
  suspended : c.devState ≠ .suspended → d.devState ≠ .suspended := by exact id

/-- How the record of endpoint `n` may follow another in a scope: an access changes nothing; no wedge begins, and no setup is
pending but on endpoint 0; a legal record stays legal. Every clause but the first has the proof for a field left as it is. -/
structure EpEvolves (k : Scope) (n : EpIdx) (e f : Ep) : Prop where
  same : k = .access → f = e := by nofun
  wedge : e.wedge = false → f.wedge = false := by exact id
  pending : n ≠ 0 → e.pending = false → f.pending = false := by exact fun _ => id
  legal : Ep.legal n e → Ep.legal n f := by exact id

theorem CtxEvolves.refl {k : Scope} {c : Ctx} : CtxEvolves k c c := { same := fun _ => rfl }

theorem EpEvolves.refl {k : Scope} {n : EpIdx} {e : Ep} : EpEvolves k n e e := { same := fun _ => rfl }

theorem CtxEvolves.trans {k : Scope} {b c d : Ctx} (h : CtxEvolves k b c) (g : CtxEvolves k c d) : CtxEvolves k b d where
  same e := (g.same e).trans (h.same e)
  regBase := g.regBase.trans h.regBase
  cb := g.cb.trans h.cb
  base := g.base.trans h.base
  size := g.size.trans h.size
  log := h.log.trans g.log
  lpos := g.lpos ∘ h.lpos
  run := g.run ∘ h.run
  connected e := g.connected e ∘ h.connected e
  suspended := g.suspended ∘ h.suspended

theorem EpEvolves.trans {k : Scope} {n : EpIdx} {d e f : Ep} (h : EpEvolves k n d e) (g : EpEvolves k n e f) :
    EpEvolves k n d f where
  same e := (g.same e).trans (h.same e)
  wedge := g.wedge ∘ h.wedge
  pending e := g.pending e ∘ h.pending e
  legal := g.legal ∘ h.legal

/-- How the state may follow another in a scope. Every clause has the proof for a part left as it is. -/
structure Evolves (k : Scope) (s t : State) : Prop where
  params : t.params = s.params := by rfl
  identity : t.regs.identity = s.regs.identity := by rfl
  trace : s.trace <+: t.trace := by exact List.prefix_rfl
  mem : s.mem.wf = true → t.mem.wf = true := by exact id
  cache : s.cacheLegal → t.cacheLegal := by exact id
  wpos : offsetLegal s.hw.wpos → offsetLegal t.hw.wpos := by exact id
  ctx : CtxEvolves k s.ctx t.ctx := by exact .refl
  ep (n : EpIdx) : EpEvolves k n s.ep[n] t.ep[n] := by exact fun _ => .refl

section
variable {k : Scope} {s t u : State}

theorem Evolves.refl : Evolves k s s := {}

theorem Evolves.trans (h : Evolves k s t) (g : Evolves k t u) : Evolves k s u where
  params := g.params.trans h.params
  identity := g.identity.trans h.identity
  trace := h.trace.trans g.trace
  mem := g.mem ∘ h.mem
  cache := g.cache ∘ h.cache
  wpos := g.wpos ∘ h.wpos
  ctx := h.ctx.trans g.ctx
  ep n := (h.ep n).trans (g.ep n)

/-- What a procedure of S may do, the bring-up may. -/
theorem Evolves.bringUp (h : Evolves .procedure s t) : Evolves .bringUp s t :=
  { h with
    ctx := { h.ctx with same := nofun, connected := fun e => absurd rfl e }
    ep := fun n => { h.ep n with same := nofun } }

/-- What an access may do, every part of the model may. -/
theorem Evolves.of_access (h : Evolves .access s t) : Evolves k s t :=
  { h with
    ctx := by rw [h.ctx.same rfl]; exact .refl
    ep := fun n => by rw [(h.ep n).same rfl]; exact .refl }

/-- The accesses of S and the acts of the others leave S's records alone. -/
theorem Evolves.ep_eq (h : Evolves .access s t) (n : EpIdx) : t.ep[n] = s.ep[n] := (h.ep n).same rfl

/-- Every step keeps the legal states. -/
theorem Evolves.legal (h : Evolves k s t) (hs : s.legal) : t.legal := by
  obtain ⟨hm, hc, hw1, hw2, hl1, hl2, he⟩ := hs
  obtain ⟨tw1, tw2⟩ := h.wpos ⟨hw1, hw2⟩
  obtain ⟨tl1, tl2⟩ := h.ctx.lpos ⟨hl1, hl2⟩
  exact ⟨h.mem hm, h.cache hc, tw1, tw2, tl1, tl2, fun n => (h.ep n).legal (he n)⟩

/-! #### The updates of the state -/

theorem evolves_setEnv (e : Env) : Evolves k s (s.setEnv e) := {}

theorem evolves_setHanded (h : List Handed) : Evolves k s (s.setHanded h) := {}

theorem evolves_setMem {m : Memory} (h : s.mem.wf = true → m.wf = true) : Evolves k s (s.setMem m) := { mem := h }

theorem evolves_updHEp (n : EpIdx) (f : HEp → HEp) : Evolves k s (s.updHEp n f) := {}

theorem evolves_setRet (r : Result) : Evolves k s (s.setRet r) := {}

theorem evolves_observe (o : Observed) : Evolves k s (s.observe o) := { trace := List.prefix_append _ _ }

/-- A store to a register that is not read-only, or to DSTS, leaves the identity words (spec/10_state.md R36). -/
theorem Regs.identity_put {x : Regs} {r : Reg} (v : Word) (h : r.readOnly = false ∨ r = .dsts) :
    (x.put v r).identity = x.identity := by
  rcases h with h | rfl
  · cases r with
    | gsnpsid | ghwparams0 | ghwparams3 => cases h
    | _ => rfl
  · rfl

theorem evolves_putReg {r : Reg} (v : Word) (h : r.readOnly = false ∨ r = .dsts) : Evolves k s (s.putReg r v) :=
  { identity := Regs.identity_put v h }

theorem evolves_withPending (c : BitVec 16) : Evolves k s (s.withPending c) := evolves_putReg _ (.inl rfl)

theorem evolves_updCtx {f : Ctx → Ctx} (h : CtxEvolves k s.ctx (f s.ctx)) : Evolves k s (s.updCtx f) := { ctx := h }

theorem evolves_updEp {n : EpIdx} {f : Ep → Ep} (h : EpEvolves k n s.ep[n] (f s.ep[n])) : Evolves k s (s.updEp n f) where
  ep m := by
    by_cases hm : n = m
    · subst hm
      rwa [State.updEp_same]
    · rw [State.updEp_other s n m f hm]
      exact .refl

theorem evolves_hStore (g : GAddr) (bs : List Byte) : Evolves k s (s.hStore g bs) := { mem := State.wf_hStore g bs }

theorem evolves_flush (a : LAddr) (n : Nat) : Evolves k s (s.flush a n) :=
  { mem := State.wf_flush a n, cache := State.cacheLegal_flush a n }

theorem evolves_invalidate (a : LAddr) (n : Nat) : Evolves k s (s.invalidate a n) :=
  { cache := State.cacheLegal_invalidate a n }

theorem evolves_evict (i : Nat) : Evolves k s (s.evict i) :=
  { mem := State.wf_evict i, cache := State.cacheLegal_evict i }

theorem evolves_withLine (a : LAddr) : Evolves k s (s.withLine (lineOf s.params a)) := by
  have hl := State.cacheLegal_withLine (s := s) a
  obtain ⟨c, hc⟩ := s.withLine_cache (lineOf s.params a)
  rw [hc] at hl ⊢
  exact { cache := hl }

theorem evolves_cacheWrite (a : LAddr) (bs : List Byte) : Evolves k s (s.cacheWrite a bs) := by
  have hl := State.cacheLegal_cacheWrite (s := s) a bs
  obtain ⟨c, hc⟩ := s.cacheWrite_cache a bs
  rw [hc] at hl ⊢
  exact { cache := hl }

end

/-! #### Operations that keep to the relation -/

/-- Every state that `m` answers from `s` follows it. -/
def KeepsAt {α : Type} (k : Scope) (m : M α) (s : State) : Prop := ∀ a t, m s = .ok (a, t) → Evolves k s t

/-- Every state that `m` answers follows the one it ran from. -/
abbrev Keeps {α : Type} (k : Scope) (m : M α) : Prop := ∀ s, KeepsAt k m s

section
variable {k : Scope} {α β : Type} {s t : State}

theorem KeepsAt.bind {m : M α} {f : α → M β} (hm : KeepsAt k m s) (hf : ∀ a t, m s = .ok (a, t) → KeepsAt k (f a) t) :
    KeepsAt k (m >>= f) s := by
  intro b u h
  obtain ⟨a, t, h1, h2⟩ := M.bind_eq_ok.1 h
  exact (hm a t h1).trans (hf a t h1 b u h2)

theorem Keeps.bind {m : M α} {f : α → M β} (hm : Keeps k m) (hf : ∀ a, Keeps k (f a)) : Keeps k (m >>= f) :=
  fun s => (hm s).bind fun a t _ => hf a t

/-- An access, and what follows it from a state with the same endpoint records. -/
theorem KeepsAt.after_access {m : M α} {f : α → M β} (hm : Keeps .access m)
    (hf : ∀ a t, (∀ n : EpIdx, t.ep[n] = s.ep[n]) → KeepsAt k (f a) t) : KeepsAt k (m >>= f) s :=
  .bind (fun a t h => (hm s a t h).of_access) fun a t h => hf a t (hm s a t h).ep_eq

theorem Keeps.ite {c : Prop} [Decidable c] {x y : M α} (hx : Keeps k x) (hy : Keeps k y) :
    Keeps k (if c then x else y) := by
  split
  · exact hx
  · exact hy

/-- A conditional operation, and what follows it. -/
theorem Keeps.when {c : Prop} [Decidable c] {x : M Unit} {f : Unit → M β} (hx : Keeps k x) (hf : ∀ a, Keeps k (f a)) :
    Keeps k (if c then x >>= f else f ()) :=
  .ite (hx.bind hf) (hf ())

theorem Keeps.bringUp {m : M α} (h : Keeps .procedure m) : Keeps .bringUp m := fun s a t e => (h s a t e).bringUp

theorem keepsAt_pure (a : α) : KeepsAt k (pure a) s := by
  intro b t h
  cases h
  exact .refl

theorem keeps_pure {a : α} : Keeps k (pure a : M α) := fun _ => keepsAt_pure a

theorem keeps_raise {r : Fault} : Keeps k (raise r : M α) := fun _ _ _ h => nomatch h

theorem keeps_refuse {r : Refusal} : Keeps k (refuse r : M α) := fun _ _ _ h => nomatch h

theorem keepsAt_modify {f : State → State} (h : Evolves k s (f s)) : KeepsAt k (modify f) s := by
  intro a t e
  cases e
  exact h

theorem keeps_modify {f : State → State} (h : ∀ s, Evolves k s (f s)) : Keeps k (modify f) := fun s => keepsAt_modify (h s)

theorem keeps_get : Keeps k (get : M State) := by
  intro s a t h
  cases h
  exact .refl

theorem keepsAt_set (h : Evolves k s t) : KeepsAt k (set t) s := by
  intro a u e
  cases e
  exact h

/-- What reads the state first is looked at from the state it reads. -/
theorem keepsAt_get {f : State → M β} (h : KeepsAt k (f s) s) : KeepsAt k (get >>= f) s := h

theorem Keeps.of_get {f : State → M β} (h : ∀ s, KeepsAt k (f s) s) : Keeps k (get >>= f) := fun s => keepsAt_get (h s)

/-- A state left, and an answer given. -/
theorem keepsAt_set_pure {t : State} {a : α} (h : Evolves k s t) : KeepsAt k (do set t; pure a) s :=
  (keepsAt_set h).bind fun _ _ _ => keepsAt_pure a

theorem keeps_written {x : Option α} : Keeps k (written x) := by
  cases x with
  | none => exact keeps_raise
  | some v => exact keeps_pure

theorem keeps_getEp (n : EpIdx) : Keeps k (getEp n) := keeps_get.bind fun _ => keeps_pure

theorem keeps_modifyEp {n : EpIdx} {f : Ep → Ep} (h : ∀ e, EpEvolves k n e (f e)) : Keeps k (modifyEp n f) :=
  keeps_modify fun s => evolves_updEp (h s.ep[n])

theorem keeps_modifyCtx {f : Ctx → Ctx} (h : ∀ c, CtxEvolves k c (f c)) : Keeps k (modifyCtx f) :=
  keeps_modify fun s => evolves_updCtx (h s.ctx)

theorem keeps_modifyHEp (n : EpIdx) (f : HEp → HEp) : Keeps k (modifyHEp n f) := keeps_modify fun _ => evolves_updHEp n f

theorem keeps_readRsc (n : EpIdx) : Keeps k (readRsc n) := by
  refine (keeps_getEp n).bind fun e => ?_
  split
  · exact keeps_pure
  · exact keeps_raise

theorem keeps_requireInit : Keeps k requireInit := keeps_get.bind fun _ => .ite keeps_pure keeps_refuse

theorem keeps_returning {m : M Result} (h : Keeps k m) : Keeps k (returning m) :=
  h.bind fun r => keeps_modify fun _ => evolves_setRet r

theorem keeps_forEps {f : EpIdx → M Unit} (h : ∀ n, Keeps k (f n)) : (l : List EpIdx) → Keeps k (forEps f l)
  | [] => keeps_pure
  | n :: ns => (h n).bind fun _ => keeps_forEps h ns

end

/-! #### The choices of the other agents -/

section
variable {k : Scope} {α : Type} {s : State}

/-- The head of a list of choices taken, or the next free choice. -/
theorem keepsAt_setEnv_pure {e : Env} {a : α} : KeepsAt k (do set (s.setEnv e); pure a) s := keepsAt_set_pure (evolves_setEnv e)

/-- Past the end of a list of choices. -/
theorem keepsAt_freeChoice {e : Env} {a b : α} :
    KeepsAt k (if s.env.isOpen then do set (s.setEnv e); pure a else pure b) s := by
  split
  · exact keepsAt_setEnv_pure
  · exact keepsAt_pure b

theorem keeps_drawActs : Keeps k drawActs := by
  refine .of_get fun s => ?_
  split
  exacts [keepsAt_setEnv_pure, keepsAt_freeChoice]

theorem keeps_drawAnswer : Keeps k drawAnswer := by
  refine .of_get fun s => ?_
  split
  exacts [keepsAt_setEnv_pure, keepsAt_freeChoice]

theorem keeps_drawReset : Keeps k drawReset := by
  refine .of_get fun s => ?_
  split
  exacts [keepsAt_setEnv_pure, keepsAt_freeChoice]

theorem keeps_drawMoved : Keeps k drawMoved := by
  refine .of_get fun s => ?_
  split
  exacts [keepsAt_setEnv_pure, keepsAt_freeChoice]

theorem keeps_drawSetup : Keeps k drawSetup := by
  refine .of_get fun s => ?_
  split
  exacts [keepsAt_setEnv_pure, keepsAt_freeChoice]

theorem keeps_drawCalls : Keeps k drawCalls := by
  refine .of_get fun s => ?_
  split
  exacts [keepsAt_setEnv_pure, keepsAt_freeChoice]

theorem keeps_drawSeen (a : LAddr) (n : Nat) : Keeps k (drawSeen a n) := by
  refine .of_get fun s => ?_
  split
  · split
    exacts [keepsAt_setEnv_pure, keepsAt_freeChoice]
  · exact keepsAt_pure _

theorem keeps_drawFresh (g : GAddr) (n : Nat) : Keeps k (drawFresh g n) := by
  refine .of_get fun s => ?_
  split
  · split
    exacts [keepsAt_setEnv_pure, keepsAt_freeChoice]
  · exact keepsAt_pure _

theorem keeps_nextFree : Keeps k nextFree := .of_get fun _ => keepsAt_setEnv_pure

theorem keeps_hReadWord (g : GAddr) : Keeps k (hReadWord g) :=
  (keeps_drawFresh g 4).bind fun _ => keeps_get.bind fun _ => keeps_written

theorem keeps_hReadTrb (g : GAddr) : Keeps k (hReadTrb g) :=
  (keeps_drawFresh g trbBytes).bind fun _ => keeps_get.bind fun _ => keeps_pure

end

/-! #### The acts of H (spec/43_event_buffer.md R300, spec/42_trb_ring.md R250, spec/40_command_dispatcher.md R181 to R183) -/

section
variable {k : Scope}

theorem keeps_hWriteBytes (g : GAddr) (bs : List Byte) : Keeps k (hWriteBytes g bs) := keeps_modify fun _ => evolves_hStore g bs

theorem keeps_hWriteWord (g : GAddr) (w : Word) : Keeps k (hWriteWord g w) := keeps_hWriteBytes g _

theorem keeps_handOver (n : EpIdx) (g : GAddr) : Keeps k (handOver n g) := keeps_modify fun _ => evolves_setHanded _

theorem keeps_takeBack (g : GAddr) : Keeps k (takeBack g) := keeps_modify fun _ => evolves_setHanded _

theorem keeps_takeBackAll (n : EpIdx) : Keeps k (takeBackAll n) := keeps_modify fun _ => evolves_setHanded _

/-- H's write offset moves on by one word. -/
theorem keeps_hAppendEvent (w : Word) : Keeps k (hAppendEvent w) :=
  keeps_get.bind fun _ => .ite keeps_raise <|
    (keeps_hWriteWord _ w).bind fun _ => (keeps_modify fun _ => evolves_withPending _).bind fun _ =>
      keeps_modify fun _ => { wpos := offsetLegal_next }

theorem keeps_hReport (w : Word) : Keeps k (hReport w) := keeps_get.bind fun _ => .ite (keeps_hAppendEvent w) keeps_pure

theorem keeps_setRun (n : EpIdx) (r : Run) : Keeps k (setRun n r) := keeps_modifyHEp n _

theorem keeps_hWait (n : EpIdx) : Keeps k (hWait n) := keeps_modifyHEp n _

theorem keeps_hEndTransfer (n : EpIdx) (r : BitVec 7) : Keeps k (hEndTransfer n r) :=
  (keeps_modifyHEp n _).bind fun _ => keeps_modify fun _ => {}

theorem keeps_hBegin (n : EpIdx) (x : TrbKind) (f : TrbFields) : Keeps k (hBegin n x f) := by
  refine keeps_get.bind fun s => ?_
  split
  · exact keeps_pure
  · exact .ite keeps_pure <| .ite (keeps_hWait n) <| .ite (keeps_setRun n _) (keeps_setRun n _)

theorem keeps_hMoveData (n : EpIdx) (r : Run) (j : Job) : Keeps k (hMoveData n r j) := by
  refine keeps_get.bind fun s => .ite keeps_pure <| keeps_drawMoved.bind fun m => ?_
  cases m with
  | none => exact keeps_pure
  | some m => exact .ite keeps_pure <| .when (keeps_hWriteBytes _ _) fun _ => keeps_setRun n _

theorem keeps_hReceiveSetup (n : EpIdx) (r : Run) (j : Job) : Keeps k (hReceiveSetup n r j) := by
  refine keeps_drawSetup.bind fun a => ?_
  cases a with
  | none => exact keeps_pure
  | some a =>
    exact (keeps_hWriteBytes _ _).bind fun _ => (keeps_modifyHEp 0 _).bind fun _ => (keeps_modifyHEp 1 _).bind fun _ =>
      (keeps_modify fun _ => {}).bind fun _ => keeps_get.bind fun _ => keeps_setRun n _

theorem keeps_hMove (n : EpIdx) : Keeps k (hMove n) := by
  refine keeps_get.bind fun s => ?_
  split
  · exact keeps_pure
  · exact .ite (keeps_hReceiveSetup n _ _) (keeps_hMoveData n _ _)

theorem keeps_hWriteSize (n : EpIdx) : Keeps k (hWriteSize n) := by
  refine keeps_get.bind fun s => ?_
  split
  · exact keeps_pure
  · exact (keeps_hReadWord _).bind fun _ => (keeps_hWriteWord _ _).bind fun _ => keeps_setRun n _

theorem keeps_hWriteControl (n : EpIdx) : Keeps k (hWriteControl n) := by
  refine keeps_get.bind fun s => ?_
  split
  · exact keeps_pure
  · exact (keeps_hReadWord _).bind fun _ => (keeps_hWriteWord _ _).bind fun _ => (keeps_setRun n _).bind fun _ =>
      .ite (keeps_modifyHEp n _) keeps_pure

theorem keeps_hReportOwed (n : EpIdx) : Keeps k (hReportOwed n) := by
  refine keeps_get.bind fun s => ?_
  split
  · exact keeps_pure
  · exact (keeps_hAppendEvent _).bind fun _ => (keeps_modifyHEp n _).bind fun _ => keeps_modify fun _ => {}

theorem keeps_hFinish (n : EpIdx) : Keeps k (hFinish n) := by
  refine keeps_get.bind fun s => ?_
  split
  · exact keeps_pure
  · exact .ite (keeps_hEndTransfer n _) (keeps_setRun n _)

theorem keeps_hClose (n : EpIdx) : Keeps k (hClose n) := by
  refine keeps_get.bind fun s => ?_
  split
  · exact keeps_pure
  · exact .ite ((keeps_hFinish n).bind fun _ => keeps_hReportOwed n) ((keeps_hReportOwed n).bind fun _ => keeps_hFinish n)

theorem keeps_hSettle (n : EpIdx) : Keeps k (hSettle n) := keeps_get.bind fun _ => .ite keeps_pure (keeps_hReportOwed n)

theorem keeps_hRunTrb (n : EpIdx) (x : TrbKind) (f : TrbFields) : Keeps k (hRunTrb n x f) :=
  (keeps_hSettle n).bind fun _ => (keeps_hBegin n x f).bind fun _ => (keeps_hMove n).bind fun _ =>
    (keeps_hWriteSize n).bind fun _ => (keeps_hWriteControl n).bind fun _ => keeps_hClose n

theorem keeps_fetchTrb (n : EpIdx) : Keeps k (fetchTrb n) := by
  refine keeps_get.bind fun s => ?_
  split
  · exact keeps_pure
  · refine .ite keeps_pure ?_
    split
    · exact keeps_pure
    · exact (keeps_hReadTrb _).bind fun _ => keeps_written.bind fun _ => keeps_pure

theorem keeps_hNext (n : EpIdx) : Keeps k (hNext n) := by
  refine keeps_get.bind fun s => ?_
  split
  · exact keeps_pure
  · refine (keeps_fetchTrb n).bind fun t => ?_
    cases t with
    | none => exact keeps_pure
    | some t =>
      simp only
      split
      · exact keeps_pure
      · exact .ite keeps_refuse ((keeps_hWait n).bind fun _ => keeps_pure)

theorem keeps_hTurn (n : EpIdx) : Keeps k (hTurn n) := by
  refine (keeps_hNext n).bind fun x => ?_
  cases x with
  | none => exact keeps_hSettle n
  | some x => exact keeps_hRunTrb n x.1 x.2

theorem keeps_hWork (n : EpIdx) : Keeps k (hWork n) := by
  refine keeps_get.bind fun s => ?_
  split
  · split
    · exact keeps_hMove n
    · exact keeps_hWriteSize n
    · exact keeps_hWriteControl n
    · exact .ite (keeps_hReportOwed n) (keeps_hFinish n)
  · refine .ite (keeps_hReportOwed n) <| (keeps_hNext n).bind fun x => ?_
    cases x with
    | none => exact keeps_pure
    | some x => exact keeps_hBegin n x.1 x.2

theorem keeps_hPrefetch (n : EpIdx) (slot : Option (Fin 9)) : Keeps k (hPrefetch n slot) := by
  refine keeps_get.bind fun s => ?_
  split
  · exact keeps_pure
  · split
    · exact keeps_pure
    · refine .ite keeps_pure <| (keeps_hReadTrb _).bind fun t => ?_
      cases t with
      | none => exact keeps_pure
      | some t => exact keeps_setRun n _

theorem keeps_hStartTransfer (n : EpIdx) (r : BitVec 7) (g : GAddr) : Keeps k (hStartTransfer n r g) := keeps_modify fun _ => {}

theorem keeps_hResume (n : EpIdx) (r : BitVec 7) (g : Option GAddr) : Keeps k (hResume n r g) := by
  refine keeps_get.bind fun s => ?_
  cases g with
  | none => exact keeps_pure
  | some g => exact .ite (keeps_hStartTransfer n r g) keeps_pure

theorem keeps_hEffect (n : EpIdx) (c : Command) (a : Answer) : Keeps k (hEffect n c a) := by
  cases c with
  | startConfig base => exact keeps_modify fun _ => {}
  | getEpState => exact keeps_modify fun _ => evolves_putReg _ (.inl rfl)
  | startTransfer g => exact keeps_hStartTransfer n a.rsc g
  | updateTransfer r =>
    refine keeps_get.bind fun s => ?_
    split
    · exact keeps_setRun n _
    · exact keeps_hResume n r a.resume
  | endTransfer r =>
    refine keeps_get.bind fun s => ?_
    split
    · exact keeps_pure
    · exact keeps_hEndTransfer n _
  | _ => exact keeps_modifyHEp n _

theorem keeps_hComplete (n : EpIdx) (a : Answer) : Keeps k (hComplete n a) := by
  refine keeps_get.bind fun s => ?_
  split
  · exact keeps_pure
  · exact .ite keeps_pure <| .when (keeps_hEffect n _ a) fun _ =>
      (keeps_modify fun _ => evolves_putReg _ (.inl rfl)).bind fun _ => keeps_modifyHEp n _

theorem keeps_hBeforePoll (n : EpIdx) : Keeps k (hBeforePoll n) := by
  refine keeps_get.bind fun s => ?_
  split
  · exact .ite (keeps_hComplete n _) (keeps_modifyHEp n _)
  · exact keeps_pure

theorem keeps_hStartCommand (n : EpIdx) (w : Word) : Keeps k (hStartCommand n w) := by
  refine keeps_get.bind fun s => ?_
  split
  · exact keeps_raise
  · refine .ite (keeps_drawAnswer.bind fun a => ?_) ?_
    · cases a with
      | none => exact keeps_modify fun _ => evolves_putReg _ (.inl rfl)
      | some a => exact keeps_modify fun _ => evolves_putReg _ (.inl rfl)
    · split
      · exact keeps_refuse
      · exact (keeps_modify fun _ => evolves_putReg _ (.inl rfl)).bind fun _ =>
          (keeps_modify fun _ => evolves_setHanded _).bind fun _ => keeps_drawAnswer.bind fun _ => keeps_modifyHEp n _

/-- After a soft reset H's write offset is 0, and the identity words are as they were (spec/70_reset_and_hazards.md R413). -/
theorem keeps_hSoftResetDone (i : ResetImage) : Keeps k (hSoftResetDone i) := by
  refine .of_get fun s => ?_
  split
  · exact keepsAt_pure _
  · exact keepsAt_set { wpos := fun _ => ⟨Nat.zero_lt_succ _, rfl⟩ }

theorem keeps_hBeforeResetPoll : Keeps k hBeforeResetPoll := by
  refine .of_get fun s => ?_
  split
  · split
    · exact keeps_hSoftResetDone _ s
    · exact keepsAt_set {}
  · exact keepsAt_pure _

theorem keeps_hStartReset : Keeps k hStartReset := by
  refine keeps_get.bind fun s => ?_
  split
  · exact keeps_pure
  · exact keeps_drawReset.bind fun _ => keeps_modify fun _ => {}

theorem keeps_runAct : (a : Act) → Keeps k (runAct a)
  | .complete n a => keeps_hComplete n a
  | .trb n => keeps_hTurn n
  | .work n => keeps_hWork n
  | .prefetch n slot => keeps_hPrefetch n slot
  | .event w => keeps_hReport w
  | .evict _ => keeps_modify fun _ => evolves_evict _
  | .status _ => keeps_modify fun _ => evolves_putReg _ (.inr rfl)
  | .softResetDone i => keeps_hSoftResetDone i

theorem keeps_runActs : (l : List Act) → Keeps k (runActs l)
  | [] => keeps_pure
  | a :: as => (keeps_runAct a).bind fun _ => keeps_runActs as

theorem keeps_othersTurn : Keeps k othersTurn := keeps_drawActs.bind keeps_runActs

/-! #### The accesses of S (spec/20_memory.md R76 to R82) -/

theorem keeps_hBeforeRead (r : Reg) : Keeps k (hBeforeRead r) := by
  cases r with
  | depcmd n => exact keeps_hBeforePoll n
  | dctl => exact keeps_hBeforeResetPoll
  | _ => exact keeps_pure

theorem keeps_readReg (r : Reg) : Keeps k (readReg r) :=
  keeps_othersTurn.bind fun _ => (keeps_hBeforeRead r).bind fun _ => keeps_get.bind fun _ => keeps_pure

theorem keeps_writeDctl (v : Word) : Keeps k (writeDctl v) :=
  keeps_get.bind fun _ => .when keeps_hStartReset fun _ => keeps_modify fun _ => evolves_putReg _ (.inl rfl)

theorem keeps_writeDepcmd (n : EpIdx) (v : Word) : Keeps k (writeDepcmd n v) := by
  refine keeps_get.bind fun s => ?_
  split
  · exact keeps_raise
  · exact .ite (keeps_hStartCommand n v) (keeps_modify fun _ => evolves_putReg _ (.inl rfl))

/-- A write to a read-only register is discarded (log 29). -/
theorem keeps_writeReg (r : Reg) (v : Word) : Keeps k (writeReg r v) := by
  refine keeps_othersTurn.bind fun _ => ?_
  split
  · exact keeps_writeDepcmd _ v
  · exact keeps_modify fun _ => evolves_withPending _
  · exact keeps_writeDctl v
  · split
    · exact keeps_pure
    · next h => exact keeps_modify fun _ => evolves_putReg _ (.inl (Bool.eq_false_iff.2 h))

theorem keeps_writeField (r : Reg) (place : RegPlaces → Nat) {n : Nat} (v : BitVec n) : Keeps k (writeField r place v) :=
  (keeps_readReg r).bind fun _ => keeps_get.bind fun _ => keeps_writeReg r _

theorem keeps_memRead (a : LAddr) : Keeps k (memRead a) :=
  keeps_othersTurn.bind fun _ => (keeps_modify fun _ => evolves_withLine a).bind fun _ => (keeps_drawSeen a 4).bind fun _ =>
    keeps_get.bind fun _ => keeps_written

theorem keeps_memReadByte (a : LAddr) : Keeps k (memReadByte a) :=
  keeps_othersTurn.bind fun _ => (keeps_modify fun _ => evolves_withLine a).bind fun _ => (keeps_drawSeen a 1).bind fun _ =>
    keeps_get.bind fun _ => keeps_written

theorem keeps_requireOwned (g : GAddr) : Keeps k (requireOwned g) := keeps_get.bind fun _ => .ite keeps_raise keeps_pure

theorem keeps_memWriteTrb (t : LAddr) (i : Nat) (v : Word) : Keeps k (memWriteTrb t i v) :=
  keeps_othersTurn.bind fun _ => keeps_get.bind fun _ => (keeps_requireOwned _).bind fun _ =>
    keeps_modify fun _ => evolves_cacheWrite _ _

theorem keeps_cacheFlush (a : LAddr) (n : Nat) : Keeps k (cacheFlush a n) :=
  keeps_othersTurn.bind fun _ => keeps_modify fun _ => evolves_flush a n

theorem keeps_cacheInvalidate (a : LAddr) (n : Nat) : Keeps k (cacheInvalidate a n) :=
  keeps_othersTurn.bind fun _ => keeps_modify fun _ => evolves_invalidate a n

theorem keeps_writeTrbWords (t : LAddr) (w : TrbWords) : (l : List Nat) → Keeps k (writeTrbWords t w l)
  | [] => keeps_pure
  | i :: is => (keeps_memWriteTrb t i _).bind fun _ => keeps_writeTrbWords t w is

theorem keeps_writeTrb (t : LAddr) (w : TrbWords) : Keeps k (writeTrb t w) :=
  keeps_get.bind fun _ => keeps_writeTrbWords t w _

theorem keeps_readSetup (a : LAddr) : Keeps k (readSetup a) :=
  (keeps_memReadByte a).bind fun _ => (keeps_memReadByte _).bind fun _ => (keeps_memReadByte _).bind fun _ =>
    (keeps_memReadByte _).bind fun _ => (keeps_memReadByte _).bind fun _ => (keeps_memReadByte _).bind fun _ =>
      (keeps_memReadByte _).bind fun _ => (keeps_memReadByte _).bind fun _ => keeps_pure

end

/-! #### Commands (spec/40_command_dispatcher.md R150 to R170)

A command without bookkeeping is an access; the bookkeeping of the others is a procedure of S. -/

section
variable {k : Scope}

theorem keeps_phySave : (l : List (Reg × Word)) → Keeps k (phySave l)
  | [] => keeps_pure
  | (r, _) :: ps => (keeps_readReg r).bind fun _ => .ite (keeps_phySave ps) <|
      (keeps_writeReg r _).bind fun _ => (keeps_phySave ps).bind fun _ => keeps_pure

theorem keeps_phyRestore : (l : List (Reg × Word)) → Keeps k (phyRestore l)
  | [] => keeps_pure
  | (r, v) :: ps => (keeps_writeReg r v).bind fun _ => keeps_phyRestore ps

theorem keeps_poll (n : EpIdx) (t : CmdTyp) : (budget : Nat) → Keeps k (poll n t budget)
  | 0 => keeps_pure
  | b + 1 => (keeps_readReg _).bind fun _ => keeps_get.bind fun _ => .ite (keeps_poll n t b) keeps_pure

theorem keeps_settle (n : EpIdx) (t : CmdTyp) (p0 p1 : Word) (r : Result) : Keeps k (settle n t p0 p1 r) :=
  .ite (keeps_takeBack _) <| .ite (keeps_takeBackAll n) keeps_pure

theorem keeps_dispatchCmd (n : EpIdx) (t : CmdTyp) (q : BitVec 16) (p0 p1 : Word) : Keeps k (dispatchCmd n t q p0 p1) :=
  keeps_get.bind fun _ => .ite keeps_raise <|
    (keeps_phySave _).bind fun saved => (keeps_writeReg _ p0).bind fun _ => (keeps_writeReg _ p1).bind fun _ =>
      (keeps_writeReg _ _).bind fun _ => (keeps_poll n t _).bind fun r => (keeps_phyRestore saved).bind fun _ =>
        (keeps_settle n t p0 p1 r).bind fun _ => keeps_pure

theorem keeps_cmdOp (n : Nat) (t : CmdTyp) (grp : EpGroup) (p0 p1 : Word) (rsc : BitVec 7) :
    Keeps k (cmdOp n t grp p0 p1 rsc) := by
  refine keeps_get.bind fun s => ?_
  split
  · exact keeps_refuse
  · exact keeps_dispatchCmd _ t _ p0 p1

theorem keeps_requireEp (n : EpIdx) : Keeps k (requireEp n) := keeps_get.bind fun _ => .ite keeps_pure keeps_refuse

theorem keeps_issue (n : EpIdx) (c : Command) : Keeps k (issue n c) :=
  (keeps_requireEp n).bind fun _ => keeps_get.bind fun _ => keeps_dispatchCmd n _ _ _ _

theorem keeps_cmdGetEpState (n : EpIdx) : Keeps k (cmdGetEpState n) :=
  (keeps_issue n _).bind fun _ => .ite ((keeps_readReg _).bind fun _ => keeps_pure) keeps_pure

theorem keeps_cmdUpdateTransfer (n : EpIdx) (r : BitVec 7) : Keeps k (cmdUpdateTransfer n r) :=
  (keeps_requireEp n).bind fun _ => (keeps_readRsc n).bind fun _ => keeps_issue n _

theorem keeps_cmdSetEpConfig (n : EpIdx) (cfg : EpConf) : Keeps .procedure (cmdSetEpConfig n cfg) :=
  (keeps_issue n _).bind fun _ => .when (keeps_modifyEp fun _ => {}) fun _ => keeps_pure

/-- An endpoint that becomes busy takes a valid index (spec/10_state.md R26). -/
theorem keeps_cmdStartTransfer (n : EpIdx) (g : GAddr) : Keeps .procedure (cmdStartTransfer n g) := by
  refine (keeps_issue n _).bind fun r => ?_
  have busy : ∀ (i : BitVec 7) (e : Ep), EpEvolves .procedure n e { e with rsc := some i, busy := true } := fun _ _ =>
    { legal := fun ⟨hn, hd, hq, hr, _, ho, hc⟩ => ⟨hn, hd, hq, hr, rfl, ho, hc⟩ }
  cases r with
  | okIdx i => exact (keeps_modifyEp (busy i)).bind fun _ => keeps_pure
  | _ => exact keeps_pure

/-- An endpoint that is no longer busy has no index (spec/10_state.md R26). -/
theorem Ep.legal_idle {n : EpIdx} {e : Ep} (h : Ep.legal n e) : Ep.legal n e.idle := by
  obtain ⟨hn, hd, hq, hr, -, ho, hc⟩ := h
  exact ⟨hn, hd, hq, hr, rfl, ho, hc⟩

theorem keeps_cmdEndTransfer (n : EpIdx) (r : BitVec 7) : Keeps .procedure (cmdEndTransfer n r) :=
  (keeps_requireEp n).bind fun _ => (keeps_readRsc n).bind fun _ => (keeps_issue n _).bind fun _ =>
    .when (keeps_modifyEp fun _ => { legal := Ep.legal_idle }) fun _ => keeps_pure

theorem keeps_endOwnTransfer (n : EpIdx) : Keeps .procedure (endOwnTransfer n) :=
  (keeps_readRsc n).bind fun r => keeps_cmdEndTransfer n r

theorem keeps_logEntry (e : LogEntry) : Keeps .procedure (logEntry e) :=
  keeps_modifyCtx fun _ => { log := List.prefix_append _ _ }

theorem keeps_logIfError (r : Result) : Keeps .procedure (logIfError r) := by
  cases r with
  | err e => exact keeps_logEntry _
  | _ => exact keeps_pure

end

/-! #### The endpoint lifecycle (spec/41_endpoint_lifecycle.md R190 to R204) -/

section
variable {k : Scope}

theorem keeps_zeroSlots (n : EpIdx) : (i m : Nat) → Keeps k (zeroSlots n i m)
  | _, 0 => keeps_pure
  | i, m + 1 => keeps_get.bind fun _ => (keeps_writeTrb _ _).bind fun _ => keeps_zeroSlots n (i + 1) m

/-- A ring made anew is empty, both cursors on its first slot (spec/41_endpoint_lifecycle.md R196). -/
theorem keeps_ringInit (n : EpIdx) : Keeps .procedure (ringInit n) :=
  (keeps_zeroSlots n 0 _).bind fun _ => keeps_get.bind fun _ => (keeps_writeTrb _ _).bind fun _ =>
    (keeps_cacheFlush _ _).bind fun _ => keeps_modifyEp fun _ =>
      { legal := fun ⟨hn, hd, _, _, hb, _, _⟩ =>
          ⟨hn, hd, Nat.zero_lt_succ _, Nat.zero_lt_succ _, hb, Nat.zero_le _, rfl⟩ }

theorem keeps_enableStart (n : EpIdx) : Keeps .procedure (enableStart n) := by
  refine keeps_get.bind fun s => ?_
  split
  · exact .ite keeps_pure <| (keeps_issue 0 _).bind fun _ => .when (keeps_modifyCtx fun _ => {}) fun _ => keeps_pure
  · exact .ite keeps_pure <| (keeps_issue 0 _).bind fun _ => .when (keeps_modifyCtx fun _ => {}) fun _ => keeps_pure

theorem keeps_writeEpEnable (n : EpIdx) (on : Bool) : Keeps k (writeEpEnable n on) :=
  (keeps_readReg _).bind fun _ => keeps_writeReg _ _

theorem keeps_enableFirst (n : EpIdx) : Keeps .procedure (enableFirst n) :=
  (keeps_getEp n).bind fun _ => .ite keeps_pure <| (keeps_issue n _).bind fun _ =>
    .ite ((keeps_writeEpEnable n true).bind fun _ => (keeps_modifyEp fun _ => {}).bind fun _ =>
      .when (keeps_ringInit n) fun _ => keeps_pure) keeps_pure

theorem keeps_enableSteps (n : EpIdx) (type : EpType) (mps interval : Nat) :
    Keeps .procedure (enableSteps n type mps interval) :=
  (keeps_enableStart n).bind fun _ => .ite
    ((keeps_cmdSetEpConfig n _).bind fun _ => .ite (keeps_enableFirst n) keeps_pure) keeps_pure

theorem keeps_enable (num : Nat) (dir : Dir) (type : EpType) (mps interval : Nat) :
    Keeps .procedure (enable num dir type mps interval) := by
  refine keeps_get.bind fun s => ?_
  split
  · exact keeps_pure
  · exact .ite keeps_refuse <| .ite keeps_pure <| .ite keeps_refuse (keeps_enableSteps _ type mps interval)

theorem keeps_disable (num : Nat) (dir : Dir) : Keeps .procedure (disable num dir) := by
  refine keeps_get.bind fun s => ?_
  split
  · exact keeps_pure
  · exact (keeps_writeEpEnable _ false).bind fun _ => (keeps_modifyEp fun _ => {}).bind fun _ => keeps_pure

theorem keeps_stall (num : Nat) (dir : Dir) : Keeps .procedure (stall num dir) := by
  refine keeps_get.bind fun s => ?_
  split
  · exact keeps_pure
  · exact (keeps_issue _ _).bind fun _ => .when (keeps_modifyEp fun _ => {}) fun _ => keeps_pure

/-- CLEAR_STALL ends a wedge and begins none (spec/41_endpoint_lifecycle.md R202, R203). -/
theorem keeps_clearStall (num : Nat) (dir : Dir) : Keeps .procedure (clearStall num dir) := by
  refine keeps_get.bind fun s => ?_
  split
  · exact keeps_pure
  · exact (keeps_issue _ _).bind fun _ => .when (keeps_modifyEp fun _ => { wedge := fun _ => rfl }) fun _ => keeps_pure

/-- L sets ADDRESSED or CONFIGURED (spec/60_exceptions.md R393). -/
theorem keeps_setDevState (x : SettableState) : Keeps .procedure (setDevState x) :=
  (keeps_modifyCtx fun _ => { suspended := fun _ => by cases x <;> nofun }).bind fun _ => keeps_pure

end

/-! #### The submissions (spec/42_trb_ring.md R220 to R230) -/

/-- A TRB more in a ring that has room: the enqueue cursor stands one slot further (spec/42_trb_ring.md R220, R221). -/
theorem Ep.legal_enqueued {n : EpIdx} {e : Ep} (hr : e.out < ringDepth) (h : Ep.legal n e) :
    Ep.legal n { e with enq := (e.enq + 1) % ringDepth, out := e.out + 1 } := by
  obtain ⟨hn, hd, hq, hq', hb, ho, hc⟩ := h
  unfold ringDepth at *
  exact ⟨hn, hd, Nat.mod_lt _ (by decide), hq', hb, hr, by simp only [ringDepth]; omega⟩

/-- A TRB less in a ring that has one: the dequeue cursor stands one slot further (spec/42_trb_ring.md R220, R235). -/
theorem Ep.legal_dequeued {n : EpIdx} {e : Ep} (a : Nat) (hr : e.out ≠ 0) (h : Ep.legal n e) :
    Ep.legal n { e with actual := a, deq := (e.deq + 1) % ringDepth, out := e.out - 1 } := by
  obtain ⟨hn, hd, hq, hq', hb, ho, hc⟩ := h
  unfold ringDepth at *
  exact ⟨hn, hd, hq, Nat.mod_lt _ (by decide), hb, by simp only [ringDepth]; omega, by simp only [ringDepth]; omega⟩

section
variable {k : Scope} {s : State}

/-- Enqueue, from a state in which the ring has room. -/
theorem keepsAt_enqueue {n : EpIdx} (buf : LAddr) (size : Nat) (x : TrbKind) (hr : s.ep[n].out < ringDepth) :
    KeepsAt .procedure (enqueue n buf size x) s := by
  unfold enqueue
  refine (keepsAt_get ?_ : KeepsAt _ (get >>= _) s)
  refine .after_access (keeps_writeTrb _ _) fun _ t ht => .after_access (keeps_handOver n _) fun _ u hu =>
    .after_access (keeps_cacheFlush _ _) fun _ v hv => ?_
  have he : v.ep[n] = s.ep[n] := ((hv n).trans (hu n)).trans (ht n)
  refine .bind (keepsAt_modify (evolves_updEp ?_)) fun _ _ _ => keepsAt_pure _
  rw [he]
  exact { legal := Ep.legal_enqueued hr }

theorem keeps_submit (n : EpIdx) (g : GAddr) : Keeps .procedure (submit n g) := by
  refine (keeps_getEp n).bind fun e => .ite ((keeps_readRsc n).bind fun r => keeps_cmdUpdateTransfer n r) <|
    (keeps_cmdStartTransfer n g).bind fun r => ?_
  cases r with
  | _ => exact keeps_pure

theorem keeps_recordRequest (n : EpIdx) (buf : LAddr) (size : Nat) (rounded : Bool) :
    Keeps .procedure (recordRequest n buf size rounded) := keeps_modifyEp fun _ => {}

/-- Enqueue, the record of the request, and Submit, from a state in which the ring has room. -/
theorem keepsAt_submission {n : EpIdx} (buf : LAddr) (size : Nat) (x : TrbKind) (rounded : Bool) (hr : s.ep[n].out < ringDepth) :
    KeepsAt .procedure (do let g ← enqueue n buf size x; recordRequest n buf size rounded; submit n g) s :=
  (keepsAt_enqueue buf size x hr).bind fun g _ _ =>
    (keeps_recordRequest n buf size rounded).bind (fun _ => keeps_submit n g) _

/-- What runs after the check for room runs where there is room (spec/42_trb_ring.md R227). -/
theorem KeepsAt.requireRoom_bind {α : Type} {n : EpIdx} {f : Unit → M α}
    (h : s.ep[n].out < ringDepth → KeepsAt k (f ()) s) :
    KeepsAt k (requireRoom n >>= f) s := by
  refine .bind ?_ fun _ t ht => ?_
  · exact ((keeps_getEp n).bind fun _ => .ite keeps_refuse keeps_pure) s
  · unfold requireRoom at ht
    rw [M.bind_of_ok (getEp_apply n s)] at ht
    split at ht
    · cases ht
    · next hr =>
      cases ht
      exact h (by omega)

theorem keeps_send (num : Nat) (dir : Dir) (buf : LAddr) (len : Nat) : Keeps .procedure (send num dir buf len) := by
  refine keeps_get.bind fun s => ?_
  split
  · exact keeps_pure
  · refine .ite keeps_pure fun s => .requireRoom_bind fun hr => ?_
    split
    · exact .after_access (keeps_cacheFlush buf len) fun _ _ he => keepsAt_submission _ _ _ _ (he _ ▸ hr)
    · exact keepsAt_submission _ _ _ _ hr

theorem keeps_receiveSize (n : EpIdx) (len : Nat) : Keeps k (receiveSize n len) :=
  (keeps_getEp n).bind fun _ => keeps_written.bind fun _ => .ite (keeps_nextFree.bind fun _ => keeps_pure) keeps_pure

theorem keeps_recv (num : Nat) (dir : Dir) (buf : LAddr) (len : Nat) : Keeps .procedure (recv num dir buf len) := by
  refine keeps_get.bind fun s => ?_
  split
  · exact keeps_pure
  · exact (keeps_receiveSize _ len).bind fun size => .ite keeps_pure fun s => .requireRoom_bind fun hr =>
      .after_access (keeps_cacheFlush buf size) fun _ _ he => keepsAt_submission _ _ _ _ (he _ ▸ hr)

end

/-! #### The control pair (spec/44_ep0_control.md R320 to R328, R347) -/

section

theorem keeps_ep0Arm (d : EpIdx) (buf : LAddr) (size : Nat) (x : TrbKind) : Keeps .procedure (ep0Arm d buf size x) := by
  refine keeps_get.bind fun s => (keeps_writeTrb _ _).bind fun _ => (keeps_handOver d _).bind fun _ =>
    (keeps_cacheFlush _ _).bind fun _ => (keeps_cmdStartTransfer d _).bind fun r => ?_
  cases r with
  | okIdx i => exact (keeps_modifyEp fun _ => {}).bind fun _ => keeps_pure
  | _ => exact keeps_pure

theorem keeps_recordRounded (d : EpIdx) (v : Bool) (r : Result) : Keeps .procedure (recordRounded d v r) :=
  .ite (keeps_modifyEp fun _ => {}) keeps_pure

theorem keeps_abortEp (n : EpIdx) : Keeps .procedure (abortEp n) :=
  (keeps_getEp n).bind fun _ => .ite ((keeps_endOwnTransfer n).bind keeps_logIfError) keeps_pure

theorem keeps_abortEp0 : Keeps .procedure abortEp0 := (keeps_abortEp 0).bind fun _ => keeps_abortEp 1

theorem keeps_armSetup : Keeps .procedure armSetup :=
  keeps_abortEp0.bind fun _ => (keeps_modifyCtx fun _ => { connected := by simp }).bind fun _ =>
    keeps_get.bind fun _ => .ite ((keeps_logEntry _).bind fun _ => keeps_pure) <|
      (keeps_ep0Arm 0 _ _ _).bind fun r => (keeps_logIfError r).bind fun _ => keeps_pure

theorem keeps_ep0Send (buf : LAddr) (len : Nat) : Keeps .procedure (ep0Send buf len) :=
  keeps_get.bind fun _ => .ite keeps_pure <| .ite keeps_pure <| .when (keeps_cacheFlush buf len) fun _ =>
    (keeps_ep0Arm 1 buf len _).bind fun r => (keeps_recordRounded 1 false r).bind fun _ => keeps_pure

theorem keeps_ep0Recv (buf : LAddr) (len : Nat) : Keeps .procedure (ep0Recv buf len) :=
  keeps_get.bind fun _ => .ite keeps_pure <| (keeps_receiveSize 0 len).bind fun size => .ite keeps_pure <|
    (keeps_cacheFlush buf size).bind fun _ => (keeps_ep0Arm 0 buf size _).bind fun r =>
      (keeps_recordRounded 0 _ r).bind fun _ => keeps_pure

theorem keeps_ep0Status (d : EpIdx) : Keeps .procedure (ep0Status d) :=
  keeps_get.bind fun _ => .ite keeps_pure <| keeps_written.bind fun _ => (keeps_ep0Arm d _ 0 _).bind fun r =>
    (keeps_recordRounded d false r).bind fun _ => keeps_pure

theorem keeps_stallEp0 : Keeps .procedure stallEp0 :=
  (keeps_issue 0 _).bind fun r => .ite (keeps_modifyEp fun _ => {}) (keeps_logIfError r)

/-- No setup is pending on an endpoint any more. -/
theorem keeps_clearPending (n : EpIdx) : Keeps .procedure (modifyEp n fun e => { e with pending := false }) :=
  keeps_modifyEp fun _ => { pending := fun _ _ => rfl }

theorem keeps_stallAndRearm : Keeps .procedure stallAndRearm :=
  keeps_stallEp0.bind fun _ => (keeps_clearPending 0).bind fun _ => keeps_armSetup.bind fun _ => keeps_pure

theorem keeps_rejectAddress (e : Err) : Keeps .procedure (rejectAddress e) :=
  (keeps_logEntry _).bind fun _ => keeps_stallAndRearm.bind fun _ => keeps_pure

/-- The Set-Address step makes the device ADDRESSED or DEFAULT (spec/44_ep0_control.md R347). -/
theorem keeps_setAddressStep : Keeps .procedure setAddressStep :=
  keeps_get.bind fun _ => keeps_written.bind fun _ => .ite (keeps_rejectAddress _) <| .ite (keeps_rejectAddress _) <|
    (keeps_writeField _ _ _).bind fun _ =>
      (keeps_modifyCtx fun _ => { suspended := fun _ => by simp only; split <;> nofun }).bind fun _ => keeps_pure

end

/-! #### The event handlers (spec/43_event_buffer.md R270 to R290, spec/42_trb_ring.md R235, spec/44_ep0_control.md R330) -/

section
variable {k : Scope} {s : State}

theorem keeps_runLCall : (c : LCall) → Keeps .procedure (runLCall c)
  | .send num dir buf len => keeps_send num dir buf len
  | .recv num dir buf len => keeps_recv num dir buf len
  | .ep0Send buf len => keeps_ep0Send buf len
  | .ep0Recv buf len => keeps_ep0Recv buf len
  | .stall num dir => keeps_stall num dir
  | .clearStall num dir => keeps_clearStall num dir

theorem keeps_runLCalls : (l : List LCall) → Keeps .procedure (runLCalls l)
  | [] => keeps_pure
  | c :: cs => keeps_requireInit.bind fun _ => (keeps_runLCall c).bind fun _ =>
      (keeps_modify fun _ => evolves_observe _).bind fun _ => keeps_runLCalls cs

theorem keeps_callL (c : Callback) : Keeps .procedure (callL c) :=
  (keeps_modify fun _ => evolves_observe _).bind fun _ => keeps_drawCalls.bind keeps_runLCalls

theorem keeps_transferred (n : EpIdx) (a : LAddr) : Keeps k (transferred n a) :=
  keeps_get.bind fun _ => (keeps_cacheInvalidate a _).bind fun _ => (keeps_memRead _).bind fun _ =>
    (keeps_getEp n).bind fun _ => .ite keeps_raise keeps_pure

theorem keeps_invalidateReceived (n : EpIdx) (d : Dir) : Keeps k (invalidateReceived n d) := by
  cases d with
  | inp => exact keeps_pure
  | out => exact (keeps_getEp n).bind fun _ => keeps_written.bind fun buf => keeps_cacheInvalidate buf _

/-- A completion takes a TRB off a ring that has one (spec/42_trb_ring.md R235). -/
theorem keeps_complete (n : EpIdx) : Keeps .procedure (complete n) := by
  refine .of_get fun s => ?_
  dsimp only
  split
  · exact keeps_logEntry _ s
  · next hr =>
    refine .after_access (keeps_transferred n _) fun a t ht => ?_
    refine .bind (keepsAt_modify (evolves_updEp ?_)) fun _ u _ =>
      ((keeps_invalidateReceived n _).bind fun _ => keeps_callL _) u
    rw [ht]
    exact { legal := fun h => Ep.legal_idle (Ep.legal_dequeued a (not_or.1 hr).2 h) }

/-- After a SETUP packet the EP0 state is STATUS or DATA (spec/44_ep0_control.md R340). -/
theorem CtxEvolves.afterSetup (c : Ctx) (p : Setup) : CtxEvolves .procedure c (c.afterSetup p) := by
  unfold Ctx.afterSetup
  split
  · exact { connected := by simp }
  · exact { connected := by simp }

theorem keeps_setupCompletion : Keeps .procedure setupCompletion :=
  (keeps_modifyEp fun e => { legal := Ep.legal_idle (e := { e with stalled := false }) }).bind fun _ => keeps_get.bind fun _ =>
    (keeps_cacheInvalidate _ _).bind fun _ => (keeps_readSetup _).bind fun p =>
      (keeps_modifyCtx fun c => .afterSetup c p).bind fun _ =>
        (keeps_modifyEp fun _ => { pending := fun h => absurd rfl h }).bind fun _ => keeps_callL _

theorem keeps_directionMismatch (d : Dir) : Keeps .procedure (directionMismatch d) :=
  (keeps_abortEp _).bind fun _ => keeps_stallAndRearm

theorem keeps_dataCompletion (n : EpIdx) : Keeps .procedure (dataCompletion n) :=
  keeps_get.bind fun _ => (keeps_transferred n _).bind fun a =>
    (keeps_modifyEp fun e => { legal := Ep.legal_idle (e := { e with actual := a }) }).bind fun _ =>
      (keeps_invalidateReceived n _).bind fun _ => (keeps_modifyCtx fun _ => { connected := by simp }).bind fun _ => keeps_callL _

theorem keeps_statusTrigger (n : EpIdx) : Keeps .procedure (statusTrigger n) := by
  have answer (r : Result) : Keeps .procedure (if r = .ok then do let q ← ep0Status n; logIfError q else pure ()) :=
    .ite ((keeps_ep0Status n).bind keeps_logIfError) keeps_pure
  exact keeps_get.bind fun _ => .ite (keeps_logEntry _) <| keeps_written.bind fun _ =>
    .ite (keeps_setAddressStep.bind answer) (keeps_pure.bind answer)

theorem keeps_statusCompletion (n : EpIdx) : Keeps .procedure (statusCompletion n) :=
  (keeps_modifyEp fun e => { legal := Ep.legal_idle (e := { e with actual := 0 }) }).bind fun _ =>
    (keeps_clearPending 0).bind fun _ => keeps_armSetup.bind fun _ => keeps_pure

theorem keeps_ep0XferComplete (n : EpIdx) : Keeps .procedure (ep0XferComplete n) := by
  refine keeps_get.bind fun s => ?_
  split
  · exact keeps_logEntry _
  · exact .ite keeps_setupCompletion (keeps_logEntry _)
  · exact .ite (keeps_dataCompletion n) (keeps_logEntry _)
  · exact .ite (keeps_statusCompletion n) (keeps_logEntry _)

theorem keeps_ep0XferNotReady (n : EpIdx) (st : BitVec 4) : Keeps .procedure (ep0XferNotReady n st) := by
  refine keeps_get.bind fun s => ?_
  split
  · exact keeps_logEntry _
  · exact keeps_logEntry _
  · exact .ite (keeps_written.bind fun d => .ite keeps_pure (keeps_directionMismatch d)) (keeps_logEntry _)
  · exact .ite (keeps_statusTrigger n) (keeps_logEntry _)

theorem keeps_requireEventEp (n : EpIdx) : Keeps k (requireEventEp n) := keeps_get.bind fun _ => .ite keeps_pure keeps_raise

theorem keeps_onXferComplete (n : EpIdx) : Keeps .procedure (onXferComplete n) :=
  (keeps_requireEventEp n).bind fun _ => .ite (keeps_ep0XferComplete n) (keeps_complete n)

theorem keeps_onXferNotReady (n : EpIdx) (st : BitVec 4) : Keeps .procedure (onXferNotReady n st) :=
  (keeps_requireEventEp n).bind fun _ => keeps_get.bind fun _ => .ite (keeps_ep0XferNotReady n st) (keeps_logEntry _)

theorem keeps_onIgnoredEpEvent (n : EpIdx) (code : BitVec 4) : Keeps .procedure (onIgnoredEpEvent n code) :=
  (keeps_requireEventEp n).bind fun _ => keeps_logEntry _

theorem keeps_onXferInProgress (n : EpIdx) : Keeps .procedure (onXferInProgress n) :=
  keeps_get.bind fun _ => keeps_onIgnoredEpEvent n _

theorem keeps_onEpCmdComplete (n : EpIdx) : Keeps .procedure (onEpCmdComplete n) :=
  keeps_get.bind fun _ => keeps_onIgnoredEpEvent n _

theorem keeps_onDisconnect : Keeps .procedure onDisconnect :=
  keeps_abortEp0.bind fun _ => (keeps_modifyCtx fun _ => { connected := by simp }).bind fun _ =>
    (keeps_clearPending 0).bind fun _ => (keeps_modifyCtx fun _ => { suspended := by simp }).bind fun _ =>
      keeps_callL _

theorem keeps_unstallEp (n : EpIdx) : Keeps .procedure (unstallEp n) :=
  (keeps_getEp n).bind fun _ => .ite ((keeps_issue n _).bind keeps_logIfError) keeps_pure

theorem keeps_resetEp (n : EpIdx) : Keeps .procedure (resetEp n) :=
  (keeps_modifyEp fun _ => { wedge := fun _ => rfl, pending := fun _ _ => rfl }).bind fun _ =>
    (keeps_getEp n).bind fun _ => .ite (keeps_ringInit n) keeps_pure

theorem keeps_onReset : Keeps .procedure onReset :=
  keeps_get.bind fun _ => (keeps_forEps keeps_abortEp _).bind fun _ => (keeps_forEps keeps_unstallEp _).bind fun _ =>
    (keeps_forEps keeps_resetEp _).bind fun _ => (keeps_writeField _ _ _).bind fun _ =>
      (keeps_modifyCtx fun _ => { connected := by simp, suspended := by simp }).bind fun _ => keeps_callL _

theorem keeps_onConnectDone : Keeps .procedure onConnectDone :=
  (keeps_readReg _).bind fun _ => keeps_get.bind fun _ => (keeps_modifyCtx fun _ => {}).bind fun _ =>
    (keeps_writeField _ _ _).bind fun _ => (keeps_modifyCtx fun _ => {}).bind fun _ => (keeps_callL _).bind fun _ =>
      keeps_armSetup.bind fun _ => keeps_pure

theorem keeps_onLinkStateChange (i : BitVec 9) : Keeps .procedure (onLinkStateChange i) := keeps_modifyCtx fun _ => {}

theorem keeps_dispatchEvent : (e : Event) → Keeps .procedure (dispatchEvent e)
  | .xferComplete n _ _ => keeps_onXferComplete n
  | .xferInProgress n _ _ => keeps_onXferInProgress n
  | .xferNotReady n st _ => keeps_onXferNotReady n st
  | .epCmdComplete n _ _ => keeps_onEpCmdComplete n
  | .disconnect _ => keeps_onDisconnect
  | .reset _ => keeps_onReset
  | .connectDone _ => keeps_onConnectDone
  | .linkStateChange i => keeps_onLinkStateChange i
  | .wakeup _ => keeps_logEntry _
  | .hibernationReq _ => keeps_logEntry _

theorem keeps_dispatchReserved (w : Word) (e : DecodeError) : Keeps .procedure (dispatchReserved w e) := by
  cases e with
  | reservedEpEvent n code => exact keeps_onIgnoredEpEvent n code
  | _ => exact keeps_logEntry _

theorem keeps_dispatchWord (w : Word) : Keeps .procedure (dispatchWord w) := by
  refine keeps_get.bind fun s => ?_
  split
  · exact keeps_dispatchEvent _
  · exact keeps_dispatchReserved w _

theorem keeps_readEventWord : Keeps k readEventWord := keeps_get.bind fun _ => keeps_memRead _

/-- The read cursor moves on by one word (spec/43_event_buffer.md R272). -/
theorem keeps_finishEventWord : Keeps .procedure finishEventWord :=
  (keeps_modifyCtx fun _ => { lpos := offsetLegal_next }).bind fun _ => keeps_writeReg _ _

theorem keeps_drain : (fuel : Nat) → Keeps .procedure (drain fuel)
  | 0 => keeps_pure
  | fuel + 1 => keeps_get.bind fun _ => .ite keeps_pure <| keeps_readEventWord.bind fun w =>
      (keeps_dispatchWord w).bind fun _ => keeps_finishEventWord.bind fun _ => keeps_drain fuel

theorem keeps_setIntMask (masked : Bool) : Keeps k (setIntMask masked) :=
  (keeps_readReg _).bind fun _ => keeps_get.bind fun _ => keeps_writeReg _ _

theorem keeps_irqHandler : Keeps .procedure irqHandler :=
  (keeps_readReg _).bind fun _ => keeps_get.bind fun _ => .ite (keeps_logEntry _) <| .ite keeps_raise <|
    (keeps_modifyCtx fun _ => {}).bind fun _ => (keeps_setIntMask true).bind fun _ => keeps_get.bind fun _ =>
      (keeps_cacheInvalidate _ _).bind fun _ => (keeps_drain _).bind fun _ => keeps_setIntMask false

end

/-! #### The bring-up (spec/70_reset_and_hazards.md R411, R412) -/

section
variable {k : Scope} {s t : State}

theorem keeps_pollReset : (budget : Nat) → Keeps k (pollReset budget)
  | 0 => keeps_pure
  | b + 1 => (keeps_readReg _).bind fun _ => keeps_get.bind fun _ => .ite (keeps_pollReset b) keeps_pure

theorem keeps_writeAll : (l : List (Reg × Word)) → Keeps k (writeAll l)
  | [] => keeps_pure
  | (r, v) :: ps => (keeps_writeReg r v).bind fun _ => keeps_writeAll ps

theorem keeps_registerEventBuffer : Keeps .procedure registerEventBuffer :=
  keeps_get.bind fun _ => (keeps_writeReg _ _).bind fun _ => (keeps_writeReg _ _).bind fun _ =>
    (keeps_writeField _ _ _).bind fun _ => (keeps_setIntMask false).bind fun _ => (keeps_readReg _).bind fun _ =>
      (keeps_writeReg _ _).bind fun _ => keeps_modifyCtx fun _ => { lpos := fun _ => ⟨Nat.zero_lt_succ _, rfl⟩ }

theorem keeps_enableEp0Pair : Keeps .procedure enableEp0Pair :=
  keeps_get.bind fun _ => (keeps_enable 0 _ _ _ _).bind fun _ => .ite (keeps_enable 0 _ _ _ _) keeps_pure

/-- The one procedure that makes the EP0 state UNCONNECTED. -/
theorem keeps_startDevice : Keeps .bringUp startDevice :=
  keeps_get.bind fun _ => (keeps_writeReg _ _).bind fun _ => (keeps_writeField _ _ _).bind fun _ =>
    keeps_modifyCtx fun _ => { connected := fun h => absurd rfl h }

theorem keeps_disarmTrb0 : Keeps k disarmTrb0 :=
  keeps_nextFree.bind fun _ => keeps_modify fun _ => evolves_setMem (Memory.wf_disarm _ _ _)

theorem keeps_configureCore : Keeps .bringUp configureCore :=
  keeps_get.bind fun _ => (keeps_writeAll _).bind fun _ => (keeps_readReg _).bind fun _ =>
    (keeps_modifyCtx fun _ => {}).bind fun _ => (keeps_writeField _ _ _).bind fun _ =>
      keeps_registerEventBuffer.bringUp.bind fun _ => keeps_enableEp0Pair.bringUp.bind fun _ =>
        .ite (keeps_startDevice.bind fun _ => keeps_disarmTrb0.bind fun _ => keeps_pure) keeps_pure

theorem keeps_initCore : Keeps .bringUp initCore :=
  (keeps_readReg _).bind fun _ => keeps_get.bind fun _ => .ite keeps_pure <| (keeps_readReg _).bind fun _ =>
    .ite keeps_pure <| (keeps_writeField _ _ _).bind fun _ => (keeps_pollReset _).bind fun _ =>
      .ite keeps_configureCore keeps_pure

theorem keeps_initOnce : Keeps .bringUp initOnce :=
  keeps_get.bind fun _ => .ite keeps_refuse <| .ite keeps_refuse <|
    (keeps_modifyCtx fun _ => { run := by simp }).bind fun _ => keeps_initCore.bind fun _ =>
      .when (keeps_modifyCtx fun _ => { run := by simp }) fun _ => keeps_pure

/-- INIT answers only where it has not run (spec/70_reset_and_hazards.md R411). -/
theorem initOnce_notRun {r : Result} (h : initOnce s = .ok (r, t)) : s.ctx.init = .notRun := by
  unfold initOnce at h
  rw [M.bind_of_ok (M.get_apply s)] at h
  split at h
  · cases h
  · next hn => exact not_not.1 hn

/-! #### Instructions and steps -/

/-- How a state may follow another over a step: as the bring-up may leave it, and, once INIT has run, as a procedure may. -/
def Follows (s t : State) : Prop := Evolves .bringUp s t ∧ (s.ctx.init ≠ .notRun → Evolves .procedure s t)

theorem Evolves.follows (h : Evolves .procedure s t) : Follows s t := ⟨h.bringUp, fun _ => h⟩

theorem Follows.trans {u : State} (h : Follows s t) (g : Follows t u) : Follows s u :=
  ⟨h.1.trans g.1, fun hs => (h.2 hs).trans (g.2 (h.1.ctx.run hs))⟩

/-- A whole step that runs an operation of S or of the other agents. -/
theorem Keeps.follows {α : Type} {m : M α} (hm : Keeps .procedure m) (h : outcome m s = .next t) : Follows s t := by
  obtain ⟨a, h⟩ := outcome_eq_next.1 h
  exact (hm s a t h).follows

theorem execInit_follows (h : execInit s = .next t) : Follows s t := by
  obtain ⟨a, h⟩ := outcome_eq_next.1 h
  have hn : s.ctx.init = .notRun := by
    obtain ⟨r, u, hi, -⟩ := M.bind_eq_ok.1 h
    exact initOnce_notRun hi
  exact ⟨keeps_returning keeps_initOnce s a t h, fun hs => absurd hn hs⟩

/-- An operation that is admitted only after INIT, its result recorded. -/
theorem keeps_admitted {m : M Result} (h : Keeps .procedure m) : Keeps .procedure (do requireInit; returning m) :=
  keeps_requireInit.bind fun _ => keeps_returning h

theorem exec_follows (i : Instr) (h : exec i s = .next t) : Follows s t :=
  match i with
  | .startConfig _ => (keeps_returning (keeps_issue 0 _)).follows h
  | .setEpConfig n cfg => (keeps_returning (keeps_cmdSetEpConfig n cfg)).follows h
  | .setXferResource n _ => (keeps_returning (keeps_issue n _)).follows h
  | .getEpState n => (keeps_returning (keeps_cmdGetEpState n)).follows h
  | .setStall n => (keeps_returning (keeps_issue n _)).follows h
  | .clearStallCmd n => (keeps_returning (keeps_issue n _)).follows h
  | .startTransfer n g => (keeps_returning (keeps_cmdStartTransfer n g)).follows h
  | .updateTransfer n r => (keeps_returning (keeps_cmdUpdateTransfer n r)).follows h
  | .endTransfer n r => (keeps_returning (keeps_cmdEndTransfer n r)).follows h
  | .trbNormal n f => (keeps_hRunTrb n _ f).follows h
  | .trbControlSetup n f => (keeps_hRunTrb n _ f).follows h
  | .trbControlStatus2 n f => (keeps_hRunTrb n _ f).follows h
  | .trbControlStatus3 n f => (keeps_hRunTrb n _ f).follows h
  | .trbControlData n f => (keeps_hRunTrb n _ f).follows h
  | .trbZlp n f => (keeps_hRunTrb n _ f).follows h
  | .trbIsochronousFirst n f => (keeps_hRunTrb n _ f).follows h
  | .trbIsochronous n f => (keeps_hRunTrb n _ f).follows h
  | .trbLink n f => (keeps_hRunTrb n _ f).follows h
  | .evtXferComplete n _ _ => (keeps_onXferComplete n).follows h
  | .evtXferInProgress n _ _ => (keeps_onXferInProgress n).follows h
  | .evtXferNotReady n st _ => (keeps_onXferNotReady n st).follows h
  | .evtEpCmdComplete n _ _ => (keeps_onEpCmdComplete n).follows h
  | .evtDisconnect _ => keeps_onDisconnect.follows h
  | .evtReset _ => keeps_onReset.follows h
  | .evtConnectDone _ => keeps_onConnectDone.follows h
  | .evtLinkStateChange i => (keeps_onLinkStateChange i).follows h
  | .evtWakeup _ => (keeps_logEntry _).follows h
  | .evtHibernationReq _ => (keeps_logEntry _).follows h
  | .setupSetAddress _ _ _ => ((keeps_modifyCtx fun _ => {}).bind fun _ => keeps_returning keeps_setAddressStep).follows h
  | .init => execInit_follows h
  | .enable num dir type mps interval => (keeps_admitted (keeps_enable num dir type mps interval)).follows h
  | .disable num dir => (keeps_admitted (keeps_disable num dir)).follows h
  | .stall num dir => (keeps_admitted (keeps_stall num dir)).follows h
  | .clearStall num dir => (keeps_admitted (keeps_clearStall num dir)).follows h
  | .send num dir buf len => (keeps_admitted (keeps_send num dir buf len)).follows h
  | .recv num dir buf len => (keeps_admitted (keeps_recv num dir buf len)).follows h
  | .ep0Send buf len => (keeps_admitted (keeps_ep0Send buf len)).follows h
  | .ep0Recv buf len => (keeps_admitted (keeps_ep0Recv buf len)).follows h
  | .ep0Status d => (keeps_admitted (keeps_ep0Status (ep0Of d))).follows h
  | .armSetup => (keeps_admitted keeps_armSetup).follows h
  | .abortEp0 => (keeps_admitted (keeps_abortEp0.bind fun _ => keeps_pure)).follows h
  | .complete n => (keeps_admitted ((keeps_complete n).bind fun _ => keeps_pure)).follows h
  | .irq => (keeps_admitted (keeps_irqHandler.bind fun _ => keeps_pure)).follows h
  | .setDevState x => (keeps_admitted (keeps_setDevState x)).follows h
  | .cmd n t grp p0 p1 r => (keeps_admitted (keeps_cmdOp n t grp p0 p1 r)).follows h

theorem keeps_fetchCommand (n : EpIdx) (w p0 p1 : Word) : Keeps k (fetchCommand n w p0 p1) := by
  refine keeps_get.bind fun s => ?_
  split
  · exact keeps_pure
  · exact keeps_refuse

theorem keeps_fetchDescriptor (n : EpIdx) : Keeps k (fetchDescriptor n) := by
  refine keeps_get.bind fun s => ?_
  split
  · exact keeps_pure
  · refine (keeps_fetchTrb n).bind fun t => ?_
    cases t with
    | none => exact (keeps_hSettle n).bind fun _ => keeps_pure
    | some t =>
      simp only
      split
      · exact keeps_pure
      · exact .ite keeps_refuse ((keeps_hWait n).bind fun _ => keeps_pure)

theorem keeps_fetchEvent : Keeps .procedure fetchEvent := by
  refine keeps_get.bind fun s => .ite keeps_pure <| keeps_readEventWord.bind fun w => keeps_get.bind fun t => ?_
  split
  · exact keeps_pure
  · exact (keeps_dispatchReserved w _).bind fun _ => keeps_finishEventWord.bind fun _ => keeps_pure

theorem keeps_fetchSetup : Keeps k fetchSetup := by
  refine keeps_get.bind fun s => keeps_written.bind fun p => ?_
  split
  · exact keeps_pure
  · exact keeps_pure

theorem keeps_fetchTurn : (x : Turn) → Keeps .procedure (fetchTurn x)
  | .call _ => keeps_pure
  | .command n w p0 p1 => keeps_fetchCommand n w p0 p1
  | .trb n => keeps_fetchDescriptor n
  | .event => keeps_fetchEvent
  | .setup => keeps_fetchSetup
  | .others => keeps_othersTurn.bind fun _ => keeps_pure

theorem keeps_idleTurn : Keeps k idleTurn := keeps_get.bind fun _ => .ite keeps_pure (keeps_othersTurn.bind fun _ => keeps_pure)

theorem keeps_nextTurn : Keeps .procedure nextTurn := by
  refine .of_get fun s => ?_
  split
  · exact keeps_idleTurn s
  · exact .bind (keepsAt_set {}) fun _ u _ => keeps_fetchTurn _ u

theorem runFetched_follows {f : Fetched} (h : runFetched f s = .next t) : Follows s t := by
  cases f with
  | run i => exact exec_follows i h
  | event i =>
    simp only [runFetched] at h
    split at h
    · next u hu => exact (exec_follows i hu).trans (keeps_finishEventWord.follows h)
    · cases h
    · cases h
  | done =>
    cases h
    exact Evolves.refl.follows

/-- Every step leaves a state that may follow the one before it. -/
theorem step_follows (h : step s = .next t) : Follows s t := by
  unfold step at h
  split at h
  · next f u hu => exact (keeps_nextTurn s f u hu).follows.trans (runFetched_follows h)
  · cases h
  · cases h

end

end Sys2Proof.Machine

namespace Sys2Proof

open Machine

/-- Settles O7: each operation keeps each part of a legal state. -/
theorem stepKeepsLegal : Obligations.StepKeepsLegal := fun _ _ hs h => (step_follows h).1.legal hs

/-- Settles O9: each operation leaves the launch, the callbacks and the identity words, and extends the log and the trace. -/
theorem stepKeepsLaunch : Obligations.StepKeepsLaunch := by
  intro s t h
  have e := (step_follows h).1
  obtain ⟨hid, hp0, hp3⟩ : _ ∧ _ ∧ _ := by simpa [Regs.identity] using e.identity
  obtain ⟨l, hl⟩ := e.ctx.log
  obtain ⟨o, ho⟩ := e.trace
  exact ⟨e.params, e.ctx.regBase, e.ctx.cb, e.ctx.base, e.ctx.size, hid, hp0, hp3, ⟨l, hl.symm⟩, ⟨o, ho.symm⟩⟩

/-- Settles O10: INIT alone makes the EP0 state UNCONNECTED, and it runs once; no operation makes the device SUSPENDED, wedges
an endpoint, or makes a setup pending on another endpoint than 0. -/
theorem statesNeverReached : Obligations.StatesNeverReached := by
  intro s t h
  obtain ⟨e, he⟩ := step_follows h
  exact ⟨e.ctx.run, fun hi => (he hi).ctx.connected nofun, e.ctx.suspended, fun n => (e.ep n).wedge,
    fun n => (e.ep n).pending⟩

end Sys2Proof

/-! ### The state at reset (spec/10_state.md R22, R25, R33, spec/70_reset_and_hazards.md R410) -/

namespace Sys2Proof.Machine

@[simp] theorem reset_ep (n : EpIdx) : State.reset.ep[n] = Ep.attach n := by
  simp [State.reset]

theorem Ep.legal_attach (n : EpIdx) : Ep.legal n (Ep.attach n) :=
  ⟨rfl, rfl, Nat.zero_lt_succ _, Nat.zero_lt_succ _, rfl, Nat.zero_le _, rfl⟩

theorem reset_legal : State.reset.legal :=
  ⟨reset_memory_wf, ⟨.nil, nofun⟩, Nat.zero_lt_succ _, rfl, Nat.zero_lt_succ _, rfl,
    fun n => reset_ep n ▸ Ep.legal_attach n⟩

end Sys2Proof.Machine

namespace Sys2Proof

open Machine

/-- Settles O8: memory and S's view are empty, the cursors stand at 0, and every record is the one at attach. -/
theorem resetIsLegal : Obligations.ResetIsLegal := reset_legal

/-- Settles O60: the fields of the context by their definition, the records by `reset_ep`. -/
theorem attachValues : Obligations.AttachValues :=
  ⟨rfl, rfl, rfl, rfl, rfl, rfl, rfl, rfl, rfl, rfl, rfl, rfl, rfl, rfl, rfl, rfl, reset_ep⟩

end Sys2Proof

/-! ### A write of S to a TRB that H owns (spec/10_state.md R30) -/

namespace Sys2Proof.Machine

/-! #### Ownership, and the operations that fault -/

/-- Who owns a TRB rests on the launch, memory and the TRBs handed over alone. -/
theorem State.ownsTrb_congr {s t : State} (g : GAddr) (hp : t.params = s.params) (hm : t.mem = s.mem)
    (hh : t.handed = s.handed) : t.ownsTrb g = s.ownsTrb g := by
  unfold State.ownsTrb State.hwoInMemory
  rw [hp, hm, hh]

/-- Where these stay, a ring that holds a TRB of H's holds it still. -/
theorem State.not_ringFree_congr {s t : State} {n : EpIdx} (hf : ¬ s.ringFree n) (hp : t.params = s.params)
    (hm : t.mem = s.mem) (hh : t.handed = s.handed) : ¬ t.ringFree n := by
  simpa only [State.ringFree, hp, State.ownsTrb_congr _ hp hm hh] using hf

section
variable {s t : State} {n : EpIdx}

/-- An operation that faults is a step that faults. -/
theorem outcome_of_fault {α : Type} {m : M α} {r : Fault} (h : m s = .error (.fault r)) : outcome m s = .fault r := by
  unfold outcome
  rw [h]

/-- An operation that is admitted, and faults. -/
theorem outcome_admitted_fault {m : M Result} {r : Fault} (hi : s.initialised) (h : m s = .error (.fault r)) :
    outcome (do requireInit; returning m) s = .fault r := by
  refine outcome_of_fault ?_
  rw [M.bind_of_ok (requireInit_done hi)]
  exact M.bind_of_error h

/-- The first word of a TRB that H owns is not written. -/
theorem writeTrb_owned {a : LAddr} {w : TrbWords} (h : s.quiet) (ho : s.ownsTrb (s.params.global a) = true) :
    writeTrb a w s = .error (.fault .trbOwnedWrite) := by
  unfold writeTrb
  rw [M.bind_of_ok (M.get_apply s)]
  refine M.bind_of_error ?_
  unfold memWriteTrb
  rw [M.bind_of_ok (othersTurn_quiet h), M.bind_of_ok (M.get_apply s)]
  exact M.bind_of_error (requireOwned_owned ho)

theorem enqueue_owned {buf : LAddr} {size : Nat} {k : TrbKind} (h : s.quiet)
    (ho : s.ownsTrb (s.params.global (s.nextSlot n)) = true) : enqueue n buf size k s = .error (.fault .trbOwnedWrite) := by
  unfold enqueue
  rw [M.bind_of_ok (M.get_apply s)]
  exact M.bind_of_error (writeTrb_owned h ho)

theorem ep0Arm_owned {buf : LAddr} {size : Nat} {k : TrbKind} (h : s.quiet)
    (ho : s.ownsTrb (s.params.global s.params.ep0TrbAddr) = true) :
    ep0Arm n buf size k s = .error (.fault .trbOwnedWrite) := by
  unfold ep0Arm
  rw [M.bind_of_ok (M.get_apply s)]
  exact M.bind_of_error (writeTrb_owned h ho)

/-! #### Submissions (spec/42_trb_ring.md R223 to R229) -/

/-- The endpoint of a logical number and a direction (spec/00_scope.md R13). -/
theorem logicalEp_eq_some {p : Params} {num : Nat} {dir : Dir} (hv : n.val = num * 2 + dirBit dir) (hm : num ≤ maxLogical)
    (hn : n.val < p.numEps) : logicalEp p num dir = some n := by
  unfold logicalEp epOf
  rw [if_neg (Nat.not_lt.2 hm), ← hv, dif_pos n.isLt, if_pos hn]

/-- A submission to an enabled endpoint of its own direction passes the checks. -/
theorem submitEp_eq_ok {num : Nat} {dir : Dir} (hv : n.val = num * 2 + dirBit dir) (hm : num ≤ maxLogical)
    (hn : n.val < s.params.numEps) (h2 : 2 ≤ n.val) (he : s.ep[n].enabled = true) : s.submitEp num dir dir = .ok n := by
  unfold State.submitEp
  rw [logicalEp_eq_some hv hm hn]
  simp only
  rw [if_neg (by omega), if_neg (by rw [he]; decide), if_neg (by simp)]

theorem requireRoom_room (h : s.ep[n].out < ringDepth) : requireRoom n s = .ok (⟨⟩, s) := by
  unfold requireRoom
  rw [M.bind_of_ok (getEp_apply n s), if_neg (Nat.not_le.2 h)]
  rfl

/-- The flush of a buffer that is sent, if it has bytes, and what follows it. -/
theorem flushSent_bind {α : Type} (buf : LAddr) (len : Nat) (f : Unit → M α) (h : s.quiet) :
    (if 0 < len then cacheFlush buf len >>= f else f ()) s = f () (s.sendReady buf len) := by
  unfold State.sendReady
  by_cases hl : len = 0
  · rw [if_neg (by omega), if_pos hl]
  · rw [if_pos (Nat.pos_of_ne_zero hl), if_neg hl, M.bind_of_ok (cacheFlush_quiet buf len h)]

theorem sendReady_quiet (buf : LAddr) (len : Nat) (h : s.quiet) : (s.sendReady buf len).quiet := by
  unfold State.sendReady
  split
  · exact h
  · exact h

@[simp] theorem sendReady_params (buf : LAddr) (len : Nat) : (s.sendReady buf len).params = s.params := by
  unfold State.sendReady
  split <;> rfl

@[simp] theorem sendReady_nextSlot (buf : LAddr) (len : Nat) : (s.sendReady buf len).nextSlot n = s.nextSlot n := by
  unfold State.sendReady
  split <;> rfl

theorem send_owned {num len : Nat} {buf : LAddr} (h : s.quiet) (hs : s.submitEp num .inp .inp = .ok n)
    (hr : s.ep[n].out < ringDepth) (hl : len ≤ trbSizeMax)
    (ho : (s.sendReady buf len).ownsTrb (s.params.global (s.nextSlot n)) = true) :
    send num .inp buf len s = .error (.fault .trbOwnedWrite) := by
  unfold send
  rw [M.bind_of_ok (M.get_apply s), hs]
  simp only
  rw [if_neg (Nat.not_lt.2 hl), M.bind_of_ok (requireRoom_room hr), flushSent_bind buf len _ h]
  exact M.bind_of_error (enqueue_owned (sendReady_quiet buf len h) (by simpa using ho))

/-- `roundup(L, m)` is the one multiple of `m` from `L` on that lies less than `m` above it (spec/00_scope.md R9). -/
theorem roundup_eq {len m size : Nat} (h : receives len m size) : roundup (max len 1) m = size := by
  obtain ⟨hl, hm, hu⟩ := h
  obtain ⟨q, rfl⟩ := Nat.dvd_of_mod_eq_zero hm
  have hq : (max len 1 + m - 1) / m = q := by
    refine Nat.div_eq_of_lt_le ?_ ?_
    · rw [Nat.mul_comm]; omega
    · rw [Nat.add_mul, Nat.mul_comm q m]; omega
  unfold roundup
  rw [hq, Nat.mul_comm]

/-- A receive's size, and the free value it takes where the recorded packet size is 0 (spec/42_trb_ring.md R229). -/
theorem receiveSize_is {len size : Nat} {mps : BitVec 11} (hm : s.ep[n].mps = some mps) (hs : s.receiveSizeIs len mps size) :
    receiveSize n len s = .ok (size, s.sizedFor mps) := by
  unfold receiveSize State.sizedFor
  rw [M.bind_of_ok (getEp_apply n s), hm, M.bind_of_ok (written_some mps s)]
  by_cases h0 : mps = 0
  · rw [if_pos h0, if_pos h0, hs.2 h0]
    rfl
  · rw [if_neg h0, if_neg h0, roundup_eq (hs.1 h0)]
    rfl

/-- A size taken changes the numbering of the free values alone. -/
theorem State.sizedFor_frame (s : State) (mps : BitVec 11) (h : s.quiet) :
    (s.sizedFor mps).quiet ∧ (s.sizedFor mps).ep = s.ep ∧
    ∀ buf size g, ((s.sizedFor mps).flush buf size).ownsTrb g = (s.flush buf size).ownsTrb g := by
  unfold State.sizedFor
  split
  · exact ⟨h, rfl, fun _ _ _ => rfl⟩
  · exact ⟨h, rfl, fun _ _ _ => rfl⟩

@[simp] theorem State.sizedFor_params (s : State) (mps : BitVec 11) : (s.sizedFor mps).params = s.params := by
  unfold State.sizedFor
  split <;> rfl

theorem recv_owned {num len size : Nat} {buf : LAddr} {mps : BitVec 11} (h : s.quiet) (hs : s.submitEp num .out .out = .ok n)
    (hr : s.ep[n].out < ringDepth) (hm : s.ep[n].mps = some mps) (hz : s.receiveSizeIs len mps size) (hl : size ≤ trbSizeMax)
    (ho : (s.flush buf size).ownsTrb (s.params.global (s.nextSlot n)) = true) :
    recv num .out buf len s = .error (.fault .trbOwnedWrite) := by
  unfold recv
  rw [M.bind_of_ok (M.get_apply s), hs]
  simp only
  rw [M.bind_of_ok (receiveSize_is hm hz), if_neg (Nat.not_lt.2 hl)]
  obtain ⟨hq, he, hof⟩ := s.sizedFor_frame mps h
  have hn : (s.sizedFor mps).nextSlot n = s.nextSlot n := by simp only [State.nextSlot, he, State.sizedFor_params]
  rw [M.bind_of_ok (requireRoom_room (he ▸ hr)), M.bind_of_ok (cacheFlush_quiet buf size hq)]
  refine M.bind_of_error (enqueue_owned hq ?_)
  rw [hof, State.flush_params, State.sizedFor_params]
  exact hn ▸ ho

/-! #### The control pair (spec/44_ep0_control.md R324 to R328) -/

/-- Neither endpoint of an idle pair is busy. -/
theorem State.ep0Busy_eq_false (hb : s.ep0Busy = false) : s.ep[(0 : EpIdx)].busy = false ∧ s.ep[(1 : EpIdx)].busy = false := by
  simpa [State.ep0Busy] using hb

/-- An endpoint that is not busy has nothing to abort. -/
theorem abortEp_idle (hb : s.ep[n].busy = false) : abortEp n s = .ok (⟨⟩, s) := by
  unfold abortEp
  rw [M.bind_of_ok (getEp_apply n s), hb]
  rfl

theorem abortEp0_idle (hb : s.ep0Busy = false) : abortEp0 s = .ok (⟨⟩, s) := by
  obtain ⟨h0, h1⟩ := State.ep0Busy_eq_false hb
  unfold abortEp0
  rw [M.bind_of_ok (abortEp_idle h0), abortEp_idle h1]

theorem armSetup_owned (h : s.quiet) (hb : s.ep0Busy = false) (ho : s.ownsTrb (s.params.global s.params.ep0TrbAddr) = true) :
    armSetup s = .error (.fault .trbOwnedWrite) := by
  unfold armSetup
  rw [M.bind_of_ok (abortEp0_idle hb), M.bind_of_ok (modifyCtx_apply _ s), M.bind_of_ok (M.get_apply _)]
  have hb' : (s.updCtx fun c => { c with ep0State := .setup }).ep0Busy = false := hb
  simp only [hb', Bool.false_eq_true, if_false]
  exact M.bind_of_error (ep0Arm_owned h ho)

theorem ep0Send_owned {buf : LAddr} {len : Nat} (h : s.quiet) (hb : s.ep0Busy = false) (hl : len ≤ trbSizeMax)
    (ho : (s.sendReady buf len).ownsTrb (s.params.global s.params.ep0TrbAddr) = true) :
    ep0Send buf len s = .error (.fault .trbOwnedWrite) := by
  unfold ep0Send
  rw [M.bind_of_ok (M.get_apply s), hb, if_neg Bool.false_ne_true, if_neg (Nat.not_lt.2 hl), flushSent_bind buf len _ h]
  exact M.bind_of_error (ep0Arm_owned (sendReady_quiet buf len h) (by simpa using ho))

theorem ep0Recv_owned {buf : LAddr} {len size : Nat} {mps : BitVec 11} (h : s.quiet) (hb : s.ep0Busy = false)
    (hm : s.ep[(0 : EpIdx)].mps = some mps) (hz : s.receiveSizeIs len mps size) (hl : size ≤ trbSizeMax)
    (ho : (s.flush buf size).ownsTrb (s.params.global s.params.ep0TrbAddr) = true) :
    ep0Recv buf len s = .error (.fault .trbOwnedWrite) := by
  unfold ep0Recv
  rw [M.bind_of_ok (M.get_apply s), hb, if_neg Bool.false_ne_true, M.bind_of_ok (receiveSize_is hm hz),
    if_neg (Nat.not_lt.2 hl)]
  obtain ⟨hq, -, hof⟩ := s.sizedFor_frame mps h
  rw [M.bind_of_ok (cacheFlush_quiet buf size hq)]
  refine M.bind_of_error (ep0Arm_owned hq ?_)
  rwa [hof, State.flush_params, State.sizedFor_params]

theorem ep0Status_owned {three : Bool} (h : s.quiet) (hb : s.ep0Busy = false) (ht : s.ctx.threeStage = some three)
    (ho : s.ownsTrb (s.params.global s.params.ep0TrbAddr) = true) : ep0Status n s = .error (.fault .trbOwnedWrite) := by
  unfold ep0Status
  rw [M.bind_of_ok (M.get_apply s), hb, if_neg Bool.false_ne_true, ht, M.bind_of_ok (written_some three s)]
  exact M.bind_of_error (ep0Arm_owned h ho)

/-! #### RingInit (spec/41_endpoint_lifecycle.md R196) -/

/-- Zeroing a run of slots stops at the first of them that H owns. -/
theorem zeroSlots_owned {i m j : Nat} (h : s.quiet) (hi : i ≤ j) (hj : j < i + m)
    (ho : s.ownsTrb (s.params.global (slotAddr s.params n j)) = true) :
    zeroSlots n i m s = .error (.fault .trbOwnedWrite) := by
  induction m generalizing i s with
  | zero => omega
  | succ m ih =>
    unfold zeroSlots
    rw [M.bind_of_ok (M.get_apply s)]
    cases hf : s.ownsTrb (s.params.global (slotAddr s.params n i)) with
    | true => exact M.bind_of_error (writeTrb_owned h hf)
    | false =>
      have hij : i ≠ j := by
        rintro rfl
        rw [ho] at hf
        cases hf
      rw [M.bind_of_ok (writeTrb_quiet _ _ h hf)]
      obtain ⟨c, hc⟩ := s.trbWritten_cache (slotAddr s.params n i) { w0 := 0, w1 := 0, w2 := 0, w3 := 0 }
      rw [hc]
      exact ih (s := { s with cache := c }) h (by omega) (by omega) ho

theorem ringInit_owned (h : s.quiet) (hf : ¬ s.ringFree n) : ringInit n s = .error (.fault .trbOwnedWrite) := by
  unfold ringInit
  by_cases hd : ∃ j < ringDepth, s.ownsTrb (s.params.global (slotAddr s.params n j)) = true
  · obtain ⟨j, hj, ho⟩ := hd
    exact M.bind_of_error (zeroSlots_owned h (Nat.zero_le j) (by omega) ho)
  · have hfree : ∀ j < ringDepth, s.ownsTrb (s.params.global (slotAddr s.params n j)) = false := fun j hj =>
      Bool.eq_false_iff.2 fun ho => hd ⟨j, hj, ho⟩
    have hlink : s.ownsTrb (s.params.global (slotAddr s.params n ringDepth)) = true := by
      by_contra hl
      refine hf fun i => ?_
      obtain hi | hi := Nat.lt_succ_iff_lt_or_eq.1 i.isLt
      · exact hfree i hi
      · rw [hi]
        exact Bool.eq_false_iff.2 hl
    have hz : zeroSlots n 0 ringDepth s = .ok (⟨⟩, s.zeroed n (0 + ringDepth)) :=
      zeroSlots_quiet 0 ringDepth h fun j _ hj => hfree j (by omega)
    rw [M.bind_of_ok hz, M.bind_of_ok (M.get_apply _)]
    obtain ⟨c, hc⟩ := s.zeroed_cache n (0 + ringDepth)
    rw [hc]
    exact M.bind_of_error (writeTrb_owned (s := { s with cache := c }) h hlink)

/-! #### ENABLE (spec/41_endpoint_lifecycle.md R191 to R196) -/

/-- The commands of ENABLE change nothing of what is handed over. -/
theorem State.issued_handed {c : Command} (h : c.typ = .setEpConfig ∨ c.typ = .setXferResource) :
    (s.issued n c).handed = s.handed := by
  unfold State.issued State.commanded
  cases c with
  | setEpConfig cfg => cases s.timely <;> rfl
  | setXferResource count => cases s.timely <;> rfl
  | _ => rcases h with h | h <;> cases h

theorem issue_granted {c : Command} (hs : c.typ ≠ .startTransfer) (h : s.granted n c) :
    issue n c s = .ok (.ok, s.issued n c) := by
  rw [issue_commandable (fun e => absurd e hs) h.1, State.commandResult_performs c h.2, if_neg hs]

theorem cmdSetEpConfig_granted {cfg : EpConf} (h : s.granted n (.setEpConfig cfg)) :
    cmdSetEpConfig n cfg s = .ok (.ok, s.configured n cfg) := by
  unfold cmdSetEpConfig
  rw [M.bind_of_ok (issue_granted (by intro e; cases e) h)]
  rfl

theorem enableStart_started (hg : s.ctx.groupStarted n = true) : enableStart n s = .ok (.ok, s) := by
  unfold enableStart
  rw [M.bind_of_ok (M.get_apply s)]
  unfold Ctx.groupStarted at hg
  cases hgr : groupOf n <;> simp_all

/-- A bit of DALEPENA is written, and no other register (spec/10_state.md R37). -/
theorem writeEpEnable_quiet {on : Bool} (h : s.quiet) :
    writeEpEnable n on s = .ok (⟨⟩, s.putReg .dalepena (putField s.regs.dalepena n.val (BitVec.ofBool on))) := by
  unfold writeEpEnable
  rw [M.bind_of_ok (readReg_quiet h rfl)]
  unfold writeReg
  rw [M.bind_of_ok (othersTurn_quiet h)]
  rfl

theorem enableFirst_owned (h2 : 2 ≤ n.val) (he : s.ep[n].enabled = false) (hg : s.granted n (.setXferResource 1))
    (hf : ¬ s.ringFree n) : enableFirst n s = .error (.fault .trbOwnedWrite) := by
  have hq : (s.issued n (.setXferResource 1)).quiet := s.issued_quiet n _ hg.1.1.1
  unfold enableFirst cmdSetXferResource
  rw [M.bind_of_ok (getEp_apply n s), he, if_neg Bool.false_ne_true, M.bind_of_ok (issue_granted (by intro e; cases e) hg),
    if_pos rfl, M.bind_of_ok (writeEpEnable_quiet hq), M.bind_of_ok (modifyEp_apply _ _ _), if_pos h2]
  have hh : (s.issued n (.setXferResource 1)).handed = s.handed := State.issued_handed (.inr rfl)
  exact M.bind_of_error (ringInit_owned hq (State.not_ringFree_congr hf rfl rfl hh))

theorem enable_owned {num mps interval : Nat} {dir : Dir} {type : EpType} (hv : n.val = num * 2 + dirBit dir)
    (hm : num ≤ maxLogical) (h2 : 2 ≤ n.val) (hi : type ≠ .isochronous) (hc : type ≠ .control) (h1 : 1 ≤ mps)
    (h3 : mps ≤ 2047) (he : s.ep[n].enabled = false) (hg : s.ctx.groupStarted n = true)
    (ha : s.granted n (.setEpConfig (confFor n type mps interval)))
    (hb : (s.configured n (confFor n type mps interval)).granted n (.setXferResource 1)) (hf : ¬ s.ringFree n) :
    enable num dir type mps interval s = .error (.fault .trbOwnedWrite) := by
  have hd : dirBit dir ≤ 1 := by cases dir <;> decide
  unfold enable enableSteps
  rw [M.bind_of_ok (M.get_apply s), logicalEp_eq_some hv hm ha.1.1.2.2.1]
  simp only
  rw [if_neg hi, if_neg (by simp only [hc, decide_false]; simp; omega), if_neg (by omega),
    M.bind_of_ok (enableStart_started hg), if_pos rfl, M.bind_of_ok (cmdSetEpConfig_granted ha), if_pos rfl]
  have hh : (s.configured n (confFor n type mps interval)).handed = s.handed := State.issued_handed (.inl rfl)
  have he' : (s.configured n (confFor n type mps interval)).ep[n].enabled = false := by
    unfold State.configured
    rw [State.updEp_same]
    exact he
  exact enableFirst_owned h2 he' hb (State.not_ringFree_congr hf rfl rfl hh)

/-! #### RESET (spec/43_event_buffer.md R281) -/

/-- A ring made anew changes memory, S's view and the endpoint's own record alone. -/
theorem State.ringReady_frame (s : State) (n : EpIdx) : ∃ m c, s.ringReady n =
    ({ s with mem := m, cache := c } : State).updEp n fun e => { e with enq := 0, deq := 0, out := 0 } := by
  obtain ⟨c, hc⟩ := s.zeroed_cache n ringDepth
  unfold State.ringReady
  rw [hc]
  obtain ⟨d, hd⟩ := State.trbWritten_cache { s with cache := c } (slotAddr s.params n ringDepth)
    ((linkTrb (s.params.global s.params.ringAddr[n])).words s.params.enc .link)
  rw [hd]
  exact ⟨_, _, rfl⟩

/-- The third loop of RESET on an endpoint leaves the choices of the others and every other endpoint's record alone. -/
theorem State.resetOne_frame (s : State) (n : EpIdx) :
    (s.resetOne n).env = s.env ∧ ∀ m : EpIdx, n ≠ m → (s.resetOne n).ep[m] = s.ep[m] := by
  unfold State.resetOne
  split
  · obtain ⟨m, c, h⟩ := (s.updEp n Ep.afterReset).ringReady_frame n
    simp only [h]
    refine ⟨rfl, fun m hm => ?_⟩
    rw [State.updEp_other _ n m _ hm]
    exact State.updEp_other s n m _ hm
  · exact ⟨rfl, fun m hm => State.updEp_other s n m _ hm⟩

/-- The third loop of RESET on an endpoint: its record, and its ring if it is enabled and not busy. -/
theorem resetEp_apply (s : State) (n : EpIdx) : resetEp n s =
    (if 2 ≤ n.val ∧ s.ep[n].enabled = true ∧ s.ep[n].busy = false then ringInit n else pure ())
      (s.updEp n Ep.afterReset) := by
  unfold resetEp
  rw [M.bind_of_ok (modifyEp_apply _ _ _), M.bind_of_ok (getEp_apply _ _), State.updEp_same]
  rfl

/-- It ends, or meets a TRB of H's in the ring. -/
theorem resetEp_quiet (n : EpIdx) (h : s.quiet) :
    resetEp n s = .ok (⟨⟩, s.resetOne n) ∨ resetEp n s = .error (.fault .trbOwnedWrite) := by
  rw [resetEp_apply]
  unfold State.resetOne
  by_cases hc : 2 ≤ n.val ∧ s.ep[n].enabled = true ∧ s.ep[n].busy = false
  · simp only [if_pos hc]
    by_cases hf : (s.updEp n Ep.afterReset).ringFree n
    · exact .inl (ringInit_quiet h hf)
    · exact .inr (ringInit_owned h hf)
  · simp only [if_neg hc]
    exact .inl rfl

/-- It meets a TRB of H's in the ring. -/
theorem resetEp_owned (h : s.quiet) (h2 : 2 ≤ n.val) (he : s.ep[n].enabled = true) (hb : s.ep[n].busy = false)
    (hf : ¬ s.ringFree n) : resetEp n s = .error (.fault .trbOwnedWrite) := by
  rw [resetEp_apply, if_pos ⟨h2, he, hb⟩]
  exact ringInit_owned h hf

/-- The third loop of RESET stops, at an endpoint whose ring holds a TRB of H's once the rings before it are made anew, or
before. -/
theorem forEps_resetEp_owned {l : List EpIdx} (h : s.quiet) (hl : n ∈ l) (h2 : 2 ≤ n.val) (he : s.ep[n].enabled = true)
    (hb : s.ep[n].busy = false) (hf : ¬ ((l.takeWhile fun m => decide (m ≠ n)).foldl State.resetOne s).ringFree n) :
    forEps resetEp l s = .error (.fault .trbOwnedWrite) := by
  induction l generalizing s with
  | nil => cases hl
  | cons m l ih =>
    unfold forEps
    by_cases hm : m = n
    · subst hm
      exact M.bind_of_error (resetEp_owned h h2 he hb (by simpa using hf))
    · rcases resetEp_quiet m h with hr | hr
      · rw [M.bind_of_ok hr]
        obtain ⟨hv, ho⟩ := s.resetOne_frame m
        have hq : (s.resetOne m).quiet := by unfold State.quiet; rwa [hv]
        refine ih hq ((List.mem_cons.1 hl).resolve_left (Ne.symm hm)) (by rwa [ho n hm]) (by rwa [ho n hm]) ?_
        simpa [hm] using hf
      · exact M.bind_of_error hr

/-- A loop over endpoints on each of which there is nothing to do. -/
theorem forEps_idle {f : EpIdx → M Unit} {l : List EpIdx} (hf : ∀ m ∈ l, f m s = .ok (⟨⟩, s)) :
    forEps f l s = .ok (⟨⟩, s) := by
  induction l with
  | nil => rfl
  | cons m l ih =>
    unfold forEps
    rw [M.bind_of_ok (hf m (List.mem_cons_self ..))]
    exact ih fun x hx => hf x (List.mem_cons_of_mem _ hx)

theorem unstallEp_idle (hs : s.ep[n].stalled = false) : unstallEp n s = .ok (⟨⟩, s) := by
  unfold unstallEp
  rw [M.bind_of_ok (getEp_apply n s), hs]
  rfl

theorem mem_epList {p : Params} : n ∈ epList p ↔ n.val < p.numEps := by
  simp [epList]

theorem onReset_owned (h : s.quiet)
    (hm : ∀ m : EpIdx, m.val < s.params.numEps → s.ep[m].busy = false ∧ s.ep[m].stalled = false)
    (hn : n.val < s.params.numEps) (h2 : 2 ≤ n.val) (he : s.ep[n].enabled = true)
    (hf : ¬ (((epList s.params).takeWhile fun m => decide (m ≠ n)).foldl State.resetOne s).ringFree n) :
    onReset s = .error (.fault .trbOwnedWrite) := by
  unfold onReset
  rw [M.bind_of_ok (M.get_apply s), M.bind_of_ok (forEps_idle fun m hl => abortEp_idle (hm m (mem_epList.1 hl)).1),
    M.bind_of_ok (forEps_idle fun m hl => unstallEp_idle (hm m (mem_epList.1 hl)).2)]
  exact M.bind_of_error (forEps_resetEp_owned h (mem_epList.2 hn) h2 he (hm n hn).1 hf)

end

end Sys2Proof.Machine

namespace Sys2Proof

open Machine

/-- Settles O58: each procedure that writes a TRB comes to the check of 10_state.md R30 with the TRB named in the premise, or
has met another that H owns before. -/
theorem ownedTrbIsNotWritten : Obligations.OwnedTrbIsNotWritten := by
  intro s hq
  refine ⟨fun num buf len n hi hm h2 hn he hr => ⟨fun hv hl ho => ?_, fun mps size hv hp hz hl ho => ?_⟩,
    fun hi hb => ⟨fun ho => ?_, fun buf len hl ho => ?_, fun buf len size mps hp hz hl ho => ?_, fun d three ht ho => ?_⟩,
    fun num dir type mps interval n hi hv hm h2 hty hc h1 h3 he hg ha hx hf => ?_,
    fun info n hm hn h2 he hf => ?_⟩
  · exact outcome_admitted_fault hi (send_owned hq (submitEp_eq_ok hv hm hn h2 he) hr hl ho)
  · exact outcome_admitted_fault hi (recv_owned hq (submitEp_eq_ok hv hm hn h2 he) hr hp hz hl ho)
  · exact outcome_admitted_fault hi (armSetup_owned hq hb ho)
  · exact outcome_admitted_fault hi (ep0Send_owned hq hb hl ho)
  · exact outcome_admitted_fault hi (ep0Recv_owned hq hb hp hz hl ho)
  · exact outcome_admitted_fault hi (ep0Status_owned hq hb ht ho)
  · exact outcome_admitted_fault hi (enable_owned hv hm h2 hty hc h1 h3 he hg ha hx hf)
  · exact outcome_of_fault (onReset_owned hq hm hn h2 he hf)

end Sys2Proof
end

/-! ### What the cache operations make visible (spec/20_memory.md R79, R80, R82) -/

namespace Sys2Proof.Machine

/-! #### The lines that overlap a range -/

section
variable {p : Params}

/-- A local address is the base of its line and its place within the line. -/
theorem lineBase_lineOf (p : Params) (x : LAddr) :
    lineBase p (lineOf p x) + BitVec.ofNat 32 (x.toNat % p.cacheLine) = x := by
  unfold lineBase lineOf
  rw [← BitVec.ofNat_add, Nat.div_add_mod', BitVec.ofNat_toNat, BitVec.setWidth_eq]

/-- The line of each byte of a range overlaps the range, also where the range wraps. -/
theorem overlaps_lineOf (hc : 0 < p.cacheLine) (a : LAddr) {i n : Nat} (hi : i < n) :
    overlaps p (lineOf p (a + BitVec.ofNat 32 i)) a n = true := by
  have hx := lineBase_lineOf p (a + BitVec.ofNat 32 i)
  have hr := Nat.mod_lt (a + BitVec.ofNat 32 i).toNat hc
  simp only [overlaps, Bool.and_eq_true, Bool.or_eq_true, decide_eq_true_eq]
  refine ⟨by omega, ?_⟩
  generalize lineBase p (lineOf p (a + BitVec.ofNat 32 i)) = base at hx ⊢
  generalize (a + BitVec.ofNat 32 i).toNat % p.cacheLine = r at hx hr
  rcases Nat.le_total r i with h | h
  · obtain ⟨d, rfl⟩ := Nat.exists_eq_add_of_le h
    have hd : base - a = BitVec.ofNat 32 d := by
      rw [BitVec.ofNat_add] at hx
      linear_combination hx
    left
    rw [hd]
    exact lt_of_le_of_lt (Nat.mod_le d (2 ^ 32)) (by omega)
  · obtain ⟨d, rfl⟩ := Nat.exists_eq_add_of_le h
    have hd : a - base = BitVec.ofNat 32 d := by
      rw [BitVec.ofNat_add] at hx
      linear_combination -hx
    right
    rw [hd]
    exact lt_of_le_of_lt (Nat.mod_le d (2 ^ 32)) (by omega)

theorem overlaps_lineOf_self (hc : 0 < p.cacheLine) (a : LAddr) : overlaps p (lineOf p a) a 1 = true := by
  simpa using overlaps_lineOf hc a Nat.zero_lt_one

/-- Of the lines of the local address space only the line of a byte overlaps it. -/
theorem eq_lineOf_of_overlaps (hd : p.cacheLine ∣ 2 ^ 32) {idx : Nat} {a : LAddr} (hb : idx * p.cacheLine < 2 ^ 32)
    (ho : overlaps p idx a 1 = true) : idx = lineOf p a := by
  have hfit : idx * p.cacheLine + p.cacheLine ≤ 2 ^ 32 := by
    obtain ⟨q, hq⟩ := hd
    rw [hq, Nat.mul_comm p.cacheLine] at hb ⊢
    rw [← Nat.succ_mul]
    exact Nat.mul_le_mul_right _ (Nat.lt_of_mul_lt_mul_right hb)
  have hbase : (lineBase p idx).toNat = idx * p.cacheLine := Nat.mod_eq_of_lt hb
  have hpos : 0 < p.cacheLine := Nat.pos_of_dvd_of_pos hd (by decide)
  have ha := a.isLt
  simp only [overlaps, Bool.and_eq_true, Bool.or_eq_true, decide_eq_true_eq, BitVec.toNat_sub, hbase] at ho
  have hlo : idx * p.cacheLine ≤ a.toNat := by omega
  have hhi : a.toNat < idx * p.cacheLine + p.cacheLine := by omega
  exact (Nat.div_eq_of_lt_le hlo (by rwa [Nat.succ_mul])).symm

end

/-! #### After an invalidate -/

/-- A byte whose line is absent is read from memory. -/
theorem State.viewByte_absent {s : State} {a : LAddr} (h : ∀ l ∈ s.cache.lines, l.idx ≠ lineOf s.params a) :
    s.viewByte a = s.mem.read1 (s.params.global a).toNat := by
  have hn : s.line? (lineOf s.params a) = none := List.find?_eq_none.2 fun l hl => by simpa using h l hl
  unfold State.viewByte
  rw [hn]

/-- A byte that H has not written since S invalidated its line is what S's view gives, whatever is picked. -/
theorem State.seenByte_seen {s : State} {a : LAddr} (picks : List (LAddr × Byte)) (h : a ∉ s.cache.unseen) :
    s.seenByte picks a = s.viewByte a := by
  simp [State.seenByte, h]

/-- After an invalidate each byte of an overlapping line is read from memory. -/
theorem State.invalidate_viewByte {s : State} {a x : LAddr} {n : Nat} (h : overlaps s.params (lineOf s.params x) a n = true) :
    (s.invalidate a n).viewByte x = s.mem.read1 (s.params.global x).toNat := by
  refine State.viewByte_absent fun l hl he => ?_
  rw [State.invalidate_params] at he
  rw [State.invalidate_lines, List.mem_filter, he, h] at hl
  exact absurd hl.2 (by decide)

/-- After an invalidate no byte of an overlapping line is one that S has not seen. -/
theorem State.invalidate_seen {s : State} {a x : LAddr} {n : Nat} (h : overlaps s.params (lineOf s.params x) a n = true) :
    x ∉ (s.invalidate a n).cache.unseen := by
  simp [State.invalidate, h]

/-! #### Lines written back -/

theorem Memory.read1_put_other (m : Memory) (a x : Nat) (b : Option Byte) (h : x ≠ a) :
    (m.put a b).read1 x = m.read1 x := by
  cases b with
  | none => exact Memory.read1_erase1_other m a x h
  | some b => exact Memory.read1_write1_other m a x b h

section
variable {p : Params}

/-- Bytes written back leave every other address alone. -/
theorem read1_writeBack_other {m : Memory} {a : LAddr} {bs : List (Option Byte)} {g : GAddr}
    (h : ∀ j < bs.length, p.global (a + BitVec.ofNat 32 j) ≠ g) :
    (writeBack p m a bs).read1 g.toNat = m.read1 g.toNat := by
  induction bs generalizing m a with
  | nil => rfl
  | cons b bs ih =>
    have hrest : ∀ j < bs.length, p.global (a + 1 + BitVec.ofNat 32 j) ≠ g := fun j hj => by
      have := h (j + 1) (by simpa using hj)
      rwa [Nat.add_comm, BitVec.ofNat_add, ← BitVec.add_assoc] at this
    have hhead : g ≠ p.global a := by simpa using (h 0 (Nat.zero_lt_succ _)).symm
    calc (writeBack p m a (b :: bs)).read1 g.toNat
      _ = (m.put (p.global a).toNat b).read1 g.toNat := ih hrest
      _ = m.read1 g.toNat := Memory.read1_put_other _ _ _ _ (mt BitVec.eq_of_toNat_eq hhead)

/-- A byte written back is in memory, if no two bytes written share a global address. -/
theorem read1_writeBack_at (hg : ∀ x y : LAddr, p.global x = p.global y → x = y) {m : Memory} {a : LAddr}
    {bs : List (Option Byte)} {j : Nat} {b : Byte} (hl : bs.length ≤ 2 ^ 32) (hj : bs[j]? = some (some b)) :
    (writeBack p m a bs).read1 (p.global (a + BitVec.ofNat 32 j)).toNat = some b := by
  induction bs generalizing m a j with
  | nil => simp at hj
  | cons c bs ih =>
    rw [List.length_cons] at hl
    cases j with
    | zero =>
      obtain rfl : c = some b := by simpa using hj
      have hrest : ∀ i < bs.length, p.global (a + 1 + BitVec.ofNat 32 i) ≠ p.global a := fun i hi he => by
        have := hg _ _ he
        bv_omega
      simp only [BitVec.add_zero]
      exact (read1_writeBack_other hrest).trans (Memory.read1_write1_same m _ b)
    | succ j =>
      rw [Nat.add_comm, BitVec.ofNat_add, ← BitVec.add_assoc]
      exact ih (by omega) (by simpa using hj)

/-- A whole dirty line leaves its bytes in memory. -/
theorem Memory.read1_afterLine (hg : ∀ x y : LAddr, p.global x = p.global y → x = y) {m : Memory} {l : Line} {a : LAddr}
    {b : Byte} (hl : l.bytes.length ≤ 2 ^ 32) (hi : l.idx = lineOf p a) (hd : l.dirty = true)
    (hb : l.bytes[a.toNat % p.cacheLine]? = some (some b)) :
    (m.afterLine p l).read1 (p.global a).toNat = some b := by
  unfold Memory.afterLine
  rw [if_pos hd, hi]
  have h := read1_writeBack_at hg (m := m) (a := lineBase p (lineOf p a)) hl hb
  rwa [lineBase_lineOf] at h

/-- Where each of some lines leaves a value, the last of them leaves it. -/
theorem Memory.read1_foldLines {g : Nat} {v : Option Byte} {m : Memory} {ls : List Line} (hn : ls ≠ [])
    (h : ∀ l ∈ ls, ∀ k : Memory, (k.afterLine p l).read1 g = v) :
    (ls.foldl (Memory.afterLine p) m).read1 g = v := by
  rw [← List.dropLast_append_getLast hn, List.foldl_append]
  exact h _ (List.getLast_mem hn) _

end

/-! #### After a write and a flush -/

theorem mem_insertLine_self (l : Line) (ls : List Line) : l ∈ insertLine l ls := by
  induction ls with
  | nil => exact List.mem_singleton_self l
  | cons k ks ih =>
    simp only [insertLine]
    split
    · exact List.mem_cons_self ..
    · split
      · exact List.mem_cons_self ..
      · exact List.mem_cons_of_mem k ih

/-- A line that was asked for is in S's view. -/
theorem State.exists_line_withLine (s : State) (i : Nat) : ∃ l ∈ (s.withLine i).cache.lines, l.idx = i := by
  unfold State.withLine
  split
  · next l hl => exact ⟨l, List.mem_of_find?_eq_some hl, by simpa using List.find?_some hl⟩
  · exact ⟨s.loadLine i, mem_insertLine_self _ _, rfl⟩

@[simp] theorem State.cacheWrite1_params (s : State) (a : LAddr) (b : Byte) : (s.cacheWrite1 a b).params = s.params := by
  obtain ⟨c, hc⟩ := s.withLine_cache (lineOf s.params a)
  simp only [State.cacheWrite1, hc]

/-- A line that was written is in S's view. -/
theorem State.exists_line_cacheWrite1 (s : State) (a : LAddr) (b : Byte) :
    ∃ l ∈ (s.cacheWrite1 a b).cache.lines, l.idx = lineOf s.params a := by
  obtain ⟨l, hl, hi⟩ := s.exists_line_withLine (lineOf s.params a)
  refine ⟨_, List.mem_map_of_mem hl, ?_⟩
  rw [if_pos hi]
  exact hi

/-- The line of a byte just written is dirty and holds the byte. -/
theorem State.cacheWrite1_line {s : State} (h : s.cacheLegal) (hc : 0 < s.params.cacheLine) {a : LAddr} {b : Byte}
    {l : Line} (hl : l ∈ (s.cacheWrite1 a b).cache.lines) (hi : l.idx = lineOf s.params a) :
    l.dirty = true ∧ l.bytes[a.toNat % s.params.cacheLine]? = some (some b) := by
  obtain ⟨c, hw⟩ := s.withLine_cache (lineOf s.params a)
  have hlegal := State.cacheLegal_withLine a h
  obtain ⟨k, hk, rfl⟩ := List.mem_map.1 hl
  have hki : k.idx = lineOf s.params a := by
    split at hi
    · assumption
    · exact hi
  have hlen : k.bytes.length = s.params.cacheLine := by
    rw [(hlegal.2 k hk).2, hw]
  have hr : a.toNat % s.params.cacheLine < k.bytes.length := by
    rw [hlen]
    exact Nat.mod_lt _ hc
  rw [if_pos hki]
  exact ⟨rfl, List.getElem?_set_self hr⟩

/-- A flush of a byte leaves it in memory, if S's view has its line, dirty and with the byte in its place. -/
theorem State.flush_read1 {s : State} (h : s.cacheLegal) (hd : s.params.cacheLine ∣ 2 ^ 32)
    (hg : ∀ x y : LAddr, s.params.global x = s.params.global y → x = y) {a : LAddr} {b : Byte}
    (he : ∃ l ∈ s.cache.lines, l.idx = lineOf s.params a)
    (hl : ∀ l ∈ s.cache.lines, l.idx = lineOf s.params a →
      l.dirty = true ∧ l.bytes[a.toNat % s.params.cacheLine]? = some (some b)) :
    (s.flush a 1).mem.read1 (s.params.global a).toNat = some b := by
  have hpos : 0 < s.params.cacheLine := Nat.pos_of_dvd_of_pos hd (by decide)
  obtain ⟨k, hk, hki⟩ := he
  refine Memory.read1_foldLines ?_ fun l hf m => ?_
  · exact List.ne_nil_of_mem (List.mem_filter.2 ⟨hk, hki ▸ overlaps_lineOf_self hpos a⟩)
  · obtain ⟨hmem, ho⟩ := List.mem_filter.1 hf
    obtain ⟨hidx, hlen⟩ := h.2 l hmem
    have hi := eq_lineOf_of_overlaps hd hidx ho
    obtain ⟨hdirty, hbyte⟩ := hl l hmem hi
    exact Memory.read1_afterLine hg (hlen ▸ Nat.le_of_dvd (by decide) hd) hi hdirty hbyte

/-- After a flush of a byte H reads it from memory whatever is picked, if no other local address is taken to its global one. -/
theorem State.flush_hByte {s : State} (hc : 0 < s.params.cacheLine)
    (hg : ∀ x y : LAddr, s.params.global x = s.params.global y → x = y) (a : LAddr) (picks : List GAddr) :
    (s.flush a 1).hByte picks (s.params.global a) = (s.flush a 1).mem.read1 (s.params.global a).toNat := by
  refine State.hByte_flushed picks fun x hx hu => ?_
  obtain rfl : x = a := hg x a (of_decide_eq_true (List.mem_filter.1 hx).2)
  simp [overlaps_lineOf_self hc x] at hu

end Sys2Proof.Machine

namespace Sys2Proof

open Machine

/-- Settles O59: an invalidate makes the line of each of its bytes absent and seen, and a flush writes back the dirty line
that holds the byte. -/
theorem cacheOperationsMakeVisible : Obligations.CacheOperationsMakeVisible := by
  intro s a k _ hk hline hlegal
  have hd : s.params.cacheLine ∣ 2 ^ 32 := hline ▸ Nat.pow_dvd_pow 2 (by omega)
  have hpos : 0 < s.params.cacheLine := Nat.pos_of_dvd_of_pos hd (by decide)
  refine ⟨fun n i hi _ => ?_, fun b hg => ?_⟩
  · have ho := overlaps_lineOf hpos a hi
    exact ⟨State.invalidate_viewByte ho, fun picks =>
      (State.seenByte_seen picks (State.invalidate_seen ho)).trans (State.invalidate_viewByte ho)⟩
  · have hmem : ((s.cacheWrite1 a b).flush a 1).mem.read1 (s.params.global a).toNat = some b := by
      rw [← s.cacheWrite1_params a b] at hd hg ⊢
      exact State.flush_read1 (State.cacheLegal_cacheWrite1 a b hlegal) hd hg
        (by simpa using s.exists_line_cacheWrite1 a b)
        (by simpa using fun l hl hi => State.cacheWrite1_line hlegal hpos hl hi)
    refine ⟨hmem, fun picks => ?_⟩
    rw [← s.cacheWrite1_params a b] at hpos hg hmem ⊢
    exact (State.flush_hByte hpos hg a picks).trans hmem

end Sys2Proof

/-! ### Decoding words (spec/30_encoding.md R101, R111, R120 to R124) -/

namespace Sys2Proof

/-! #### The fields of a word -/

/-- A bit, as the field of width 1. -/
theorem field_one_eq_ofBool_bit (w : Word) (i : Nat) : field w i 1 = BitVec.ofBool (bit w i) := by
  apply BitVec.eq_of_getLsbD_eq
  intro k hk
  obtain rfl : k = 0 := by omega
  simp [field, bit]

/-- Each field of a layout lies inside the word. -/
theorem layoutOk_bound {l : List (Nat × Nat)} (h : layoutOk l = true) : ∀ f ∈ l, f.1 + f.2 ≤ 32 := by
  induction l with
  | nil => nofun
  | cons g gs ih =>
    obtain ⟨hb, -, ht⟩ := layoutOk_cons h
    exact List.forall_mem_cons.2 ⟨hb, ih ht⟩

/-- The bits of the mask of a field are those of its place. -/
theorem getLsbD_fieldMask (lo n i : Nat) (hi : i < 32) :
    ((BitVec.allOnes n).zeroExtend 32 <<< lo).getLsbD i = decide (lo ≤ i ∧ i < lo + n) := by
  by_cases hlo : lo ≤ i
  · have hn : i - lo < n ↔ i < lo + n := by omega
    simp [hi, hlo, hn]
  · simp [hlo, show i < lo by omega]

/-- Putting a word's own field into part of the word gives that part with the field. -/
theorem putField_field_and (w m : Word) (lo n : Nat) (hn : lo + n ≤ 32) :
    putField (w &&& m) lo (field w lo n) = w &&& (((BitVec.allOnes n).zeroExtend 32 <<< lo) ||| m) := by
  apply BitVec.eq_of_getLsbD_eq
  intro i hi
  rw [getLsbD_putField _ _ _ _ hn, BitVec.getLsbD_and, BitVec.getLsbD_and, BitVec.getLsbD_or, getLsbD_fieldMask lo n i hi]
  split
  · next h => simp [field, h, show i - lo < n by omega]
  · next h => simp [h]

/-- Fields read from a word pack to the bits of the word that lie in them. -/
theorem pack_eq_and_layoutMask {w : Word} {l : List Placed} (hl : ∀ f ∈ l, f.lo + f.width ≤ 32)
    (hv : ∀ f ∈ l, field w f.lo f.width = f.val) : pack l = w &&& layoutMask (l.map fun f => (f.lo, f.width)) := by
  induction l with
  | nil => simp [pack, layoutMask]
  | cons f fs ih =>
    obtain ⟨hlf, hls⟩ := List.forall_mem_cons.1 hl
    obtain ⟨hvf, hvs⟩ := List.forall_mem_cons.1 hv
    rw [pack, ih hls hvs, ← hvf, putField_field_and _ _ _ _ hlf]
    rfl

/-- A word with no bit outside a mask is its part inside. -/
theorem and_eq_self_of_and_not_eq_zero {w m : Word} (h : w &&& ~~~m = 0) : w &&& m = w := by
  ext i hi
  simpa [hi] using congrArg (fun v => v.getLsbD i) h

/-- A word with no bit outside a layout is packed from the fields read from it. -/
theorem pack_eq_of_fields {w : Word} {l : List Placed} (hl : layoutOk (l.map fun f => (f.lo, f.width)) = true)
    (hv : ∀ f ∈ l, field w f.lo f.width = f.val)
    (hr : w &&& ~~~layoutMask (l.map fun f => (f.lo, f.width)) = 0) : pack l = w :=
  (pack_eq_and_layoutMask (fun f hf => layoutOk_bound hl _ (List.mem_map.2 ⟨f, hf, rfl⟩)) hv).trans
    (and_eq_self_of_and_not_eq_zero hr)

/-! #### The fields of a decoded event -/

/-- The event of a word marked as an endpoint event has the word's type code, endpoint, status and parameter
(spec/30_encoding.md R123, R124). -/
theorem fields_of_decodeEvent_ep {enc : Enc} {w : Word} {e : Event} (hd : decodeEvent enc w = .ok e)
    (hw : isEpEvent enc.evt w = true) :
    e.fields enc.evt = epEventFields enc.evt (field w enc.evt.epEvt 4) (eventEp enc.evt w) (field w enc.evt.epStatus 4)
      (field w enc.evt.epParam 16) := by
  simp only [decodeEvent, hw, if_true] at hd
  split_ifs at hd with hc hc hc hc <;> cases hd <;> rw [hc] <;> rfl

/-- The event of a word not so marked has the word's type code and information, and the word's class is 0
(spec/30_encoding.md R121, R122). -/
theorem fields_of_decodeEvent_dev {enc : Enc} {w : Word} {e : Event} (hd : decodeEvent enc w = .ok e)
    (hw : isEpEvent enc.evt w = false) :
    field w enc.evt.devClass 7 = 0 ∧
      e.fields enc.evt = devEventFields enc.evt (field w enc.evt.devEvt 4) (field w enc.evt.evtInfo 9) := by
  simp only [decodeEvent, hw, Bool.false_eq_true, if_false] at hd
  split_ifs at hd with hz hc hc hc hc hc hc <;> cases hd <;> exact ⟨not_not.1 hz, by rw [hc]; rfl⟩

/-- Settles O2: the fields of the event are those read from the word, bit 0 and the class among them, and the word has no
bit beside them. -/
theorem encodeOfDecodedEvent : Obligations.EncodeOfDecodedEvent := by
  intro enc w e hok hd hr
  have hr := of_decide_eq_true hr
  cases hw : isEpEvent enc.evt w with
  | true =>
    have hb : bit w 0 = enc.evt.epBit := of_decide_eq_true hw
    rw [Event.word, fields_of_decodeEvent_ep hd hw]
    rw [hw] at hr
    refine pack_eq_of_fields (Enc.ok_facts hok).epEvent ?_ hr
    simp [epEventFields, field_one_eq_ofBool_bit, hb, eventEp]
  | false =>
    have hb : bit w 0 = !enc.evt.epBit := Bool.eq_not.2 (of_decide_eq_false hw)
    obtain ⟨hz, hf⟩ := fields_of_decodeEvent_dev hd hw
    rw [Event.word, hf]
    rw [hw] at hr
    refine pack_eq_of_fields (Enc.ok_facts hok).devEvent ?_ hr
    simp [devEventFields, field_one_eq_ofBool_bit, hb, hz]

/-! #### Words of the opcode table -/

theorem hardwareEnc_ok : hardwareEnc.ok = true := by decide

/-- A table word that has the format and the bytes of an instruction decodes to it. -/
theorem decodeTableWord_of_encode {nbits w : Nat} {i : Instr}
    (hf : formatOf i = some (tableFormat nbits (w % 2 ^ nbits), 0)) (hb : tableBytes nbits w = encode hardwareEnc i) :
    decodeTableWord nbits w = some i := by
  rw [decodeTableWord, hb, decode_encode hardwareEnc_ok hf]

/-- Settles O3: each word has the format and the bytes of its instruction. -/
theorem writtenWordsDecode : Obligations.WrittenWordsDecode :=
  ⟨decodeTableWord_of_encode (by decide) (by decide), decodeTableWord_of_encode (by decide) (by decide),
    decodeTableWord_of_encode (by decide) (by decide), decodeTableWord_of_encode (by decide) (by decide),
    decodeTableWord_of_encode (by decide) (by decide), decodeTableWord_of_encode (by decide) (by decide)⟩

/-! #### Reserved codes -/

/-- A code that no command has is no command's (spec/30_encoding.md R101). -/
theorem CmdTyp.ofCode_eq_none {e : CmdEnc} {c : BitVec 4} (h : ∀ t : CmdTyp, t.code e ≠ c) : CmdTyp.ofCode e c = none :=
  List.find?_eq_none.2 fun t _ => by simpa using h t

/-- A code that no TRB type has is no type's (spec/30_encoding.md R111). -/
theorem TrbKind.ofCode_eq_none {e : TrbEnc} {c : BitVec 6} (h : ∀ k : TrbKind, k.code e ≠ c) : TrbKind.ofCode e c = none :=
  List.find?_eq_none.2 fun k _ => by simpa using h k

/-- A family whose members have the codes 1 to 9 in order has those codes and no other. -/
theorem exists_code_iff {α : Type} {n : Nat} {code : α → BitVec n} {all : List α} (hall : ∀ a, a ∈ all)
    (hcodes : all.map code = (List.range' 1 9).map (BitVec.ofNat n)) (hn : 9 < 2 ^ n) (c : BitVec n) :
    (∃ a, code a = c) ↔ 1 ≤ c.toNat ∧ c.toNat ≤ 9 := by
  have hmem : (∃ a, code a = c) ↔ c ∈ (List.range' 1 9).map (BitVec.ofNat n) := by simp [← hcodes, hall]
  rw [hmem, List.mem_map]
  constructor
  · rintro ⟨k, hk, rfl⟩
    have := List.mem_range'_1.1 hk
    rw [BitVec.toNat_ofNat, Nat.mod_eq_of_lt (by omega)]
    omega
  · intro h
    exact ⟨c.toNat, List.mem_range'_1.2 (by omega), by simp⟩

/-- Settles O4: a code of no member is found for none, and the members of both families have the codes 1 to 9. -/
theorem reservedCodesAreRefused : Obligations.ReservedCodesAreRefused := by
  refine ⟨fun enc w p0 p1 ha h => ?_, fun enc t h => ?_, ?_, ?_⟩
  · simp [decodeCommand, ha, CmdTyp.ofCode_eq_none h]
  · simp [decodeTrb, TrbKind.ofCode_eq_none h]
  · exact exists_code_iff (all := CmdTyp.all) (fun t => by cases t <;> decide) (by decide) (by decide)
  · exact exists_code_iff (all := TrbKind.all) (fun k => by cases k <;> decide) (by decide) (by decide)

end Sys2Proof

/-! ### What a turn runs (spec/30_encoding.md R127, spec/42_trb_ring.md R250, spec/43_event_buffer.md R296) -/

namespace Sys2Proof.Machine

section
variable {s t : State} {n : EpIdx} {i : Instr} {r : Run}

/-- A step runs the instruction that its turn comes to. -/
theorem step_of_nextTurn (h : nextTurn s = .ok (.run i, t)) : step s = exec i t := by
  unfold step
  rw [h]
  rfl

/-- A turn at the head of the agenda is taken on the state without it. -/
theorem step_of_fetchTurn {x : Turn} {rest : List Turn} (ha : s.agenda = x :: rest)
    (h : fetchTurn x { s with agenda := rest } = .ok (.run i, t)) : step s = exec i t := by
  apply step_of_nextTurn
  unfold nextTurn
  rw [M.bind_of_ok (M.get_apply s), ha]
  exact h

/-- With no turn asked for, an asserted line calls IRQ once INIT is done (spec/43_event_buffer.md R296). -/
theorem step_of_irqAsserted (ha : s.agenda = []) (hl : s.irqAsserted = true) (hi : s.initialised) :
    step s = exec .irq s := by
  apply step_of_nextTurn
  unfold nextTurn
  rw [M.bind_of_ok (M.get_apply s), ha]
  simp only [idleTurn]
  rw [M.bind_of_ok (M.get_apply s), hl, decide_eq_true hi]
  rfl

/-- A raw command that decodes runs its instruction (spec/30_encoding.md R127). -/
theorem fetchCommand_decoded {w p0 p1 : Word}
    (hd : decode s.params.enc .command n (bytesOfWord w ++ bytesOfWord p0 ++ bytesOfWord p1) = .ok i) :
    fetchCommand n w p0 p1 s = .ok (.run i, s) := by
  unfold fetchCommand
  rw [M.bind_of_ok (M.get_apply s), hd]
  rfl

/-- A cached request that decodes runs its instruction (spec/44_ep0_control.md R347). -/
theorem fetchSetup_decoded {p : Setup} (hp : s.ctx.setup = some p) (hd : decode s.params.enc .setup 0 p.bytes = .ok i) :
    fetchSetup s = .ok (.run i, s) := by
  unfold fetchSetup
  rw [M.bind_of_ok (M.get_apply s), hp, M.bind_of_ok (written_some p s), hd]
  rfl

/-- H goes on with the TRB it works on (spec/42_trb_ring.md R250). -/
theorem fetchDescriptor_working {j : Job} (hx : s.hw.ep[n].xfer = .active r) (hj : r.job = some j) :
    fetchDescriptor n s = .ok (.run (Instr.ofTrb n j.kind j.trb), s) := by
  cases r
  cases hj
  unfold fetchDescriptor
  rw [M.bind_of_ok (M.get_apply s), hx]
  rfl

/-- H takes up the TRB it fetches where it works on none (spec/42_trb_ring.md R250). -/
theorem fetchDescriptor_fetched {w : TrbWords} (hx : s.hw.ep[n].xfer = .active r) (hj : r.job = none)
    (hf : fetchTrb n s = .ok (some w, t)) (hd : decode s.params.enc .trb n w.bytes = .ok i) :
    fetchDescriptor n s = .ok (.run i, t) := by
  cases r
  cases hj
  unfold fetchDescriptor
  rw [M.bind_of_ok (M.get_apply s), hx]
  simp only
  rw [M.bind_of_ok hf]
  simp only [hd]
  rfl

/-- H fetches the TRB it has read ahead (spec/20_memory.md R85). -/
theorem fetchTrb_held {w : TrbWords} (hx : s.hw.ep[n].xfer = .active r) (hw : r.waiting = false)
    (hh : r.heldTrb = some w) : fetchTrb n s = .ok (some w, s) := by
  unfold fetchTrb
  rw [M.bind_of_ok (M.get_apply s), hx]
  simp only [hw, hh]
  rfl

/-- H fetches the TRB at its pointer where it has read none ahead (spec/20_memory.md R85). -/
theorem fetchTrb_read {w : TrbWords} (hx : s.hw.ep[n].xfer = .active r) (hw : r.waiting = false) (hh : r.heldTrb = none)
    (hr : hReadTrb r.ptr s = .ok (some w, t)) : fetchTrb n s = .ok (some w, t) := by
  unfold fetchTrb
  rw [M.bind_of_ok (M.get_apply s), hx]
  simp only [hw, hh]
  exact (M.bind_of_ok hr).trans (M.bind_of_ok (written_some w t))

/-- H reads the TRB that memory holds where its reads see memory (spec/20_memory.md R78). -/
theorem hReadTrb_memory {g : GAddr} {w : TrbWords} (hs : s.hSeesMemory g) (hw : s.mem.readTrb g = some w) :
    hReadTrb g s = .ok (some w, s) := by
  rw [hReadTrb_sees hs, hw]

/-- H reads a TRB of which S has left bytes unflushed, with the listed pick (spec/93_implementation_defined.md 1.3). -/
theorem hReadTrb_listed {g : GAddr} {w : TrbWords} {picks : List GAddr} {more : List (List GAddr)}
    (hu : s.unflushedAt g trbBytes = true) (hf : s.env.fresh = picks :: more) (hw : s.hTrb picks g = some w) :
    hReadTrb g s = .ok (some w, s.setEnv { s.env with fresh := more }) := by
  have hd : drawFresh g trbBytes s = .ok (picks, s.setEnv { s.env with fresh := more }) := by
    unfold drawFresh
    rw [M.bind_of_ok (M.get_apply s), if_pos hu, hf]
    rfl
  unfold hReadTrb
  rw [M.bind_of_ok hd, ← hw]
  rfl

end

end Sys2Proof.Machine

namespace Sys2Proof

open Machine

/-- Settles O5: what each kind of turn comes to; a TRB is held ahead, read from memory, or read with the listed pick. -/
theorem stepRunsDecodedInstruction : Obligations.StepRunsDecodedInstruction := by
  intro s rest i u
  refine ⟨fun ha => step_of_fetchTurn ha rfl, fun n w p0 p1 ha hd => step_of_fetchTurn ha (fetchCommand_decoded hd),
    fun n r t ha hx hw hj hd => ⟨?_, fun picks more hh hu hf ht => ?_⟩,
    fun n r j ha hx hj => step_of_fetchTurn ha (fetchDescriptor_working hx hj),
    fun p ha hp hd => step_of_fetchTurn ha (fetchSetup_decoded hp hd), step_of_irqAsserted⟩
  · rintro (hh | ⟨hh, hs, hm⟩)
    · exact step_of_fetchTurn ha (fetchDescriptor_fetched hx hj (fetchTrb_held hx hw hh) hd)
    · exact step_of_fetchTurn ha (fetchDescriptor_fetched hx hj (fetchTrb_read hx hw hh (hReadTrb_memory hs hm)) hd)
  · exact step_of_fetchTurn ha (fetchDescriptor_fetched hx hj (fetchTrb_read hx hw hh (hReadTrb_listed hu hf ht)) hd)

end Sys2Proof

/-! ### The command dispatcher (spec/40_command_dispatcher.md R150 to R182) -/

namespace Sys2Proof.Machine

/-! #### How a command row ends -/

section
variable {s t : State} {n : EpIdx} {c : Command}

/-- A row whose operation answers leaves the state of the operation, with its result. -/
theorem outcome_returning_of_ok {m : M Result} {r : Result} (h : m s = .ok (r, t)) :
    outcome (returning m) s = .next (t.setRet r) :=
  outcome_of_ok (returning_of_ok h)

/-- A row whose operation faults, faults. -/
theorem outcome_returning_of_fault {m : M Result} {r : Fault} (h : m s = .error (.fault r)) :
    outcome (returning m) s = .fault r :=
  outcome_of_fault (M.bind_of_error h)

/-- An operation that is refused is a step that is refused. -/
theorem outcome_of_refuse {α : Type} {m : M α} {r : Refusal} (h : m s = .error (.refuse r)) : outcome m s = .refused r := by
  unfold outcome
  rw [h]

/-- A row whose operation is refused, is refused. -/
theorem outcome_returning_of_refuse {m : M Result} {r : Refusal} (h : m s = .error (.refuse r)) :
    outcome (returning m) s = .refused r :=
  outcome_of_refuse (M.bind_of_error h)

/-- An operation that is admitted runs as it does by itself. -/
theorem outcome_admitted {m : M Result} (hi : s.initialised) :
    outcome (do requireInit; returning m) s = outcome (returning m) s := by
  unfold outcome
  rw [M.bind_of_ok (requireInit_done hi)]

/-! #### The commands that H answers (spec/40_command_dispatcher.md R160 to R170) -/

/-- The endpoint of an index that the controller has (spec/40_command_dispatcher.md R157). -/
theorem epOf_present {p : Params} (h : n.val < p.numEps) : epOf p n.val = some n := by
  unfold epOf
  rw [dif_pos n.isLt, if_pos h]

/-- The controller has no endpoint at or above its number of endpoints (spec/40_command_dispatcher.md R157). -/
theorem epOf_absent {p : Params} {i : Nat} (h : p.numEps ≤ i) : epOf p i = none := by
  unfold epOf
  split
  · exact if_neg (Nat.not_lt.2 h)
  · rfl

/-- SET_EP_CONFIG gives the record its values where H performs it alone (spec/40_command_dispatcher.md R161). -/
theorem cmdSetEpConfig_commandable {cfg : EpConf} (h : s.commandable n (.setEpConfig cfg)) :
    cmdSetEpConfig n cfg s = .ok (s.commandResult (.setEpConfig cfg),
      if s.performs then s.configured n cfg else s.issued n (.setEpConfig cfg)) := by
  unfold cmdSetEpConfig
  rw [M.bind_of_ok (issue_commandable (by nofun) h), State.isOk_commandResult]
  cases s.performs <;> rfl

/-- H has written the state word of a GET_EP_STATE that it performed (spec/40_command_dispatcher.md R170). -/
theorem issued_getEpState_par2 (h : s.performs = true) :
    (s.issued n .getEpState).regs.get (.depcmdpar2 n) = s.nextAnswer.word := by
  obtain ⟨ht, h0⟩ : s.timely = true ∧ s.nextAnswer.status = s.params.enc.cmd.success := by
    simpa [State.performs] using h
  simp [State.issued, State.commanded, ht, State.completed, DepRegs.completed, h0, Regs.get]

theorem cmdGetEpState_commandable (h : s.commandable n .getEpState) :
    cmdGetEpState n s = .ok (if s.performs then .okState s.nextAnswer.word else s.commandResult .getEpState,
      s.issued n .getEpState) := by
  unfold cmdGetEpState
  rw [M.bind_of_ok (issue_commandable (by nofun) h), State.isOk_commandResult]
  cases hp : s.performs with
  | false => rfl
  | true =>
    have hr : readReg (.depcmdpar2 n) (s.issued n .getEpState) = .ok (s.nextAnswer.word, s.issued n .getEpState) := by
      rw [readReg_quiet (State.issued_quiet n .getEpState h.1.1) rfl, State.regValue_stored _ (by simp),
        issued_getEpState_par2 hp]
    exact M.bind_of_ok hr

/-- Cmd on an endpoint that the controller has is the dispatch of its words (spec/40_command_dispatcher.md R150). -/
theorem cmdOp_present {typ : CmdTyp} {grp : EpGroup} {p0 p1 : Word} {rsc : BitVec 7} (h : n.val < s.params.numEps) :
    cmdOp n.val typ grp p0 p1 rsc s = dispatchCmd n typ (cmdParam typ grp rsc) p0 p1 s := by
  unfold cmdOp
  rw [M.bind_of_ok (M.get_apply s), epOf_present h]

/-! #### The commands that H does not answer in time (spec/40_command_dispatcher.md R152, R180) -/

/-- A command with no answer within the budget is not performed. -/
theorem State.performs_of_not_timely (ht : s.timely = false) : s.performs = false := by
  unfold State.performs
  rw [ht]
  rfl

/-- A command with no answer within the budget asks nothing of the answer. -/
theorem State.ready.commandable (h : s.ready n) (ht : s.timely = false) : s.commandable n c :=
  ⟨h, fun hp => by rw [State.performs_of_not_timely ht] at hp; cases hp⟩

theorem State.issued_not_timely (ht : s.timely = false) :
    s.issued n c =
      s.overdue n (cmdword s.params.enc c.typ c.param) (c.par0 s.params.enc) (c.par1 s.params.enc) c := by
  unfold State.issued
  rw [State.commanded_eq, ht]
  rfl

theorem State.commandResult_not_timely (ht : s.timely = false) : s.commandResult c = .err .timeout := by
  unfold State.commandResult
  rw [ht]
  rfl

/-- A row of a command that H does not perform leaves what its issue leaves: the bookkeeping is of success alone. -/
theorem exec_ofCommand_not_performed (hi : s.issuable n c) (h : s.commandable n c) (hp : s.performs = false) :
    exec (Instr.ofCommand n c) s = .next ((s.issued n c).setRet (s.commandResult c)) := by
  cases c with
  | startConfig base =>
    obtain rfl : n = 0 := hi
    exact outcome_returning_of_ok (issue_commandable nofun h)
  | setEpConfig cfg => exact outcome_returning_of_ok (by simpa [hp] using cmdSetEpConfig_commandable h)
  | setXferResource count => exact outcome_returning_of_ok (issue_commandable nofun h)
  | getEpState => exact outcome_returning_of_ok (by simpa [hp] using cmdGetEpState_commandable h)
  | setStall => exact outcome_returning_of_ok (issue_commandable nofun h)
  | clearStall => exact outcome_returning_of_ok (issue_commandable nofun h)
  | startTransfer g =>
    exact outcome_returning_of_ok (by simpa [State.started, hp] using cmdStartTransfer_commandable hi h)
  | updateTransfer q =>
    obtain ⟨hb, hr⟩ := hi
    obtain ⟨r, hr⟩ := Option.ne_none_iff_exists'.1 hr
    exact outcome_returning_of_ok (cmdUpdateTransfer_commandable hb hr h)
  | endTransfer q =>
    obtain ⟨hb, hr⟩ := hi
    obtain ⟨r, hr⟩ := Option.ne_none_iff_exists'.1 hr
    exact outcome_returning_of_ok (by simpa [hp] using cmdEndTransfer_commandable hb hr h)

/-! #### The commands that stop (spec/40_command_dispatcher.md R157, R158, R163) -/

/-- A row of a command stops as its issue does, where S may issue the command. -/
theorem exec_ofCommand_of_fault {r : Fault} (hi : s.issuable n c) (hn : n.val < s.params.numEps)
    (h : issue n c s = .error (.fault r)) : exec (Instr.ofCommand n c) s = .fault r := by
  cases c with
  | startConfig base =>
    obtain rfl : n = 0 := hi
    exact outcome_returning_of_fault h
  | setEpConfig | getEpState | startTransfer => exact outcome_returning_of_fault (M.bind_of_error h)
  | setXferResource | setStall | clearStall => exact outcome_returning_of_fault h
  | updateTransfer q =>
    obtain ⟨hb, hr⟩ := hi
    obtain ⟨r, hr⟩ := Option.ne_none_iff_exists'.1 hr
    refine outcome_returning_of_fault ?_
    unfold cmdUpdateTransfer
    rw [M.bind_of_ok (requireEp_present hn), M.bind_of_ok (readRsc_busy hb hr), h]
  | endTransfer q =>
    obtain ⟨hb, hr⟩ := hi
    obtain ⟨r, hr⟩ := Option.ne_none_iff_exists'.1 hr
    refine outcome_returning_of_fault ?_
    unfold cmdEndTransfer
    rw [M.bind_of_ok (requireEp_present hn), M.bind_of_ok (readRsc_busy hb hr), M.bind_of_error h]

/-- A command to an endpoint that the controller lacks is not issued. -/
theorem issue_absent (h : ¬ n.val < s.params.numEps) : issue n c s = .error (.refuse .cmdBadEp) :=
  M.bind_of_error (requireEp_absent h)

/-- A row of a command to an endpoint that the controller lacks is refused, before its record is looked at. -/
theorem exec_ofCommand_absent (h0 : c.typ = .startConfig → n = 0) (h : ¬ n.val < s.params.numEps) :
    exec (Instr.ofCommand n c) s = .refused .cmdBadEp := by
  cases c with
  | startConfig base =>
    obtain rfl := h0 rfl
    exact outcome_returning_of_refuse (issue_absent h)
  | setEpConfig | getEpState | startTransfer => exact outcome_returning_of_refuse (M.bind_of_error (issue_absent h))
  | setXferResource | setStall | clearStall => exact outcome_returning_of_refuse (issue_absent h)
  | updateTransfer | endTransfer => exact outcome_returning_of_refuse (M.bind_of_error (requireEp_absent h))

theorem cmdOp_absent {i : Nat} {typ : CmdTyp} {grp : EpGroup} {p0 p1 : Word} {rsc : BitVec 7} (h : s.params.numEps ≤ i) :
    cmdOp i typ grp p0 p1 rsc s = .error (.refuse .cmdBadEp) := by
  unfold cmdOp
  rw [M.bind_of_ok (M.get_apply s), epOf_absent h]
  rfl

/-- START_TRANSFER on a busy endpoint faults before any access (spec/40_command_dispatcher.md R163). -/
theorem issue_startTransfer_busy {g : GAddr} (hn : n.val < s.params.numEps) (hb : s.ep[n].busy = true) :
    issue n (.startTransfer g) s = .error (.fault .doubleStart) := by
  unfold issue dispatchCmd
  rw [M.bind_of_ok (requireEp_present hn), M.bind_of_ok (M.get_apply s), M.bind_of_ok (M.get_apply s),
    if_pos (by rw [hb]; rfl)]
  rfl

/-- An endpoint that is not busy has no index to read (spec/10_state.md R26). -/
theorem cmdUpdateTransfer_idle {q : BitVec 7} (hn : n.val < s.params.numEps) (hb : s.ep[n].busy = false) :
    cmdUpdateTransfer n q s = .error (.fault .rscInvalid) := by
  unfold cmdUpdateTransfer
  rw [M.bind_of_ok (requireEp_present hn), M.bind_of_error (readRsc_idle hb)]

theorem cmdEndTransfer_idle {q : BitVec 7} (hn : n.val < s.params.numEps) (hb : s.ep[n].busy = false) :
    cmdEndTransfer n q s = .error (.fault .rscInvalid) := by
  unfold cmdEndTransfer
  rw [M.bind_of_ok (requireEp_present hn), M.bind_of_error (readRsc_idle hb)]

/-- Any write of DEPCMD faults while H executes a command there (spec/40_command_dispatcher.md R158). -/
theorem writeReg_depcmd_executing {d : Command} {x : Option Answer} (w : Word) (hq : s.quiet)
    (he : s.hw.ep[n].cmd = .executing d x) : writeReg (.depcmd n) w s = .error (.fault .cmdWhileActive) := by
  unfold writeReg writeDepcmd
  rw [M.bind_of_ok (othersTurn_quiet hq)]
  simp only
  rw [M.bind_of_ok (M.get_apply s), he]
  rfl

theorem dispatchCmd_executing {d : Command} {x : Option Answer} {typ : CmdTyp} {q : BitVec 16} {p0 p1 : Word}
    (hb : typ = .startTransfer → s.ep[n].busy = false) (hq : s.quiet) (hm : phyMaskOk s.params)
    (he : s.hw.ep[n].cmd = .executing d x) : dispatchCmd n typ q p0 p1 s = .error (.fault .cmdWhileActive) := by
  obtain ⟨saved, a, b, hs, -⟩ := phySave_quiet hq hm.1 hm.2
  have hnot : ¬ (decide (typ = .startTransfer) && s.ep[n].busy) = true := by
    simp only [Bool.and_eq_true, decide_eq_true_eq, not_and, Bool.not_eq_true]
    exact hb
  have q1 : ({ s with regs := s.regs.withPhy a b } : State).quiet := hq
  have q2 : (({ s with regs := s.regs.withPhy a b } : State).putReg (.depcmdpar0 n) p0).quiet := hq
  unfold dispatchCmd
  rw [M.bind_of_ok (M.get_apply s), if_neg hnot, M.bind_of_ok hs, M.bind_of_ok (writeReg_par0 n p0 q1),
    M.bind_of_ok (writeReg_par1 n p1 q2)]
  exact M.bind_of_error (writeReg_depcmd_executing _ hq he)

/-- S issues a START_TRANSFER on an idle endpoint alone. -/
theorem State.issuable.not_busy (hi : s.issuable n c) : c.typ = .startTransfer → s.ep[n].busy = false := by
  cases c with
  | startTransfer g => exact fun _ => hi
  | _ => exact nofun

theorem issue_executing {d : Command} {x : Option Answer} (hi : s.issuable n c) (hq : s.quiet) (hm : phyMaskOk s.params)
    (hn : n.val < s.params.numEps) (he : s.hw.ep[n].cmd = .executing d x) :
    issue n c s = .error (.fault .cmdWhileActive) := by
  unfold issue
  rw [M.bind_of_ok (requireEp_present hn), M.bind_of_ok (M.get_apply s)]
  exact dispatchCmd_executing hi.not_busy hq hm he

/-! #### The results of Cmd (spec/40_command_dispatcher.md R155) -/

/-- The results that spec/40_command_dispatcher.md R155 lists for a command type. -/
def Result.listed (typ : CmdTyp) (r : Result) : Prop :=
  (r = .ok ∧ typ ≠ .startTransfer) ∨ ((∃ idx, r = .okIdx idx) ∧ typ = .startTransfer) ∨
    r = .err .noResource ∨ r = .err .busExpiry ∨ r = .err .unknownStatus ∨ r = .err .timeout

/-- A timeout is one of them. -/
theorem Result.listed_timeout (typ : CmdTyp) : Result.listed typ (.err .timeout) :=
  .inr (.inr (.inr (.inr (.inr rfl))))

/-- What S reads from a completed command word is one of them, whatever the word (spec/30_encoding.md R102). -/
theorem Result.listed_decodeStatus (e : CmdEnc) (typ : CmdTyp) (v : Word) : Result.listed typ (decodeStatus e typ v) := by
  unfold decodeStatus statusError
  split
  · split
    · next ht => exact .inr (.inl ⟨⟨_, rfl⟩, ht⟩)
    · next ht => exact .inl ⟨rfl, ht⟩
  · refine .inr (.inr ?_)
    split
    · exact .inl rfl
    · split
      · exact .inr (.inl rfl)
      · exact .inr (.inr (.inl rfl))

theorem poll_listed {typ : CmdTyp} {k : Nat} {r : Result} (h : poll n typ k s = .ok (r, t)) : r.listed typ := by
  induction k generalizing s with
  | zero =>
    cases h
    exact Result.listed_timeout typ
  | succ k ih =>
    obtain ⟨v, u, -, h⟩ := M.bind_eq_ok.1 h
    rw [M.bind_of_ok (M.get_apply u)] at h
    split at h
    · exact ih h
    · cases h
      exact Result.listed_decodeStatus _ typ v

/-- The dispatch of a command that answers: the PHY words saved, the command written and polled, the PHY words put back. -/
theorem dispatchCmd_eq_ok {typ : CmdTyp} {q : BitVec 16} {p0 p1 : Word} {r : Result}
    (h : dispatchCmd n typ q p0 p1 s = .ok (r, t)) : ∃ saved s1 s2 s3 s4 s5 s6,
      phySave s.params.phyLpMask s = .ok (saved, s1) ∧ writeReg (.depcmdpar0 n) p0 s1 = .ok (⟨⟩, s2) ∧
      writeReg (.depcmdpar1 n) p1 s2 = .ok (⟨⟩, s3) ∧
      writeReg (.depcmd n) (cmdword s.params.enc typ q) s3 = .ok (⟨⟩, s4) ∧
      poll n typ s.params.retryBudget s4 = .ok (r, s5) ∧ phyRestore saved s5 = .ok (⟨⟩, s6) ∧
      settle n typ p0 p1 r s6 = .ok (⟨⟩, t) := by
  unfold dispatchCmd at h
  rw [M.bind_of_ok (M.get_apply s)] at h
  split at h
  · cases h
  · obtain ⟨saved, s1, h1, h⟩ := M.bind_eq_ok.1 h
    obtain ⟨⟨⟩, s2, h2, h⟩ := M.bind_eq_ok.1 h
    obtain ⟨⟨⟩, s3, h3, h⟩ := M.bind_eq_ok.1 h
    obtain ⟨⟨⟩, s4, h4, h⟩ := M.bind_eq_ok.1 h
    obtain ⟨r', s5, h5, h⟩ := M.bind_eq_ok.1 h
    obtain ⟨⟨⟩, s6, h6, h⟩ := M.bind_eq_ok.1 h
    obtain ⟨⟨⟩, s7, h7, h⟩ := M.bind_eq_ok.1 h
    cases h
    exact ⟨saved, s1, s2, s3, s4, s5, s6, h1, h2, h3, h4, h5, h6, h7⟩

/-- Cmd that answers has dispatched its words to an endpoint, and has recorded the result. -/
theorem exec_cmd_eq_next {i : Nat} {typ : CmdTyp} {grp : EpGroup} {p0 p1 : Word} {rsc : BitVec 7}
    (h : exec (.cmd i typ grp p0 p1 rsc) s = .next t) :
    ∃ (e : EpIdx) (r : Result) (u : State),
      dispatchCmd e typ (cmdParam typ grp rsc) p0 p1 s = .ok (r, u) ∧ t = u.setRet r := by
  obtain ⟨a, h⟩ := outcome_eq_next.1 h
  by_cases hi : s.initialised
  · rw [M.bind_of_ok (requireInit_done hi)] at h
    obtain ⟨r, u, hc, h⟩ := M.bind_eq_ok.1 h
    cases h
    unfold cmdOp at hc
    rw [M.bind_of_ok (M.get_apply s)] at hc
    cases he : epOf s.params i with
    | none =>
      rw [he] at hc
      cases hc
    | some e =>
      rw [he] at hc
      exact ⟨e, r, u, hc, rfl⟩
  · rw [M.bind_of_error (requireInit_not hi)] at h
    cases h

end

/-! #### The PHY words over a command (spec/40_command_dispatcher.md R151, R154) -/

/-- The two words of the registers that PHY_LP_MASK may name. -/
def Regs.phyWords (x : Regs) : Word × Word := (x.gusb2phycfg, x.gusb3pipectl)

/-- Where the other agents are silent, they are silent after `m` too, and `m` leaves the PHY words. -/
def KeepsPhy {α : Type} (m : M α) : Prop :=
  ∀ s a t, s.quiet → m s = .ok (a, t) → t.quiet ∧ t.regs.phyWords = s.regs.phyWords

section
variable {α β : Type}

theorem KeepsPhy.bind {m : M α} {f : α → M β} (hm : KeepsPhy m) (hf : ∀ a, KeepsPhy (f a)) : KeepsPhy (m >>= f) := by
  intro s b u hq h
  obtain ⟨a, t, h1, h2⟩ := M.bind_eq_ok.1 h
  obtain ⟨ht, e1⟩ := hm s a t hq h1
  obtain ⟨hu, e2⟩ := hf a t b u ht h2
  exact ⟨hu, e2.trans e1⟩

theorem KeepsPhy.ite {c : Prop} [Decidable c] {x y : M α} (hx : KeepsPhy x) (hy : KeepsPhy y) :
    KeepsPhy (if c then x else y) := by
  split
  · exact hx
  · exact hy

theorem keepsPhy_pure {a : α} : KeepsPhy (pure a : M α) := by
  intro s b t hq h
  cases h
  exact ⟨hq, rfl⟩

theorem keepsPhy_raise {r : Fault} : KeepsPhy (raise r : M α) := fun _ _ _ _ h => nomatch h

theorem keepsPhy_refuse {r : Refusal} : KeepsPhy (refuse r : M α) := fun _ _ _ _ h => nomatch h

theorem keepsPhy_get : KeepsPhy (get : M State) := by
  intro s a t hq h
  cases h
  exact ⟨hq, rfl⟩

theorem keepsPhy_modify {f : State → State} (he : ∀ s, (f s).env = s.env)
    (hr : ∀ s, (f s).regs.phyWords = s.regs.phyWords) : KeepsPhy (modify f) := by
  intro s a t hq h
  cases h
  refine ⟨?_, hr s⟩
  unfold State.quiet
  rw [he]
  exact hq

/-- A store to a register that is no PHY register leaves the PHY words. -/
theorem Regs.phyWords_put {x : Regs} {r : Reg} (v : Word) (h : ¬ r.isPhy) : (x.put v r).phyWords = x.phyWords := by
  cases r with
  | gusb2phycfg | gusb3pipectl => simp at h
  | _ => rfl

theorem keepsPhy_putReg {r : Reg} {v : State → Word} (h : ¬ r.isPhy) : KeepsPhy (modify fun s => s.putReg r (v s)) :=
  keepsPhy_modify (fun _ => rfl) fun _ => Regs.phyWords_put _ h

theorem keepsPhy_modifyHEp (n : EpIdx) (f : HEp → HEp) : KeepsPhy (modifyHEp n f) :=
  keepsPhy_modify (fun _ => rfl) fun _ => rfl

theorem keepsPhy_setHanded (f : State → List Handed) : KeepsPhy (modify fun s => s.setHanded (f s)) :=
  keepsPhy_modify (fun _ => rfl) fun _ => rfl

theorem keepsPhy_othersTurn : KeepsPhy othersTurn := by
  intro s a t hq h
  rw [othersTurn_quiet hq] at h
  cases h
  exact ⟨hq, rfl⟩

theorem keepsPhy_drawAnswer : KeepsPhy drawAnswer := by
  intro s a t hq h
  unfold drawAnswer at h
  rw [M.bind_of_ok (M.get_apply s)] at h
  cases he : s.env.answers with
  | nil =>
    rw [he, hq.2.1] at h
    cases h
    exact ⟨hq, rfl⟩
  | cons x xs =>
    rw [he] at h
    cases h
    exact ⟨hq, rfl⟩

/-- What a command does in H writes DEPCMDPAR2 at most (spec/40_command_dispatcher.md R182). -/
theorem keepsPhy_hEffect (n : EpIdx) (c : Command) (x : Answer) : KeepsPhy (hEffect n c x) := by
  intro s a t hq h
  rw [hEffect_apply] at h
  cases h
  refine ⟨hq, ?_⟩
  simp only
  split
  · exact Regs.phyWords_put _ (by simp)
  · rfl

theorem keepsPhy_hComplete (n : EpIdx) (x : Answer) : KeepsPhy (hComplete n x) := by
  refine keepsPhy_get.bind fun s => ?_
  split
  · exact keepsPhy_pure
  · next c _ _ =>
    have hput : KeepsPhy (modify fun s : State => s.putReg (.depcmd n)
        (completedWord s.params.enc.cmd (s.regs.get (.depcmd n)) c x)) := keepsPhy_putReg (by simp)
    have hdone := hput.bind fun _ => keepsPhy_modifyHEp n fun h => { h with cmd := .idle }
    exact .ite keepsPhy_pure (.ite ((keepsPhy_hEffect n c x).bind fun _ => hdone) hdone)

theorem keepsPhy_hBeforePoll (n : EpIdx) : KeepsPhy (hBeforePoll n) := by
  refine keepsPhy_get.bind fun s => ?_
  split
  · exact .ite (keepsPhy_hComplete n _) (keepsPhy_modifyHEp n _)
  · exact keepsPhy_pure

theorem keepsPhy_poll (n : EpIdx) (typ : CmdTyp) : (k : Nat) → KeepsPhy (poll n typ k)
  | 0 => keepsPhy_pure
  | k + 1 =>
    have hread : KeepsPhy (readReg (.depcmd n)) :=
      keepsPhy_othersTurn.bind fun _ => (keepsPhy_hBeforePoll n).bind fun _ => keepsPhy_get.bind fun _ => keepsPhy_pure
    hread.bind fun _ => keepsPhy_get.bind fun _ => .ite (keepsPhy_poll n typ k) keepsPhy_pure

theorem keepsPhy_hStartCommand (n : EpIdx) (w : Word) : KeepsPhy (hStartCommand n w) := by
  refine keepsPhy_get.bind fun s => ?_
  split
  · exact keepsPhy_raise
  · refine .ite (keepsPhy_drawAnswer.bind fun x => ?_) ?_
    · cases x with
      | none => exact keepsPhy_putReg (by simp)
      | some a => exact keepsPhy_putReg (by simp)
    · split
      · exact keepsPhy_refuse
      · exact (keepsPhy_putReg (by simp)).bind fun _ => (keepsPhy_setHanded _).bind fun _ =>
          keepsPhy_drawAnswer.bind fun _ => keepsPhy_modifyHEp n _

theorem keepsPhy_writeReg_par0 (n : EpIdx) (w : Word) : KeepsPhy (writeReg (.depcmdpar0 n) w) :=
  keepsPhy_othersTurn.bind fun _ => .ite keepsPhy_pure (keepsPhy_putReg (by simp))

theorem keepsPhy_writeReg_par1 (n : EpIdx) (w : Word) : KeepsPhy (writeReg (.depcmdpar1 n) w) :=
  keepsPhy_othersTurn.bind fun _ => .ite keepsPhy_pure (keepsPhy_putReg (by simp))

theorem keepsPhy_writeReg_depcmd (n : EpIdx) (w : Word) : KeepsPhy (writeReg (.depcmd n) w) := by
  refine keepsPhy_othersTurn.bind fun _ => keepsPhy_get.bind fun s => ?_
  split
  · exact keepsPhy_raise
  · exact .ite (keepsPhy_hStartCommand n w) (keepsPhy_putReg (by simp))

theorem keepsPhy_settle (n : EpIdx) (typ : CmdTyp) (p0 p1 : Word) (r : Result) : KeepsPhy (settle n typ p0 p1 r) :=
  .ite (keepsPhy_setHanded _) (.ite (keepsPhy_setHanded _) keepsPhy_pure)

end

section
variable {s t : State}

/-- PhyRestore undoes PhySave, whatever has happened between that leaves the PHY words and the silence of the others. -/
theorem phyRestore_phySave (hq : s.quiet) (hm : phyMaskOk s.params) :
    ∃ saved u, phySave s.params.phyLpMask s = .ok (saved, u) ∧ u.quiet ∧
      ∀ v, v.quiet → v.regs.phyWords = u.regs.phyWords →
        phyRestore saved v = .ok (⟨⟩, { v with regs := v.regs.withPhy s.regs.gusb2phycfg s.regs.gusb3pipectl }) := by
  obtain ⟨saved, x, y, hs, -, hw, hx, hy, -, -⟩ := phySave_quiet hq hm.1 hm.2
  refine ⟨saved, _, hs, hq, fun v hv e => ?_⟩
  obtain ⟨rfl, rfl⟩ : v.regs.gusb2phycfg = x ∧ v.regs.gusb3pipectl = y := by simpa [Regs.phyWords] using e
  refine phyRestore_quiet hv (fun p hp => ?_) hx hy
  obtain ⟨hmem, e2⟩ := hw p hp
  obtain ⟨z, hz, e1⟩ := List.mem_map.1 hmem
  rcases hm.1 z hz with h | h
  · have hp1 := e1.symm.trans h
    exact .inl ⟨hp1, by rw [e2, hp1]; rfl⟩
  · have hp1 := e1.symm.trans h
    exact .inr ⟨hp1, by rw [e2, hp1]; rfl⟩

theorem keepsPhy_dispatchCmd {n : EpIdx} {typ : CmdTyp} {q : BitVec 16} {p0 p1 : Word} {r : Result} (hq : s.quiet)
    (hm : phyMaskOk s.params) (h : dispatchCmd n typ q p0 p1 s = .ok (r, t)) : t.regs.phyWords = s.regs.phyWords := by
  obtain ⟨saved, s1, s2, s3, s4, s5, s6, h1, h2, h3, h4, h5, h6, h7⟩ := dispatchCmd_eq_ok h
  obtain ⟨saved', u, hs, q1, hrest⟩ := phyRestore_phySave hq hm
  rw [hs] at h1
  cases h1
  obtain ⟨q2, e2⟩ := keepsPhy_writeReg_par0 n p0 _ _ _ q1 h2
  obtain ⟨q3, e3⟩ := keepsPhy_writeReg_par1 n p1 _ _ _ q2 h3
  obtain ⟨q4, e4⟩ := keepsPhy_writeReg_depcmd n _ _ _ _ q3 h4
  obtain ⟨q5, e5⟩ := keepsPhy_poll n typ _ _ _ _ q4 h5
  rw [hrest s5 q5 (e5.trans (e4.trans (e3.trans e2)))] at h6
  cases h6
  exact (keepsPhy_settle n typ p0 p1 r _ _ _ (by exact q5) h7).2

end

end Sys2Proof.Machine

namespace Sys2Proof

open Machine

/-- Settles O11: each of the four rows is the issue of its word. -/
theorem plainCommandsComplete : Obligations.PlainCommandsComplete :=
  ⟨fun _ _ h => outcome_returning_of_ok (issue_commandable nofun h),
    fun _ _ _ h => outcome_returning_of_ok (issue_commandable nofun h),
    fun _ _ h => outcome_returning_of_ok (issue_commandable nofun h),
    fun _ _ h => outcome_returning_of_ok (issue_commandable nofun h)⟩

/-- Settles O12: the issue of the word, then the record or the read of DEPCMDPAR2 where H has performed the command. -/
theorem configAndStateCommandsComplete : Obligations.ConfigAndStateCommandsComplete :=
  ⟨fun _ _ _ h => outcome_returning_of_ok (cmdSetEpConfig_commandable h),
    fun _ _ h => outcome_returning_of_ok (cmdGetEpState_commandable h)⟩

/-- Settles O13, by the law of START_TRANSFER on an idle endpoint. -/
theorem startTransferCompletes : Obligations.StartTransferCompletes :=
  fun _ _ _ hb h => outcome_returning_of_ok (cmdStartTransfer_commandable hb h)

/-- Settles O14: a valid index is some index, which the row reads and does not use. -/
theorem updateTransferCompletes : Obligations.UpdateTransferCompletes := by
  intro s n q hb hr h
  obtain ⟨r, hr⟩ := Option.ne_none_iff_exists'.1 hr
  exact outcome_returning_of_ok (cmdUpdateTransfer_commandable hb hr h)

/-- Settles O15: a valid index is some index, which the row reads and does not use. -/
theorem endTransferCompletes : Obligations.EndTransferCompletes := by
  intro s n q hb hr h
  obtain ⟨r, hr⟩ := Option.ne_none_iff_exists'.1 hr
  exact outcome_returning_of_ok (cmdEndTransfer_commandable hb hr h)

/-- Settles O16: an admitted Cmd dispatches the words of its arguments to the endpoint of its index. -/
theorem cmdCompletes : Obligations.CmdCompletes := by
  intro s n typ grp p0 p1 rsc c w hi hd hb h
  have hn : n.val < s.params.numEps := h.1.2.2.1
  exact (outcome_admitted hi).trans
    (outcome_returning_of_ok ((cmdOp_present hn).trans (dispatchCmd_commandable hd hb h)))

/-- Settles O17: a command with no answer in time is not performed, and what it leaves is what is overdue. -/
theorem unansweredCommandTimesOut : Obligations.UnansweredCommandTimesOut := by
  intro s n c hi h ht
  rw [exec_ofCommand_not_performed hi (h.commandable ht) (State.performs_of_not_timely ht), State.issued_not_timely ht,
    State.commandResult_not_timely ht]

/-- Settles O18: the result of Cmd is the one of its poll. -/
theorem cmdReturnsOneResult : Obligations.CmdReturnsOneResult := by
  intro s t i typ grp p0 p1 rsc h
  obtain ⟨n, r, u, hd, rfl⟩ := exec_cmd_eq_next h
  obtain ⟨_, _, _, _, _, _, _, -, -, -, -, hpoll, -, -⟩ := dispatchCmd_eq_ok hd
  exact poll_listed hpoll

/-- Settles O19: between PhySave and PhyRestore no access changes the PHY words. -/
theorem cmdRestoresPhyBits : Obligations.CmdRestoresPhyBits := by
  intro s t i typ grp p0 p1 rsc hq hm h
  obtain ⟨n, r, u, hd, rfl⟩ := exec_cmd_eq_next h
  exact Prod.mk.inj (keepsPhy_dispatchCmd (t := u) hq hm hd)

/-- Settles O20: the dispatcher's check of R163, the read of an index that is not valid, and the write of DEPCMD. -/
theorem commandsFault : Obligations.CommandsFault := by
  refine ⟨fun s n g hn hb => ?_, fun s n q hn hb => ?_, fun s n c d x hi hq hm hn he => ?_⟩
  · exact outcome_returning_of_fault (M.bind_of_error (issue_startTransfer_busy hn hb))
  · exact ⟨outcome_returning_of_fault (cmdUpdateTransfer_idle hn hb), outcome_returning_of_fault (cmdEndTransfer_idle hn hb)⟩
  · exact exec_ofCommand_of_fault hi hn (issue_executing hi hq hm hn he)

/-- Settles O21: the endpoint is looked for before anything else. -/
theorem missingEndpointIsRefused : Obligations.MissingEndpointIsRefused := by
  refine ⟨fun s n typ grp p0 p1 rsc hi hn => ?_, fun s n c h0 hn => exec_ofCommand_absent h0 (Nat.not_lt.2 hn)⟩
  exact (outcome_admitted hi).trans (outcome_returning_of_refuse (cmdOp_absent hn))

end Sys2Proof

/-! ### The endpoint lifecycle (spec/41_endpoint_lifecycle.md R190 to R202) -/

namespace Sys2Proof

/-- Setting one bit of a word keeps every other (spec/10_state.md R37). -/
theorem putField_ofBool_true (w : Word) (i : Nat) : putField w i (BitVec.ofBool true) = w ||| (1#32 <<< i) := by
  show (w &&& ~~~(1#32 <<< i)) ||| (1#32 <<< i) = w ||| (1#32 <<< i)
  generalize 1#32 <<< i = m
  apply BitVec.eq_of_getLsbD_eq
  intro j hj
  simp only [BitVec.getLsbD_or, BitVec.getLsbD_and, BitVec.getLsbD_not, hj, decide_true, Bool.true_and]
  cases m.getLsbD j <;> simp

/-- Clearing one bit of a word keeps every other (spec/10_state.md R37). -/
theorem putField_ofBool_false (w : Word) (i : Nat) : putField w i (BitVec.ofBool false) = w &&& ~~~(1#32 <<< i) := by
  show (w &&& ~~~(1#32 <<< i)) ||| (0#32 <<< i) = w &&& ~~~(1#32 <<< i)
  rw [BitVec.zero_shiftLeft, BitVec.or_zero]

end Sys2Proof

namespace Sys2Proof.Machine

section
variable {s t : State} {n : EpIdx} {c : Command} {num mps interval : Nat} {dir : Dir} {type : EpType} {cfg : EpConf}

/-! #### How an operation of L ends -/

/-- An operation that is admitted and answers leaves its state, with its result. -/
theorem outcome_admitted_of_ok {m : M Result} {r : Result} (hi : s.initialised) (h : m s = .ok (r, t)) :
    outcome (do requireInit; returning m) s = .next (t.setRet r) :=
  (outcome_admitted hi).trans (outcome_returning_of_ok h)

/-- An operation that is admitted and refuses its arguments. -/
theorem outcome_admitted_of_refuse {m : M Result} {r : Refusal} (hi : s.initialised) (h : m s = .error (.refuse r)) :
    outcome (do requireInit; returning m) s = .refused r :=
  (outcome_admitted hi).trans (outcome_returning_of_refuse h)

/-! #### The endpoint of an operation (spec/00_scope.md R13, R190) -/

theorem logicalEp_eq_none {p : Params} (h : maxLogical < num ∨ p.numEps ≤ num * 2 + dirBit dir) :
    logicalEp p num dir = none := by
  unfold logicalEp
  rcases h with hm | hn
  · exact if_pos hm
  · rw [epOf_absent hn, ite_self]

/-- A logical number within MAX_LOGICAL names an endpoint of the controller where its index is one. -/
theorem exists_logicalEp {p : Params} (hm : num ≤ maxLogical) (hn : num * 2 + dirBit dir < p.numEps) :
    ∃ n, logicalEp p num dir = some n := by
  have hd : dirBit dir ≤ 1 := by cases dir <;> decide
  have h32 : num * 2 + dirBit dir < 32 := by
    unfold maxLogical at hm
    omega
  exact ⟨⟨_, h32⟩, logicalEp_eq_some rfl hm hn⟩

/-! #### A command and the bookkeeping of its success -/

/-- A command other than START_TRANSFER answers OK where H performs it. -/
theorem State.commandResult_eq_ok (hc : c.typ ≠ .startTransfer) (hp : s.performs = true) : s.commandResult c = .ok := by
  rw [State.commandResult_performs c hp, if_neg hc]

/-- No command answers OK where H does not perform it. -/
theorem State.commandResult_ne_ok (hp : s.performs = false) : s.commandResult c ≠ .ok := by
  obtain ⟨e, he⟩ := State.commandResult_not hp
  rw [he]
  nofun

/-- A command other than START_TRANSFER that S records on success alone, whatever H answers and whenever. -/
theorem issue_recorded {f : State → State} (hc : c.typ ≠ .startTransfer) (h : s.commandable n c) :
    (do
      let r ← issue n c
      if r = .ok then modify f else pure ()
      pure r : M Result) s =
      .ok (s.commandResult c, if s.performs then f (s.issued n c) else s.issued n c) := by
  rw [M.bind_of_ok (issue_commandable (fun e => absurd e hc) h)]
  cases hp : s.performs with
  | true =>
    rw [if_pos (State.commandResult_eq_ok hc hp)]
    rfl
  | false =>
    rw [if_neg (State.commandResult_ne_ok hp)]
    rfl

/-! #### The checks of ENABLE (R190) -/

theorem enable_absent (h : logicalEp s.params num dir = none) :
    enable num dir type mps interval s = .ok (.err .invalidEp, s) := by
  unfold enable
  rw [M.bind_of_ok (M.get_apply s), h]
  rfl

/-- ENABLE of an endpoint that the controller has: the checks of its type and packet size, then the steps. -/
theorem enable_present (h : logicalEp s.params num dir = some n) :
    enable num dir type mps interval s =
      (if type = .isochronous then refuse .isoUnsupported
      else if decide (num = 0) ≠ decide (type = .control) then pure (.err .invalidEp)
      else if mps = 0 ∨ 2047 < mps then refuse .badMps
      else enableSteps n type mps interval : M Result) s := by
  unfold enable
  rw [M.bind_of_ok (M.get_apply s), h]

theorem enable_isochronous (h : logicalEp s.params num dir = some n) (ht : type = .isochronous) :
    enable num dir type mps interval s = .error (.refuse .isoUnsupported) := by
  rw [enable_present h, if_pos ht]
  rfl

/-- CONTROL belongs to number 0, and every other type to the other numbers. -/
theorem enable_wrongType (h : logicalEp s.params num dir = some n) (ht : type ≠ .isochronous)
    (hc : ¬ (num = 0 ↔ type = .control)) : enable num dir type mps interval s = .ok (.err .invalidEp, s) := by
  rw [enable_present h, if_neg ht, if_pos fun hk => hc (decide_eq_decide.1 hk)]
  rfl

theorem enable_badMps (h : logicalEp s.params num dir = some n) (ht : type ≠ .isochronous)
    (hc : num = 0 ↔ type = .control) (hm : mps = 0 ∨ 2047 < mps) :
    enable num dir type mps interval s = .error (.refuse .badMps) := by
  rw [enable_present h, if_neg ht, if_neg (not_not.2 (decide_eq_decide.2 hc)), if_pos hm]
  rfl

theorem enable_checked (h : logicalEp s.params num dir = some n) (ht : type ≠ .isochronous)
    (hc : num = 0 ↔ type = .control) (h1 : 1 ≤ mps) (h2 : mps ≤ 2047) :
    enable num dir type mps interval s = enableSteps n type mps interval s := by
  rw [enable_present h, if_neg ht, if_neg (not_not.2 (decide_eq_decide.2 hc)), if_neg (by omega)]

/-! #### Step 1 of ENABLE, start-config (R191) -/

/-- START_CONFIG of a group for which it has not succeeded yet: on success alone the group is started. -/
theorem enableStart_commandable (hg : s.ctx.groupStarted n = false)
    (h : s.commandable 0 (.startConfig (startBase (groupOf n)))) :
    enableStart n s = .ok (s.commandResult (.startConfig (startBase (groupOf n))),
      if s.performs then s.groupReady n else s.issued 0 (.startConfig (startBase (groupOf n)))) := by
  have hready : s.groupReady n =
      (s.issued 0 (.startConfig (startBase (groupOf n)))).updCtx fun c => c.startGroup n := by
    unfold State.groupReady
    rw [hg, if_neg Bool.false_ne_true]
  rw [hready, ← issue_recorded (f := fun s => s.updCtx fun c => c.startGroup n) (by nofun) h]
  unfold enableStart
  rw [M.bind_of_ok (M.get_apply s)]
  unfold Ctx.groupStarted at hg
  unfold Ctx.startGroup
  cases hgr : groupOf n with
  | ep0Pair | others =>
    simp only [hgr] at hg
    simp only [hg]
    rfl

/-- Step 1 where the group is started already, or START_CONFIG succeeds. -/
theorem enableStart_granted (h : s.ctx.groupStarted n = false → s.granted 0 (.startConfig (startBase (groupOf n)))) :
    enableStart n s = .ok (.ok, s.groupReady n) := by
  cases hg : s.ctx.groupStarted n with
  | true =>
    rw [enableStart_started hg, State.groupReady, if_pos hg]
  | false =>
    obtain ⟨hc, hp⟩ := h hg
    rw [enableStart_commandable hg hc, State.commandResult_eq_ok (by nofun) hp, if_pos hp]

/-- Step 1 issues START_CONFIG at most, which gives no TRB to either side. -/
theorem State.groupReady_frame (s : State) (n : EpIdx) :
    (s.groupReady n).ep = s.ep ∧ (s.groupReady n).params = s.params ∧ (s.groupReady n).mem = s.mem ∧
      (s.groupReady n).handed = s.handed := by
  unfold State.groupReady
  split
  · exact ⟨rfl, rfl, rfl, rfl⟩
  · refine ⟨rfl, rfl, rfl, ?_⟩
    rw [State.updCtx_handed]
    unfold State.issued State.commanded
    cases s.timely <;> rfl

/-! #### Step 2 of ENABLE, SET_EP_CONFIG (R192) -/

/-- Step 2 leaves the flag `enabled`, and who owns what. -/
theorem State.configured_frame (s : State) (n : EpIdx) (cfg : EpConf) :
    (s.configured n cfg).ep[n].enabled = s.ep[n].enabled ∧ (s.configured n cfg).params = s.params ∧
      (s.configured n cfg).mem = s.mem ∧ (s.configured n cfg).handed = s.handed := by
  refine ⟨?_, rfl, rfl, State.issued_handed (.inl rfl)⟩
  unfold State.configured
  rw [State.updEp_same]
  rfl

/-! #### Step 3 of ENABLE, on the first enable alone (R193) -/

/-- Where the launch, memory and the TRBs handed over stay, a ring free of H's TRBs stays free of them. -/
theorem State.ringFree_congr (hf : s.ringFree n) (hp : t.params = s.params) (hm : t.mem = s.mem)
    (hh : t.handed = s.handed) : t.ringFree n := by
  simpa only [State.ringFree, hp, State.ownsTrb_congr _ hp hm hh] using hf

/-- Bit `n` of DALEPENA and the flag are set after a SET_XFER_RESOURCE that succeeds, and a ring is made anew. -/
theorem enableFirst_granted
    (h : s.ep[n].enabled = false → s.granted n (.setXferResource 1) ∧ (2 ≤ n.val → s.ringFree n)) :
    enableFirst n s = .ok (.ok, s.firstEnabled n) := by
  unfold enableFirst State.firstEnabled
  rw [M.bind_of_ok (getEp_apply n s)]
  cases he : s.ep[n].enabled with
  | true => rfl
  | false =>
    obtain ⟨hg, hf⟩ := h he
    have hq : (s.issued n (.setXferResource 1)).quiet := s.issued_quiet n _ hg.1.1.1
    have hh : (s.issued n (.setXferResource 1)).handed = s.handed := State.issued_handed (.inr rfl)
    unfold cmdSetXferResource State.markEnabled
    rw [if_neg Bool.false_ne_true, if_neg Bool.false_ne_true, M.bind_of_ok (issue_granted (by nofun) hg), if_pos rfl,
      M.bind_of_ok (writeEpEnable_quiet hq), M.bind_of_ok (modifyEp_apply _ _ _), putField_ofBool_true _ n.val]
    by_cases h2 : 2 ≤ n.val
    · simp only [if_pos h2]
      exact M.bind_of_ok (ringInit_quiet hq (State.ringFree_congr (hf h2) rfl rfl hh))
    · simp only [if_neg h2]
      rfl

/-- A SET_XFER_RESOURCE that H does not perform ends the first enable. -/
theorem enableFirst_not_performed (he : s.ep[n].enabled = false) (h : s.commandable n (.setXferResource 1))
    (hp : s.performs = false) :
    enableFirst n s = .ok (s.commandResult (.setXferResource 1), s.issued n (.setXferResource 1)) := by
  unfold enableFirst cmdSetXferResource
  rw [M.bind_of_ok (getEp_apply n s), he, if_neg Bool.false_ne_true, M.bind_of_ok (issue_commandable (by nofun) h),
    if_neg (State.commandResult_ne_ok hp)]
  rfl

/-! #### The three steps in order (R190, R194) -/

/-- A START_CONFIG that H does not perform ends ENABLE. -/
theorem enableSteps_start_not_performed (hg : s.ctx.groupStarted n = false)
    (h : s.commandable 0 (.startConfig (startBase (groupOf n)))) (hp : s.performs = false) :
    enableSteps n type mps interval s = .ok (s.commandResult (.startConfig (startBase (groupOf n))),
      s.issued 0 (.startConfig (startBase (groupOf n)))) := by
  unfold enableSteps
  rw [M.bind_of_ok (enableStart_commandable hg h), if_neg (State.commandResult_ne_ok hp), hp]
  rfl

/-- A SET_EP_CONFIG that H does not perform ends ENABLE after step 1. -/
theorem enableSteps_config_not_performed
    (h1 : s.ctx.groupStarted n = false → s.granted 0 (.startConfig (startBase (groupOf n))))
    (h2 : (s.groupReady n).commandable n (.setEpConfig (confFor n type mps interval)))
    (hp : (s.groupReady n).performs = false) :
    enableSteps n type mps interval s =
      .ok ((s.groupReady n).commandResult (.setEpConfig (confFor n type mps interval)),
        (s.groupReady n).issued n (.setEpConfig (confFor n type mps interval))) := by
  unfold enableSteps
  rw [M.bind_of_ok (enableStart_granted h1), if_pos rfl, M.bind_of_ok (cmdSetEpConfig_commandable h2),
    if_neg (State.commandResult_ne_ok hp), hp]
  rfl

/-- Once SET_EP_CONFIG has succeeded, what is left of ENABLE is step 3. -/
theorem enableSteps_configured
    (h1 : s.ctx.groupStarted n = false → s.granted 0 (.startConfig (startBase (groupOf n))))
    (h2 : (s.groupReady n).granted n (.setEpConfig (confFor n type mps interval))) :
    enableSteps n type mps interval s =
      enableFirst n ((s.groupReady n).configured n (confFor n type mps interval)) := by
  unfold enableSteps
  rw [M.bind_of_ok (enableStart_granted h1), if_pos rfl, M.bind_of_ok (cmdSetEpConfig_granted h2), if_pos rfl]

/-- Steps 1 and 2 leave the flag `enabled` of the endpoint, and a ring free of H's TRBs. -/
theorem State.groupReady_configured_frame (s : State) (n : EpIdx) (cfg : EpConf) :
    ((s.groupReady n).configured n cfg).ep[n].enabled = s.ep[n].enabled ∧
      (s.ringFree n → ((s.groupReady n).configured n cfg).ringFree n) := by
  obtain ⟨hep, hpar, hmem, hhanded⟩ := s.groupReady_frame n
  obtain ⟨he, hp, hm, hh⟩ := (s.groupReady n).configured_frame n cfg
  refine ⟨by rw [he, hep], fun hf => State.ringFree_congr hf ?_ ?_ ?_⟩
  · rw [hp, hpar]
  · rw [hm, hmem]
  · rw [hh, hhanded]

/-! #### DISABLE (R200) -/

theorem disable_absent (h : logicalEp s.params num dir = none) : disable num dir s = .ok (.err .invalidEp, s) := by
  unfold disable
  rw [M.bind_of_ok (M.get_apply s), h]
  rfl

theorem disable_present (hq : s.quiet) (h : logicalEp s.params num dir = some n) :
    disable num dir s = .ok (.ok, (s.putReg .dalepena (s.regs.dalepena &&& ~~~(1#32 <<< n.val))).updEp n fun e =>
      { e with enabled := false }) := by
  unfold disable
  rw [M.bind_of_ok (M.get_apply s), h]
  simp only
  rw [M.bind_of_ok (writeEpEnable_quiet hq), putField_ofBool_false _ n.val]
  rfl

/-! #### STALL and CLEAR_STALL (R201, R202) -/

theorem State.stallable_absent (h : logicalEp s.params num dir = none) : s.stallable num dir = none := by
  unfold State.stallable
  rw [h]

theorem State.stallable_present (h : logicalEp s.params num dir = some n) :
    s.stallable num dir = if s.ep[n].enabled then some n else none := by
  unfold State.stallable
  rw [h]

/-- Neither operation does anything to an endpoint that cannot be stalled. -/
theorem stall_clearStall_not_stallable (h : s.stallable num dir = none) :
    stall num dir s = .ok (.err .invalidEp, s) ∧ clearStall num dir s = .ok (.err .invalidEp, s) := by
  unfold stall clearStall
  rw [M.bind_of_ok (M.get_apply s), M.bind_of_ok (M.get_apply s), h]
  exact ⟨rfl, rfl⟩

theorem stall_stallable (h : s.stallable num dir = some n) (hc : s.commandable n .setStall) :
    stall num dir s = .ok (s.commandResult .setStall,
      if s.performs then (s.issued n .setStall).updEp n fun e => { e with stalled := true }
      else s.issued n .setStall) := by
  unfold stall
  rw [M.bind_of_ok (M.get_apply s), h]
  exact issue_recorded nofun hc

theorem clearStall_stallable (h : s.stallable num dir = some n) (hc : s.commandable n .clearStall) :
    clearStall num dir s = .ok (s.commandResult .clearStall,
      if s.performs then (s.issued n .clearStall).updEp n fun e => { e with stalled := false, wedge := false }
      else s.issued n .clearStall) := by
  unfold clearStall
  rw [M.bind_of_ok (M.get_apply s), h]
  exact issue_recorded nofun hc

end

end Sys2Proof.Machine

namespace Sys2Proof

open Machine

/-- Settles O47: past its checks ENABLE runs its three steps in order, and ends at the first command that H does not
perform. -/
theorem enableCompletes : Obligations.EnableCompletes := by
  intro s num dir type mps interval n base cfg s1 s2 hi hv hm hn hty hc h1 h2
  have hsteps : enable num dir type mps interval s = enableSteps n type mps interval s :=
    enable_checked (logicalEp_eq_some hv hm hn) hty hc h1 h2
  obtain ⟨he, hf⟩ := s.groupReady_configured_frame n cfg
  refine ⟨fun hg ha hp => ?_, fun hstart => ⟨fun ha hp => ?_, fun hcfg => ⟨fun hfirst => ?_, fun hen ha hp => ?_⟩⟩⟩
  · exact outcome_admitted_of_ok hi (hsteps.trans (enableSteps_start_not_performed hg ha hp))
  · exact outcome_admitted_of_ok hi (hsteps.trans (enableSteps_config_not_performed hstart ha hp))
  · refine outcome_admitted_of_ok hi ((hsteps.trans (enableSteps_configured hstart hcfg)).trans ?_)
    exact enableFirst_granted fun hen => (hfirst (he.symm.trans hen)).imp_right fun hring h2 => hf (hring h2)
  · refine outcome_admitted_of_ok hi ((hsteps.trans (enableSteps_configured hstart hcfg)).trans ?_)
    exact enableFirst_not_performed (he.trans hen) ha hp

/-- Settles O48: each check is reached where those before it have passed. -/
theorem enableChecks : Obligations.EnableChecks := by
  intro s num dir type mps interval hi _
  refine ⟨fun h => outcome_admitted_of_ok hi (enable_absent (logicalEp_eq_none h)), fun hm hn => ?_⟩
  obtain ⟨n, hl⟩ := exists_logicalEp hm hn
  refine ⟨fun ht => ?_, fun ht hc => ?_, fun ht hc hb => ?_⟩
  · exact outcome_admitted_of_refuse hi (enable_isochronous hl ht)
  · exact outcome_admitted_of_ok hi (enable_wrongType hl ht hc)
  · exact outcome_admitted_of_refuse hi (enable_badMps hl ht hc hb)

/-- Settles O49: one bit of DALEPENA and one flag are written. -/
theorem disableCompletes : Obligations.DisableCompletes := by
  intro s num dir hi hq _
  refine ⟨fun n hm hv hn => ?_, fun h => ?_⟩
  · exact outcome_admitted_of_ok hi (disable_present hq (logicalEp_eq_some hv hm hn))
  · exact outcome_admitted_of_ok hi (disable_absent (logicalEp_eq_none h))

/-- Settles O50: an endpoint that is present and enabled can be stalled, and the flags are the record of the command's
success. -/
theorem stallAndClearStallComplete : Obligations.StallAndClearStallComplete := by
  intro s num dir hi _
  refine ⟨fun n hm hv hn => ?_, fun h => ?_⟩
  · have hl : s.stallable num dir = if s.ep[n].enabled then some n else none :=
      State.stallable_present (logicalEp_eq_some hv hm hn)
    refine ⟨fun he => ?_, fun he hc => ?_, fun he hc => ?_⟩
    · obtain ⟨hs, hcs⟩ := stall_clearStall_not_stallable (hl.trans (if_neg (by rw [he]; decide)))
      exact ⟨outcome_admitted_of_ok hi hs, outcome_admitted_of_ok hi hcs⟩
    · exact outcome_admitted_of_ok hi (stall_stallable (hl.trans (if_pos he)) hc)
    · exact outcome_admitted_of_ok hi (clearStall_stallable (hl.trans (if_pos he)) hc)
  · obtain ⟨hs, hcs⟩ := stall_clearStall_not_stallable (State.stallable_absent (logicalEp_eq_none h))
    exact ⟨outcome_admitted_of_ok hi hs, outcome_admitted_of_ok hi hcs⟩

end Sys2Proof

/-! ### H's procedure on one TRB (spec/42_trb_ring.md R250, R251) -/

namespace Sys2Proof.Machine

section
variable {s t : State} {n : EpIdx} {r : Run} {j : Job} {k : TrbKind} {f : TrbFields}

/-! #### The transfer of an endpoint -/

theorem State.withRun_xfer (s : State) (n : EpIdx) (r : Run) : (s.withRun n r).hw.ep[n].xfer = .active r := by
  simp [State.withRun]

theorem State.withRun_working (s : State) (n : EpIdx) (r : Run) :
    (s.withRun n r).hw.ep[n].xfer.working = r.job.isSome := by
  rw [State.withRun_xfer]
  rfl

/-- A change of H's record on one endpoint takes the place of the one before. -/
theorem State.updHEp_updHEp (s : State) (n : EpIdx) (f g : HEp → HEp) :
    (s.updHEp n f).updHEp n g = s.updHEp n fun h => g (f h) := by
  simp [State.updHEp]

@[simp] theorem State.withRun_withRun (s : State) (n : EpIdx) (q r : Run) : (s.withRun n q).withRun n r = s.withRun n r :=
  s.updHEp_updHEp n _ _

/-- The transfer that is, given again. -/
theorem State.withRun_self (hx : s.hw.ep[n].xfer = .active r) : s.withRun n r = s := by
  unfold State.withRun State.updHEp
  rw [set_getElem_self s.hw.ep n _ (by rw [← hx])]

/-- The event owed, the configuration and the stall of an endpoint stay where a transfer changes. -/
theorem State.withRun_frame (s : State) (n : EpIdx) (r : Run) (m : EpIdx) :
    (s.withRun n r).hw.ep[m].owed = s.hw.ep[m].owed ∧ (s.withRun n r).hw.ep[m].conf = s.hw.ep[m].conf ∧
      (s.withRun n r).hw.ep[m].stalled = s.hw.ep[m].stalled := by
  by_cases h : n = m
  · subst h
    simp [State.withRun]
  · unfold State.withRun
    rw [State.updHEp_other s n m _ h]
    exact ⟨rfl, rfl, rfl⟩

theorem State.withRun_owed (s : State) (n : EpIdx) (r : Run) : (s.withRun n r).hw.ep[n].owed = s.hw.ep[n].owed :=
  (s.withRun_frame n r n).1

@[simp] theorem State.withRun_hStalled (s : State) (n : EpIdx) (r : Run) : (s.withRun n r).hStalled n = s.hStalled n := by
  obtain ⟨-, -, hn⟩ := s.withRun_frame n r n
  obtain ⟨-, -, h0⟩ := s.withRun_frame n r 0
  unfold State.hStalled
  rw [hn, h0]

@[simp] theorem State.withRun_endsTrb (s : State) (n : EpIdx) (r : Run) (i : Nat) (m : Moved) :
    (s.withRun n r).endsTrb n k f i m = s.endsTrb n k f i m := by
  obtain ⟨-, hc, -⟩ := s.withRun_frame n r n
  unfold State.endsTrb State.packetSize
  rw [hc]

@[simp] theorem State.withRun_reportsComplete (s : State) (n : EpIdx) (r : Run) :
    (s.withRun n r).reportsComplete n = s.reportsComplete n := by
  obtain ⟨-, hc, -⟩ := s.withRun_frame n r n
  unfold State.reportsComplete
  rw [hc]

/-! #### Steps that are not due -/

/-- A transfer that works on no TRB is in no phase. -/
theorem State.job?_eq_none (h : s.hw.ep[n].xfer.working = false) (p : Phase) : s.job? n p = none := by
  unfold State.job?
  unfold Xfer.working at h
  split
  · rfl
  · next r hx =>
    rw [hx] at h
    have hj : r.job = none := by simpa using h
    rw [hj]

/-- A transfer whose TRB has come to one phase is in no other. -/
theorem State.job?_otherPhase (hx : s.hw.ep[n].xfer = .active r) (hj : r.job = some j) {p : Phase} (hp : j.phase ≠ p) :
    s.job? n p = none := by
  unfold State.job?
  rw [hx]
  simp [hj, hp]

theorem hMove_notDue (h : s.job? n .moving = none) : hMove n s = .ok (⟨⟩, s) := by
  unfold hMove
  rw [M.bind_of_ok (M.get_apply s), h]
  rfl

theorem hWriteSize_notDue (h : s.job? n .moved = none) : hWriteSize n s = .ok (⟨⟩, s) := by
  unfold hWriteSize
  rw [M.bind_of_ok (M.get_apply s), h]
  rfl

theorem hWriteControl_notDue (h : s.job? n .sized = none) : hWriteControl n s = .ok (⟨⟩, s) := by
  unfold hWriteControl
  rw [M.bind_of_ok (M.get_apply s), h]
  rfl

theorem hClose_notDue (h : s.job? n .released = none) : hClose n s = .ok (⟨⟩, s) := by
  unfold hClose
  rw [M.bind_of_ok (M.get_apply s), h]
  rfl

/-- What is left of a pass once the data have moved: both words written back, and the TRB closed. -/
def hAfterMove (n : EpIdx) : M Unit := do
  hWriteSize n
  hWriteControl n
  hClose n

/-- A TRB whose data have not all moved is not written back. -/
theorem hAfterMove_notDue (h : ∀ p, p ≠ .moving → s.job? n p = none) : hAfterMove n s = .ok (⟨⟩, s) := by
  unfold hAfterMove
  rw [M.bind_of_ok (hWriteSize_notDue (h _ nofun)), M.bind_of_ok (hWriteControl_notDue (h _ nofun))]
  exact hClose_notDue (h _ nofun)

/-! #### Up to the move of the data -/

theorem exec_ofTrb (n : EpIdx) (k : TrbKind) (f : TrbFields) (s : State) :
    exec (Instr.ofTrb n k f) s = outcome (hRunTrb n k f) s := by
  cases k <;> rfl

/-- H owes no event of the TRB before, or works on one. -/
theorem hSettle_nothing (h : s.hw.ep[n].xfer.working = true ∨ s.hw.ep[n].owed = none) : hSettle n s = .ok (⟨⟩, s) := by
  unfold hSettle
  rw [M.bind_of_ok (M.get_apply s)]
  split
  · rfl
  · next hw => exact hReportOwed_none (h.resolve_left hw)

theorem hSettle_notWorking (h : s.hw.ep[n].xfer.working = false) : hSettle n s = hReportOwed n s := by
  unfold hSettle
  rw [M.bind_of_ok (M.get_apply s), if_neg (by rw [h]; decide)]

/-- Past what H owed and the TRB taken up, a pass is the move of the data and what follows. -/
theorem hRunTrb_begun {u : State} (h1 : hSettle n s = .ok (⟨⟩, t)) (h2 : hBegin n k f t = .ok (⟨⟩, u)) :
    hRunTrb n k f s = (do hMove n; hAfterMove n : M Unit) u := by
  unfold hRunTrb
  rw [M.bind_of_ok h1, M.bind_of_ok h2]
  rfl

/-- A pass after which H works on no TRB ends there. -/
theorem hRunTrb_notWorking {u : State} (h1 : hSettle n s = .ok (⟨⟩, t)) (h2 : hBegin n k f t = .ok (⟨⟩, u))
    (hw : u.hw.ep[n].xfer.working = false) : hRunTrb n k f s = .ok (⟨⟩, u) := by
  rw [hRunTrb_begun h1 h2, M.bind_of_ok (hMove_notDue (State.job?_eq_none hw _))]
  exact hAfterMove_notDue fun p _ => State.job?_eq_none hw p

/-- A TRB with HWO = 0 makes an active transfer wait, and H drops what it holds (spec/42_trb_ring.md R250). -/
theorem hWait_active (hx : s.hw.ep[n].xfer = .active r) :
    hWait n s = .ok (⟨⟩, s.withRun n { r with waiting := true, held := [] }) := by
  unfold hWait State.withRun
  simp only [modifyHEp_apply, State.updHEp, hx]

/-- H takes up the TRB at its pointer: it waits, follows a link, or begins (spec/42_trb_ring.md R250). -/
theorem hBegin_takesUp (h : s.takesUp n r) (k : TrbKind) (f : TrbFields) :
    hBegin n k f s = .ok (⟨⟩, s.withRun n
      (if f.hwo = false then { r with waiting := true, held := [] }
      else if k = .link then { r.dropHeld r.ptr with ptr := f.buf }
      else { r.dropHeld r.ptr with job := some (Job.start k f) })) := by
  obtain ⟨hx, hw, hj, ho⟩ := h
  unfold hBegin
  rw [M.bind_of_ok (M.get_apply s), hx]
  simp only
  rw [ho, if_neg (by simp [hw, hj])]
  split
  · exact hWait_active hx
  · split <;> rfl

/-- H takes up no TRB while it works on one, nor with a transfer that is idle or waits. -/
theorem hBegin_nothing (h : s.hw.ep[n].xfer.working = true ∨ s.hw.ep[n].xfer.unarmed = true) (k : TrbKind)
    (f : TrbFields) : hBegin n k f s = .ok (⟨⟩, s) := by
  unfold hBegin
  rw [M.bind_of_ok (M.get_apply s)]
  cases hx : s.hw.ep[n].xfer with
  | idle => rfl
  | active r =>
    have hr : r.job.isSome = true ∨ r.waiting = true := by rwa [hx] at h
    simp only
    rw [if_pos (by rcases hr with hr | hr <;> simp [hr])]
    rfl

/-- The append of an event changes no transfer. -/
theorem State.reportedOwed_xfer (s : State) (n : EpIdx) (r : Report) :
    (s.reportedOwed n r).hw.ep[n].xfer = s.hw.ep[n].xfer := by
  simp [State.reportedOwed, State.reported]

/-- An idle or waiting transfer leaves what H's event leaves. -/
theorem hRunTrb_unarmed (hu : s.hw.ep[n].xfer.unarmed = true) (hw : s.hw.ep[n].xfer.working = false)
    (h : hReportOwed n s = .ok (⟨⟩, t)) (ht : t.hw.ep[n].xfer = s.hw.ep[n].xfer) : hRunTrb n k f s = .ok (⟨⟩, t) :=
  hRunTrb_notWorking ((hSettle_notWorking hw).trans h) (hBegin_nothing (.inr (by rw [ht]; exact hu)) k f)
    (by rw [ht]; exact hw)

/-- H owes an event and has no room for it. -/
theorem hReportOwed_full {q : Report} (ho : s.hw.ep[n].owed = some q) (h : ¬ s.hasRoom) :
    hReportOwed n s = .error (.fault .eventOverflow) := by
  unfold hReportOwed
  rw [M.bind_of_ok (M.get_apply s)]
  simp only [ho]
  exact M.bind_of_error (hAppendEvent_full _ h)

/-! #### The move of the data (spec/42_trb_ring.md R250, spec/20_memory.md R83) -/

/-- The transfer with the work `j` on the TRB at its pointer: what H holds of the TRB is dropped where it is taken up. -/
def Run.begun (r : Run) (j : Job) : Run :=
  { r with held := if r.job = none then (r.dropHeld r.ptr).held else r.held, job := some j }

theorem Run.begun_eq (r : Run) (j : Job) :
    { (if r.job = none then r.dropHeld r.ptr else r) with job := some j } = r.begun j := by
  unfold Run.begun
  split <;> rfl

/-- What H holds of a TRB is dropped once. -/
theorem Run.begun_dropHeld (r : Run) (j : Job) : (r.begun j).dropHeld r.ptr = { r.dropHeld r.ptr with job := some j } := by
  unfold Run.begun Run.dropHeld
  split <;> simp

/-- H takes up a TRB that it owns, or is to move data of one that it works on already, with the work `j`. -/
abbrev Run.atMove (r : Run) (k : TrbKind) (f : TrbFields) (j : Job) : Prop :=
  (r.waiting = false ∧ r.job = none ∧ f.hwo = true ∧ j = Job.start k f) ∨
    (r.job = some j ∧ j.phase = .moving ∧ j.kind = k ∧ j.trb = f)

theorem Run.atMove.job_eq (h : r.atMove k f j) : j.phase = .moving ∧ j.kind = k ∧ j.trb = f := by
  rcases h with ⟨-, -, -, rfl⟩ | ⟨-, h⟩
  · exact ⟨rfl, rfl, rfl⟩
  · exact h

/-- A pass over a TRB other than a link, up to the move of its data. -/
theorem hRunTrb_atMove (hk : k ≠ .link) (hx : s.hw.ep[n].xfer = .active r) (ho : s.hw.ep[n].owed = none)
    (h : r.atMove k f j) : hRunTrb n k f s = (do hMove n; hAfterMove n : M Unit) (s.withRun n (r.begun j)) := by
  rw [← Run.begun_eq]
  rcases h with ⟨hw, hj, hf, rfl⟩ | ⟨hj, -⟩
  · have hb := hBegin_takesUp ⟨hx, hw, hj, ho⟩ k f
    rw [if_neg (by rw [hf]; decide), if_neg hk] at hb
    rw [if_pos hj]
    exact hRunTrb_begun (hSettle_nothing (.inr ho)) hb
  · have hw : s.hw.ep[n].xfer.working = true := by
      rw [hx]
      exact Option.isSome_of_eq_some hj
    have hr : s.withRun n { r with job := some j } = s := State.withRun_self (by rw [hx, ← hj])
    rw [if_neg (by rw [hj]; nofun), hr]
    exact hRunTrb_begun (hSettle_nothing (.inl hw)) (hBegin_nothing (.inl hw) k f)

/-- H would send bytes of a TRB that S has handed over and not told it of (spec/20_memory.md R83). -/
theorem State.readsEarly_iff {g : GAddr} {len : Nat} :
    s.readsEarly n g len = true ↔ dirOf n = .inp ∧ 0 < len ∧ ∃ x ∈ s.handed, x.trb = g ∧ x.told = false := by
  simp [State.readsEarly, State.untold, and_assoc]

/-- After H has moved bytes through a TRB, behind those moved before: stored where the endpoint is OUT. -/
def State.dataMoved (s : State) (n : EpIdx) (f : TrbFields) (before : Nat) (bs : List Byte) : State :=
  if dirOf n = .out then s.hStore (f.buf + BitVec.ofNat 64 before) bs else s

theorem State.dataMoved_withRun (s : State) (n : EpIdx) (f : TrbFields) (before : Nat) (bs : List Byte) (r : Run) :
    (s.withRun n r).dataMoved n f before bs = (s.dataMoved n f before bs).withRun n r := by
  unfold State.dataMoved
  split <;> rfl

/-- A move of data stores bytes alone: what H holds, its room for events and its view of a TRB stay. -/
theorem State.dataMoved_frame (s : State) (n : EpIdx) (f : TrbFields) (before : Nat) (bs : List Byte) :
    (s.dataMoved n f before bs).params = s.params ∧ (s.dataMoved n f before bs).hw = s.hw ∧
      ((s.dataMoved n f before bs).hasRoom ↔ s.hasRoom) ∧
      ∀ g, (s.dataMoved n f before bs).hSeesMemory g ↔ s.hSeesMemory g := by
  unfold State.dataMoved
  split <;> exact ⟨rfl, rfl, Iff.rfl, fun _ => Iff.rfl⟩

/-- H moves data where the host draws them: none that it may not read yet, and else as many as the TRB takes. -/
theorem hMove_drawn {m : Moved} {ms : List Moved} (hp : j.phase = .moving) (hk : j.kind ≠ .controlSetup)
    (hj : r.job = some j) (hs : s.hStalled n = false) (hm : s.env.moved = m :: ms) :
    let len := movedLen j.kind j.trb j.len m.bytes.length
    let v := s.setEnv { s.env with moved := ms }
    hMove n (s.withRun n r) = .ok (⟨⟩,
      if s.readsEarly n r.ptr len then v.withRun n r
      else (v.dataMoved n j.trb j.len (m.bytes.take len)).withRun n
        { r with job := some (j.after s.hw.ctlNum len m (s.endsTrb n j.kind j.trb j.len m)) }) := by
  intro len v
  have hd : drawMoved (s.withRun n r) = .ok (some m, v.withRun n r) := by
    unfold drawMoved
    rw [M.bind_of_ok (M.get_apply _), show (s.withRun n r).env.moved = m :: ms from hm]
    rfl
  have hdata (o : Option Job) :
      ((v.withRun n r).dataMoved n j.trb j.len (m.bytes.take len)).withRun n { r with job := o } =
      (v.dataMoved n j.trb j.len (m.bytes.take len)).withRun n { r with job := o } := by
    rw [State.dataMoved_withRun, State.withRun_withRun]
  unfold hMove
  rw [M.bind_of_ok (M.get_apply _), State.job?_some (s.withRun_xfer n r) hj hp]
  simp only
  unfold hMoveData
  rw [if_neg hk, M.bind_of_ok (M.get_apply _), if_neg (by rw [State.withRun_hStalled, hs]; decide), M.bind_of_ok hd]
  simp only [State.withRun_endsTrb]
  rw [← hdata]
  show (if s.readsEarly n r.ptr len then _ else _ : M Unit) _ = _
  split
  · rfl
  · unfold State.dataMoved
    by_cases ho : dirOf n = .out
    · simp only [if_pos ho]
      rfl
    · simp only [if_neg ho]
      rfl

/-! #### After the move (spec/30_encoding.md R113, spec/42_trb_ring.md R250) -/

/-- H owes the event `q` on an endpoint. -/
def State.owing (s : State) (n : EpIdx) (q : Report) : State := s.updHEp n fun h => { h with owed := some q }

theorem State.owing_hEp (s : State) (n : EpIdx) (q : Report) :
    (s.owing n q).hw.ep[n] = { s.hw.ep[n] with owed := some q } :=
  s.updHEp_same n _

/-- The event owed is owed no more once it is appended, whatever the transfer does meanwhile. -/
theorem State.reportedOwed_owing (s : State) (n : EpIdx) (r : Run) (q : Report) :
    ((s.withRun n r).owing n q).reportedOwed n q = (s.reportedOwed n q).withRun n r := by
  let word := (Event.xferComplete n q.status q.param).word s.params.enc
  let staged (u : State) : State := { u with hw := { u.hw with ctl := s.hw.ctl.afterReport s.hw.ctlNum n q } }
  have h : (((s.reported word).withRun n r).owing n q).updHEp n (fun h => { h with owed := none }) =
      ((s.reported word).updHEp n fun h => { h with owed := none }).withRun n r := by
    simp only [State.withRun, State.owing, State.updHEp_updHEp]
  exact congrArg staged h

/-- The transfer once the size word of the TRB it works on is written back. -/
def Run.sized (r : Run) (j : Job) : Run := { r with job := some { j with phase := .sized } }

/-- The transfer once the TRB it works on is released, and H holds nothing of what it read of it. -/
def Run.released (r : Run) (j : Job) : Run := { r.dropHeld r.ptr with job := some { j with phase := .released } }

/-- Both words of a TRB whose data have moved are written back, and H owes its report, before what follows. -/
theorem hWriteBack_moved {w c : Word} (hj : r.job = some j) (hp : j.phase = .moved) (ho : s.params.enc.ok = true)
    (hm : s.hSeesMemory r.ptr) (hb : s.backWords r.ptr w c) {α : Type} (g : M α) :
    (do hWriteSize n; hWriteControl n; g : M α) (s.withRun n r) = g (
      let t := (s.writtenBack r.ptr w c (j.trb.bufsiz - BitVec.ofNat 24 j.len) j.sts).withRun n (r.released j)
      if s.owes n j then t.owing n j.report else t) := by
  obtain ⟨hw, hc⟩ := hb
  let e := s.params.enc.trb
  let word := sizeWritten e w (j.trb.bufsiz - BitVec.ofNat 24 j.len) j.sts
  let sized := s.hStore (r.ptr + BitVec.ofNat 64 e.sizeAt) (bytesOfWord word)
  have hsize : hWriteSize n (s.withRun n r) = .ok (⟨⟩, sized.withRun n (r.sized j)) := by
    rw [hWriteSize_moved (State.job?_some (s.withRun_xfer n r) hj hp) ho hm hw]
    exact congrArg (fun t => Except.ok (PUnit.unit, t)) (sized.withRun_withRun n r (r.sized j))
  have hword : (sized.withRun n (r.sized j)).mem.readWord (r.ptr + BitVec.ofNat 64 e.controlAt) = some c :=
    (Memory.readWord_control ho s.mem r.ptr word).trans hc
  have hcontrol := hWriteControl_sized (State.job?_some (sized.withRun_xfer n (r.sized j)) rfl rfl) ho hm hword
  have howes : (sized.withRun n (r.sized j)).owes n { j with phase := .sized } = s.owes n j :=
    congrArg (_ && ·) (sized.withRun_reportsComplete n (r.sized j))
  rw [M.bind_of_ok hsize, M.bind_of_ok hcontrol, howes]
  have hrun := State.withRun_withRun (sized.hStore (r.ptr + BitVec.ofNat 64 e.controlAt)
    (bytesOfWord (controlWritten e c j.sts))) n (r.sized j) (r.released j)
  exact congrArg (fun t : State => g (if s.owes n j then t.owing n j.report else t)) hrun

/-- After a TRB of a transfer `r` is closed that is no SETUP TRB: the transfer over, or at the next TRB. -/
def State.closed (s : State) (n : EpIdx) (lst : Bool) (r : Run) : State :=
  if lst then { s with hw := s.hw.ended n r.rsc } else s.withRun n { r with ptr := r.ptr + 16, job := none }

@[simp] theorem State.closed_withRun (s : State) (n : EpIdx) (lst : Bool) (q r : Run) :
    (s.withRun n q).closed n lst r = s.closed n lst r := by
  unfold State.closed
  rw [State.withRun_withRun]
  simp [State.withRun, State.updHEp, Hw.ended]

/-- A released TRB other than a SETUP TRB is reported, where H owes that, and then closed. -/
theorem hClose_released {u : State} (hk : j.kind ≠ .controlSetup) (hx : u.hw.ep[n].xfer = .active (r.released j))
    (h : hReportOwed n u = .ok (⟨⟩, t.withRun n (r.released j))) :
    hClose n u = .ok (⟨⟩, t.closed n j.trb.lst (r.dropHeld r.ptr)) := by
  have hclosed : (t.withRun n (r.released j)).closed n j.trb.lst (r.released j) =
      t.closed n j.trb.lst (r.dropHeld r.ptr) := State.closed_withRun ..
  unfold hClose
  rw [M.bind_of_ok (M.get_apply u), State.job?_some hx rfl rfl]
  simp only
  rw [if_neg hk, M.bind_of_ok h, ← hclosed]
  unfold hFinish
  rw [M.bind_of_ok (M.get_apply _), State.job?_some (t.withRun_xfer n (r.released j)) rfl rfl]
  simp only [decide_eq_false hk, Bool.or_false]
  unfold State.closed
  split
  · exact hEndTransfer_apply n r.rsc _
  · rfl

/-- A TRB other than a SETUP TRB whose data have moved: written back, reported where that is due, and closed. -/
theorem hAfterMove_moved {w c : Word} (hj : r.job = some j) (hp : j.phase = .moved) (hk : j.kind ≠ .controlSetup)
    (ho : s.params.enc.ok = true) (hm : s.hSeesMemory r.ptr) (hb : s.backWords r.ptr w c)
    (hn : s.hw.ep[n].owed = none) (hr : s.owes n j = true → s.hasRoom) :
    let t := s.writtenBack r.ptr w c (j.trb.bufsiz - BitVec.ofNat 24 j.len) j.sts
    hAfterMove n (s.withRun n r) = .ok (⟨⟩,
      (if s.owes n j then t.reportedOwed n j.report else t).closed n j.trb.lst (r.dropHeld r.ptr)) := by
  intro t
  unfold hAfterMove
  rw [hWriteBack_moved hj hp ho hm hb]
  have hx := t.withRun_xfer n (r.released j)
  cases hd : s.owes n j with
  | false => exact hClose_released hk hx (hReportOwed_none ((t.withRun_owed n _).trans hn))
  | true =>
    have howed := (t.withRun n (r.released j)).owing_hEp n j.report
    have hreport := hReportOwed_room (s := (t.withRun n (r.released j)).owing n j.report) (by rw [howed]) (hr hd)
    rw [State.reportedOwed_owing] at hreport
    exact hClose_released hk ((congrArg HEp.xfer howed).trans hx) hreport

/-! #### A whole pass over a TRB that moves data -/

section
variable {m : Moved} {ms : List Moved} (hl : k ≠ .link) (hs : k ≠ .controlSetup) (hx : s.hw.ep[n].xfer = .active r)
  (ho : s.hw.ep[n].owed = none) (hj : r.atMove k f j) (hst : s.hStalled n = false) (hm : s.env.moved = m :: ms)
include hl hs hx ho hj hst hm

/-- A pass is what follows the move of the data, on the state that the move leaves. -/
theorem exec_ofTrb_drawn {u : State} :
    let len := movedLen k f j.len m.bytes.length
    let v := s.setEnv { s.env with moved := ms }
    hAfterMove n (if s.readsEarly n r.ptr len then v.withRun n (r.begun j)
      else (v.dataMoved n f j.len (m.bytes.take len)).withRun n
        (r.begun (j.after s.hw.ctlNum len m (s.endsTrb n k f j.len m)))) = .ok (⟨⟩, u) →
    exec (Instr.ofTrb n k f) s = .next u := by
  intro len v ha
  obtain ⟨hp, rfl, rfl⟩ := hj.job_eq
  rw [exec_ofTrb]
  refine outcome_of_ok (a := ⟨⟩) ((hRunTrb_atMove hl hx ho hj).trans ?_)
  rw [M.bind_of_ok (hMove_drawn hp hs rfl hst hm)]
  exact ha

/-- Bytes that H may not read yet are not moved, and the TRB stays taken up (spec/20_memory.md R83). -/
theorem exec_ofTrb_early (he : s.readsEarly n r.ptr (movedLen k f j.len m.bytes.length) = true) :
    exec (Instr.ofTrb n k f) s = .next ((s.setEnv { s.env with moved := ms }).withRun n (r.begun j)) := by
  refine exec_ofTrb_drawn hl hs hx ho hj hst hm ?_
  rw [if_pos he]
  exact hAfterMove_notDue fun p hne => State.job?_otherPhase (State.withRun_xfer ..) rfl (hj.job_eq.1 ▸ hne.symm)

/-- A TRB that does not end waits for more data. -/
theorem exec_ofTrb_more (he : ¬ s.readsEarly n r.ptr (movedLen k f j.len m.bytes.length) = true)
    (hends : s.endsTrb n k f j.len m = false) :
    let len := movedLen k f j.len m.bytes.length
    exec (Instr.ofTrb n k f) s =
      .next (((s.setEnv { s.env with moved := ms }).dataMoved n f j.len (m.bytes.take len)).withRun n
        (r.begun (j.after s.hw.ctlNum len m false))) := by
  refine exec_ofTrb_drawn hl hs hx ho hj hst hm ?_
  rw [if_neg he, hends]
  exact hAfterMove_notDue fun p hne => State.job?_otherPhase (State.withRun_xfer ..) rfl hne.symm

/-- A TRB that ends is written back, reported where that is due, and closed. -/
theorem exec_ofTrb_ends {w c : Word} (he : ¬ s.readsEarly n r.ptr (movedLen k f j.len m.bytes.length) = true)
    (hends : s.endsTrb n k f j.len m = true) (hok : s.params.enc.ok = true) (hsees : s.hSeesMemory r.ptr) :
    let len := movedLen k f j.len m.bytes.length
    let u := (s.setEnv { s.env with moved := ms }).dataMoved n f j.len (m.bytes.take len)
    let t := u.writtenBack r.ptr w c (f.bufsiz - BitVec.ofNat 24 (j.len + len)) m.sts
    let reported := (f.ioc || f.lst) && s.reportsComplete n
    u.backWords r.ptr w c → (reported = true → s.hasRoom) →
    exec (Instr.ofTrb n k f) s = .next ((if reported then
        t.reportedOwed n { status := m.evStatus, param := m.evParam, kind := k, threeStage := false
                           transfer := s.hw.ctlNum }
      else t).closed n f.lst (r.dropHeld r.ptr)) := by
  intro len u t reported hback hroom
  obtain ⟨hpar, hhw, hroom', hsees'⟩ :=
    (s.setEnv { s.env with moved := ms }).dataMoved_frame n f j.len (m.bytes.take len)
  obtain ⟨-, rfl, rfl⟩ := hj.job_eq
  have howes : u.owes n (j.after s.hw.ctlNum len m true) = reported := by
    simp only [State.owes, State.reportsComplete, u, hhw]
    simp [reported, Job.after, hs, State.reportsComplete]
  have hafter := hAfterMove_moved (n := n) (s := u) (r := r.begun (j.after s.hw.ctlNum len m true)) rfl rfl hs
    (hpar ▸ hok) ((hsees' r.ptr).2 hsees) hback (hhw ▸ ho) (fun h => hroom'.2 (hroom (howes ▸ h)))
  have hdrop (i : Job) : (r.begun i).dropHeld (r.begun i).ptr = { r.dropHeld r.ptr with job := some i } :=
    r.begun_dropHeld i
  rw [howes, hdrop] at hafter
  refine exec_ofTrb_drawn hl hs hx ho hj hst hm ?_
  rw [if_neg he, hends]
  exact hafter

end

end

end Sys2Proof.Machine

namespace Sys2Proof

open Machine

/-- Settles O24: H takes up the link TRB, and nothing is left to move. -/
theorem linkTrbIsFollowed : Obligations.LinkTrbIsFollowed := by
  intro s n f r h hf
  have hb := hBegin_takesUp h .link f
  rw [if_neg (by rw [hf]; decide), if_pos rfl] at hb
  obtain ⟨-, -, hj, ho⟩ := h
  exact outcome_of_ok (hRunTrb_notWorking (hSettle_nothing (.inr ho)) hb
    ((State.withRun_working s n _).trans (congrArg Option.isSome hj)))

/-- Settles O22: one pass is the move of the data, which H holds back, leaves waiting for more, or ends, and then the
write-back, the report and the close. -/
theorem dataTrbCompletes : Obligations.DataTrbCompletes := by
  intro s n k f r j m ms w c len v u t reported ends begun early x hl hsetup hx ho hmove hst hm
  have hearly : s.readsEarly n r.ptr len = true ↔ early := State.readsEarly_iff
  have hbegun (i : Job) : ({ begun with job := some i } : Run) = r.begun i := r.begun_eq i
  rw [hbegun, hbegun]
  refine ⟨by simp [ends, State.endsTrb, or_assoc], fun he => ?_,
    fun he => ⟨fun hends => ?_, fun hends hok hsees hback hroom => ?_⟩⟩
  · exact exec_ofTrb_early hl hsetup hx ho hmove hst hm (hearly.2 he)
  · exact exec_ofTrb_more hl hsetup hx ho hmove hst hm (mt hearly.1 he) hends
  · exact ⟨State.ownsTrb_writtenBack ..,
      exec_ofTrb_ends hl hsetup hx ho hmove hst hm (mt hearly.1 he) hends hok hsees hback hroom⟩

/-- Settles O25: a transfer that waits, or is idle, has no TRB in work, and what it leaves is what H's event leaves. -/
theorem unownedTrbWaits : Obligations.UnownedTrbWaits := by
  refine ⟨fun s n k f r h hf => ?_, fun s n k f hu hw => ⟨fun ho => ?_, fun q ho hr => ?_, fun q ho hr => ?_⟩⟩
  all_goals rw [exec_ofTrb]
  · have hb := hBegin_takesUp h k f
    rw [if_pos hf] at hb
    obtain ⟨-, -, hj, ho⟩ := h
    exact outcome_of_ok (hRunTrb_notWorking (hSettle_nothing (.inr ho)) hb
      ((State.withRun_working s n _).trans (congrArg Option.isSome hj)))
  · exact outcome_of_ok (hRunTrb_unarmed hu hw (hReportOwed_none ho) rfl)
  · exact outcome_of_ok (hRunTrb_unarmed hu hw (hReportOwed_room ho hr) (s.reportedOwed_xfer n q))
  · exact outcome_of_fault (M.bind_of_error ((hSettle_notWorking hw).trans (hReportOwed_full ho hr)))

end Sys2Proof

/-! ### The submissions (spec/42_trb_ring.md R220 to R230) -/

namespace Sys2Proof.Machine

section
variable {s t : State} {n : EpIdx} {num len size : Nat} {dir : Dir} {buf : LAddr} {k : TrbKind}

/-! #### The endpoint of a submission (R223, R227) -/

theorem val_of_logicalEp {p : Params} (h : logicalEp p num dir = some n) : n.val = num * 2 + dirBit dir := by
  unfold logicalEp epOf at h
  split at h
  · cases h
  · split at h
    · split at h <;> cases h
      rfl
    · cases h

/-- No submission goes to an endpoint that the controller lacks, or to the control pair. -/
theorem submitEp_invalid (want : Dir) (h : maxLogical < num ∨ s.params.numEps ≤ num * 2 + dirBit dir ∨ num = 0) :
    s.submitEp num dir want = .error .invalidEp := by
  unfold State.submitEp
  cases hl : logicalEp s.params num dir with
  | none => rfl
  | some m =>
    rcases h with h | h | rfl
    · rw [logicalEp_eq_none (.inl h)] at hl
      cases hl
    · rw [logicalEp_eq_none (.inr h)] at hl
      cases hl
    · have hm : m.val ≤ 1 := by
        rw [val_of_logicalEp hl]
        cases dir <;> decide
      exact if_pos hm

theorem submitEp_disabled (want : Dir) (hl : logicalEp s.params num dir = some n) (he : s.ep[n].enabled = false) :
    s.submitEp num dir want = .error .invalidEp := by
  unfold State.submitEp
  rw [hl]
  simp only
  rw [if_pos he, ite_self]

theorem submitEp_wrongDir {want : Dir} (hl : logicalEp s.params num dir = some n) (h2 : 2 ≤ n.val)
    (he : s.ep[n].enabled = true) (hd : dir ≠ want) : s.submitEp num dir want = .error .wrongDir := by
  unfold State.submitEp
  rw [hl]
  simp only
  rw [if_neg (by omega), if_neg (by rw [he]; decide), if_pos hd]

theorem requireRoom_full (h : ringDepth ≤ s.ep[n].out) : requireRoom n s = .error (.refuse .ringFull) := by
  unfold requireRoom
  rw [M.bind_of_ok (getEp_apply n s), if_pos h]
  rfl

/-- Neither submission does anything where its check of the endpoint fails. -/
theorem send_error {e : Err} (h : s.submitEp num dir .inp = .error e) : send num dir buf len s = .ok (.err e, s) := by
  unfold send
  rw [M.bind_of_ok (M.get_apply s), h]
  rfl

theorem recv_error {e : Err} (h : s.submitEp num dir .out = .error e) : recv num dir buf len s = .ok (.err e, s) := by
  unfold recv
  rw [M.bind_of_ok (M.get_apply s), h]
  rfl

theorem State.sizedFor_ep (s : State) (mps : BitVec 11) : (s.sizedFor mps).ep = s.ep := by
  unfold State.sizedFor
  split <;> rfl

/-! #### The checks past the endpoint (R227 to R229) -/

theorem send_tooLong (h : s.submitEp num dir .inp = .ok n) (hl : trbSizeMax < len) :
    send num dir buf len s = .ok (.err .invalidLength, s) := by
  unfold send
  rw [M.bind_of_ok (M.get_apply s), h]
  simp only
  rw [if_pos hl]
  rfl

theorem send_full (h : s.submitEp num dir .inp = .ok n) (hl : len ≤ trbSizeMax) (hr : ringDepth ≤ s.ep[n].out) :
    send num dir buf len s = .error (.refuse .ringFull) := by
  unfold send
  rw [M.bind_of_ok (M.get_apply s), h]
  simp only
  rw [if_neg (Nat.not_lt.2 hl)]
  exact M.bind_of_error (requireRoom_full hr)

section
variable {mps : BitVec 11} (h : s.submitEp num dir .out = .ok n) (hm : s.ep[n].mps = some mps)
  (hz : s.receiveSizeIs len mps size)
include h hm hz

theorem recv_tooLong (hl : trbSizeMax < size) :
    recv num dir buf len s = .ok (.err .invalidLength, s.sizedFor mps) := by
  unfold recv
  rw [M.bind_of_ok (M.get_apply s), h]
  simp only
  rw [M.bind_of_ok (receiveSize_is hm hz), if_pos hl]
  rfl

theorem recv_full (hl : size ≤ trbSizeMax) (hr : ringDepth ≤ s.ep[n].out) :
    recv num dir buf len s = .error (.refuse .ringFull) := by
  have hr' : ringDepth ≤ (s.sizedFor mps).ep[n].out := by rwa [State.sizedFor_ep]
  unfold recv
  rw [M.bind_of_ok (M.get_apply s), h]
  simp only
  rw [M.bind_of_ok (receiveSize_is hm hz), if_neg (Nat.not_lt.2 hl)]
  exact M.bind_of_error (requireRoom_full hr')

end

/-! #### The hand-over and the command (R221, R222) -/

/-- A change of a record takes the place of the one before. -/
theorem State.updEp_updEp (s : State) (n : EpIdx) (f g : Ep → Ep) :
    (s.updEp n f).updEp n g = s.updEp n fun e => g (f e) := by
  simp [State.updEp]

/-- A TRB enqueued and its request recorded, before what follows. -/
theorem enqueue_recorded (rounded : Bool) (h : s.quiet) (ho : s.ownsTrb (s.params.global (s.nextSlot n)) = false)
    {α : Type} (f : GAddr → M α) :
    (do
      let g ← enqueue n buf size k
      recordRequest n buf size rounded
      f g : M α) s = f (s.params.global (s.nextSlot n)) (s.enqueued n buf size k rounded) := by
  obtain ⟨m, c, hu⟩ := s.handedTo_frame n (s.nextSlot n) (s.submission buf size k)
  have hrecord (t : State) (he : t.ep[n].enq = s.ep[n].enq) :
      (t.updEp n fun e => { e with enq := (s.ep[n].enq + 1) % ringDepth, out := e.out + 1 }).updEp n
          (fun e => { e with buf := some buf, requested := size, rounded := rounded }) =
        t.updEp n fun e => { e with enq := (e.enq + 1) % ringDepth, out := e.out + 1, buf := some buf,
                                    requested := size, rounded := rounded } := by
    rw [State.updEp_updEp, ← he]
    rfl
  rw [M.bind_of_ok (enqueue_quiet buf size k h ho)]
  unfold recordRequest State.enqueued
  rw [M.bind_of_ok (modifyEp_apply _ _ _), hrecord _ (by rw [hu])]

/-- A command on endpoint `n` can be issued on `t` where it can be on `s`, to a record that is as busy, and H answers the
same. -/
abbrev State.commandsAs (s t : State) (n : EpIdx) : Prop :=
  (∀ c, s.commandable n c → t.commandable n c) ∧ t.startResult = s.startResult ∧
    (∀ c, t.commandResult c = s.commandResult c) ∧ t.ep[n].busy = s.ep[n].busy ∧ t.ep[n].rsc = s.ep[n].rsc

theorem State.commandsAs.trans {u : State} (h : s.commandsAs t n) (h' : t.commandsAs u n) : s.commandsAs u n := by
  obtain ⟨hc, hs, hr, hb, hi⟩ := h
  obtain ⟨hc', hs', hr', hb', hi'⟩ := h'
  exact ⟨fun c hn => hc' c (hc c hn), hs'.trans hs, fun c => (hr' c).trans (hr c), hb'.trans hb, hi'.trans hi⟩

theorem sendReady_commandsAs (s : State) (n : EpIdx) (buf : LAddr) (len : Nat) : s.commandsAs (s.sendReady buf len) n := by
  unfold State.sendReady
  split <;> exact ⟨fun _ h => h, rfl, fun _ => rfl, rfl, rfl⟩

theorem sizedFor_flush_commandsAs (s : State) (n : EpIdx) (mps : BitVec 11) (buf : LAddr) (size : Nat) :
    s.commandsAs ((s.sizedFor mps).flush buf size) n := by
  unfold State.sizedFor
  split <;> exact ⟨fun _ h => h, rfl, fun _ => rfl, rfl, rfl⟩

/-- A hand-over leaves what the command that follows it needs. -/
theorem enqueued_commandsAs (s : State) (n : EpIdx) (buf : LAddr) (size : Nat) (k : TrbKind) (rounded : Bool) :
    s.commandsAs (s.enqueued n buf size k rounded) n := by
  obtain ⟨m, c, hu⟩ := s.handedTo_frame n (s.nextSlot n) (s.submission buf size k)
  unfold State.enqueued
  rw [hu]
  refine ⟨fun _ h => h, rfl, fun _ => rfl, ?_, ?_⟩
  · rw [State.updEp_same]
  · rw [State.updEp_same]

theorem submit_idle {g : GAddr} (hb : s.ep[n].busy = false) (h : s.commandable n (.startTransfer g)) :
    submit n g s = .ok (s.startResult, s.started n g) := by
  unfold submit State.startResult
  rw [M.bind_of_ok (getEp_apply n s), hb, if_neg Bool.false_ne_true, M.bind_of_ok (cmdStartTransfer_commandable hb h)]
  cases hp : s.performs with
  | true =>
    rw [State.commandResult_performs _ hp]
    rfl
  | false =>
    obtain ⟨e, he⟩ := State.commandResult_not hp
    rw [he, he]
    rfl

theorem submit_busy {g : GAddr} {r : BitVec 7} (hb : s.ep[n].busy = true) (hr : s.ep[n].rsc = some r)
    (h : s.commandable n (.updateTransfer r)) :
    submit n g s = .ok (s.commandResult (.updateTransfer r), s.issued n (.updateTransfer r)) := by
  unfold submit
  rw [M.bind_of_ok (getEp_apply n s), hb, if_pos rfl, M.bind_of_ok (readRsc_busy hb hr)]
  exact cmdUpdateTransfer_commandable hb hr h

/-- An operation that ends in the command of a submission, on what the hand-over leaves: whatever H answers and whenever. -/
theorem outcome_submitted {m : M Result} {g : GAddr} {u : State} (hi : s.initialised) (hu : s.commandsAs u n)
    (hm : s.ready n → m s = submit n g u) :
    (s.ep[n].busy = false → s.commandable n (.startTransfer g) →
      outcome (do requireInit; returning m) s = .next ((u.started n g).setRet s.startResult)) ∧
    (∀ r : BitVec 7, s.ep[n].busy = true → s.ep[n].rsc = some r → s.commandable n (.updateTransfer r) →
      outcome (do requireInit; returning m) s =
        .next ((u.issued n (.updateTransfer r)).setRet (s.commandResult (.updateTransfer r)))) := by
  obtain ⟨hc, hs, hr, hb, hx⟩ := hu
  refine ⟨fun hidle h => ?_, fun r hbusy hrsc h => ?_⟩
  · rw [← hs]
    exact outcome_admitted_of_ok hi ((hm h.1).trans (submit_idle (hb.trans hidle) (hc _ h)))
  · rw [← hr]
    exact outcome_admitted_of_ok hi ((hm h.1).trans (submit_busy (hb.trans hbusy) (hx.trans hrsc) (hc _ h)))

/-- Past its checks SEND is the hand-over of one TRB and its command (R228). -/
theorem send_checked (hq : s.quiet) (h : s.submitEp num .inp .inp = .ok n) (hl : len ≤ trbSizeMax)
    (hr : s.ep[n].out < ringDepth) (ho : (s.sendReady buf len).ownsTrb (s.params.global (s.nextSlot n)) = false) :
    send num .inp buf len s = submit n (s.params.global (s.nextSlot n))
      ((s.sendReady buf len).enqueued n buf len (sendKind len) false) := by
  unfold send
  rw [M.bind_of_ok (M.get_apply s), h]
  simp only
  rw [if_neg (Nat.not_lt.2 hl), M.bind_of_ok (requireRoom_room hr), flushSent_bind buf len _ hq,
    enqueue_recorded false (sendReady_quiet buf len hq) (by simpa using ho), sendReady_params, sendReady_nextSlot]

/-- Past its checks RECV is the hand-over of one TRB of its size, and its command (R229). -/
theorem recv_checked {mps : BitVec 11} (hq : s.quiet) (h : s.submitEp num .out .out = .ok n) (hm : s.ep[n].mps = some mps)
    (hz : s.receiveSizeIs len mps size) (hl : size ≤ trbSizeMax) (hr : s.ep[n].out < ringDepth)
    (ho : ((s.sizedFor mps).flush buf size).ownsTrb (s.params.global (s.nextSlot n)) = false) :
    recv num .out buf len s = submit n (s.params.global (s.nextSlot n))
      (((s.sizedFor mps).flush buf size).enqueued n buf size .normal (decide (size ≠ len))) := by
  have hr' : (s.sizedFor mps).ep[n].out < ringDepth := by rwa [State.sizedFor_ep]
  have hq' := (s.sizedFor_frame mps hq).1
  have hflush : ((s.sizedFor mps).flush buf size).quiet := hq'
  have hslot : ((s.sizedFor mps).flush buf size).params.global (((s.sizedFor mps).flush buf size).nextSlot n) =
      s.params.global (s.nextSlot n) := by
    simp only [State.nextSlot, State.flush_params, State.flush_ep, State.sizedFor_params, State.sizedFor_ep]
  unfold recv
  rw [M.bind_of_ok (M.get_apply s), h]
  simp only
  rw [M.bind_of_ok (receiveSize_is hm hz), if_neg (Nat.not_lt.2 hl), M.bind_of_ok (requireRoom_room hr'),
    M.bind_of_ok (cacheFlush_quiet buf size hq'), enqueue_recorded _ hflush (hslot ▸ ho), hslot]

end

end Sys2Proof.Machine

namespace Sys2Proof

open Machine

/-- Settles O52: SEND is the flush of its buffer, the hand-over of one TRB, and its command. -/
theorem sendCompletes : Obligations.SendCompletes := by
  intro s num buf len n v u g hi hm hv h2 he hl hr ho
  have hcommands : s.commandsAs u n := (sendReady_commandsAs s n buf len).trans (enqueued_commandsAs v n buf len _ false)
  have hsend (hready : s.ready n) : send num .inp buf len s = submit n g u := by
    obtain ⟨hq, -, hn, -⟩ := hready
    exact send_checked hq (submitEp_eq_ok hv hm hn h2 he) hl hr ho
  exact outcome_submitted hi hcommands hsend

/-- Settles O53: RECV is the flush of its buffer over the rounded size, the hand-over of one TRB, and its command. -/
theorem recvCompletes : Obligations.RecvCompletes := by
  intro s num buf len size n mps v u g hi hm hv h2 he hmps hz hl hr ho
  have hcommands : s.commandsAs u n :=
    (sizedFor_flush_commandsAs s n mps buf size).trans (enqueued_commandsAs v n buf size .normal _)
  have hrecv (hready : s.ready n) : recv num .out buf len s = submit n g u := by
    obtain ⟨hq, -, hn, -⟩ := hready
    exact recv_checked hq (submitEp_eq_ok hv hm hn h2 he) hmps hz hl hr ho
  exact outcome_submitted hi hcommands hrecv

/-- Settles O54: each check is reached where those before it have passed. -/
theorem submissionChecks : Obligations.SubmissionChecks := by
  intro s num dir buf len hi _
  refine ⟨fun h => ⟨?_, ?_⟩, fun n hm hv hn h2 => ?_⟩
  · exact outcome_admitted_of_ok hi (send_error (submitEp_invalid .inp h))
  · exact outcome_admitted_of_ok hi (recv_error (submitEp_invalid .out h))
  have hl := logicalEp_eq_some hv hm hn
  have hok (he : s.ep[n].enabled = true) : s.submitEp num dir dir = .ok n := submitEp_eq_ok hv hm hn h2 he
  refine ⟨fun he => ⟨?_, ?_⟩, fun he => ⟨?_, ?_, ?_, ?_, ?_⟩⟩
  · exact outcome_admitted_of_ok hi (send_error (submitEp_disabled .inp hl he))
  · exact outcome_admitted_of_ok hi (recv_error (submitEp_disabled .out hl he))
  · rintro rfl
    exact outcome_admitted_of_ok hi (send_error (submitEp_wrongDir hl h2 he nofun))
  · rintro rfl
    exact outcome_admitted_of_ok hi (recv_error (submitEp_wrongDir hl h2 he nofun))
  · rintro rfl hlong
    exact outcome_admitted_of_ok hi (send_tooLong (hok he) hlong)
  · rintro rfl hlen hfull
    exact outcome_admitted_of_refuse hi (send_full (hok he) hlen hfull)
  · rintro mps size rfl hmps hz
    exact ⟨fun hlong => outcome_admitted_of_ok hi (recv_tooLong (hok he) hmps hz hlong),
      fun hlen hfull => outcome_admitted_of_refuse hi (recv_full (hok he) hmps hz hlen hfull)⟩

end Sys2Proof

/-! ### Completion (spec/42_trb_ring.md R235 to R241) -/

namespace Sys2Proof.Machine

section
variable {s t : State} {n : EpIdx} {w : Word}

/-- The record of an endpoint whose TRB at the dequeue cursor is taken, `actual` bytes having been transferred (R236). -/
def Ep.taken (e : Ep) (actual : Nat) : Ep :=
  { e.idle with actual := actual, deq := (e.deq + 1) % ringDepth, out := e.out - 1 }

/-- XFER_COMPLETE of an endpoint with a ring is its completion (spec/43_event_buffer.md R289). -/
theorem onXferComplete_ring (h2 : 2 ≤ n.val) (hn : n.val < s.params.numEps) : onXferComplete n s = complete n s := by
  unfold onXferComplete requireEventEp
  simp only [bind_assoc]
  rw [M.bind_of_ok (M.get_apply s), if_pos hn, M.bind_of_ok (M.pure_apply _ s), if_neg (by omega)]

/-- A completion of an endpoint that is idle, or has no TRB outstanding, is logged (R241). -/
theorem complete_spurious (h : s.ep[n].busy = false ∨ s.ep[n].out = 0) :
    complete n s = .ok (⟨⟩, s.logged (.spuriousComplete n)) := by
  unfold complete
  rw [M.bind_of_ok (M.get_apply s), if_pos h]
  rfl

/-- A completion of a busy endpoint with a TRB outstanding reads that TRB (R235). -/
theorem complete_outstanding (hb : s.ep[n].busy = true) (ho : s.ep[n].out ≠ 0) :
    complete n s = (do
      let actual ← transferred n (slotAddr s.params n s.ep[n].deq)
      modifyEp n fun e => Ep.idle { e with actual := actual, deq := (e.deq + 1) % ringDepth, out := e.out - 1 }
      invalidateReceived n s.ep[n].dir
      callL (dataCallback n s.ep[n].dir) : M Unit) s := by
  unfold complete
  rw [M.bind_of_ok (M.get_apply s), if_neg (by rintro (h | h) <;> simp_all)]

/-- The buffer of an OUT endpoint is invalidated over the size handed to H, which are as in the record `e` (R237). -/
theorem invalidateReceived_quiet {e : Ep} {d : Dir} (hq : s.quiet) (hb : s.ep[n].buf = e.buf)
    (hr : s.ep[n].requested = e.requested) (hbuf : e.hasBuffer d) :
    invalidateReceived n d s = .ok (⟨⟩, s.bufferDropped e d) := by
  unfold invalidateReceived State.bufferDropped
  cases d with
  | inp => rfl
  | out =>
    obtain ⟨buf, he⟩ := Option.ne_none_iff_exists'.1 (hbuf rfl)
    simp only
    rw [M.bind_of_ok (getEp_apply n s), hb, he, M.bind_of_ok (written_some buf s), hr, cacheInvalidate_quiet buf _ hq]

/-- An invalidate and the load of a line change S's view alone. -/
theorem State.refetched_cache (s : State) (a : LAddr) (k : Nat) (b : LAddr) :
    ∃ c, s.refetched a k b = { s with cache := c } := by
  obtain ⟨c, hc⟩ := (s.invalidate a k).withLine_cache (lineOf s.params b)
  exact ⟨c, hc⟩

/-- A change of a record is what it makes of the record that is. -/
theorem State.updEp_congr {f g : Ep → Ep} (h : f s.ep[n] = g s.ep[n]) : s.updEp n f = s.updEp n g := by
  unfold State.updEp
  rw [h]

/-- The drop of a buffer changes S's view alone. -/
theorem State.bufferDropped_cache (s : State) (e : Ep) (d : Dir) : ∃ c, s.bufferDropped e d = { s with cache := c } := by
  unfold State.bufferDropped
  split
  · exact ⟨_, rfl⟩
  · exact ⟨s.cache, rfl⟩

section
variable (hb : s.ep[n].busy = true) (ho : s.ep[n].out ≠ 0) (hq : s.quiet)
  (hw : (s.refetched (slotAddr s.params n s.ep[n].deq) trbBytes
    (s.sizeWordAt (slotAddr s.params n s.ep[n].deq))).viewWord (s.sizeWordAt (slotAddr s.params n s.ep[n].deq)) = some w)
include hb ho hq hw

/-- More bytes remaining than were requested (R236). -/
theorem complete_exceeds (hr : s.ep[n].requested < s.remainingIn w) :
    complete n s = .error (.fault .remainingExceedsRequest) := by
  rw [complete_outstanding hb ho]
  exact M.bind_of_error (transferred_exceeds hq hw hr)

/-- The TRB at the dequeue cursor is taken, an OUT buffer invalidated, and the callback called (R235 to R238). -/
theorem complete_transferred (hc : s.calm) (hr : s.remainingIn w ≤ s.ep[n].requested)
    (hbuf : s.ep[n].hasBuffer s.ep[n].dir) :
    let e := s.ep[n]
    let a := slotAddr s.params n e.deq
    let actual := e.requested - s.remainingIn w
    complete n s = .ok (⟨⟩, (((s.refetched a trbBytes (s.sizeWordAt a)).updEp n fun x =>
        { x.idle with actual := actual, deq := (e.deq + 1) % ringDepth, out := e.out - 1 }).bufferDropped e e.dir).called
      (dataCallback n e.dir)) := by
  intro e a actual
  obtain ⟨c, hu⟩ := s.refetched_cache a trbBytes (s.sizeWordAt a)
  have he : (s.refetched a trbBytes (s.sizeWordAt a)).ep[n] = e := by rw [hu]
  have hqu : (s.refetched a trbBytes (s.sizeWordAt a)).quiet := by rw [hu]; exact hq
  have hcu : (s.refetched a trbBytes (s.sizeWordAt a)).calm := by rw [hu]; exact hc
  rw [complete_outstanding hb ho, M.bind_of_ok (transferred_quiet hq hw hr), M.bind_of_ok (modifyEp_apply _ _ _)]
  generalize s.refetched a trbBytes (s.sizeWordAt a) = u at he hqu hcu
  have hcursor : (u.updEp n fun x =>
      { x.idle with actual := actual, deq := (e.deq + 1) % ringDepth, out := e.out - 1 }) =
      u.updEp n fun x => x.taken actual :=
    State.updEp_congr (by rw [he]; rfl)
  have hrec : (u.updEp n fun x => x.taken actual).ep[n] = e.taken actual := by rw [State.updEp_same, he]
  have hdrop : invalidateReceived n e.dir (u.updEp n fun x => x.taken actual) =
      .ok (⟨⟩, (u.updEp n fun x => x.taken actual).bufferDropped e e.dir) :=
    invalidateReceived_quiet hqu (congrArg Ep.buf hrec :) (congrArg Ep.requested hrec :) hbuf
  obtain ⟨d, hd⟩ := (u.updEp n fun x => x.taken actual).bufferDropped_cache e e.dir
  rw [hcursor]
  refine (M.bind_of_ok hdrop).trans ?_
  exact callL_calm _ (by rw [hd]; exact hcu)

end

end

end Sys2Proof.Machine

namespace Sys2Proof

open Machine

/-- Settles O40: the operation and the event run one completion, which is spurious, or of the TRB at the dequeue cursor. -/
theorem completeCompletes : Obligations.CompleteCompletes := by
  intro s n i st q w e a u rem done h2 hi
  have hok {t : State} (h : complete n s = .ok (⟨⟩, t)) : exec i s = .next (done t) := by
    rcases hi with ⟨rfl, hinit⟩ | ⟨rfl, hn⟩
    · exact (outcome_admitted_of_ok hinit (M.bind_of_ok h)).trans (congrArg _ (if_pos rfl).symm)
    · exact (outcome_of_ok ((onXferComplete_ring h2 hn).trans h)).trans (congrArg _ (if_neg nofun).symm)
  have hfault {r : Fault} (h : complete n s = .error (.fault r)) : exec i s = .fault r := by
    rcases hi with ⟨rfl, hinit⟩ | ⟨rfl, hn⟩
    · exact outcome_admitted_fault hinit (M.bind_of_error h)
    · exact outcome_of_fault ((onXferComplete_ring h2 hn).trans h)
  refine ⟨fun h => hok (complete_spurious h), fun hb ho hq hc hw => ⟨fun hr hbuf => ?_, fun hr => ?_⟩⟩
  · exact hok (complete_transferred hb ho hq hw hc hr hbuf)
  · exact hfault (complete_exceeds hb ho hq hw hr)

end Sys2Proof

/-! ### Events and the interrupt handler (spec/43_event_buffer.md R270 to R303) -/

namespace Sys2Proof.Machine

section
variable {s t : State} {n : EpIdx} {e : Event} {w : Word}

/-! #### Events without an action, and events of a missing endpoint (R283 to R290) -/

theorem requireEventEp_present (h : n.val < s.params.numEps) : requireEventEp n s = .ok (⟨⟩, s) := by
  unfold requireEventEp
  rw [M.bind_of_ok (M.get_apply s), if_pos h]
  rfl

/-- An endpoint event that names an endpoint the controller lacks (R288). -/
theorem requireEventEp_absent (h : s.params.numEps ≤ n.val) : requireEventEp n s = .error (.fault .eventBadEp) := by
  unfold requireEventEp
  rw [M.bind_of_ok (M.get_apply s), if_neg (Nat.not_lt.2 h)]
  rfl

theorem onIgnoredEpEvent_present (code : BitVec 4) (h : n.val < s.params.numEps) :
    onIgnoredEpEvent n code s = .ok (⟨⟩, s.logged (.ignoredEpEvent n code)) :=
  M.bind_of_ok (requireEventEp_present h)

theorem onIgnoredEpEvent_absent (code : BitVec 4) (h : s.params.numEps ≤ n.val) :
    onIgnoredEpEvent n code s = .error (.fault .eventBadEp) :=
  M.bind_of_error (requireEventEp_absent h)

/-- XFER_NOT_READY of an endpoint with a ring is logged (R290). -/
theorem onXferNotReady_ring (st : BitVec 4) (h2 : 2 ≤ n.val) (h : n.val < s.params.numEps) :
    onXferNotReady n st s = .ok (⟨⟩, s.logged (.ignoredEpEvent n s.params.enc.evt.xferNotReady)) := by
  unfold onXferNotReady
  rw [M.bind_of_ok (requireEventEp_present h), M.bind_of_ok (M.get_apply s), if_neg (Nat.not_lt.2 h2)]
  rfl

/-- The instruction of an event is its dispatch (R273). -/
theorem exec_ofEvent (e : Event) (s : State) : exec (Instr.ofEvent e) s = outcome (dispatchEvent e) s := by
  cases e <;> rfl

/-! #### The acts of H on its own account (R303) -/

/-- A turn of the other agents in which H alone acts, and appends a word if it may. -/
theorem step_event_act {rest : List Turn} {more : List (List Act)} (ha : s.agenda = .others :: rest)
    (hl : s.env.acts = [.event w] :: more) :
    let u : State := ({ s with agenda := rest } : State).setEnv { s.env with acts := more }
    step s = if s.mayReport w then (if s.hasRoom then .next (u.reported w) else .fault .eventOverflow) else .next u := by
  intro u
  have hothers : othersTurn { s with agenda := rest } = hReport w u := by
    rw [othersTurn_listed (s := { s with agenda := rest }) hl]
    show (hReport w >>= fun _ => pure ()) u = hReport w u
    rw [M.bind_apply]
    cases hReport w u with
    | ok p => rfl
    | error x => rfl
  have hnext : nextTurn s = (do hReport w; pure Fetched.done : M Fetched) u := by
    unfold nextTurn
    rw [M.bind_of_ok (M.get_apply s), ha]
    show (othersTurn >>= fun _ => pure Fetched.done) { s with agenda := rest } = _
    rw [M.bind_apply, M.bind_apply, hothers]
  have hreport : hReport w u = (if s.mayReport w then hAppendEvent w else pure ()) u := rfl
  have hroom : u.hasRoom ↔ s.hasRoom := Iff.rfl
  unfold step
  rw [hnext, M.bind_apply, hreport]
  by_cases hm : s.mayReport w = true
  · simp only [if_pos hm]
    by_cases hr : s.hasRoom
    · rw [if_pos hr, hAppendEvent_room w (hroom.2 hr)]
      rfl
    · rw [if_neg hr, hAppendEvent_full w (mt hroom.1 hr)]
  · simp only [if_neg hm]
    rfl

section
variable {st : BitVec 4} {p : BitVec 16}

/-- Whether a device event may be reported is what DEVTEN says (spec/60_exceptions.md R385). -/
theorem mayReport_device {b : Nat} (hd : decodeEvent s.params.enc w = .ok e)
    (hb : devtenBit s.params.enc.reg e = some b) : s.mayReport w = bit s.regs.devten b := by
  unfold State.mayReport
  rw [hd]
  cases e with
  | xferComplete | xferInProgress | xferNotReady | epCmdComplete => cases hb
  | _ =>
    cases hb
    rfl

/-- XFER_NOT_READY of an endpoint is reported as its configuration enables it, on the control pair in the orders of
spec/44_ep0_control.md R356. -/
theorem mayReport_notReady (hd : decodeEvent s.params.enc w = .ok (.xferNotReady n st p)) (hn : n.val < s.params.numEps) :
    s.mayReport w = (s.reportsNotReady n &&
      (decide (2 ≤ n.val) || (s.hw.ctl.admits (stageOf s.params.enc.evt st) && s.hw.ep[n].xfer.unarmed))) := by
  unfold State.mayReport
  rw [hd]
  simp only [decide_eq_false (Nat.not_le.2 hn), Bool.false_or]

/-- The other endpoint events of an endpoint that exists are not H's to report (spec/60_exceptions.md R385). -/
theorem mayReport_withheld (hd : decodeEvent s.params.enc w = .ok (.xferComplete n st p) ∨
    decodeEvent s.params.enc w = .ok (.xferInProgress n st p) ∨ decodeEvent s.params.enc w = .ok (.epCmdComplete n st p))
    (hn : n.val < s.params.numEps) : s.mayReport w = false := by
  unfold State.mayReport
  rcases hd with hd | hd | hd <;> rw [hd] <;> exact decide_eq_false (Nat.not_le.2 hn)

/-- Of an endpoint the controller lacks any endpoint event may be reported. -/
theorem mayReport_absent (hd : decodeEvent s.params.enc w = .ok (.xferComplete n st p) ∨
    decodeEvent s.params.enc w = .ok (.xferInProgress n st p) ∨ decodeEvent s.params.enc w = .ok (.xferNotReady n st p) ∨
    decodeEvent s.params.enc w = .ok (.epCmdComplete n st p)) (hn : s.params.numEps ≤ n.val) : s.mayReport w = true := by
  unfold State.mayReport
  rcases hd with hd | hd | hd | hd <;> rw [hd] <;> simp [hn]

/-- A word that is no event may be reported. -/
theorem mayReport_undecodable {x : DecodeError} (hd : decodeEvent s.params.enc w = .error x) : s.mayReport w = true := by
  unfold State.mayReport
  rw [hd]

end

/-- The stages whose XFER_NOT_READY the control transfer does not let through yet (spec/44_ep0_control.md R356). -/
theorem CtlStage.admits_eq_false {c : CtlStage} {x : Stage}
    (h : x = .neither ∨ c = .none ∨ (x = .controlStatus ∧ c = .setupDone true)) : c.admits x = false := by
  rcases h with rfl | rfl | ⟨rfl, rfl⟩
  · cases c <;> rfl
  · rfl
  · rfl

/-- The stages whose XFER_NOT_READY it admits (spec/44_ep0_control.md R356). -/
theorem CtlStage.admits_eq_true {c : CtlStage} {x : Stage} (hc : c ≠ .none)
    (h : x = .controlData ∨ (x = .controlStatus ∧ c ≠ .setupDone true)) : c.admits x = true := by
  cases c with
  | none => exact absurd rfl hc
  | dataDone => rcases h with rfl | ⟨rfl, -⟩ <;> rfl
  | setupDone three =>
    rcases h with rfl | ⟨rfl, h⟩
    · rfl
    · cases three with
      | true => exact absurd rfl h
      | false => rfl

/-! #### The interrupt handler (R272 to R279) -/

/-- The event word at the read cursor, read with silent agents. -/
theorem readEventWord_quiet (hq : s.quiet)
    (hw : (s.withLine (lineOf s.params (s.params.evtBufAddr + BitVec.ofNat 32 s.ctx.evt.lpos))).viewWord
      (s.params.evtBufAddr + BitVec.ofNat 32 s.ctx.evt.lpos) = some w) :
    readEventWord s = .ok (w, s.withLine (lineOf s.params (s.params.evtBufAddr + BitVec.ofNat 32 s.ctx.evt.lpos))) := by
  unfold readEventWord
  rw [M.bind_of_ok (M.get_apply s), memRead_quiet hq hw]

/-- INTMASK is written, and no other register (R277). -/
theorem setIntMask_quiet (masked : Bool) (hq : s.quiet) :
    setIntMask masked s =
      .ok (⟨⟩, s.putReg .gevntsiz (withIntMask s.params.enc.reg s.regs.gevntsiz masked)) := by
  unfold setIntMask
  rw [M.bind_of_ok (readReg_quiet hq rfl), M.bind_of_ok (M.get_apply s)]
  unfold writeReg
  rw [M.bind_of_ok (othersTurn_quiet hq)]
  rfl

/-- A count of 0 is a spurious interrupt (R275). -/
theorem irqHandler_spurious (hq : s.quiet) (hc : s.pendingBytes = 0) :
    irqHandler s = .ok (⟨⟩, s.logged .spuriousIrq) := by
  have hcount : (evntCount s.params.enc.reg (s.regValue .gevntcount)).toNat = 0 := congrArg BitVec.toNat hc
  unfold irqHandler
  rw [M.bind_of_ok (readReg_quiet hq rfl), M.bind_of_ok (M.get_apply s)]
  simp only [hcount, if_true]
  rfl

/-- A count that H may not leave (R276). -/
theorem irqHandler_invalid (hq : s.quiet) (hc : s.pendingBytes ≠ 0)
    (hi : s.pendingBytes.toNat % 4 ≠ 0 ∨ evtBufSize < s.pendingBytes.toNat) :
    irqHandler s = .error (.fault .eventCountInvalid) := by
  have hcount : (evntCount s.params.enc.reg (s.regValue .gevntcount)).toNat ≠ 0 := fun h => hc (BitVec.eq_of_toNat_eq h)
  unfold irqHandler
  rw [M.bind_of_ok (readReg_quiet hq rfl), M.bind_of_ok (M.get_apply s)]
  simp only [if_neg hcount]
  exact if_pos hi ▸ rfl

/-- The handler has recorded the count it drains (R272). -/
def State.irqCounted (s : State) (c : Nat) : State := s.updCtx fun x => { x with evt := { x.evt with count := c } }

/-- It has then masked the interrupt, invalidated the event buffer and read the word at the cursor (R272, R277). -/
def State.irqEntered (s : State) (c : Nat) : State :=
  ((s.irqCounted c).putReg .gevntsiz (withIntMask s.params.enc.reg s.regs.gevntsiz true)).refetched s.params.evtBufAddr
    evtBufSize (s.params.evtBufAddr + BitVec.ofNat 32 s.ctx.evt.lpos)

/-- The handler with one word pending: the dispatch of that word, its acknowledgement, and the unmask (R272). -/
theorem irqHandler_one (hq : s.quiet) (hc : s.pendingBytes = 4)
    (hw : (s.irqEntered 4).viewWord (s.params.evtBufAddr + BitVec.ofNat 32 s.ctx.evt.lpos) = some w) :
    irqHandler s = (do dispatchWord w; finishEventWord; setIntMask false : M Unit) (s.irqEntered 4) := by
  have hcount : (evntCount s.params.enc.reg (s.regValue .gevntcount)).toNat = 4 := congrArg BitVec.toNat hc
  unfold irqHandler
  rw [M.bind_of_ok (readReg_quiet hq rfl), M.bind_of_ok (M.get_apply s)]
  simp only [hcount]
  have hq1 : (s.irqCounted 4).quiet := hq
  have hmask := setIntMask_quiet true hq1
  generalize hm : (s.irqCounted 4).putReg .gevntsiz _ = m at hmask
  have hq2 : m.quiet := by rw [← hm]; exact hq
  have hq3 : (m.invalidate s.params.evtBufAddr evtBufSize).quiet := hq2
  rw [if_neg (by decide), if_neg (by decide), M.bind_of_ok (modifyCtx_apply _ s)]
  refine (M.bind_of_ok hmask).trans ?_
  rw [M.bind_of_ok (M.get_apply m)]
  subst hm
  rw [M.bind_of_ok (cacheInvalidate_quiet _ _ hq2)]
  show (drain 1 >>= fun _ => setIntMask false) _ = _
  unfold drain
  simp only [bind_assoc]
  rw [M.bind_of_ok (M.get_apply _), if_neg (by exact Nat.succ_ne_zero 3)]
  simp only [bind_assoc]
  exact M.bind_of_ok (readEventWord_quiet hq3 hw)

/-- The invalidate and the read of a word change S's view alone. -/
theorem State.irqEntered_cache (s : State) (k : Nat) : ∃ c, s.irqEntered k =
    { (s.irqCounted k).putReg .gevntsiz (withIntMask s.params.enc.reg s.regs.gevntsiz true) with cache := c } :=
  State.refetched_cache _ _ _ _

/-- The handler has drained its last word: the cursor moved, the word acknowledged, the interrupt unmasked (R272, R277,
R278, R279). -/
def State.irqDrained (t : State) : State :=
  (((t.updCtx fun c => { c with evt := { c.evt with lpos := (c.evt.lpos + 4) % evtBufSize, count := 0 } }).withPending
    (t.pendingBytes - 4)).putReg .gevntsiz (withIntMask t.params.enc.reg t.regs.gevntsiz false)).setRet .ok

/-- A change of the context is what it makes of the context that is. -/
theorem State.updCtx_congr {f g : Ctx → Ctx} (h : f s.ctx = g s.ctx) : s.updCtx f = s.updCtx g := by
  unfold State.updCtx
  rw [h]

section
variable (hi : s.initialised) (hq : s.quiet) (hc : s.pendingBytes = 4)
  (hw : (s.irqEntered 4).viewWord (s.params.evtBufAddr + BitVec.ofNat 32 s.ctx.evt.lpos) = some w)
include hi hq hc hw

/-- IRQ with one word pending, whose dispatch completes. -/
theorem exec_irq_one (hd : dispatchWord w (s.irqEntered 4) = .ok (⟨⟩, t)) (ht : t.quiet) (h4 : t.ctx.evt.count = 4) :
    exec .irq s = .next t.irqDrained := by
  have hzero : (t.updCtx fun c => { c with evt := { c.evt with
      lpos := (c.evt.lpos + 4) % evtBufSize, count := c.evt.count - 4 } }) =
      t.updCtx fun c => { c with evt := { c.evt with lpos := (c.evt.lpos + 4) % evtBufSize, count := 0 } } :=
    State.updCtx_congr (by simp only [h4])
  have hirq := irqHandler_one hq hc hw
  rw [M.bind_of_ok hd, M.bind_of_ok (finishEventWord_quiet ht), hzero] at hirq
  exact outcome_admitted_of_ok hi (M.bind_of_ok (hirq.trans (setIntMask_quiet false ht)))

/-- IRQ with one word pending, whose dispatch faults. -/
theorem exec_irq_one_fault {r : Fault} (hd : dispatchWord w (s.irqEntered 4) = .error (.fault r)) :
    exec .irq s = .fault r := by
  have hirq := irqHandler_one hq hc hw
  rw [M.bind_of_error hd] at hirq
  exact outcome_admitted_fault hi (M.bind_of_error hirq)

end

/-- An event word is dispatched to its event's procedure (R273). -/
theorem dispatchWord_event (h : decodeEvent s.params.enc w = .ok e) : dispatchWord w s = dispatchEvent e s := by
  unfold dispatchWord
  rw [M.bind_of_ok (M.get_apply s), h]

/-- A word that is no event is logged and passed (R286, R287, R290). -/
theorem dispatchWord_reserved {x : DecodeError} (h : decodeEvent s.params.enc w = .error x) :
    dispatchWord w s = dispatchReserved w x s := by
  unfold dispatchWord
  rw [M.bind_of_ok (M.get_apply s), h]

/-- A turn at the head of the agenda is taken on the state without it, and what it comes to is run. -/
theorem step_of_fetched {x : Turn} {rest : List Turn} {f : Fetched} (ha : s.agenda = x :: rest)
    (h : fetchTurn x { s with agenda := rest } = .ok (f, t)) : step s = runFetched f t := by
  have hnext : nextTurn s = .ok (f, t) := by
    unfold nextTurn
    rw [M.bind_of_ok (M.get_apply s), ha]
    exact h
  unfold step
  rw [hnext]

/-- With a word pending that decodes, an event turn comes to the word's instruction (R272). -/
theorem fetchEvent_decoded {i : Instr} (hq : s.quiet) (hc : s.ctx.evt.count ≠ 0)
    (hw : (s.withLine (lineOf s.params (s.params.evtBufAddr + BitVec.ofNat 32 s.ctx.evt.lpos))).viewWord
      (s.params.evtBufAddr + BitVec.ofNat 32 s.ctx.evt.lpos) = some w)
    (hd : decode s.params.enc .event 0 (bytesOfWord w) = .ok i) :
    fetchEvent s = .ok (.event i,
      s.withLine (lineOf s.params (s.params.evtBufAddr + BitVec.ofNat 32 s.ctx.evt.lpos))) := by
  obtain ⟨c, hline⟩ := s.withLine_cache (lineOf s.params (s.params.evtBufAddr + BitVec.ofNat 32 s.ctx.evt.lpos))
  unfold fetchEvent
  rw [M.bind_of_ok (M.get_apply s), if_neg hc, M.bind_of_ok (readEventWord_quiet hq hw), M.bind_of_ok (M.get_apply _), hline]
  simp only [hd]
  rfl

end

end Sys2Proof.Machine

namespace Sys2Proof

/-! #### Event words without a row (spec/30_encoding.md R128) -/

section
variable {enc : Enc} {w : Word}

/-- An endpoint event of a reserved type. -/
theorem decodeEvent_reservedEp (hb : bit w 0 = enc.evt.epBit)
    (hc : field w enc.evt.epEvt 4 ∉
      [enc.evt.xferComplete, enc.evt.xferInProgress, enc.evt.xferNotReady, enc.evt.epCmdComplete]) :
    decodeEvent enc w = .error (.reservedEpEvent (eventEp enc.evt w) (field w enc.evt.epEvt 4)) := by
  simp only [List.mem_cons, List.not_mem_nil, or_false, not_or] at hc
  obtain ⟨h1, h2, h3, h4⟩ := hc
  simp [decodeEvent, isEpEvent, hb, h1, h2, h3, h4]

/-- A device word whose class is not 0. -/
theorem decodeEvent_unknownClass (hb : bit w 0 ≠ enc.evt.epBit) (hc : field w enc.evt.devClass 7 ≠ 0) :
    decodeEvent enc w = .error .unknownEventClass := by
  unfold decodeEvent
  simp only [isEpEvent, decide_eq_false hb, Bool.false_eq_true, if_false]
  exact if_pos hc

/-- A device event of a reserved type. -/
theorem decodeEvent_reservedDevice (hb : bit w 0 ≠ enc.evt.epBit) (hz : field w enc.evt.devClass 7 = 0)
    (hc : field w enc.evt.devEvt 4 ∉ [enc.evt.disconnect, enc.evt.reset, enc.evt.connectDone, enc.evt.linkStateChange,
      enc.evt.wakeup, enc.evt.hibernationReq]) :
    decodeEvent enc w = .error (.reservedDeviceEvent (field w enc.evt.devEvt 4)) := by
  simp only [List.mem_cons, List.not_mem_nil, or_false, not_or] at hc
  obtain ⟨h1, h2, h3, h4, h5, h6⟩ := hc
  simp [decodeEvent, isEpEvent, hb, hz, h1, h2, h3, h4, h5, h6]

end

open Machine

/-- Settles O6: the turn comes to the word's instruction, and the step runs it and then finishes the word. -/
theorem stepRunsEventWord : Obligations.StepRunsEventWord := by
  intro s rest i w a u ha hq hc hw hd
  have hstep : step s = runFetched (.event i) u :=
    step_of_fetched ha (fetchEvent_decoded (s := { s with agenda := rest }) hq hc hw hd)
  refine ⟨fun t ht hqt => ?_, fun r hr => ?_, fun r hr => ?_⟩
  · rw [hstep, runFetched, ht]
    exact outcome_of_ok (finishEventWord_quiet hqt)
  · rw [hstep, runFetched, hr]
  · rw [hstep, runFetched, hr]

/-- Settles O26: each of these events is its entry in the log, or the write of the link state, behind the check of the
endpoint. -/
theorem passiveEventsComplete : Obligations.PassiveEventsComplete := by
  refine ⟨fun _ _ => ⟨rfl, rfl, rfl⟩, fun s n st p hn => ⟨?_, ?_, fun h2 => ?_⟩, fun s n st p hn => ⟨?_, ?_, ?_, ?_⟩⟩
  · exact outcome_of_ok (onIgnoredEpEvent_present _ hn)
  · exact outcome_of_ok (onIgnoredEpEvent_present _ hn)
  · exact outcome_of_ok (onXferNotReady_ring st h2 hn)
  · exact outcome_of_fault (M.bind_of_error (requireEventEp_absent hn))
  · exact outcome_of_fault (onIgnoredEpEvent_absent _ hn)
  · exact outcome_of_fault (M.bind_of_error (requireEventEp_absent hn))
  · exact outcome_of_fault (onIgnoredEpEvent_absent _ hn)

/-- Settles O27: the act appends the word where `State.mayReport` says so, and that is the list of the statement. -/
theorem ownEventsAreGated : Obligations.OwnEventsAreGated := by
  intro s w rest more u withheld appended ha hl
  have hstep := step_event_act ha hl
  have hwith (h : s.mayReport w = false) : withheld := by
    simpa [h] using hstep
  have happ (h : s.mayReport w = true) : appended :=
    ⟨fun hr => by simpa only [h, hr, if_true] using hstep, fun hr => by simpa only [h, hr, if_true, if_false] using hstep⟩
  refine ⟨fun e b hd hb => ?_, ?_, fun n st p hd hn => hwith (mayReport_withheld hd hn),
    fun n st p hd hn => happ (mayReport_absent hd hn), fun x hd => happ (mayReport_undecodable hd)⟩
  · rw [← mayReport_device hd hb]
    exact ⟨happ, hwith⟩
  · intro n st p stage hd hn
    have hgate := mayReport_notReady hd hn
    refine ⟨fun hr => ?_, fun hr => ⟨fun h2 => ?_, fun h2 h => ?_, fun h2 hx hc h => ?_⟩⟩
    · exact hwith (by rw [hgate, hr, Bool.false_and])
    · exact happ (by simp [hgate, hr, h2])
    · have hpair : (s.hw.ctl.admits stage && s.hw.ep[n].xfer.unarmed) = false :=
        Bool.and_eq_false_iff.2 (h.elim .inr fun h => .inl (CtlStage.admits_eq_false h))
      exact hwith (by rw [hgate, decide_eq_false (Nat.not_le.2 h2), Bool.false_or, hpair, Bool.and_false])
    · exact happ (by rw [hgate, hr, hx, CtlStage.admits_eq_true hc h, Bool.and_true, Bool.or_true, Bool.true_and])

/-- Settles O41, by the handler's checks of the count. -/
theorem irqChecksCount : Obligations.IrqChecksCount :=
  fun _ hi hq => ⟨fun hc => outcome_admitted_of_ok hi (M.bind_of_ok (irqHandler_spurious hq hc)),
    fun hc h => outcome_admitted_fault hi (M.bind_of_error (irqHandler_invalid hq hc h))⟩

/-- Settles O42: the handler is the dispatch of its one word, and a word's dispatch is its event's instruction, or its entry
in the log. -/
theorem irqRunsOneWord : Obligations.IrqRunsOneWord := by
  intro s w v a masked u drained hi hq hc hw
  obtain ⟨cache, hu⟩ := s.irqEntered_cache 4
  have hp : (s.irqEntered 4).params = s.params := by rw [hu]; rfl
  have hqu : (s.irqEntered 4).quiet := by rw [hu]; exact hq
  have hcu : (s.irqEntered 4).ctx.evt.count = 4 := by rw [hu]; rfl
  have hlogged (x : DecodeError) (y : LogEntry) (hd : decodeEvent s.params.enc w = .error x)
      (hl : dispatchReserved w x = logEntry y) : exec .irq s = .next (drained (u.logged y)) := by
    refine exec_irq_one hi hq hc hw (t := u.logged y) ?_ hqu hcu
    rw [dispatchWord_reserved (hp ▸ hd), hl, logEntry_apply]
    rfl
  have hreserved (hb : bit w 0 = v.epBit)
      (hcode : field w v.epEvt 4 ∉ [v.xferComplete, v.xferInProgress, v.xferNotReady, v.epCmdComplete]) :
      dispatchWord w (s.irqEntered 4) = onIgnoredEpEvent (eventEp v w) (field w v.epEvt 4) (s.irqEntered 4) :=
    dispatchWord_reserved (by rw [hp]; exact decodeEvent_reservedEp hb hcode)
  refine ⟨fun e hd => ⟨fun t he ht h4 => ?_, fun info he => ?_, fun info he => ?_⟩, fun hb hcode => ⟨fun hn => ?_, fun hn => ?_⟩,
    fun hb hclass => hlogged _ _ (decodeEvent_unknownClass hb hclass) rfl,
    fun hb hclass hcode => hlogged _ _ (decodeEvent_reservedDevice hb hclass hcode) rfl⟩
  · obtain ⟨⟨⟩, he⟩ := outcome_eq_next.1 ((exec_ofEvent e u).symm.trans he)
    exact exec_irq_one hi hq hc hw ((dispatchWord_event (hp ▸ hd)).trans he) ht h4
  · subst he
    exact exec_irq_one hi hq hc hw (dispatchWord_event (hp ▸ hd)) hqu hcu
  · subst he
    exact exec_irq_one hi hq hc hw (dispatchWord_event (hp ▸ hd)) hqu hcu
  · exact exec_irq_one hi hq hc hw ((hreserved hb hcode).trans (onIgnoredEpEvent_present _ (hp.symm ▸ hn))) hqu hcu
  · exact exec_irq_one_fault hi hq hc hw ((hreserved hb hcode).trans (onIgnoredEpEvent_absent _ (hp.symm ▸ hn)))

end Sys2Proof

/-! ### DISCONNECT, RESET and CONNECT_DONE (spec/43_event_buffer.md R280 to R282) -/

namespace Sys2Proof.Machine

/-! #### What the commands of a handler leave alone -/

/-- Between the two states S has issued commands and kept its records of them: the registers of the commands, H's state, the
answers left, the TRBs handed over, the records and the log may differ, and nothing else does. -/
def CommandsOnly (s t : State) : Prop :=
  ∃ dep hw answers handed ep log, t = { s with
    regs := { s.regs with dep := dep }
    hw := hw
    env := { s.env with answers := answers }
    handed := handed
    ep := ep
    ctx := { s.ctx with log := log } }

section
variable {s t u : State} {n : EpIdx} {c : Command}

theorem CommandsOnly.refl : CommandsOnly s s := ⟨_, _, _, _, _, _, rfl⟩

theorem CommandsOnly.trans (h : CommandsOnly s t) (g : CommandsOnly t u) : CommandsOnly s u := by
  obtain ⟨_, _, _, _, _, _, rfl⟩ := h
  obtain ⟨_, _, _, _, _, _, rfl⟩ := g
  exact ⟨_, _, _, _, _, _, rfl⟩

theorem CommandsOnly.quiet (h : CommandsOnly s t) (hq : s.quiet) : t.quiet := by
  obtain ⟨_, _, _, _, _, _, rfl⟩ := h
  exact hq

theorem CommandsOnly.calm (h : CommandsOnly s t) (hc : s.calm) : t.calm := by
  obtain ⟨_, _, _, _, _, _, rfl⟩ := h
  exact hc

theorem commandsOnly_issued : CommandsOnly s (s.issued n c) := by
  unfold State.issued State.commanded
  cases s.timely <;> exact ⟨_, _, _, _, s.ep, s.ctx.log, rfl⟩

theorem commandsOnly_loggedIf (r : Result) : CommandsOnly s (s.loggedIf r) := by
  obtain ⟨l, hl⟩ := s.loggedIf_frame r
  exact ⟨_, _, _, _, _, l, hl⟩

theorem commandsOnly_updEp (f : Ep → Ep) : CommandsOnly s (s.updEp n f) := ⟨_, _, _, _, _, _, rfl⟩

theorem commandsOnly_aborted : CommandsOnly s (s.aborted n) := by
  unfold State.aborted
  split
  · dsimp only
    split
    · exact commandsOnly_issued.trans (commandsOnly_updEp _)
    · exact commandsOnly_issued.trans (commandsOnly_loggedIf _)
  · exact .refl

theorem commandsOnly_unstalled : CommandsOnly s (s.unstalled n) := by
  unfold State.unstalled
  split
  · exact commandsOnly_issued.trans (commandsOnly_loggedIf _)
  · exact .refl

theorem commandsOnly_foldl {f : State → EpIdx → State} (hf : ∀ s n, CommandsOnly s (f s n)) (l : List EpIdx) (s : State) :
    CommandsOnly s (l.foldl f s) := by
  induction l generalizing s with
  | nil => exact .refl
  | cons n l ih => exact (hf s n).trans (ih (f s n))

theorem commandsOnly_busEnded : CommandsOnly s s.busEnded :=
  (commandsOnly_foldl (fun _ _ => commandsOnly_aborted) _ _).trans (commandsOnly_foldl (fun _ _ => commandsOnly_unstalled) _ _)

/-! #### The third loop of RESET (R281) -/

/-- The third loop of RESET changes the records, memory and S's view alone. -/
theorem State.resetOne_memory (s : State) (n : EpIdx) :
    ∃ m c ep, s.resetOne n = { s with mem := m, cache := c, ep := ep } := by
  unfold State.resetOne
  split
  · obtain ⟨m, c, h⟩ := (s.updEp n Ep.afterReset).ringReady_frame n
    exact ⟨m, c, _, h⟩
  · exact ⟨_, _, _, rfl⟩

theorem foldl_resetOne_memory (l : List EpIdx) (s : State) :
    ∃ m c ep, l.foldl State.resetOne s = { s with mem := m, cache := c, ep := ep } := by
  induction l generalizing s with
  | nil => exact ⟨_, _, _, rfl⟩
  | cons n l ih =>
    obtain ⟨m, c, ep, h⟩ := s.resetOne_memory n
    obtain ⟨m', c', ep', h'⟩ := ih (s.resetOne n)
    exact ⟨m', c', ep', by rw [List.foldl_cons, h', h]⟩

/-- The third loop of RESET on an endpoint whose ring H owns no TRB of, where it is made anew. -/
theorem resetEp_remakeable (hq : s.quiet) (h : s.remakeable n) : resetEp n s = .ok (⟨⟩, s.resetOne n) := by
  rw [resetEp_apply]
  unfold State.resetOne
  split
  · next hc => exact ringInit_quiet hq (h hc.1 hc.2.1 hc.2.2)
  · rfl

/-- Silent agents stay silent over the third loop. -/
theorem ableOver_quiet {l : List EpIdx} (hq : s.quiet) (h : ableOver State.remakeable State.resetOne l s) :
    ableOver (fun s n => s.quiet ∧ s.remakeable n) State.resetOne l s := by
  induction l generalizing s with
  | nil => trivial
  | cons n l ih =>
    obtain ⟨hn, hl⟩ := h
    refine ⟨⟨hq, hn⟩, ih ?_ hl⟩
    unfold State.quiet
    rwa [(s.resetOne_frame n).1]

/-! #### The handlers -/

/-- A field of DCFG is written, and no other register (spec/10_state.md R37). -/
theorem writeField_dcfg_quiet (hq : s.quiet) (place : RegPlaces → Nat) {k : Nat} (v : BitVec k) :
    writeField .dcfg place v s = .ok (⟨⟩, s.putReg .dcfg (putField s.regs.dcfg (place s.params.enc.reg) v)) := by
  unfold writeField
  rw [M.bind_of_ok (readReg_quiet hq rfl), M.bind_of_ok (M.get_apply s)]
  unfold writeReg
  rw [M.bind_of_ok (othersTurn_quiet hq)]
  rfl

/-- The context after a RESET (R281). -/
def Ctx.afterReset (c : Ctx) : Ctx := { c with devState := .default, ep0State := .setup }

/-- The end of RESET, after its three loops (R281). -/
theorem onReset_end (hq : s.quiet) (hc : s.calm) :
    (do writeField .dcfg (·.devaddr) 0#7; modifyCtx Ctx.afterReset; callL .onReset : M Unit) s =
      .ok (⟨⟩, ((s.putReg .dcfg (putField s.regs.dcfg s.params.enc.reg.devaddr 0#7)).updCtx Ctx.afterReset).called
        .onReset) := by
  rw [M.bind_of_ok (writeField_dcfg_quiet hq (·.devaddr) 0#7), M.bind_of_ok (modifyCtx_apply _ _)]
  exact callL_calm .onReset hc

theorem onReset_resettable (hq : s.quiet) (hc : s.calm) (h : s.busResettable) :
    onReset s = .ok (⟨⟩, ((s.busReset.putReg .dcfg (putField s.regs.dcfg s.params.enc.reg.devaddr 0#7)).updCtx
      Ctx.afterReset).called .onReset) := by
  obtain ⟨habort, hunstall, hremake⟩ := h
  have hended : CommandsOnly s s.busEnded := commandsOnly_busEnded
  have hloops : CommandsOnly s { s.busReset with mem := s.mem, cache := s.cache } := by
    obtain ⟨m, c, ep, hr⟩ := foldl_resetOne_memory (epList s.params) s.busEnded
    obtain ⟨_, _, _, _, _, _, he⟩ := hended
    unfold State.busReset
    rw [hr, he]
    exact ⟨_, _, _, _, _, _, rfl⟩
  have hloop3 : forEps resetEp (epList s.params) s.busEnded = .ok (⟨⟩, s.busReset) :=
    forEps_able (fun _ _ h => resetEp_remakeable h.1 h.2) (ableOver_quiet (hended.quiet hq) hremake)
  unfold onReset
  rw [M.bind_of_ok (M.get_apply s), M.bind_of_ok (forEps_able (fun _ _ => abortEp_abortable) habort),
    M.bind_of_ok (forEps_able (fun _ _ => unstallEp_unstallable) hunstall)]
  refine (M.bind_of_ok hloop3).trans ?_
  refine (onReset_end (s := s.busReset) (hloops.quiet hq) (hloops.calm hc)).trans ?_
  obtain ⟨dep, _, _, _, _, _, he⟩ := hloops
  have hp : s.busReset.params = s.params := (congrArg State.params he :)
  have hd : s.busReset.regs.dcfg = s.regs.dcfg := (congrArg (fun x => x.regs.dcfg) he :)
  rw [hp, hd]

/-- DISCONNECT, where both aborts can run (R280). -/
theorem onDisconnect_abortable (hc : s.calm) (h : s.pairAbortable) :
    onDisconnect s = .ok (⟨⟩, ((s.pairAborted.updCtx fun c =>
      { c with ep0State := .setup, devState := .unattached }).updEp 0 fun e =>
        { e with pending := false }).called .onDisconnect) := by
  have hpair : CommandsOnly s s.pairAborted := commandsOnly_aborted.trans commandsOnly_aborted
  have hcalm : s.pairAborted.calm := hpair.calm hc
  unfold onDisconnect
  rw [M.bind_of_ok (abortEp0_abortable h), M.bind_of_ok (modifyCtx_apply _ _), M.bind_of_ok (modifyEp_apply _ _ _),
    M.bind_of_ok (modifyCtx_apply _ _)]
  exact callL_calm .onDisconnect hcalm

/-- CONNECT_DONE up to its ARM_SETUP (R282). -/
theorem onConnectDone_armable (hq : s.quiet) (hc : s.calm) :
    let u := ((s.updCtx fun c =>
      { c with speed := some (field s.regs.dsts s.params.enc.reg.connectspd 3), lpm := true }).putReg .dcfg
        (putField s.regs.dcfg s.params.enc.reg.lpmcap 1#1)).called .onConnect
    u.setupArmable → onConnectDone s = .ok (⟨⟩, u.setupArmed) := by
  intro u h
  let v := s.updCtx fun c => { c with speed := some (field s.regs.dsts s.params.enc.reg.connectspd 3) }
  have hqv : v.quiet := hq
  have hcall := callL_calm (s := (v.putReg .dcfg (putField v.regs.dcfg v.params.enc.reg.lpmcap 1#1)).updCtx fun c =>
    { c with lpm := true }) .onConnect hc
  unfold onConnectDone
  rw [M.bind_of_ok (readReg_quiet hq rfl), M.bind_of_ok (M.get_apply s), M.bind_of_ok (modifyCtx_apply _ s)]
  refine (M.bind_of_ok (writeField_dcfg_quiet hqv (·.lpmcap) 1#1)).trans ?_
  rw [M.bind_of_ok (modifyCtx_apply _ _)]
  refine (M.bind_of_ok hcall).trans ?_
  exact M.bind_of_ok (armSetup_armable h)

end

end Sys2Proof.Machine

namespace Sys2Proof

open Machine

/-- Settles O28, by the law of the two aborts. -/
theorem disconnectCompletes : Obligations.DisconnectCompletes :=
  fun _ _ hc h => outcome_of_ok (onDisconnect_abortable hc h)

/-- Settles O29: each loop runs to its end, and none of them writes DCFG. -/
theorem busResetCompletes : Obligations.BusResetCompletes :=
  fun _ _ hq hc h => outcome_of_ok (onReset_resettable hq hc h)

/-- Settles O31: CONNECT_DONE is its writes and its callback, and then ARM_SETUP. -/
theorem connectDoneCompletes : Obligations.ConnectDoneCompletes := by
  intro s info u hq hc h
  exact outcome_of_ok (onConnectDone_armable hq hc h)

end Sys2Proof

/-! ### Relations that every operation keeps

A relation between the state before an operation and the one after it, in layers: the changes that a command makes in H, those
of every act of H, those of the dispatcher, and those of every procedure that an event reaches. Each layer lists the changes
that the relation must allow; each operation is then shown once to keep any relation that allows them. -/

namespace Sys2Proof.Machine

/-- Every state that `m` answers from `s` is related to `s`. -/
def PreservesAt {α : Type} (R : State → State → Prop) (m : M α) (s : State) : Prop := ∀ a t, m s = .ok (a, t) → R s t

/-- Every state that `m` answers is related to the one it ran from. -/
abbrev Preserves {α : Type} (R : State → State → Prop) (m : M α) : Prop := ∀ s, PreservesAt R m s

/-- The relation holds of a state and itself, and over two operations in a row. -/
structure Composes (R : State → State → Prop) : Prop where
  refl : ∀ s, R s s
  trans : ∀ {s t u}, R s t → R t u → R s u

/-- It allows what a command changes in H: H's state but for the write offset and the soft reset, and the registers of the
commands (spec/40_command_dispatcher.md R181, R182). -/
structure CommandEffects (R : State → State → Prop) : Prop extends Composes R where
  hw : ∀ s (h : Hw), h.wpos = s.hw.wpos → h.softReset = s.hw.softReset → R s { s with hw := h }
  dep : ∀ s d, R s { s with regs := { s.regs with dep := d } }

/-- It allows what the acts of H change (spec/43_event_buffer.md R300, spec/42_trb_ring.md R250,
spec/70_reset_and_hazards.md R413); a choice drawn makes no silent agent act. -/
structure ActEffects (R : State → State → Prop) : Prop extends CommandEffects R where
  env : ∀ s e, (s.quiet → (s.setEnv e).quiet) → R s (s.setEnv e)
  memory : ∀ s m c, R s { s with mem := m, cache := c }
  dsts : ∀ s v, R s (s.putReg .dsts v)
  append : ∀ w, Preserves R (hAppendEvent w)
  softReset : ∀ i, Preserves R (hSoftResetDone i)

/-- It allows what the dispatcher changes, and says nothing of a launch whose PHY_LP_MASK names other registers than those of
the PHY (spec/40_command_dispatcher.md R150 to R155). -/
structure DispatchEffects (R : State → State → Prop) : Prop extends CommandEffects R where
  masked : ∀ {s t}, (phyMaskOk s.params → R s t) → R s t
  others : Preserves R othersTurn
  answer : Preserves R drawAnswer
  phy : ∀ s r v, Reg.isPhy r → R s (s.putReg r v)
  told : ∀ s n c, R s (s.setHanded (toldOf s.handed n c))
  returned : ∀ s f, R s (s.setHanded (s.handed.filter f))

/-- It allows what the procedures of S change that an event reaches: every part of the state but the launch, the registers of
the event buffer and S's record of it, H's write offset and the soft reset. -/
structure ProcedureEffects (R : State → State → Prop) : Prop extends DispatchEffects R where
  env : ∀ s e, (s.quiet → (s.setEnv e).quiet) → R s (s.setEnv e)
  memory : ∀ s m c, R s { s with mem := m, cache := c }
  dcfg : ∀ s v, R s (s.putReg .dcfg v)
  handed : ∀ s h, R s (s.setHanded h)
  record : ∀ s n f, R s (s.updEp n f)
  context : ∀ s f, (f s.ctx).evt = s.ctx.evt → R s (s.updCtx f)
  trace : ∀ s o, R s (s.observe o)

section
variable {R : State → State → Prop} {α β : Type} {s t : State}

/-! #### Operations put together -/

theorem preserves_raise {r : Fault} : Preserves R (raise r : M α) := fun _ _ _ h => nomatch h

theorem preserves_refuse {r : Refusal} : Preserves R (refuse r : M α) := fun _ _ _ h => nomatch h

theorem preservesAt_modify {f : State → State} (h : R s (f s)) : PreservesAt R (modify f) s := by
  intro a t e
  cases e
  exact h

theorem preserves_modify {f : State → State} (h : ∀ s, R s (f s)) : Preserves R (modify f) :=
  fun s => preservesAt_modify (h s)

theorem preservesAt_set_pure {u : State} {a : α} (hu : R s u) : PreservesAt R (do set u; pure a) s := by
  intro b t e
  cases e
  exact hu

theorem Preserves.ite {c : Prop} [Decidable c] {x y : M α} (hx : Preserves R x) (hy : Preserves R y) :
    Preserves R (if c then x else y) := by
  split
  · exact hx
  · exact hy

/-- What reads the state first is looked at from the state it reads. -/
theorem Preserves.of_get {f : State → M β} (h : ∀ s, PreservesAt R (f s) s) : Preserves R (get >>= f) := h

namespace Composes
variable (h : Composes R)
include h

theorem bindAt {m : M α} {f : α → M β} (hm : PreservesAt R m s) (hf : ∀ a t, m s = .ok (a, t) → PreservesAt R (f a) t) :
    PreservesAt R (m >>= f) s := by
  intro b u e
  obtain ⟨a, t, e1, e2⟩ := M.bind_eq_ok.1 e
  exact h.trans (hm a t e1) (hf a t e1 b u e2)

theorem bind {m : M α} {f : α → M β} (hm : Preserves R m) (hf : ∀ a, Preserves R (f a)) : Preserves R (m >>= f) :=
  fun s => h.bindAt (hm s) fun a t _ => hf a t

theorem pure {a : α} : Preserves R (Pure.pure a : M α) := by
  intro s b t e
  cases e
  exact h.refl s

theorem get : Preserves R (MonadState.get : M State) := by
  intro s a t e
  cases e
  exact h.refl s

/-- A conditional operation, and what follows it. -/
theorem when {c : Prop} [Decidable c] {x : M Unit} {f : Unit → M β} (hx : Preserves R x) (hf : ∀ a, Preserves R (f a)) :
    Preserves R (if c then x >>= f else f ()) :=
  .ite (h.bind hx hf) (hf ())

theorem written {x : Option α} : Preserves R (Machine.written x) := by
  cases x with
  | none => exact preserves_raise
  | some v => exact h.pure

theorem getEp (n : EpIdx) : Preserves R (Machine.getEp n) := h.bind h.get fun _ => h.pure

theorem readRsc (n : EpIdx) : Preserves R (Machine.readRsc n) := by
  refine h.bind (h.getEp n) fun e => ?_
  split
  · exact h.pure
  · exact preserves_raise

theorem requireInit : Preserves R Machine.requireInit := h.bind h.get fun _ => .ite h.pure preserves_refuse

theorem requireEp (n : EpIdx) : Preserves R (Machine.requireEp n) := h.bind h.get fun _ => .ite h.pure preserves_refuse

theorem requireEventEp (n : EpIdx) : Preserves R (Machine.requireEventEp n) :=
  h.bind h.get fun _ => .ite h.pure preserves_raise

theorem requireOwned (g : GAddr) : Preserves R (Machine.requireOwned g) :=
  h.bind h.get fun _ => .ite preserves_raise h.pure

theorem requireRoom (n : EpIdx) : Preserves R (Machine.requireRoom n) :=
  h.bind (h.getEp n) fun _ => .ite preserves_refuse h.pure

theorem forEps {f : EpIdx → M Unit} (hf : ∀ n, Preserves R (f n)) : (l : List EpIdx) → Preserves R (Machine.forEps f l)
  | [] => h.pure
  | n :: ns => h.bind (hf n) fun _ => forEps hf ns

/-- Past the end of a list of choices the next is free, where the agents are not silent, or nothing is chosen. -/
theorem freeChoice {e : Env} {a b : α} (he : ∀ s e, (s.quiet → (s.setEnv e).quiet) → R s (s.setEnv e)) :
    PreservesAt R (if s.env.isOpen then do set (s.setEnv e); Pure.pure a else Pure.pure b) s := by
  split
  · next hopen => exact preservesAt_set_pure (he s e fun hq => absurd hopen (by simp [hq.2.1]))
  · exact h.pure s

end Composes

/-! #### The acts of H (spec/40_command_dispatcher.md R181, R182, spec/42_trb_ring.md R250, spec/43_event_buffer.md R300) -/

/-- What a command performs in H keeps the write offset and the soft reset. -/
theorem Hw.performed_frame (x : Hw) (n : EpIdx) (c : Command) (a : Answer) :
    (x.performed n c a).wpos = x.wpos ∧ (x.performed n c a).softReset = x.softReset := by
  cases c with
  | updateTransfer rsc =>
    simp only [Hw.performed]
    split
    · split
      · exact ⟨rfl, rfl⟩
      · split <;> exact ⟨rfl, rfl⟩
    · exact ⟨rfl, rfl⟩
  | endTransfer rsc =>
    simp only [Hw.performed]
    split <;> exact ⟨rfl, rfl⟩
  | _ => exact ⟨rfl, rfl⟩

namespace CommandEffects
variable (h : CommandEffects R)
include h

theorem modifyHEp (n : EpIdx) (f : HEp → HEp) : Preserves R (Machine.modifyHEp n f) :=
  preserves_modify fun s => h.hw s _ rfl rfl

theorem putDepcmd (n : EpIdx) (v : Word) : R s (s.putReg (.depcmd n) v) := h.dep s _

theorem hEffect (n : EpIdx) (c : Command) (x : Answer) : Preserves R (Machine.hEffect n c x) := by
  intro s a t e
  rw [hEffect_apply] at e
  cases e
  obtain ⟨hw, hr⟩ := s.hw.performed_frame n c x
  refine h.trans (h.hw s _ hw hr) ?_
  split
  · exact h.dep { s with hw := s.hw.performed n c x } _
  · exact h.refl _

theorem hComplete (n : EpIdx) (x : Answer) : Preserves R (Machine.hComplete n x) := by
  refine h.bind h.get fun s => ?_
  split
  · exact h.pure
  · exact .ite h.pure <| h.when (h.hEffect n _ x) fun _ =>
      h.bind (preserves_modify fun _ => h.putDepcmd n _) fun _ => h.modifyHEp n _

theorem hBeforePoll (n : EpIdx) : Preserves R (Machine.hBeforePoll n) := by
  refine h.bind h.get fun s => ?_
  split
  · exact .ite (h.hComplete n _) (h.modifyHEp n _)
  · exact h.pure

end CommandEffects

namespace ActEffects
variable (h : ActEffects R)
include h

theorem drawActs : Preserves R Machine.drawActs := by
  refine .of_get fun s => ?_
  split
  · next hacts => exact preservesAt_set_pure (h.env s _ fun hq => absurd hq.1 (by simp [hacts]))
  · exact h.freeChoice h.env

theorem drawMoved : Preserves R Machine.drawMoved := by
  refine .of_get fun s => ?_
  split
  · exact preservesAt_set_pure (h.env s _ id)
  · exact h.freeChoice h.env

theorem drawSetup : Preserves R Machine.drawSetup := by
  refine .of_get fun s => ?_
  split
  · exact preservesAt_set_pure (h.env s _ id)
  · exact h.freeChoice h.env

theorem drawFresh (g : GAddr) (n : Nat) : Preserves R (Machine.drawFresh g n) := by
  refine .of_get fun s => ?_
  split
  · split
    · exact preservesAt_set_pure (h.env s _ id)
    · exact h.freeChoice h.env
  · exact h.pure s

theorem hReadWord (g : GAddr) : Preserves R (Machine.hReadWord g) :=
  h.bind (h.drawFresh g 4) fun _ => h.bind h.get fun _ => h.written

theorem hReadTrb (g : GAddr) : Preserves R (Machine.hReadTrb g) :=
  h.bind (h.drawFresh g trbBytes) fun _ => h.bind h.get fun _ => h.pure

theorem hWriteBytes (g : GAddr) (bs : List Byte) : Preserves R (Machine.hWriteBytes g bs) :=
  preserves_modify fun s => h.memory s _ _

theorem hReport (w : Word) : Preserves R (Machine.hReport w) := h.bind h.get fun _ => .ite (h.append w) h.pure

theorem setRun (n : EpIdx) (r : Run) : Preserves R (Machine.setRun n r) := h.modifyHEp n _

theorem hWait (n : EpIdx) : Preserves R (Machine.hWait n) := h.modifyHEp n _

theorem hEndTransfer (n : EpIdx) (r : BitVec 7) : Preserves R (Machine.hEndTransfer n r) :=
  h.bind (h.modifyHEp n _) fun _ => preserves_modify fun s => h.hw s _ rfl rfl

theorem hBegin (n : EpIdx) (k : TrbKind) (f : TrbFields) : Preserves R (Machine.hBegin n k f) := by
  refine h.bind h.get fun s => ?_
  split
  · exact h.pure
  · exact .ite h.pure <| .ite (h.hWait n) <| .ite (h.setRun n _) (h.setRun n _)

theorem hMoveData (n : EpIdx) (r : Run) (j : Job) : Preserves R (Machine.hMoveData n r j) := by
  refine h.bind h.get fun s => .ite h.pure <| h.bind h.drawMoved fun m => ?_
  cases m with
  | none => exact h.pure
  | some m => exact .ite h.pure <| h.when (h.hWriteBytes _ _) fun _ => h.setRun n _

theorem hReceiveSetup (n : EpIdx) (r : Run) (j : Job) : Preserves R (Machine.hReceiveSetup n r j) := by
  refine h.bind h.drawSetup fun a => ?_
  cases a with
  | none => exact h.pure
  | some a =>
    exact h.bind (h.hWriteBytes _ _) fun _ => h.bind (h.modifyHEp 0 _) fun _ => h.bind (h.modifyHEp 1 _) fun _ =>
      h.bind (preserves_modify fun s => h.hw s _ rfl rfl) fun _ => h.bind h.get fun _ => h.setRun n _

theorem hMove (n : EpIdx) : Preserves R (Machine.hMove n) := by
  refine h.bind h.get fun s => ?_
  split
  · exact h.pure
  · exact .ite (h.hReceiveSetup n _ _) (h.hMoveData n _ _)

theorem hWriteSize (n : EpIdx) : Preserves R (Machine.hWriteSize n) := by
  refine h.bind h.get fun s => ?_
  split
  · exact h.pure
  · exact h.bind (h.hReadWord _) fun _ => h.bind (h.hWriteBytes _ _) fun _ => h.setRun n _

theorem hWriteControl (n : EpIdx) : Preserves R (Machine.hWriteControl n) := by
  refine h.bind h.get fun s => ?_
  split
  · exact h.pure
  · exact h.bind (h.hReadWord _) fun _ => h.bind (h.hWriteBytes _ _) fun _ => h.bind (h.setRun n _) fun _ =>
      .ite (h.modifyHEp n _) h.pure

theorem hReportOwed (n : EpIdx) : Preserves R (Machine.hReportOwed n) := by
  refine h.bind h.get fun s => ?_
  split
  · exact h.pure
  · exact h.bind (h.append _) fun _ => h.bind (h.modifyHEp n _) fun _ => preserves_modify fun s => h.hw s _ rfl rfl

theorem hFinish (n : EpIdx) : Preserves R (Machine.hFinish n) := by
  refine h.bind h.get fun s => ?_
  split
  · exact h.pure
  · exact .ite (h.hEndTransfer n _) (h.setRun n _)

theorem hClose (n : EpIdx) : Preserves R (Machine.hClose n) := by
  refine h.bind h.get fun s => ?_
  split
  · exact h.pure
  · exact .ite (h.bind (h.hFinish n) fun _ => h.hReportOwed n) (h.bind (h.hReportOwed n) fun _ => h.hFinish n)

theorem hSettle (n : EpIdx) : Preserves R (Machine.hSettle n) := h.bind h.get fun _ => .ite h.pure (h.hReportOwed n)

theorem hRunTrb (n : EpIdx) (k : TrbKind) (f : TrbFields) : Preserves R (Machine.hRunTrb n k f) :=
  h.bind (h.hSettle n) fun _ => h.bind (h.hBegin n k f) fun _ => h.bind (h.hMove n) fun _ =>
    h.bind (h.hWriteSize n) fun _ => h.bind (h.hWriteControl n) fun _ => h.hClose n

theorem fetchTrb (n : EpIdx) : Preserves R (Machine.fetchTrb n) := by
  refine h.bind h.get fun s => ?_
  split
  · exact h.pure
  · refine .ite h.pure ?_
    split
    · exact h.pure
    · exact h.bind (h.hReadTrb _) fun _ => h.bind h.written fun _ => h.pure

theorem hNext (n : EpIdx) : Preserves R (Machine.hNext n) := by
  refine h.bind h.get fun s => ?_
  split
  · exact h.pure
  · refine h.bind (h.fetchTrb n) fun t => ?_
    cases t with
    | none => exact h.pure
    | some t =>
      dsimp only
      split
      · exact h.pure
      · exact .ite preserves_refuse (h.bind (h.hWait n) fun _ => h.pure)

theorem hTurn (n : EpIdx) : Preserves R (Machine.hTurn n) := by
  refine h.bind (h.hNext n) fun x => ?_
  cases x with
  | none => exact h.hSettle n
  | some x => exact h.hRunTrb n x.1 x.2

theorem hWork (n : EpIdx) : Preserves R (Machine.hWork n) := by
  refine h.bind h.get fun s => ?_
  split
  · split
    · exact h.hMove n
    · exact h.hWriteSize n
    · exact h.hWriteControl n
    · exact .ite (h.hReportOwed n) (h.hFinish n)
  · refine .ite (h.hReportOwed n) <| h.bind (h.hNext n) fun x => ?_
    cases x with
    | none => exact h.pure
    | some x => exact h.hBegin n x.1 x.2

theorem hPrefetch (n : EpIdx) (slot : Option (Fin 9)) : Preserves R (Machine.hPrefetch n slot) := by
  refine h.bind h.get fun s => ?_
  split
  · exact h.pure
  · split
    · exact h.pure
    · refine .ite h.pure <| h.bind (h.hReadTrb _) fun t => ?_
      cases t with
      | none => exact h.pure
      | some t => exact h.setRun n _

theorem runAct : (a : Act) → Preserves R (Machine.runAct a)
  | .complete n a => h.hComplete n a
  | .trb n => h.hTurn n
  | .work n => h.hWork n
  | .prefetch n slot => h.hPrefetch n slot
  | .event w => h.hReport w
  | .evict _ => preserves_modify fun s => h.memory s _ _
  | .status v => preserves_modify fun s => h.dsts s v
  | .softResetDone i => h.softReset i

theorem runActs : (l : List Act) → Preserves R (Machine.runActs l)
  | [] => h.pure
  | a :: as => h.bind (h.runAct a) fun _ => runActs as

theorem othersTurn : Preserves R Machine.othersTurn := h.bind h.drawActs h.runActs

end ActEffects

/-! #### The dispatcher (spec/40_command_dispatcher.md R150 to R170) -/

/-- PhySave saves words of the registers of its list. -/
theorem mem_of_phySave {ps saved : List (Reg × Word)} (e : phySave ps s = .ok (saved, t)) :
    ∀ x ∈ saved, x.1 ∈ ps.map fun p => p.1 := by
  induction ps generalizing s saved with
  | nil =>
    cases e
    nofun
  | cons p ps ih =>
    obtain ⟨v, u, -, e⟩ := M.bind_eq_ok.1 e
    split at e
    · exact fun x hx => List.mem_cons_of_mem _ (ih e x hx)
    · obtain ⟨-, u', -, e⟩ := M.bind_eq_ok.1 e
      obtain ⟨more, u'', e1, e⟩ := M.bind_eq_ok.1 e
      cases e
      rintro x hx
      rcases List.mem_cons.1 hx with rfl | hx
      · exact List.mem_cons_self ..
      · exact List.mem_cons_of_mem _ (ih e1 x hx)

namespace DispatchEffects
variable (h : DispatchEffects R)
include h

theorem readDepcmd (n : EpIdx) : Preserves R (readReg (.depcmd n)) :=
  h.bind h.others fun _ => h.bind (h.hBeforePoll n) fun _ => h.bind h.get fun _ => h.pure

theorem readPhy {r : Reg} (hr : r.isPhy) : Preserves R (readReg r) := by
  rcases hr with rfl | rfl <;> exact h.bind h.others fun _ => h.bind h.pure fun _ => h.bind h.get fun _ => h.pure

theorem writePhy {r : Reg} (hr : r.isPhy) (v : Word) : Preserves R (writeReg r v) := by
  refine h.bind h.others fun _ => ?_
  have hput := preserves_modify fun s => h.phy s r v hr
  rcases hr with rfl | rfl <;> exact hput

theorem writePar0 (n : EpIdx) (v : Word) : Preserves R (writeReg (.depcmdpar0 n) v) :=
  h.bind h.others fun _ => preserves_modify fun s => h.dep s _

theorem writePar1 (n : EpIdx) (v : Word) : Preserves R (writeReg (.depcmdpar1 n) v) :=
  h.bind h.others fun _ => preserves_modify fun s => h.dep s _

theorem hStartCommand (n : EpIdx) (w : Word) : Preserves R (Machine.hStartCommand n w) := by
  refine h.bind h.get fun s => ?_
  split
  · exact preserves_raise
  · refine .ite (h.bind h.answer fun a => ?_) ?_
    · cases a with
      | none => exact preserves_modify fun _ => h.putDepcmd n _
      | some a => exact preserves_modify fun _ => h.putDepcmd n _
    · split
      · exact preserves_refuse
      · exact h.bind (preserves_modify fun _ => h.putDepcmd n _) fun _ =>
          h.bind (preserves_modify fun s => h.told s n _) fun _ => h.bind h.answer fun _ => h.modifyHEp n _

theorem writeDepcmd (n : EpIdx) (v : Word) : Preserves R (writeReg (.depcmd n) v) := by
  refine h.bind h.others fun _ => h.bind h.get fun s => ?_
  split
  · exact preserves_raise
  · exact .ite (h.hStartCommand n v) (preserves_modify fun _ => h.putDepcmd n _)

theorem poll (n : EpIdx) (k : CmdTyp) : (budget : Nat) → Preserves R (Machine.poll n k budget)
  | 0 => h.pure
  | b + 1 => h.bind (h.readDepcmd n) fun _ => h.bind h.get fun _ => .ite (poll n k b) h.pure

theorem phySave : (ps : List (Reg × Word)) → (∀ x ∈ ps, x.1.isPhy) → Preserves R (Machine.phySave ps)
  | [], _ => h.pure
  | (r, m) :: ps, hp =>
    have hr : r.isPhy := hp (r, m) (List.mem_cons_self ..)
    have hps : ∀ x ∈ ps, x.1.isPhy := fun x hx => hp x (List.mem_cons_of_mem _ hx)
    h.bind (h.readPhy hr) fun _ => .ite (phySave ps hps) <|
      h.bind (h.writePhy hr _) fun _ => h.bind (phySave ps hps) fun _ => h.pure

theorem phyRestore : (ps : List (Reg × Word)) → (∀ x ∈ ps, x.1.isPhy) → Preserves R (Machine.phyRestore ps)
  | [], _ => h.pure
  | (r, m) :: ps, hp =>
    h.bind (h.writePhy (hp (r, m) (List.mem_cons_self ..)) _) fun _ =>
      phyRestore ps fun x hx => hp x (List.mem_cons_of_mem _ hx)

theorem settle (n : EpIdx) (k : CmdTyp) (p0 p1 : Word) (r : Result) : Preserves R (Machine.settle n k p0 p1 r) :=
  .ite (preserves_modify fun s => h.returned s _) <| .ite (preserves_modify fun s => h.returned s _) h.pure

theorem dispatchCmd (n : EpIdx) (k : CmdTyp) (q : BitVec 16) (p0 p1 : Word) : Preserves R (Machine.dispatchCmd n k q p0 p1) := by
  intro s r t e
  refine h.masked fun hm => ?_
  obtain ⟨saved, s1, s2, s3, s4, s5, s6, e1, e2, e3, e4, e5, e6, e7⟩ := dispatchCmd_eq_ok e
  have hsaved : ∀ x ∈ saved, x.1.isPhy := fun x hx => by
    obtain ⟨p, hp, hx⟩ := List.mem_map.1 (mem_of_phySave e1 x hx)
    exact hx ▸ hm.1 p hp
  exact h.trans (h.phySave _ hm.1 _ _ _ e1) <| h.trans (h.writePar0 n p0 _ _ _ e2) <| h.trans (h.writePar1 n p1 _ _ _ e3) <|
    h.trans (h.writeDepcmd n _ _ _ _ e4) <| h.trans (h.poll n k _ _ _ _ e5) <|
      h.trans (h.phyRestore _ hsaved _ _ _ e6) (h.settle n k p0 p1 r _ _ _ e7)

theorem issue (n : EpIdx) (c : Command) : Preserves R (Machine.issue n c) :=
  h.bind (h.requireEp n) fun _ => h.bind h.get fun _ => h.dispatchCmd n _ _ _ _

end DispatchEffects

/-! #### The procedures that an event reaches (spec/41_endpoint_lifecycle.md to spec/44_ep0_control.md) -/

namespace ProcedureEffects
variable (h : ProcedureEffects R)
include h

theorem modifyCtx {f : Ctx → Ctx} (hf : ∀ c, (f c).evt = c.evt) : Preserves R (Machine.modifyCtx f) :=
  preserves_modify fun s => h.context s f (hf s.ctx)

theorem modifyEp (n : EpIdx) (f : Ep → Ep) : Preserves R (Machine.modifyEp n f) := preserves_modify fun s => h.record s n f

theorem drawCalls : Preserves R Machine.drawCalls := by
  refine .of_get fun s => ?_
  split
  · exact preservesAt_set_pure (h.env s _ id)
  · exact h.freeChoice h.env

theorem drawSeen (a : LAddr) (n : Nat) : Preserves R (Machine.drawSeen a n) := by
  refine .of_get fun s => ?_
  split
  · split
    · next hseen => exact preservesAt_set_pure (h.env s _ fun hq => absurd hq.2.2 (by simp [hseen]))
    · exact h.freeChoice h.env
  · exact h.pure s

theorem nextFree : Preserves R Machine.nextFree := .of_get fun s => preservesAt_set_pure (h.env s _ id)

theorem readDcfg : Preserves R (readReg .dcfg) :=
  h.bind h.others fun _ => h.bind h.pure fun _ => h.bind h.get fun _ => h.pure

theorem readDsts : Preserves R (readReg .dsts) :=
  h.bind h.others fun _ => h.bind h.pure fun _ => h.bind h.get fun _ => h.pure

theorem writeDcfg (place : RegPlaces → Nat) {n : Nat} (v : BitVec n) : Preserves R (writeField .dcfg place v) :=
  h.bind h.readDcfg fun _ => h.bind h.get fun _ => h.bind h.others fun _ => preserves_modify fun s => h.dcfg s _

theorem withLine (a : LAddr) : Preserves R (modify fun s => s.withLine (lineOf s.params a)) :=
  preserves_modify fun s => by
    obtain ⟨c, hc⟩ := s.withLine_cache (lineOf s.params a)
    exact hc ▸ h.memory s s.mem c

theorem memRead (a : LAddr) : Preserves R (Machine.memRead a) :=
  h.bind h.others fun _ => h.bind (h.withLine a) fun _ => h.bind (h.drawSeen a 4) fun _ =>
    h.bind h.get fun _ => h.written

theorem memReadByte (a : LAddr) : Preserves R (Machine.memReadByte a) :=
  h.bind h.others fun _ => h.bind (h.withLine a) fun _ => h.bind (h.drawSeen a 1) fun _ =>
    h.bind h.get fun _ => h.written

theorem memWriteTrb (t : LAddr) (i : Nat) (v : Word) : Preserves R (Machine.memWriteTrb t i v) :=
  h.bind h.others fun _ => h.bind h.get fun _ => h.bind (h.requireOwned _) fun _ =>
    preserves_modify fun s => by
      obtain ⟨c, hc⟩ := s.cacheWrite_cache (t + BitVec.ofNat 32 (4 * i)) (bytesOfWord v)
      exact hc ▸ h.memory s s.mem c

theorem cacheFlush (a : LAddr) (n : Nat) : Preserves R (Machine.cacheFlush a n) :=
  h.bind h.others fun _ => preserves_modify fun s => h.memory s _ _

theorem cacheInvalidate (a : LAddr) (n : Nat) : Preserves R (Machine.cacheInvalidate a n) :=
  h.bind h.others fun _ => preserves_modify fun s => h.memory s s.mem _

theorem writeTrbWords (t : LAddr) (w : TrbWords) : (l : List Nat) → Preserves R (Machine.writeTrbWords t w l)
  | [] => h.pure
  | i :: is => h.bind (h.memWriteTrb t i _) fun _ => writeTrbWords t w is

theorem writeTrb (t : LAddr) (w : TrbWords) : Preserves R (Machine.writeTrb t w) :=
  h.bind h.get fun _ => h.writeTrbWords t w _

theorem readSetup (a : LAddr) : Preserves R (Machine.readSetup a) :=
  h.bind (h.memReadByte a) fun _ => h.bind (h.memReadByte _) fun _ => h.bind (h.memReadByte _) fun _ =>
    h.bind (h.memReadByte _) fun _ => h.bind (h.memReadByte _) fun _ => h.bind (h.memReadByte _) fun _ =>
      h.bind (h.memReadByte _) fun _ => h.bind (h.memReadByte _) fun _ => h.pure

theorem handOver (n : EpIdx) (g : GAddr) : Preserves R (Machine.handOver n g) := preserves_modify fun s => h.handed s _

theorem cmdStartTransfer (n : EpIdx) (g : GAddr) : Preserves R (Machine.cmdStartTransfer n g) := by
  refine h.bind (h.issue n _) fun r => ?_
  cases r with
  | okIdx i => exact h.bind (h.modifyEp n _) fun _ => h.pure
  | _ => exact h.pure

theorem cmdUpdateTransfer (n : EpIdx) (r : BitVec 7) : Preserves R (Machine.cmdUpdateTransfer n r) :=
  h.bind (h.requireEp n) fun _ => h.bind (h.readRsc n) fun _ => h.issue n _

theorem cmdEndTransfer (n : EpIdx) (r : BitVec 7) : Preserves R (Machine.cmdEndTransfer n r) :=
  h.bind (h.requireEp n) fun _ => h.bind (h.readRsc n) fun _ => h.bind (h.issue n _) fun _ =>
    h.when (h.modifyEp n _) fun _ => h.pure

theorem endOwnTransfer (n : EpIdx) : Preserves R (Machine.endOwnTransfer n) :=
  h.bind (h.readRsc n) fun r => h.cmdEndTransfer n r

theorem logEntry (e : LogEntry) : Preserves R (Machine.logEntry e) := h.modifyCtx fun _ => rfl

theorem logIfError (r : Result) : Preserves R (Machine.logIfError r) := by
  cases r with
  | err e => exact h.logEntry _
  | _ => exact h.pure

theorem zeroSlots (n : EpIdx) : (i m : Nat) → Preserves R (Machine.zeroSlots n i m)
  | _, 0 => h.pure
  | i, m + 1 => h.bind h.get fun _ => h.bind (h.writeTrb _ _) fun _ => zeroSlots n (i + 1) m

theorem ringInit (n : EpIdx) : Preserves R (Machine.ringInit n) :=
  h.bind (h.zeroSlots n 0 _) fun _ => h.bind h.get fun _ => h.bind (h.writeTrb _ _) fun _ =>
    h.bind (h.cacheFlush _ _) fun _ => h.modifyEp n _

theorem stall (num : Nat) (dir : Dir) : Preserves R (Machine.stall num dir) := by
  refine h.bind h.get fun s => ?_
  split
  · exact h.pure
  · exact h.bind (h.issue _ _) fun _ => h.when (h.modifyEp _ _) fun _ => h.pure

theorem clearStall (num : Nat) (dir : Dir) : Preserves R (Machine.clearStall num dir) := by
  refine h.bind h.get fun s => ?_
  split
  · exact h.pure
  · exact h.bind (h.issue _ _) fun _ => h.when (h.modifyEp _ _) fun _ => h.pure

theorem enqueue (n : EpIdx) (buf : LAddr) (size : Nat) (x : TrbKind) : Preserves R (Machine.enqueue n buf size x) :=
  h.bind h.get fun _ => h.bind (h.writeTrb _ _) fun _ => h.bind (h.handOver n _) fun _ => h.bind (h.cacheFlush _ _) fun _ =>
    h.bind (h.modifyEp n _) fun _ => h.pure

theorem submit (n : EpIdx) (g : GAddr) : Preserves R (Machine.submit n g) := by
  refine h.bind (h.getEp n) fun e => .ite (h.bind (h.readRsc n) fun r => h.cmdUpdateTransfer n r) <|
    h.bind (h.cmdStartTransfer n g) fun r => ?_
  cases r with
  | _ => exact h.pure

theorem submission (n : EpIdx) (buf : LAddr) (size : Nat) (x : TrbKind) (rounded : Bool) :
    Preserves R (do let g ← Machine.enqueue n buf size x; recordRequest n buf size rounded; Machine.submit n g) :=
  h.bind (h.enqueue n buf size x) fun g => h.bind (h.modifyEp n _) fun _ => h.submit n g

theorem send (num : Nat) (dir : Dir) (buf : LAddr) (len : Nat) : Preserves R (Machine.send num dir buf len) := by
  refine h.bind h.get fun s => ?_
  split
  · exact h.pure
  · exact .ite h.pure <| h.bind (h.requireRoom _) fun _ => h.when (h.cacheFlush buf len) fun _ => h.submission _ _ _ _ _

theorem receiveSize (n : EpIdx) (len : Nat) : Preserves R (Machine.receiveSize n len) :=
  h.bind (h.getEp n) fun _ => h.bind h.written fun _ => .ite (h.bind h.nextFree fun _ => h.pure) h.pure

theorem recv (num : Nat) (dir : Dir) (buf : LAddr) (len : Nat) : Preserves R (Machine.recv num dir buf len) := by
  refine h.bind h.get fun s => ?_
  split
  · exact h.pure
  · exact h.bind (h.receiveSize _ len) fun size => .ite h.pure <| h.bind (h.requireRoom _) fun _ =>
      h.bind (h.cacheFlush buf size) fun _ => h.submission _ _ _ _ _

theorem ep0Arm (d : EpIdx) (buf : LAddr) (size : Nat) (x : TrbKind) : Preserves R (Machine.ep0Arm d buf size x) := by
  refine h.bind h.get fun s => h.bind (h.writeTrb _ _) fun _ => h.bind (h.handOver d _) fun _ =>
    h.bind (h.cacheFlush _ _) fun _ => h.bind (h.cmdStartTransfer d _) fun r => ?_
  cases r with
  | okIdx i => exact h.bind (h.modifyEp d _) fun _ => h.pure
  | _ => exact h.pure

theorem recordRounded (d : EpIdx) (v : Bool) (r : Result) : Preserves R (Machine.recordRounded d v r) :=
  .ite (h.modifyEp d _) h.pure

theorem abortEp (n : EpIdx) : Preserves R (Machine.abortEp n) :=
  h.bind (h.getEp n) fun _ => .ite (h.bind (h.endOwnTransfer n) h.logIfError) h.pure

theorem abortEp0 : Preserves R Machine.abortEp0 := h.bind (h.abortEp 0) fun _ => h.abortEp 1

theorem armSetup : Preserves R Machine.armSetup :=
  h.bind h.abortEp0 fun _ => h.bind (h.modifyCtx fun _ => rfl) fun _ => h.bind h.get fun _ =>
    .ite (h.bind (h.logEntry _) fun _ => h.pure) <|
      h.bind (h.ep0Arm 0 _ _ _) fun r => h.bind (h.logIfError r) fun _ => h.pure

theorem ep0Send (buf : LAddr) (len : Nat) : Preserves R (Machine.ep0Send buf len) :=
  h.bind h.get fun _ => .ite h.pure <| .ite h.pure <| h.when (h.cacheFlush buf len) fun _ =>
    h.bind (h.ep0Arm 1 buf len _) fun r => h.bind (h.recordRounded 1 false r) fun _ => h.pure

theorem ep0Recv (buf : LAddr) (len : Nat) : Preserves R (Machine.ep0Recv buf len) :=
  h.bind h.get fun _ => .ite h.pure <| h.bind (h.receiveSize 0 len) fun size => .ite h.pure <|
    h.bind (h.cacheFlush buf size) fun _ => h.bind (h.ep0Arm 0 buf size _) fun r =>
      h.bind (h.recordRounded 0 _ r) fun _ => h.pure

theorem ep0Status (d : EpIdx) : Preserves R (Machine.ep0Status d) :=
  h.bind h.get fun _ => .ite h.pure <| h.bind h.written fun _ => h.bind (h.ep0Arm d _ 0 _) fun r =>
    h.bind (h.recordRounded d false r) fun _ => h.pure

theorem stallEp0 : Preserves R Machine.stallEp0 :=
  h.bind (h.issue 0 _) fun r => .ite (h.modifyEp 0 _) (h.logIfError r)

theorem stallAndRearm : Preserves R Machine.stallAndRearm :=
  h.bind h.stallEp0 fun _ => h.bind (h.modifyEp 0 _) fun _ => h.bind h.armSetup fun _ => h.pure

theorem rejectAddress (e : Err) : Preserves R (Machine.rejectAddress e) :=
  h.bind (h.logEntry _) fun _ => h.bind h.stallAndRearm fun _ => h.pure

theorem setAddressStep : Preserves R Machine.setAddressStep :=
  h.bind h.get fun _ => h.bind h.written fun _ => .ite (h.rejectAddress _) <| .ite (h.rejectAddress _) <|
    h.bind (h.writeDcfg _ _) fun _ => h.bind (h.modifyCtx fun _ => rfl) fun _ => h.pure

theorem runLCall : (c : LCall) → Preserves R (Machine.runLCall c)
  | .send num dir buf len => h.send num dir buf len
  | .recv num dir buf len => h.recv num dir buf len
  | .ep0Send buf len => h.ep0Send buf len
  | .ep0Recv buf len => h.ep0Recv buf len
  | .stall num dir => h.stall num dir
  | .clearStall num dir => h.clearStall num dir

theorem runLCalls : (l : List LCall) → Preserves R (Machine.runLCalls l)
  | [] => h.pure
  | c :: cs => h.bind h.requireInit fun _ => h.bind (h.runLCall c) fun _ =>
      h.bind (preserves_modify fun s => h.trace s _) fun _ => runLCalls cs

theorem callL (c : Callback) : Preserves R (Machine.callL c) :=
  h.bind (preserves_modify fun s => h.trace s _) fun _ => h.bind h.drawCalls h.runLCalls

theorem transferred (n : EpIdx) (a : LAddr) : Preserves R (Machine.transferred n a) :=
  h.bind h.get fun _ => h.bind (h.cacheInvalidate a _) fun _ => h.bind (h.memRead _) fun _ =>
    h.bind (h.getEp n) fun _ => .ite preserves_raise h.pure

theorem invalidateReceived (n : EpIdx) (d : Dir) : Preserves R (Machine.invalidateReceived n d) := by
  cases d with
  | inp => exact h.pure
  | out => exact h.bind (h.getEp n) fun _ => h.bind h.written fun buf => h.cacheInvalidate buf _

theorem complete (n : EpIdx) : Preserves R (Machine.complete n) :=
  h.bind h.get fun _ => .ite (h.logEntry _) <| h.bind (h.transferred n _) fun _ => h.bind (h.modifyEp n _) fun _ =>
    h.bind (h.invalidateReceived n _) fun _ => h.callL _

theorem setupCompletion : Preserves R Machine.setupCompletion := by
  have kept (c : Ctx) (p : Setup) : (c.afterSetup p).evt = c.evt := by
    unfold Ctx.afterSetup
    split <;> rfl
  exact h.bind (h.modifyEp 0 _) fun _ => h.bind h.get fun _ => h.bind (h.cacheInvalidate _ _) fun _ =>
    h.bind (h.readSetup _) fun p => h.bind (h.modifyCtx fun c => kept c p) fun _ => h.bind (h.modifyEp 0 _) fun _ => h.callL _

theorem directionMismatch (d : Dir) : Preserves R (Machine.directionMismatch d) :=
  h.bind (h.abortEp _) fun _ => h.stallAndRearm

theorem dataCompletion (n : EpIdx) : Preserves R (Machine.dataCompletion n) :=
  h.bind h.get fun _ => h.bind (h.transferred n _) fun _ => h.bind (h.modifyEp n _) fun _ =>
    h.bind (h.invalidateReceived n _) fun _ => h.bind (h.modifyCtx fun _ => rfl) fun _ => h.callL _

theorem statusTrigger (n : EpIdx) : Preserves R (Machine.statusTrigger n) := by
  have answer (r : Result) :
      Preserves R (if r = .ok then do let q ← Machine.ep0Status n; Machine.logIfError q else Pure.pure ()) :=
    .ite (h.bind (h.ep0Status n) h.logIfError) h.pure
  exact h.bind h.get fun _ => .ite (h.logEntry _) <| h.bind h.written fun _ =>
    .ite (h.bind h.setAddressStep answer) (h.bind h.pure answer)

theorem statusCompletion (n : EpIdx) : Preserves R (Machine.statusCompletion n) :=
  h.bind (h.modifyEp n _) fun _ => h.bind (h.modifyEp 0 _) fun _ => h.bind h.armSetup fun _ => h.pure

theorem ep0XferComplete (n : EpIdx) : Preserves R (Machine.ep0XferComplete n) := by
  refine h.bind h.get fun s => ?_
  split
  · exact h.logEntry _
  · exact .ite h.setupCompletion (h.logEntry _)
  · exact .ite (h.dataCompletion n) (h.logEntry _)
  · exact .ite (h.statusCompletion n) (h.logEntry _)

theorem ep0XferNotReady (n : EpIdx) (st : BitVec 4) : Preserves R (Machine.ep0XferNotReady n st) := by
  refine h.bind h.get fun s => ?_
  split
  · exact h.logEntry _
  · exact h.logEntry _
  · exact .ite (h.bind h.written fun d => .ite h.pure (h.directionMismatch d)) (h.logEntry _)
  · exact .ite (h.statusTrigger n) (h.logEntry _)

theorem onXferComplete (n : EpIdx) : Preserves R (Machine.onXferComplete n) :=
  h.bind (h.requireEventEp n) fun _ => .ite (h.ep0XferComplete n) (h.complete n)

theorem onXferNotReady (n : EpIdx) (st : BitVec 4) : Preserves R (Machine.onXferNotReady n st) :=
  h.bind (h.requireEventEp n) fun _ => h.bind h.get fun _ => .ite (h.ep0XferNotReady n st) (h.logEntry _)

theorem onIgnoredEpEvent (n : EpIdx) (code : BitVec 4) : Preserves R (Machine.onIgnoredEpEvent n code) :=
  h.bind (h.requireEventEp n) fun _ => h.logEntry _

theorem onDisconnect : Preserves R Machine.onDisconnect :=
  h.bind h.abortEp0 fun _ => h.bind (h.modifyCtx fun _ => rfl) fun _ => h.bind (h.modifyEp 0 _) fun _ =>
    h.bind (h.modifyCtx fun _ => rfl) fun _ => h.callL _

theorem unstallEp (n : EpIdx) : Preserves R (Machine.unstallEp n) :=
  h.bind (h.getEp n) fun _ => .ite (h.bind (h.issue n _) h.logIfError) h.pure

theorem resetEp (n : EpIdx) : Preserves R (Machine.resetEp n) :=
  h.bind (h.modifyEp n _) fun _ => h.bind (h.getEp n) fun _ => .ite (h.ringInit n) h.pure

theorem onReset : Preserves R Machine.onReset :=
  h.bind h.get fun _ => h.bind (h.forEps h.abortEp _) fun _ => h.bind (h.forEps h.unstallEp _) fun _ =>
    h.bind (h.forEps h.resetEp _) fun _ => h.bind (h.writeDcfg _ _) fun _ => h.bind (h.modifyCtx fun _ => rfl) fun _ => h.callL _

theorem onConnectDone : Preserves R Machine.onConnectDone :=
  h.bind h.readDsts fun _ => h.bind h.get fun _ => h.bind (h.modifyCtx fun _ => rfl) fun _ => h.bind (h.writeDcfg _ _) fun _ =>
    h.bind (h.modifyCtx fun _ => rfl) fun _ => h.bind (h.callL _) fun _ => h.bind h.armSetup fun _ => h.pure

theorem dispatchEvent : (e : Event) → Preserves R (Machine.dispatchEvent e)
  | .xferComplete n _ _ => h.onXferComplete n
  | .xferInProgress n _ _ => h.bind h.get fun _ => h.onIgnoredEpEvent n _
  | .xferNotReady n st _ => h.onXferNotReady n st
  | .epCmdComplete n _ _ => h.bind h.get fun _ => h.onIgnoredEpEvent n _
  | .disconnect _ => h.onDisconnect
  | .reset _ => h.onReset
  | .connectDone _ => h.onConnectDone
  | .linkStateChange _ => h.modifyCtx fun _ => rfl
  | .wakeup _ => h.logEntry _
  | .hibernationReq _ => h.logEntry _

theorem dispatchReserved (w : Word) (e : DecodeError) : Preserves R (Machine.dispatchReserved w e) := by
  cases e with
  | reservedEpEvent n code => exact h.onIgnoredEpEvent n code
  | _ => exact h.logEntry _

theorem dispatchWord (w : Word) : Preserves R (Machine.dispatchWord w) := by
  refine h.bind h.get fun s => ?_
  split
  · exact h.dispatchEvent _
  · exact h.dispatchReserved w _

theorem readEventWord : Preserves R Machine.readEventWord := h.bind h.get fun _ => h.memRead _

end ProcedureEffects

end

end Sys2Proof.Machine

/-! ### O43: the interrupt handler drains the count it read (spec/43_event_buffer.md R271 to R279)

While the handler runs, the other agents change of the event buffer only what H appends to it, and S's procedures change nothing
of it: `State.Fills`. Each round of the drain then acknowledges one word: `State.Drained`. -/

namespace Sys2Proof.Machine

/-- What IRQ starts from: an encoding and a PHY mask that are admissible, and no soft reset under way. -/
structure State.Sound (s : State) : Prop where
  enc : s.params.enc.ok = true
  phy : phyMaskOk s.params
  idle : s.hw.softReset = .idle

/-- Of the event buffer `t` differs from `s` in words that H has appended alone. -/
structure State.Buffered (s t : State) : Prop where
  params : t.params = s.params := by rfl
  size : t.regs.gevntsiz = s.regs.gevntsiz := by rfl
  evt : t.ctx.evt = s.ctx.evt := by rfl
  idle : s.hw.softReset = .idle → t.hw.softReset = .idle := by exact id
  appended : ∃ k, t.pendingBytes.toNat = s.pendingBytes.toNat + 4 * k ∧
    t.hw.wpos % evtBufSize = (s.hw.wpos + 4 * k) % evtBufSize

/-- No agent has become other than silent, and no byte is pending that was not. -/
structure State.Silent (s t : State) : Prop where
  quiet : t.quiet
  pending : t.pendingBytes = s.pendingBytes

/-- H has appended to the event buffer, and nothing else has changed of it; with `silent`, silent agents append nothing. -/
def State.Fills (silent : Prop) (s t : State) : Prop := s.Sound → s.Buffered t ∧ (silent → s.quiet → s.Silent t)

section
variable {s t u : State} {q : Prop} {α : Type}

theorem State.Buffered.sound (h : s.Buffered t) (hs : s.Sound) : t.Sound where
  enc := by rw [h.params]; exact hs.enc
  phy := by rw [h.params]; exact hs.phy
  idle := h.idle hs.idle

theorem State.Buffered.trans (h : s.Buffered t) (g : t.Buffered u) : s.Buffered u where
  params := g.params.trans h.params
  size := g.size.trans h.size
  evt := g.evt.trans h.evt
  idle := g.idle ∘ h.idle
  appended := by
    obtain ⟨j, hj, hjw⟩ := h.appended
    obtain ⟨k, hk, hkw⟩ := g.appended
    exact ⟨j + k, by omega, by unfold evtBufSize at *; omega⟩

theorem State.Silent.trans (h : s.Silent t) (g : t.Silent u) : s.Silent u := ⟨g.quiet, g.pending.trans h.pending⟩

/-- The registers of the event buffer and what H and S hold of it are as before. -/
theorem State.fills_of_kept (hp : t.params = s.params) (hs : t.regs.gevntsiz = s.regs.gevntsiz)
    (hc : t.regs.gevntcount = s.regs.gevntcount) (he : t.ctx.evt = s.ctx.evt) (hw : t.hw.wpos = s.hw.wpos)
    (hr : t.hw.softReset = s.hw.softReset) (hq : s.quiet → t.quiet) : s.Fills q t := by
  have hpending : t.pendingBytes = s.pendingBytes := by
    unfold State.pendingBytes
    rw [hp, hc]
  exact fun _ => ⟨⟨hp, hs, he, fun h => hr.trans h, 0, by rw [hpending]; rfl, by rw [hw]; rfl⟩,
    fun _ h => ⟨hq h, hpending⟩⟩

/-- Commands change nothing of the event buffer. -/
theorem State.fills_commandEffects : CommandEffects (State.Fills q) where
  refl _ := State.fills_of_kept rfl rfl rfl rfl rfl rfl id
  trans h g hs :=
    have ⟨ht, hsilent⟩ := h hs
    have ⟨hu, gsilent⟩ := g (ht.sound hs)
    ⟨ht.trans hu, fun hq hquiet => (hsilent hq hquiet).trans (gsilent hq (hsilent hq hquiet).quiet)⟩
  hw _ _ hw hr := State.fills_of_kept rfl rfl rfl rfl hw hr id
  dep _ _ := State.fills_of_kept rfl rfl rfl rfl rfl rfl id

/-- The count of a GEVNTCOUNT word that was written (spec/43_event_buffer.md R300, R301). -/
theorem State.withPending_pendingBytes (h : s.params.enc.ok = true) (c : BitVec 16) :
    (s.withPending c).pendingBytes = c := by
  have hl : layoutOk [(s.params.enc.reg.evntCount, 16)] = true := (Enc.ok_facts h).reg _ (by simp [RegPlaces.layouts])
  exact field_putField_same _ _ c (layoutOk_bound hl _ (List.mem_singleton_self _))

/-- An event that H appends is one word more, the count and the write offset with it (spec/43_event_buffer.md R300). -/
theorem State.fills_appended (w : Word) : Preserves (State.Fills False) (hAppendEvent w) := by
  intro s _ t h hs
  by_cases hroom : s.hasRoom
  · rw [hAppendEvent_room w hroom] at h
    cases h
    have hpending : (s.reported w).pendingBytes = s.pendingBytes + 4 :=
      State.withPending_pendingBytes (s := s.hStore _ _) hs.enc _
    refine ⟨⟨rfl, rfl, rfl, id, 1, ?_, Nat.mod_mod ..⟩, False.elim⟩
    rw [hpending, BitVec.toNat_add]
    unfold State.hasRoom evtBufSize at hroom
    exact Nat.mod_eq_of_lt (show s.pendingBytes.toNat + 4 < 2 ^ 16 by omega)
  · rw [hAppendEvent_full w hroom] at h
    cases h

/-- The acts of the other agents append words and change nothing else of the event buffer, where no soft reset is under way. -/
theorem State.fills_actEffects : ActEffects (State.Fills False) where
  toCommandEffects := State.fills_commandEffects
  env _ _ hq := State.fills_of_kept rfl rfl rfl rfl rfl rfl hq
  memory _ _ _ := State.fills_of_kept rfl rfl rfl rfl rfl rfl id
  dsts _ _ := State.fills_of_kept rfl rfl rfl rfl rfl rfl id
  append := State.fills_appended
  softReset i := .of_get fun s => by
    split
    · exact State.fills_commandEffects.pure s
    · next hr => exact fun _ _ _ hs => absurd hs.idle (by rw [hr]; nofun)

theorem State.fills_othersTurn : Preserves (State.Fills q) othersTurn := by
  intro s a t h
  by_cases hq : s.quiet
  · rw [othersTurn_quiet hq] at h
    cases h
    exact State.fills_commandEffects.refl s
  · exact fun hs => ⟨(State.fills_actEffects.othersTurn s a t h hs).1, fun _ hquiet => absurd hquiet hq⟩

/-- No procedure that an event reaches changes anything else of the event buffer, and none makes a silent agent act. -/
theorem State.fills_procedureEffects : ProcedureEffects (State.Fills True) where
  toCommandEffects := State.fills_commandEffects
  masked h hs := h hs.phy hs
  others := State.fills_othersTurn
  answer := .of_get fun s => by
    split
    · exact preservesAt_set_pure (State.fills_of_kept rfl rfl rfl rfl rfl rfl id)
    · exact State.fills_commandEffects.freeChoice fun _ _ hq => State.fills_of_kept rfl rfl rfl rfl rfl rfl hq
  phy s r v hr := by
    rcases hr with rfl | rfl <;> exact State.fills_of_kept rfl rfl rfl rfl rfl rfl id
  told _ _ _ := State.fills_of_kept rfl rfl rfl rfl rfl rfl id
  returned _ _ := State.fills_of_kept rfl rfl rfl rfl rfl rfl id
  env _ _ hq := State.fills_of_kept rfl rfl rfl rfl rfl rfl hq
  memory _ _ _ := State.fills_of_kept rfl rfl rfl rfl rfl rfl id
  dcfg _ _ := State.fills_of_kept rfl rfl rfl rfl rfl rfl id
  handed _ _ := State.fills_of_kept rfl rfl rfl rfl rfl rfl id
  record _ _ _ := State.fills_of_kept rfl rfl rfl rfl rfl rfl id
  context _ _ he := State.fills_of_kept rfl rfl rfl he rfl rfl id
  trace _ _ := State.fills_of_kept rfl rfl rfl rfl rfl rfl id

/-! #### The rounds of the drain -/

/-- `c` bytes of the event buffer have been drained: the cursor has moved, they have been acknowledged, and what H has appended
since stays counted. -/
structure State.Drained (c : Nat) (s t : State) : Prop where
  params : t.params = s.params
  idle : t.hw.softReset = .idle
  lpos : t.ctx.evt.lpos = (s.ctx.evt.lpos + c) % evtBufSize
  counted : (t.pendingBytes.toNat + c + s.hw.wpos) % evtBufSize = (s.pendingBytes.toNat + t.hw.wpos) % evtBufSize
  silent : s.quiet → t.quiet ∧ t.pendingBytes = s.pendingBytes - BitVec.ofNat 16 c

theorem State.Drained.sound {c : Nat} (h : State.Drained c s t) (hs : s.Sound) : t.Sound where
  enc := by rw [h.params]; exact hs.enc
  phy := by rw [h.params]; exact hs.phy
  idle := h.idle

theorem State.Drained.inside {c : Nat} (h : State.Drained c s t) : t.ctx.evt.lpos < evtBufSize := by
  rw [h.lpos]
  exact Nat.mod_lt _ (by decide)

theorem State.Drained.trans {c d : Nat} (h : State.Drained c s t) (g : State.Drained d t u) : State.Drained (c + d) s u where
  params := g.params.trans h.params
  idle := g.idle
  lpos := by
    rw [g.lpos, h.lpos, Nat.mod_add_mod, Nat.add_assoc]
  counted := by
    have hc := h.counted
    have gc := g.counted
    unfold evtBufSize at *
    omega
  silent hq := by
    obtain ⟨ht, hp⟩ := h.silent hq
    obtain ⟨hu, gp⟩ := g.silent ht
    refine ⟨hu, ?_⟩
    rw [gp, hp, BitVec.ofNat_add]
    bv_omega

/-- What only fills the event buffer drains nothing of it. -/
theorem State.Fills.drained (hf : s.Fills True t) (hs : s.Sound) (hl : s.ctx.evt.lpos < evtBufSize) : State.Drained 0 s t := by
  obtain ⟨h, hsilent⟩ := hf hs
  obtain ⟨k, hk, hkw⟩ := h.appended
  refine ⟨h.params, h.idle hs.idle, ?_, ?_, fun hq => ?_⟩
  · rw [h.evt, Nat.add_zero, Nat.mod_eq_of_lt hl]
  · unfold evtBufSize at *
    omega
  · exact ⟨(hsilent trivial hq).quiet, by rw [(hsilent trivial hq).pending]; simp⟩

/-- A read of a register of the event buffer gives its word after the turn of the other agents. -/
theorem readReg_passive {r : Reg} {w : Word} (hr : hBeforeRead r = pure ()) (h : readReg r s = .ok (w, t)) :
    othersTurn s = .ok (⟨⟩, t) ∧ w = t.regValue r := by
  obtain ⟨_, u, ho, h⟩ := M.bind_eq_ok.1 h
  rw [hr] at h
  cases h
  exact ⟨ho, rfl⟩

/-- Around the write of INTMASK the other agents may fill the event buffer (spec/43_event_buffer.md R277). -/
theorem setIntMask_fills {masked : Bool} (hs : s.Sound) (h : setIntMask masked s = .ok (⟨⟩, t)) :
    ∃ u, s.Fills True u ∧ t = u.putReg .gevntsiz (withIntMask s.params.enc.reg s.regs.gevntsiz masked) := by
  obtain ⟨w, v, hread, h⟩ := M.bind_eq_ok.1 h
  obtain ⟨hv, rfl⟩ := readReg_passive rfl hread
  obtain ⟨_, _, hget, h⟩ := M.bind_eq_ok.1 h
  cases hget
  obtain ⟨_, u, hu, h⟩ := M.bind_eq_ok.1 h
  cases h
  have fv : s.Fills True v := State.fills_othersTurn _ _ _ hv
  refine ⟨u, State.fills_commandEffects.trans fv (State.fills_othersTurn _ _ _ hu), ?_⟩
  have hbuf := (fv hs).1
  rw [show v.regValue .gevntsiz = s.regs.gevntsiz from hbuf.size, hbuf.params]

/-- INTMASK is written, and nothing is drained by it. -/
theorem setIntMask_drained {masked : Bool} (hs : s.Sound) (hl : s.ctx.evt.lpos < evtBufSize)
    (h : setIntMask masked s = .ok (⟨⟩, t)) :
    State.Drained 0 s t ∧ t.ctx.evt = s.ctx.evt ∧ t.regs.gevntsiz = withIntMask s.params.enc.reg s.regs.gevntsiz masked := by
  obtain ⟨u, hu, rfl⟩ := setIntMask_fills hs h
  obtain ⟨hp, hi, hlpos, hc, hq⟩ := hu.drained hs hl
  exact ⟨⟨hp, hi, hlpos, hc, hq⟩, (hu hs).1.evt, rfl⟩

/-- The end of a round: the cursor moves by a word, which is acknowledged (spec/43_event_buffer.md R278, R279). -/
theorem finishEventWord_drained (hs : s.Sound) (h : finishEventWord s = .ok (⟨⟩, t)) :
    State.Drained 4 s t ∧ t.ctx.evt.count = s.ctx.evt.count - 4 ∧ t.regs.gevntsiz = s.regs.gevntsiz := by
  obtain ⟨_, m, hm, h⟩ := M.bind_eq_ok.1 h
  cases hm
  obtain ⟨_, u, hu, h⟩ := M.bind_eq_ok.1 h
  cases h
  obtain ⟨hbuf, hsilent⟩ := State.fills_othersTurn (q := True) _ _ _ hu ⟨hs.enc, hs.phy, hs.idle⟩
  have hpending := State.withPending_pendingBytes (s := u) (by rw [hbuf.params]; exact hs.enc) (u.pendingBytes - 4)
  obtain ⟨k, hk, hkw⟩ := hbuf.appended
  refine ⟨⟨hbuf.params, hbuf.idle hs.idle, congrArg Evt.lpos hbuf.evt, ?_, fun hq => ?_⟩, congrArg Evt.count hbuf.evt,
    hbuf.size⟩
  · show ((u.withPending (u.pendingBytes - 4)).pendingBytes.toNat + 4 + s.hw.wpos) % evtBufSize =
      (s.pendingBytes.toNat + u.hw.wpos) % evtBufSize
    replace hk : u.pendingBytes.toNat = s.pendingBytes.toNat + 4 * k := hk
    replace hkw : u.hw.wpos % evtBufSize = (s.hw.wpos + 4 * k) % evtBufSize := hkw
    rw [hpending]
    unfold evtBufSize at *
    bv_omega
  · obtain ⟨hquiet, hsame⟩ := hsilent trivial hq
    exact ⟨hquiet, hpending.trans (congrArg (· - 4) hsame)⟩

/-- With a count of `k` words the drain takes them and no other (spec/43_event_buffer.md R272, R279). -/
theorem drain_drained {k : Nat} (hs : s.Sound) (hl : s.ctx.evt.lpos < evtBufSize) (hc : s.ctx.evt.count = 4 * k)
    (h : drain k s = .ok (⟨⟩, t)) :
    State.Drained (4 * k) s t ∧ t.ctx.evt.count = 0 ∧ t.regs.gevntsiz = s.regs.gevntsiz := by
  induction k generalizing s with
  | zero =>
    cases h
    exact ⟨(State.fills_commandEffects.refl _).drained hs hl, hc, rfl⟩
  | succ k ih =>
    obtain ⟨_, _, hget, h⟩ := M.bind_eq_ok.1 h
    cases hget
    rw [if_neg (by omega)] at h
    obtain ⟨w, u, hread, h⟩ := M.bind_eq_ok.1 h
    obtain ⟨_, v, hdisp, h⟩ := M.bind_eq_ok.1 h
    obtain ⟨_, x, hfin, h⟩ := M.bind_eq_ok.1 h
    have filled : s.Fills True v := State.fills_commandEffects.trans (State.fills_procedureEffects.readEventWord _ _ _ hread)
      (State.fills_procedureEffects.dispatchWord w _ _ _ hdisp)
    have dv := filled.drained hs hl
    obtain ⟨dx, hcount, hsize⟩ := finishEventWord_drained (dv.sound hs) hfin
    have dsx := dv.trans dx
    obtain ⟨dt, hzero, hsize'⟩ := ih (dsx.sound hs) dx.inside (by rw [hcount, (filled hs).1.evt]; omega) h
    refine ⟨?_, hzero, ?_⟩
    · have d := dsx.trans dt
      rwa [show 0 + 4 + 4 * k = 4 * (k + 1) by omega] at d
    · rw [hsize', hsize, (filled hs).1.size]

/-- INTMASK is written twice. -/
theorem withIntMask_withIntMask {r : RegPlaces} (w : Word) (a b : Bool) (hr : r.intMask + 1 ≤ 32) :
    withIntMask r (withIntMask r w a) b = withIntMask r w b := by
  unfold withIntMask
  apply BitVec.eq_of_getLsbD_eq
  intro i _
  simp only [getLsbD_putField _ _ _ _ hr]
  split <;> rfl

/-- With a count that is not 0 the handler drains that count, and leaves the interrupt unmasked (spec/43_event_buffer.md
R272, R277, R279). -/
theorem irqHandler_drained (hs : s.Sound) (hl : s.ctx.evt.lpos < evtBufSize) {c : Nat} (hc : c % 4 = 0)
    (h : (do
      modifyCtx fun x => { x with evt := { x.evt with count := c } }
      setIntMask true
      let s ← get
      cacheInvalidate s.params.evtBufAddr evtBufSize
      drain (c / 4)
      setIntMask false : M Unit) s = .ok (⟨⟩, t)) :
    State.Drained c s t ∧ t.ctx.evt.count = 0 ∧ t.regs.gevntsiz = withIntMask s.params.enc.reg s.regs.gevntsiz false := by
  obtain ⟨_, m, hm, h⟩ := M.bind_eq_ok.1 h
  cases hm
  obtain ⟨_, u, hmask, h⟩ := M.bind_eq_ok.1 h
  obtain ⟨_, _, hget, h⟩ := M.bind_eq_ok.1 h
  cases hget
  obtain ⟨_, v, hinv, h⟩ := M.bind_eq_ok.1 h
  obtain ⟨_, x, hdrain, hunmask⟩ := M.bind_eq_ok.1 h
  obtain ⟨⟨hp, hi, hlpos, hcounted, hsilent⟩, hevt, hsize⟩ :=
    setIntMask_drained (s := s.irqCounted c) ⟨hs.enc, hs.phy, hs.idle⟩ hl hmask
  have du : State.Drained 0 s u := ⟨hp, hi, hlpos, hcounted, hsilent⟩
  have filled : u.Fills True v := State.fills_procedureEffects.cacheInvalidate _ _ _ _ _ hinv
  obtain ⟨hbuf, -⟩ := filled (du.sound hs)
  have dv := du.trans (filled.drained (du.sound hs) du.inside)
  have hcount : v.ctx.evt.count = 4 * (c / 4) := by
    rw [hbuf.evt, hevt]
    show c = _
    omega
  obtain ⟨dx, hzero, hxsize⟩ := drain_drained (dv.sound hs) dv.inside hcount hdrain
  have dsx := dv.trans dx
  obtain ⟨dt, htevt, htsize⟩ := setIntMask_drained (dsx.sound hs) dsx.inside hunmask
  have hr : layoutOk [(s.params.enc.reg.evtSize, 16), (s.params.enc.reg.intMask, 1)] = true :=
    (Enc.ok_facts hs.enc).reg _ (by simp [RegPlaces.layouts])
  refine ⟨?_, by rw [htevt, hzero], ?_⟩
  · have d := dsx.trans dt
    rwa [show 0 + 0 + 4 * (c / 4) + 0 = c by omega] at d
  · rw [htsize, dsx.params, hxsize, hbuf.size, hsize]
    exact withIntMask_withIntMask _ _ _ (layoutOk_bound hr (s.params.enc.reg.intMask, 1) (by simp))

/-- IRQ answers a next state where the handler does, and its result is OK (spec/43_event_buffer.md R272). -/
theorem exec_irq_eq_next (h : exec .irq s = .next t) : ∃ u, irqHandler s = .ok (⟨⟩, u) ∧ t = u.setRet .ok := by
  have hinit : s.initialised := by
    by_contra hn
    rw [show exec .irq s = .refused .notInitialised from outcome_of_refuse (M.bind_of_error (requireInit_not hn))] at h
    cases h
  obtain ⟨_, h⟩ := outcome_eq_next.1 ((outcome_admitted hinit).symm.trans h)
  obtain ⟨_, y, hrun, h⟩ := M.bind_eq_ok.1 h
  cases h
  obtain ⟨_, u, hirq, h⟩ := M.bind_eq_ok.1 hrun
  cases h
  exact ⟨_, hirq, rfl⟩

/-- The handler drains the count `c` that it read after the turn of the other agents, or logs a spurious interrupt where that
is 0 (spec/43_event_buffer.md R272, R275, R276). -/
theorem irqHandler_eq_ok (hs : s.Sound) (hl : s.ctx.evt.lpos < evtBufSize) (h : irqHandler s = .ok (⟨⟩, t)) :
    ∃ u, othersTurn s = .ok (⟨⟩, u) ∧ u.pendingBytes.toNat % 4 = 0 ∧ u.pendingBytes.toNat ≤ evtBufSize ∧
      (u.pendingBytes.toNat = 0 → t = u.logged .spuriousIrq) ∧
      (u.pendingBytes.toNat ≠ 0 → State.Drained u.pendingBytes.toNat u t ∧ t.ctx.evt.count = 0 ∧
        t.regs.gevntsiz = withIntMask s.params.enc.reg s.regs.gevntsiz false) := by
  obtain ⟨w, u, hread, h⟩ := M.bind_eq_ok.1 h
  obtain ⟨hu, rfl⟩ := readReg_passive rfl hread
  obtain ⟨_, _, hget, h⟩ := M.bind_eq_ok.1 h
  cases hget
  have filled : s.Fills True u := State.fills_othersTurn _ _ _ hu
  have du := filled.drained hs hl
  obtain ⟨hbuf, -⟩ := filled hs
  refine ⟨u, hu, ?_⟩
  have hcount : (evntCount u.params.enc.reg (u.regValue .gevntcount)).toNat = u.pendingBytes.toNat := rfl
  simp only [hcount] at h
  split at h
  · next hc =>
    cases h
    exact ⟨by omega, by omega, fun _ => rfl, fun hne => absurd hc hne⟩
  · next hc =>
    split at h
    · cases h
    · next hok =>
      obtain ⟨hmod, hle⟩ := not_or.1 hok
      obtain ⟨dt, hzero, hsize⟩ := irqHandler_drained (du.sound hs) du.inside (not_not.1 hmod) h
      exact ⟨not_not.1 hmod, Nat.le_of_not_lt hle, fun h0 => absurd h0 hc,
        fun _ => ⟨dt, hzero, by rw [hsize, hbuf.params, hbuf.size]⟩⟩

end

end Sys2Proof.Machine

namespace Sys2Proof

open Machine

/-- Settles O43: the count read is the one drained, as each word of it moves the cursor and is acknowledged, and all else
that happens meanwhile appends words alone. -/
theorem irqDrainsSnapshot : Obligations.IrqDrainsSnapshot := by
  intro s t henc hphy hidle hl h
  have hs : s.Sound := ⟨henc, hphy, hidle⟩
  obtain ⟨t, hirq, rfl⟩ := exec_irq_eq_next h
  obtain ⟨u, hu, hmod, hle, hspurious, hdrained⟩ := irqHandler_eq_ok hs hl hirq
  have filled : s.Fills True u := State.fills_othersTurn _ _ _ hu
  obtain ⟨hbuf, hsilent⟩ := filled hs
  obtain ⟨k, hk, -⟩ := hbuf.appended
  have du := filled.drained hs hl
  have dt : State.Drained u.pendingBytes.toNat s t := by
    by_cases h0 : u.pendingBytes.toNat = 0
    · obtain rfl := hspurious h0
      obtain ⟨hp, hi, hlpos, hcounted, hq⟩ := du
      rw [h0]
      exact ⟨hp, hi, hlpos, hcounted, hq⟩
    · have d := du.trans (hdrained h0).1
      rwa [Nat.zero_add] at d
  refine ⟨u.pendingBytes.toNat, hmod, hle, by omega, dt.lpos, dt.counted, fun h0 => (hdrained h0).2, fun h0 => ?_,
    fun hq => ?_⟩
  · obtain rfl := hspurious h0
    have hctx : u.ctx = s.ctx := (keeps_othersTurn (k := .access) _ _ _ hu).ctx.same rfl
    exact ⟨congrArg (fun c : Ctx => { c with log := c.log ++ [LogEntry.spuriousIrq] }) hctx, hbuf.size⟩
  · have hsame := (hsilent trivial hq).pending
    refine ⟨congrArg BitVec.toNat hsame, ((dt.silent hq).2).trans ?_⟩
    rw [hsame]
    simp

end Sys2Proof

/-! ### What S's view keeps of a byte (spec/20_memory.md R79, R80)

A byte that is not written, and whose line is not invalidated, reads the same in S's view over any number of writes and
flushes. -/

namespace Sys2Proof.Machine

/-- The address lies outside the `n` bytes from `a` upward. -/
def outside (a : LAddr) (n : Nat) (x : LAddr) : Prop := ∀ j < n, x ≠ a + BitVec.ofNat 32 j

/-- S's view gives of the byte at `x` what it gave, and stays made of whole lines. -/
structure State.KeepsByte (x : LAddr) (s t : State) : Prop where
  params : t.params = s.params
  view : t.viewByte x = s.viewByte x
  legal : s.cacheLegal → t.cacheLegal

section
variable {s t u : State} {a x : LAddr}

theorem outside.part {n k m : Nat} (h : outside a n x) (hk : k + m ≤ n) : outside (a + BitVec.ofNat 32 k) m x := by
  intro j hj
  rw [BitVec.add_assoc, ← BitVec.ofNat_add]
  exact h (k + j) (by omega)

theorem State.KeepsByte.refl : State.KeepsByte x s s := ⟨rfl, rfl, id⟩

theorem State.KeepsByte.trans (h : State.KeepsByte x s t) (g : State.KeepsByte x t u) : State.KeepsByte x s u :=
  ⟨g.params.trans h.params, g.view.trans h.view, g.legal ∘ h.legal⟩

/-! #### One byte written -/

/-- A line put among others that have not its number is found under its number, and the others under theirs. -/
theorem find?_insertLine {l : Line} {ls : List Line} {i : Nat} (h : ∀ k ∈ ls, k.idx ≠ l.idx) :
    (insertLine l ls).find? (fun k => decide (k.idx = i)) =
      if l.idx = i then some l else ls.find? fun k => decide (k.idx = i) := by
  induction ls with
  | nil => by_cases hi : l.idx = i <;> simp [insertLine, hi]
  | cons k ks ih =>
    have hk : k.idx ≠ l.idx := h k (List.mem_cons_self ..)
    have hks := ih fun m hm => h m (List.mem_cons_of_mem _ hm)
    unfold insertLine
    split
    · by_cases hi : l.idx = i <;> simp [List.find?_cons, hi]
    · rw [if_neg hk.symm, List.find?_cons, hks, List.find?_cons]
      by_cases hi : l.idx = i
      · simp [hi, show k.idx ≠ i from hi ▸ hk]
      · simp [hi]

/-- Lines changed in place keep their numbers, and are found under them. -/
theorem find?_map_line {f : Line → Line} (hf : ∀ l, (f l).idx = l.idx) (ls : List Line) (i : Nat) :
    (ls.map f).find? (fun k => decide (k.idx = i)) = (ls.find? fun k => decide (k.idx = i)).map f := by
  rw [List.find?_map]
  congr 2
  funext k
  simp [hf]

/-- A byte of a line just loaded is memory's. -/
theorem State.loadLine_byte (hc : 0 < s.params.cacheLine) (x : LAddr) :
    ((s.loadLine (lineOf s.params x)).bytes[x.toNat % s.params.cacheLine]?).join = s.mem.read1 (s.params.global x).toNat := by
  have hr := Nat.mod_lt x.toNat hc
  unfold State.loadLine
  simp [List.getElem?_map, List.getElem?_range hr, lineBase_lineOf]

/-- A line loaded into S's view changes no byte of it. -/
theorem State.withLine_viewByte (hc : 0 < s.params.cacheLine) (i : Nat) : (s.withLine i).viewByte x = s.viewByte x := by
  unfold State.withLine
  split
  · rfl
  · next habsent =>
    have hidx : ∀ k ∈ s.cache.lines, k.idx ≠ (s.loadLine i).idx := by
      simpa [State.line?, State.loadLine] using habsent
    unfold State.viewByte State.line?
    simp only [find?_insertLine hidx]
    by_cases hi : i = lineOf s.params x
    · subst hi
      rw [if_pos (show (s.loadLine (lineOf s.params x)).idx = lineOf s.params x from rfl),
        show s.cache.lines.find? _ = none from habsent]
      exact State.loadLine_byte hc x
    · rw [if_neg (show (s.loadLine i).idx ≠ lineOf s.params x from hi)]

/-- A byte written into S's view leaves every other as it was. -/
theorem State.cacheWrite1_viewByte_other {b : Byte} (hc : 0 < s.params.cacheLine) (h : x ≠ a) :
    (s.cacheWrite1 a b).viewByte x = s.viewByte x := by
  rw [← State.withLine_viewByte hc (lineOf s.params a)]
  obtain ⟨c, hw⟩ := s.withLine_cache (lineOf s.params a)
  have hplace : lineOf s.params x = lineOf s.params a → x.toNat % s.params.cacheLine ≠ a.toNat % s.params.cacheLine := by
    intro hl hm
    rw [← lineBase_lineOf s.params x, ← lineBase_lineOf s.params a, hl, hm] at h
    exact h rfl
  unfold State.cacheWrite1 State.viewByte State.line?
  simp only [hw]
  rw [find?_map_line (fun l => by split <;> rfl)]
  cases hfind : c.lines.find? fun k => decide (k.idx = lineOf s.params x) with
  | none => rfl
  | some l =>
    have hl : l.idx = lineOf s.params x := by simpa using List.find?_some hfind
    simp only [Option.map_some]
    split
    · next hi => rw [List.getElem?_set_ne (hplace (hl.symm.trans hi)).symm]
    · rfl

theorem State.keepsByte_cacheWrite1 {b : Byte} (hc : 0 < s.params.cacheLine) (h : x ≠ a) :
    State.KeepsByte x s (s.cacheWrite1 a b) :=
  ⟨State.cacheWrite1_params .., State.cacheWrite1_viewByte_other hc h, State.cacheLegal_cacheWrite1 a b⟩

/-! #### TRBs written -/

theorem State.keepsByte_cacheWrite {bs : List Byte} (hc : 0 < s.params.cacheLine) (h : outside a bs.length x) :
    State.KeepsByte x s (s.cacheWrite a bs) := by
  induction bs generalizing s a with
  | nil => exact .refl
  | cons b bs ih =>
    have hhead : x ≠ a := by simpa using h 0 (Nat.zero_lt_succ _)
    have hrest : outside (a + 1) bs.length x := h.part (k := 1) (by rw [List.length_cons]; omega)
    exact (State.keepsByte_cacheWrite1 hc hhead).trans (ih (by rwa [State.cacheWrite1_params]) hrest)

theorem State.keepsByte_wordsWritten {w : TrbWords} {l : List Nat} (hc : 0 < s.params.cacheLine) (hl : ∀ i ∈ l, i < 4)
    (h : outside a trbBytes x) : State.KeepsByte x s (s.wordsWritten a w l) := by
  induction l generalizing s with
  | nil => exact .refl
  | cons i l ih =>
    have hi := hl i (List.mem_cons_self ..)
    have hword := State.keepsByte_cacheWrite (s := s) (bs := bytesOfWord (w.word i)) hc
      (h.part (k := 4 * i) (by unfold trbBytes; show 4 * i + 4 ≤ 16; omega))
    exact hword.trans (ih (by rwa [hword.params]) fun j hj => hl j (List.mem_cons_of_mem _ hj))

/-- The words of a TRB lie in it. -/
theorem TrbEnc.order_lt {enc : Enc} (h : enc.ok = true) : ∀ i ∈ enc.trb.order, i < 4 := by
  have hin := (Enc.ok_facts h).trbInside
  simp only [TrbEnc.layout, List.forall_mem_cons] at hin
  intro i hi
  simp only [TrbEnc.order, List.mem_cons, List.not_mem_nil, or_false] at hi
  omega

theorem State.keepsByte_trbWritten {w : TrbWords} (hc : 0 < s.params.cacheLine) (he : s.params.enc.ok = true)
    (h : outside a trbBytes x) : State.KeepsByte x s (s.trbWritten a w) :=
  State.keepsByte_wordsWritten hc (TrbEnc.order_lt he) h

/-! #### Lines flushed -/

/-- Each byte of a line of the local address space has that line. -/
theorem lineOf_lineBase_add {p : Params} (hd : p.cacheLine ∣ 2 ^ 32) {i j : Nat} (hi : i * p.cacheLine < 2 ^ 32)
    (hj : j < p.cacheLine) : lineOf p (lineBase p i + BitVec.ofNat 32 j) = i := by
  obtain ⟨q, hq⟩ := hd
  have hiq : i < q := Nat.lt_of_mul_lt_mul_right (hi.trans_eq (hq.trans (Nat.mul_comm ..)))
  have hfit : i * p.cacheLine + j < 2 ^ 32 := by
    calc i * p.cacheLine + j
      _ < (i + 1) * p.cacheLine := by rw [Nat.succ_mul]; omega
      _ ≤ q * p.cacheLine := Nat.mul_le_mul_right _ hiq
      _ = 2 ^ 32 := by rw [hq, Nat.mul_comm]
  unfold lineOf lineBase
  rw [← BitVec.ofNat_add, BitVec.toNat_ofNat, Nat.mod_eq_of_lt hfit, Nat.mul_comm, Nat.mul_add_div (by omega),
    Nat.div_eq_of_lt hj, Nat.add_zero]

/-- A line written back leaves the bytes of other lines alone in memory. -/
theorem Memory.read1_afterLine_other {p : Params} (hd : p.cacheLine ∣ 2 ^ 32)
    (hg : ∀ x y : LAddr, p.global x = p.global y → x = y) {m : Memory} {l : Line} (hi : l.idx * p.cacheLine < 2 ^ 32)
    (hlen : l.bytes.length = p.cacheLine) (hx : l.idx ≠ lineOf p x) :
    (m.afterLine p l).read1 (p.global x).toNat = m.read1 (p.global x).toNat := by
  unfold Memory.afterLine
  split
  · refine read1_writeBack_other fun j hj he => hx ?_
    rw [← hg _ _ he, lineOf_lineBase_add hd hi (hlen ▸ hj)]
  · rfl

theorem Memory.read1_foldLines_other {p : Params} {ls : List Line} {m : Memory} {g : Nat}
    (h : ∀ l ∈ ls, ∀ k : Memory, (k.afterLine p l).read1 g = k.read1 g) :
    (ls.foldl (Memory.afterLine p) m).read1 g = m.read1 g := by
  induction ls generalizing m with
  | nil => rfl
  | cons l ls ih =>
    exact (ih fun k hk => h k (List.mem_cons_of_mem _ hk)).trans (h l (List.mem_cons_self ..) m)

/-- A flush changes no byte of S's view. -/
theorem State.keepsByte_flush (hd : s.params.cacheLine ∣ 2 ^ 32)
    (hg : ∀ x y : LAddr, s.params.global x = s.params.global y → x = y) (hl : s.cacheLegal) (b : LAddr) (n : Nat) :
    State.KeepsByte x s (s.flush b n) := by
  refine ⟨rfl, ?_, State.cacheLegal_flush b n⟩
  unfold State.viewByte State.line? State.flush
  dsimp only
  rw [find?_map_line (fun l => by split <;> rfl)]
  cases hfind : s.cache.lines.find? fun k => decide (k.idx = lineOf s.params x) with
  | none =>
    refine Memory.read1_foldLines_other fun l hmem k => ?_
    have hmem := (List.mem_filter.1 hmem).1
    obtain ⟨hidx, hlen⟩ := hl.2 l hmem
    exact Memory.read1_afterLine_other hd hg hidx hlen (by simpa using List.find?_eq_none.1 hfind l hmem)
  | some l =>
    simp only [Option.map_some]
    split <;> rfl

/-! #### A ring made anew -/

theorem State.keepsByte_updEp {n : EpIdx} {f : Ep → Ep} : State.KeepsByte x s (s.updEp n f) := ⟨rfl, rfl, id⟩

/-- Of a ring made anew no byte outside it changes in S's view (spec/41_endpoint_lifecycle.md R196). -/
theorem State.keepsByte_ringReady {n : EpIdx} (hc : 0 < s.params.cacheLine) (hd : s.params.cacheLine ∣ 2 ^ 32)
    (he : s.params.enc.ok = true) (hg : ∀ x y : LAddr, s.params.global x = s.params.global y → x = y) (hl : s.cacheLegal)
    (h : outside s.params.ringAddr[n] (trbBytes * ringSlots) x) : State.KeepsByte x s (s.ringReady n) := by
  have hslot {i : Nat} (hi : i < ringSlots) : outside (slotAddr s.params n i) trbBytes x :=
    h.part (by unfold trbBytes ringSlots at *; omega)
  have hzeroed (k : Nat) (hk : k ≤ ringSlots) : State.KeepsByte x s (s.zeroed n k) := by
    induction k with
    | zero => exact .refl
    | succ k ih =>
      have hprev := ih (by omega)
      exact hprev.trans (State.keepsByte_trbWritten (by rwa [hprev.params]) (by rwa [hprev.params]) (hslot hk))
  have hslots := hzeroed ringDepth (by decide)
  have hlink := hslots.trans (State.keepsByte_trbWritten (a := slotAddr s.params n ringDepth)
    (w := (linkTrb (s.params.global s.params.ringAddr[n])).words s.params.enc .link)
    (by rwa [hslots.params]) (by rwa [hslots.params]) (hslot (by decide)))
  exact (hlink.trans (State.keepsByte_flush (by rwa [hlink.params]) (by rwa [hlink.params]) (hlink.legal hl) _ _)).trans
    State.keepsByte_updEp

end

end Sys2Proof.Machine

/-! ### O30: what RESET clears and keeps (spec/43_event_buffer.md R281)

The first two loops issue commands and keep of each endpoint its record and what H holds for it, or end its transfer; the third
loop writes the records, and the rings of the endpoints that are not busy. -/

namespace Sys2Proof.Machine

/-! #### The rings lie apart (spec/20_memory.md R72, R74) -/

section
variable {p : Params} {n m : EpIdx}

theorem allApart_pairwise {line : Nat} {l : List Region} (h : allApart line l = true) :
    l.Pairwise fun a b => apart line a b = true := by
  induction l with
  | nil => exact .nil
  | cons r rs ih =>
    simp only [allApart, Bool.and_eq_true, List.all_eq_true] at h
    exact .cons h.1 (ih h.2)

theorem apart_comm (line : Nat) (a b : Region) : apart line a b = apart line b a := Bool.or_comm ..

/-- The rings of two endpoints share no byte, and each lies in the local address space. -/
theorem rings_disjoint (h : p.layoutOk = true) (hn : 2 ≤ n.val) (hn' : n.val < p.numEps) (hm : 2 ≤ m.val)
    (hm' : m.val < p.numEps) (hnm : n ≠ m) :
    (p.ringAddr[n].toNat + trbBytes * ringSlots ≤ p.ringAddr[m].toNat ∨
      p.ringAddr[m].toNat + trbBytes * ringSlots ≤ p.ringAddr[n].toNat) ∧
    p.ringAddr[n].toNat + trbBytes * ringSlots ≤ 2 ^ 32 ∧ p.ringAddr[m].toNat + trbBytes * ringSlots ≤ 2 ^ 32 := by
  let rings := (List.finRange 32).filter fun k => decide (2 ≤ k.val) && decide (k.val < p.numEps)
  let ring (k : EpIdx) : Region := (p.ringAddr[k].toNat, trbBytes * ringSlots)
  have hin {k : EpIdx} (h2 : 2 ≤ k.val) (hk : k.val < p.numEps) : k ∈ rings := by simp [rings, h2, hk]
  simp only [Params.layoutOk, Bool.and_eq_true] at h
  obtain ⟨⟨-, hspace⟩, hapart⟩ := h
  have hinside {k : EpIdx} (h2 : 2 ≤ k.val) (hk : k.val < p.numEps) : (ring k).1 + (ring k).2 ≤ 2 ^ 32 :=
    of_decide_eq_true (List.all_eq_true.1 hspace _ (List.mem_append_right _ (List.mem_map_of_mem (hin h2 hk))))
  have hpairs : rings.Pairwise fun a b => apart p.cacheLine (ring a) (ring b) = true :=
    List.pairwise_map.1 (List.pairwise_append.1 (allApart_pairwise hapart)).2.1
  have hsymm : Std.Symm fun a b : EpIdx => apart p.cacheLine (ring a) (ring b) = true :=
    ⟨fun a b hab => (apart_comm ..).trans hab⟩
  have hab := hpairs.forall (hin hn hn') (hin hm hm') hnm
  refine ⟨?_, hinside hn hn', hinside hm hm'⟩
  simp only [apart, Bool.or_eq_true, decide_eq_true_eq] at hab
  have hpos : 0 < trbBytes * ringSlots := by decide
  rcases hab with hab | hab
  · exact .inl (by have := Nat.lt_of_div_lt_div hab; dsimp only [ring] at this; omega)
  · exact .inr (by have := Nat.lt_of_div_lt_div hab; dsimp only [ring] at this; omega)

/-- A byte of a ring lies outside every other. -/
theorem ring_outside (h : p.layoutOk = true) (hn : 2 ≤ n.val) (hn' : n.val < p.numEps) (hm : 2 ≤ m.val)
    (hm' : m.val < p.numEps) (hnm : n ≠ m) {i : Nat} (hi : i < trbBytes * ringSlots) :
    outside p.ringAddr[m] (trbBytes * ringSlots) (p.ringAddr[n] + BitVec.ofNat 32 i) := by
  obtain ⟨hdisjoint, hspace, hspace'⟩ := rings_disjoint h hn hn' hm hm' hnm
  unfold trbBytes ringSlots at *
  intro j hj he
  generalize p.ringAddr[n] = a at *
  generalize p.ringAddr[m] = b at *
  bv_omega

/-- A cache line is a power of 2, and divides the local address space (spec/92_eei_decisions.md D67). -/
theorem cacheLine_dvd (h : p.boundsOk = true) : p.cacheLine ∣ 2 ^ 32 := by
  simp only [Params.boundsOk, Bool.and_eq_true, List.any_eq_true, List.mem_range, decide_eq_true_eq] at h
  obtain ⟨⟨⟨⟨-, k, hk, -, hline⟩, -⟩, -⟩, -⟩ := h
  rw [hline]
  exact Nat.pow_dvd_pow 2 (by omega)

theorem enc_ok_of_boundsOk (h : p.boundsOk = true) : p.enc.ok = true := by
  simp only [Params.boundsOk, Bool.and_eq_true] at h
  exact h.1.2

end

/-! #### The third loop -/

section
variable {s t u : State} {n m : EpIdx} {l : List EpIdx}

/-- The record of endpoint `n` after the third loop (spec/43_event_buffer.md R281). -/
def Ep.remade (n : EpIdx) (e : Ep) : Ep :=
  if 2 ≤ n.val ∧ e.enabled = true ∧ e.busy = false then { e.afterReset with enq := 0, deq := 0, out := 0 } else e.afterReset

theorem Ep.remade_remade (n : EpIdx) (e : Ep) : (e.remade n).remade n = e.remade n := by
  unfold Ep.remade
  by_cases h : 2 ≤ n.val ∧ e.enabled = true ∧ e.busy = false
  · simp only [if_pos h, Ep.afterReset]
  · simp only [if_neg h, Ep.afterReset]

theorem State.resetOne_ep (s : State) (m n : EpIdx) :
    (s.resetOne m).ep[n] = if m = n then s.ep[n].remade n else s.ep[n] := by
  split
  · next hm =>
    subst hm
    unfold State.resetOne Ep.remade
    split
    · obtain ⟨k, c, h⟩ := (s.updEp m Ep.afterReset).ringReady_frame m
      simp only [h, State.updEp_same]
    · exact State.updEp_same ..
  · next hm => exact (s.resetOne_frame m).2 n hm

/-- Each endpoint of the list has its record made anew, once or more often, and no other. -/
theorem foldl_resetOne_ep (l : List EpIdx) (s : State) (n : EpIdx) :
    (l.foldl State.resetOne s).ep[n] = if n ∈ l then s.ep[n].remade n else s.ep[n] := by
  induction l generalizing s with
  | nil => rfl
  | cons m l ih =>
    rw [List.foldl_cons, ih, State.resetOne_ep]
    by_cases hm : m = n
    · simp [hm, Ep.remade_remade]
    · simp [hm, Ne.symm hm]

/-- Where the third loop ends, it is done to each endpoint in order. -/
theorem forEps_resetEp_eq_ok (hq : s.quiet) (h : forEps resetEp l s = .ok (⟨⟩, t)) : t = l.foldl State.resetOne s := by
  induction l generalizing s with
  | nil =>
    cases h
    rfl
  | cons n l ih =>
    obtain ⟨_, u, hn, h⟩ := M.bind_eq_ok.1 h
    rcases resetEp_quiet n hq with hr | hr
    · cases hr.symm.trans hn
      refine ih ?_ h
      unfold State.quiet
      rwa [(s.resetOne_frame n).1]
    · cases hr.symm.trans hn

/-- S's view of a ring is kept over the third loop where its endpoint is busy. -/
theorem keepsByte_foldl_resetOne (hlay : s.params.layoutOk = true) (hb : s.params.boundsOk = true)
    (hg : ∀ x y : LAddr, s.params.global x = s.params.global y → x = y) (hlegal : s.cacheLegal) (hn : 2 ≤ n.val)
    (hn' : n.val < s.params.numEps) (hbusy : s.ep[n].busy = true) (hl : ∀ m ∈ l, m.val < s.params.numEps) {i : Nat}
    (hi : i < trbBytes * ringSlots) :
    State.KeepsByte (s.params.ringAddr[n] + BitVec.ofNat 32 i) s (l.foldl State.resetOne s) := by
  induction l generalizing s with
  | nil => exact .refl
  | cons m l ih =>
    have hd := cacheLine_dvd hb
    have hone : State.KeepsByte (s.params.ringAddr[n] + BitVec.ofNat 32 i) s (s.resetOne m) := by
      unfold State.resetOne
      split
      · next hm =>
        have hnm : n ≠ m := by
          rintro rfl
          exact absurd (hbusy.symm.trans hm.2.2) (by decide)
        exact State.keepsByte_updEp.trans (State.keepsByte_ringReady (Nat.pos_of_dvd_of_pos hd (by decide)) hd
          (enc_ok_of_boundsOk hb) hg hlegal
          (ring_outside hlay hn hn' hm.1 (hl m (List.mem_cons_self ..)) hnm hi))
      · exact State.keepsByte_updEp
    have hp := hone.params
    refine hone.trans ?_
    rw [List.foldl_cons, ← hp]
    have hkept : (s.resetOne m).ep[n].busy = true := by
      rw [State.resetOne_ep]
      split
      · unfold Ep.remade
        split
        · exact hbusy
        · exact hbusy
      · exact hbusy
    rw [← hp] at hlay hb hg hn'
    exact ih hlay hb hg (hone.legal hlegal) hn' hkept
      (fun k hk => by rw [hp]; exact hl k (List.mem_cons_of_mem _ hk))

end

/-! #### The commands of the first two loops -/

/-- Of what RESET is asked about, commands change the registers of the commands, H's state, the TRBs handed over and the log
alone. -/
structure State.Undisturbed (s t : State) : Prop where
  params : t.params = s.params := by rfl
  mem : t.mem = s.mem := by rfl
  cache : t.cache = s.cache := by rfl
  trace : t.trace = s.trace := by rfl
  dalepena : t.regs.dalepena = s.regs.dalepena := by rfl
  dcfg : t.regs.dcfg = s.regs.dcfg := by rfl
  ctx : t.ctx = { s.ctx with log := t.ctx.log } := by rfl
  quiet : s.quiet → t.quiet := by exact id
  calm : s.calm → t.calm := by exact id

/-- Nothing is handed over on an endpoint on which nothing was. -/
def State.HandsNoMore (s t : State) : Prop := ∀ n, (∀ x ∈ s.handed, x.ep ≠ n) → ∀ x ∈ t.handed, x.ep ≠ n

/-- A command issued with silent agents: the records are as before, and no endpoint has come to a TRB of H's. -/
def State.Commands (s t : State) : Prop :=
  s.quiet → phyMaskOk s.params → s.Undisturbed t ∧ t.ep = s.ep ∧ s.HandsNoMore t

section
variable {s t u : State} {n m : EpIdx} {c : Command}

theorem State.Undisturbed.trans (h : s.Undisturbed t) (g : t.Undisturbed u) : s.Undisturbed u where
  params := g.params.trans h.params
  mem := g.mem.trans h.mem
  cache := g.cache.trans h.cache
  trace := g.trace.trans h.trace
  dalepena := g.dalepena.trans h.dalepena
  dcfg := g.dcfg.trans h.dcfg
  ctx := by rw [g.ctx, h.ctx]
  quiet := g.quiet ∘ h.quiet
  calm := g.calm ∘ h.calm

/-- A change of the registers of the commands, of H's state or of the answers left. -/
theorem State.commands_of_kept (hu : s.Undisturbed t) (he : t.ep = s.ep) (hh : t.handed = s.handed) : s.Commands t :=
  fun _ _ => ⟨hu, he, fun _ h x hx => h x (hh ▸ hx)⟩

theorem State.commands_dispatchEffects : DispatchEffects State.Commands where
  refl _ := State.commands_of_kept {} rfl rfl
  trans h g hq hm := by
    obtain ⟨ht, he, hh⟩ := h hq hm
    obtain ⟨hu, he', hh'⟩ := g (ht.quiet hq) (by rwa [ht.params])
    exact ⟨ht.trans hu, he'.trans he, fun n hn => hh' n (hh n hn)⟩
  hw _ _ _ _ := State.commands_of_kept {} rfl rfl
  dep _ _ := State.commands_of_kept {} rfl rfl
  masked h hq hm := h hm hq hm
  others s _ t h hq hm := by
    rw [othersTurn_quiet hq] at h
    cases h
    exact State.commands_of_kept {} rfl rfl hq hm
  answer := .of_get fun s => by
    split
    · exact preservesAt_set_pure (State.commands_of_kept {} rfl rfl)
    · split
      · next hopen => exact preservesAt_set_pure fun hq _ => absurd hopen (by simp [hq.2.1])
      · exact fun _ _ h => by
          cases h
          exact State.commands_of_kept {} rfl rfl
  phy s r v hr := by
    rcases hr with rfl | rfl <;> exact State.commands_of_kept {} rfl rfl
  told s n c _ _ := by
    refine ⟨{}, rfl, fun k hk x hx => ?_⟩
    have hx : x ∈ toldOf s.handed n c := hx
    unfold toldOf at hx
    split at hx
    · obtain ⟨y, hy, rfl⟩ := List.mem_map.1 hx
      split <;> exact hk y hy
    · obtain ⟨y, hy, rfl⟩ := List.mem_map.1 hx
      split <;> exact hk y hy
    · exact hk x hx
  returned _ _ _ _ := ⟨{}, rfl, fun _ hk x hx => hk x (List.mem_of_mem_filter hx)⟩

/-- After an END_TRANSFER that succeeds nothing of the endpoint is handed over (spec/40_command_dispatcher.md R167). -/
theorem issue_endTransfer_ok {q : BitVec 7} {r : Result} (hr : r.isOk) (h : issue n (.endTransfer q) s = .ok (r, t)) :
    ∀ x ∈ t.handed, x.ep ≠ n := by
  obtain ⟨_, u, -, h⟩ := M.bind_eq_ok.1 h
  obtain ⟨_, _, hget, h⟩ := M.bind_eq_ok.1 h
  cases hget
  obtain ⟨_, _, _, _, _, _, v, -, -, -, -, -, -, h⟩ := dispatchCmd_eq_ok h
  unfold settle at h
  rw [if_neg (by simp [Command.typ]), if_pos (by simpa [Command.typ] using hr)] at h
  cases h
  exact fun x hx => of_decide_eq_true (List.mem_filter.1 hx).2

/-! #### What H holds, for an encoding record that tells its members apart -/

/-- A command that H does not perform, or that does nothing to a transfer, leaves every transfer of H's. -/
theorem State.issued_xfer
    (h : s.performs = true → ∀ m : EpIdx, (s.hw.performed n c s.nextAnswer).ep[m].xfer = s.hw.ep[m].xfer)
    (m : EpIdx) : (s.issued n c).hw.ep[m].xfer = s.hw.ep[m].xfer := by
  cases ht : s.timely with
  | false =>
    rw [State.issued_not_timely ht]
    by_cases hm : n = m
    · subst hm
      simp [State.overdue]
    · simp [State.overdue, Vector.getElem_set_ne, show n.val ≠ m.val from fun e => hm (Fin.ext e)]
  | true =>
    unfold State.issued
    rw [State.commanded_eq, if_pos ht]
    unfold State.completed
    dsimp only
    split
    · next hs => exact h (by simp [State.performs, ht, hs]) m
    · rfl

/-- CLEAR_STALL leaves the transfers of H and what is handed over. -/
theorem State.issued_clearStall (s : State) (n : EpIdx) :
    (s.issued n .clearStall).handed = s.handed ∧ ∀ m : EpIdx, (s.issued n .clearStall).hw.ep[m].xfer = s.hw.ep[m].xfer := by
  constructor
  · unfold State.issued State.commanded
    cases s.timely <;> rfl
  · refine State.issued_xfer fun _ m => ?_
    by_cases hm : n = m
    · subst hm
      simp [Hw.performed]
    · simp [Hw.performed, Vector.getElem_set_ne, show n.val ≠ m.val from fun e => hm (Fin.ext e)]

/-- END_TRANSFER that does not succeed leaves them too (spec/70_reset_and_hazards.md R430). -/
theorem State.issued_endTransfer_failed (q : BitVec 7) (hp : s.performs = false) :
    (s.issued n (.endTransfer q)).handed = s.handed ∧
      ∀ m : EpIdx, (s.issued n (.endTransfer q)).hw.ep[m].xfer = s.hw.ep[m].xfer := by
  refine ⟨?_, State.issued_xfer fun hs => absurd (hp.symm.trans hs) (by decide)⟩
  cases ht : s.timely with
  | false =>
    rw [State.issued_not_timely ht]
    rfl
  | true =>
    have hs : s.nextAnswer.status ≠ s.params.enc.cmd.success := by simpa [State.performs, ht] using hp
    unfold State.issued
    rw [State.commanded_eq, if_pos ht]
    simp [State.completed, settled, toldOf, Command.typ, hs]

/-- END_TRANSFER that succeeds ends the transfer of its endpoint, whose TRBs come back, and leaves those of the others
(spec/40_command_dispatcher.md R166, R167). -/
theorem State.issued_endTransfer_done (q : BitVec 7) (hp : s.performs = true) :
    (s.issued n (.endTransfer q)).handed = s.handed.filter (fun x => decide (x.ep ≠ n)) ∧
      (s.issued n (.endTransfer q)).hw.ep[n].xfer = .idle ∧
      ∀ m : EpIdx, n ≠ m → (s.issued n (.endTransfer q)).hw.ep[m].xfer = s.hw.ep[m].xfer := by
  obtain ⟨ht, hs⟩ : s.timely = true ∧ s.nextAnswer.status = s.params.enc.cmd.success := by simpa [State.performs] using hp
  have hissued : (s.issued n (.endTransfer q)).hw = s.hw.performed n (.endTransfer q) s.nextAnswer := by
    unfold State.issued
    rw [State.commanded_eq, if_pos ht]
    exact if_pos hs
  refine ⟨?_, ?_, fun m hm => ?_⟩
  · unfold State.issued
    rw [State.commanded_eq, if_pos ht]
    simp [State.completed, settled, toldOf, Command.typ, hs]
  · rw [hissued]
    cases hx : s.hw.ep[n].xfer with
    | idle => simp only [Hw.performed, hx]
    | active r =>
      simp only [Hw.performed, hx]
      simp
  · rw [hissued]
    cases hx : s.hw.ep[n].xfer with
    | idle => simp only [Hw.performed, hx]
    | active r =>
      simp only [Hw.performed, hx]
      simp [Vector.getElem_set_ne, show n.val ≠ m.val from fun e => hm (Fin.ext e)]

/-- A command that S may issue, and that is answered or times out, leaves what its law says. -/
theorem issue_eq_ok {r : Result} (hq : s.quiet) (hm : phyMaskOk s.params) (he : s.params.enc.ok = true)
    (hi : s.issuable n c) (hc : ∀ a, s.maySucceed n c a = true) (h : issue n c s = .ok (r, t)) :
    r = s.commandResult c ∧ t = s.issued n c := by
  have hn : n.val < s.params.numEps := by
    by_contra hn
    cases (issue_absent hn).symm.trans h
  cases hcmd : s.hw.ep[n].cmd with
  | executing d x => cases (issue_executing hi hq hm hn hcmd).symm.trans h
  | idle =>
    cases (issue_commandable hi.not_busy ⟨⟨hq, hm, hn, hcmd, he⟩, fun _ => hc _⟩).symm.trans h
    exact ⟨rfl, rfl⟩

/-! #### The first two loops -/

/-- An endpoint keeps its record and, for an encoding record that tells its members apart, what it has handed over and H's
transfer. -/
structure State.KeepsEp (n : EpIdx) (s t : State) : Prop where
  record : t.ep[n] = s.ep[n]
  unhanded : (∀ x ∈ s.handed, x.ep ≠ n) → ∀ x ∈ t.handed, x.ep ≠ n
  held : s.params.enc.ok = true → (∀ x ∈ s.handed, x.ep = n → x ∈ t.handed) ∧ t.hw.ep[n].xfer = s.hw.ep[n].xfer

/-- The transfer of a busy endpoint is ended: it has no index, and H nothing of it. -/
structure State.EndsEp (n : EpIdx) (s t : State) : Prop where
  busy : s.ep[n].busy = true
  record : t.ep[n] = s.ep[n].idle
  unhanded : ∀ x ∈ t.handed, x.ep ≠ n
  held : s.params.enc.ok = true → t.hw.ep[n].xfer = .idle

/-- What the first two loops of RESET may do. -/
def State.Ends (s t : State) : Prop :=
  s.quiet → phyMaskOk s.params → s.Undisturbed t ∧ ∀ n, State.KeepsEp n s t ∨ State.EndsEp n s t

theorem State.KeepsEp.trans (hp : t.params = s.params) (h : State.KeepsEp n s t) (g : State.KeepsEp n t u) :
    State.KeepsEp n s u where
  record := g.record.trans h.record
  unhanded := g.unhanded ∘ h.unhanded
  held he := by
    obtain ⟨hh, hx⟩ := h.held he
    obtain ⟨gh, gx⟩ := g.held (by rwa [hp])
    exact ⟨fun x hx hn => gh x (hh x hx hn) hn, gx.trans hx⟩

theorem State.EndsEp.after (hp : t.params = s.params) (h : State.KeepsEp n s t) (g : State.EndsEp n t u) :
    State.EndsEp n s u where
  busy := by rw [← h.record]; exact g.busy
  record := by rw [g.record, h.record]
  unhanded := g.unhanded
  held he := g.held (by rwa [hp])

theorem State.EndsEp.before (hp : t.params = s.params) (h : State.EndsEp n s t) (g : State.KeepsEp n t u) :
    State.EndsEp n s u where
  busy := h.busy
  record := g.record.trans h.record
  unhanded := g.unhanded h.unhanded
  held he := (g.held (by rwa [hp])).2.trans (h.held he)

/-- An endpoint whose transfer is ended is not busy, so it is ended once at most. -/
theorem State.EndsEp.not_again (h : State.EndsEp n s t) : ¬ State.EndsEp n t u := by
  intro g
  have hb := g.busy
  rw [h.record] at hb
  exact absurd hb (by simp [Ep.idle])

/-- Where nothing changes but the log, every endpoint is kept. -/
theorem State.ends_logged (hu : s.Undisturbed t) (he : t.ep = s.ep) (hh : t.handed = s.handed) (hw : t.hw = s.hw) : s.Ends t :=
  fun _ _ => ⟨hu, fun n => .inl ⟨by rw [he], fun h => hh ▸ h, fun _ => ⟨fun x hx _ => hh ▸ hx, by rw [hw]⟩⟩⟩

theorem State.ends_composes : Composes State.Ends where
  refl _ := State.ends_logged {} rfl rfl rfl
  trans h g hq hm := by
    obtain ⟨ht, hep⟩ := h hq hm
    obtain ⟨hu, gep⟩ := g (ht.quiet hq) (by rwa [ht.params])
    refine ⟨ht.trans hu, fun n => ?_⟩
    rcases hep n with hk | he
    · rcases gep n with gk | ge
      · exact .inl (hk.trans ht.params gk)
      · exact .inr (ge.after ht.params hk)
    · exact .inr (he.before ht.params ((gep n).resolve_right he.not_again))

/-- A command that does not end a transfer. -/
theorem State.ends_issue {r : Result} (h : issue n c s = .ok (r, t))
    (hheld : s.quiet → phyMaskOk s.params → s.params.enc.ok = true →
      t.handed = s.handed ∧ ∀ m : EpIdx, t.hw.ep[m].xfer = s.hw.ep[m].xfer) : s.Ends t := by
  intro hq hm
  obtain ⟨hu, he, hh⟩ := State.commands_dispatchEffects.issue n c s r t h hq hm
  refine ⟨hu, fun n => .inl ⟨by rw [he], hh n, fun henc => ?_⟩⟩
  obtain ⟨hhanded, hxfer⟩ := hheld hq hm henc
  exact ⟨fun x hx _ => hhanded ▸ hx, hxfer n⟩

theorem State.ends_loggedIf (r : Result) : s.Ends (s.loggedIf r) := by
  obtain ⟨l, hl⟩ := s.loggedIf_frame r
  rw [hl]
  exact State.ends_logged {} rfl rfl rfl

/-- An END_TRANSFER that succeeds, and its record (spec/40_command_dispatcher.md R166). -/
theorem State.ends_ended {q : BitVec 7} {r : Result} (hb : s.ep[n].busy = true) (hr : s.ep[n].rsc = some q) (hok : r.isOk)
    (h : issue n (.endTransfer q) s = .ok (r, t)) : s.Ends (t.updEp n Ep.idle) := by
  intro hq hm
  obtain ⟨hu, he, hh⟩ := State.commands_dispatchEffects.issue n _ s _ t h hq hm
  have hdone (henc : s.params.enc.ok = true) : s.performs = true ∧ t = s.issued n (.endTransfer q) := by
    obtain ⟨hres, ht⟩ := issue_eq_ok hq hm henc (c := .endTransfer q) ⟨hb, by rw [hr]; nofun⟩ (fun _ => rfl) h
    rw [hres, State.isOk_commandResult] at hok
    exact ⟨hok, ht⟩
  refine ⟨hu.trans {}, fun m => ?_⟩
  by_cases hnm : n = m
  · subst hnm
    refine .inr ⟨hb, by rw [State.updEp_same, he], issue_endTransfer_ok (t := t) hok h, fun henc => ?_⟩
    obtain ⟨hp, rfl⟩ := hdone henc
    exact (State.issued_endTransfer_done q hp).2.1
  · refine .inl ⟨by rw [State.updEp_other _ _ _ _ hnm, he], hh m, fun henc => ?_⟩
    obtain ⟨hp, rfl⟩ := hdone henc
    obtain ⟨hhanded, -, hxfer⟩ := State.issued_endTransfer_done (s := s) (n := n) q hp
    refine ⟨fun x hx hxm => ?_, hxfer m hnm⟩
    show x ∈ (s.issued n (.endTransfer q)).handed
    rw [hhanded, List.mem_filter]
    exact ⟨hx, decide_eq_true (hxm ▸ Ne.symm hnm)⟩

/-- The index of an endpoint that has none is not read (spec/10_state.md R26). -/
theorem readRsc_none (hr : s.ep[n].rsc = none) : readRsc n s = .error (.fault .rscInvalid) := by
  unfold readRsc
  rw [M.bind_of_ok (getEp_apply n s), hr]
  cases s.ep[n].busy <;> rfl

/-- An abort of a busy endpoint issues END_TRANSFER with its index, and records a success or logs an error. -/
theorem abortEp_busy_eq_ok (hb : s.ep[n].busy = true) (h : abortEp n s = .ok (⟨⟩, t)) :
    ∃ q r u, s.ep[n].rsc = some q ∧ issue n (.endTransfer q) s = .ok (r, u) ∧
      t = if r.isOk then u.updEp n Ep.idle else u.loggedIf r := by
  unfold abortEp at h
  rw [M.bind_of_ok (getEp_apply n s), if_pos hb] at h
  obtain ⟨r, v, hend, h⟩ := M.bind_eq_ok.1 h
  rw [logIfError_apply] at h
  cases h
  unfold endOwnTransfer cmdEndTransfer at hend
  cases hr : s.ep[n].rsc with
  | none =>
    rw [M.bind_of_error (readRsc_none hr)] at hend
    cases hend
  | some q =>
    have hn : n.val < s.params.numEps := by
      by_contra hn
      rw [M.bind_of_ok (readRsc_busy hb hr), M.bind_of_error (requireEp_absent hn)] at hend
      cases hend
    rw [M.bind_of_ok (readRsc_busy hb hr), M.bind_of_ok (requireEp_present hn), M.bind_of_ok (readRsc_busy hb hr)] at hend
    obtain ⟨r, u, hissue, hend⟩ := M.bind_eq_ok.1 hend
    refine ⟨q, r, u, rfl, hissue, ?_⟩
    split at hend
    · next hok =>
      cases hend
      rw [if_pos hok]
      cases r with
      | err e => cases hok
      | _ => rfl
    · next hok =>
      cases hend
      rw [if_neg hok]

/-- The first loop on an endpoint: END_TRANSFER with its index, if it is busy (spec/43_event_buffer.md R281). -/
theorem State.ends_abortEp (n : EpIdx) : Preserves State.Ends (abortEp n) := by
  intro s _ t h
  by_cases hb : s.ep[n].busy = true
  · obtain ⟨q, r, u, hr, hissue, rfl⟩ := abortEp_busy_eq_ok hb h
    split
    · next hok => exact State.ends_ended hb hr hok hissue
    · next hok =>
      refine State.ends_composes.trans (State.ends_issue hissue fun hq hm henc => ?_) (State.ends_loggedIf r)
      obtain ⟨rfl, rfl⟩ := issue_eq_ok hq hm henc (c := .endTransfer q) ⟨hb, by rw [hr]; nofun⟩ (fun _ => rfl) hissue
      exact State.issued_endTransfer_failed q (by rwa [State.isOk_commandResult, Bool.not_eq_true] at hok)
  · rw [abortEp_idle (Bool.eq_false_iff.2 hb)] at h
    cases h
    exact State.ends_composes.refl s

/-- The second loop on an endpoint: CLEAR_STALL, if it is stalled (spec/43_event_buffer.md R281). -/
theorem State.ends_unstallEp (n : EpIdx) : Preserves State.Ends (unstallEp n) := by
  refine State.ends_composes.bind (State.ends_composes.getEp n) fun e =>
    .ite (State.ends_composes.bind ?_ fun r => ?_) State.ends_composes.pure
  · intro s r t h
    refine State.ends_issue h fun hq hm henc => ?_
    obtain ⟨-, rfl⟩ := issue_eq_ok hq hm henc (c := .clearStall) trivial (fun _ => rfl) h
    exact s.issued_clearStall n
  · intro s _ t h
    rw [logIfError_apply] at h
    cases h
    exact State.ends_loggedIf r

/-! #### The whole of RESET -/

/-- Where RESET ends it has been through its three loops, and then written DCFG and the context and called L. -/
theorem onReset_eq_ok (hq : s.quiet) (hc : s.calm) (hm : phyMaskOk s.params) (h : onReset s = .ok (⟨⟩, t)) :
    ∃ u, s.Undisturbed u ∧ (∀ n, State.KeepsEp n s u ∨ State.EndsEp n s u) ∧
      t = ((((epList s.params).foldl State.resetOne u).putReg .dcfg
        (putField s.regs.dcfg s.params.enc.reg.devaddr 0#7)).updCtx Ctx.afterReset).called .onReset := by
  obtain ⟨_, _, hget, h⟩ := M.bind_eq_ok.1 h
  cases hget
  obtain ⟨_, v, habort, h⟩ := M.bind_eq_ok.1 h
  obtain ⟨_, u, hunstall, h⟩ := M.bind_eq_ok.1 h
  obtain ⟨_, w, hreset, h⟩ := M.bind_eq_ok.1 h
  obtain ⟨hu, hep⟩ := State.ends_composes.trans (State.ends_composes.forEps State.ends_abortEp _ _ _ _ habort)
    (State.ends_composes.forEps State.ends_unstallEp _ _ _ _ hunstall) hq hm
  obtain rfl := forEps_resetEp_eq_ok (hu.quiet hq) hreset
  refine ⟨u, hu, hep, ?_⟩
  obtain ⟨m, c, ep, hw⟩ := foldl_resetOne_memory (epList s.params) u
  have hend := onReset_end (s := (epList s.params).foldl State.resetOne u)
    (by unfold State.quiet; rw [hw]; exact hu.quiet hq) (by unfold State.calm; rw [hw]; exact hu.calm hc)
  cases hend.symm.trans h
  have hdcfg : ((epList s.params).foldl State.resetOne u).regs.dcfg = s.regs.dcfg := by rw [hw]; exact hu.dcfg
  have hparams : ((epList s.params).foldl State.resetOne u).params = s.params := by rw [hw]; exact hu.params
  rw [hdcfg, hparams]

/-- What the third loop keeps of a record (spec/43_event_buffer.md R281). -/
theorem Ep.remade_keeps (n : EpIdx) (e : Ep) : (e.remade n).busy = e.busy ∧ (e.remade n).rsc = e.rsc ∧
    (e.remade n).enabled = e.enabled ∧ (e.remade n).mps = e.mps ∧ (e.remade n).type = e.type := by
  unfold Ep.remade
  split <;> exact ⟨rfl, rfl, rfl, rfl, rfl⟩

/-- What it clears. -/
theorem Ep.remade_clears (n : EpIdx) (e : Ep) : (e.remade n).stalled = false ∧ (e.remade n).wedge = false ∧
    (e.remade n).pending = false ∧ (e.remade n).requested = 0 ∧ (e.remade n).actual = 0 ∧ (e.remade n).rounded = false := by
  unfold Ep.remade
  split <;> exact ⟨rfl, rfl, rfl, rfl, rfl, rfl⟩

theorem Ep.remade_ring {e : Ep} (h : 2 ≤ n.val ∧ e.enabled = true ∧ e.busy = false) :
    (e.remade n).enq = 0 ∧ (e.remade n).deq = 0 ∧ (e.remade n).out = 0 := by
  unfold Ep.remade
  rw [if_pos h]
  exact ⟨rfl, rfl, rfl⟩

theorem Ep.remade_cursors {e : Ep} (h : n.val < 2 ∨ e.enabled = false ∨ e.busy = true) :
    (e.remade n).enq = e.enq ∧ (e.remade n).deq = e.deq ∧ (e.remade n).out = e.out := by
  have hnot : ¬ (2 ≤ n.val ∧ e.enabled = true ∧ e.busy = false) := by
    rintro ⟨h2, he, hb⟩
    rcases h with h | h | h
    · omega
    · exact absurd (he.symm.trans h) (by decide)
    · exact absurd (hb.symm.trans h) (by decide)
  unfold Ep.remade
  rw [if_neg hnot]
  exact ⟨rfl, rfl, rfl⟩

/-- The end of a transfer leaves these of a record. -/
theorem State.record_kept (h : State.KeepsEp n s t ∨ State.EndsEp n s t) : t.ep[n].enabled = s.ep[n].enabled ∧
    t.ep[n].mps = s.ep[n].mps ∧ t.ep[n].type = s.ep[n].type ∧ t.ep[n].enq = s.ep[n].enq ∧ t.ep[n].deq = s.ep[n].deq ∧
    t.ep[n].out = s.ep[n].out := by
  rcases h with h | h <;> rw [h.record] <;> exact ⟨rfl, rfl, rfl, rfl, rfl, rfl⟩

/-- S's view is what the cache and memory make it. -/
theorem State.viewByte_congr {x : LAddr} (hp : t.params = s.params) (hm : t.mem = s.mem) (hc : t.cache = s.cache) :
    t.viewByte x = s.viewByte x := by
  unfold State.viewByte State.line?
  rw [hp, hm, hc]

/-- The ring of an endpoint that is busy still reads in S's view as before RESET (spec/43_event_buffer.md R281). -/
theorem ring_view_kept (hu : s.Undisturbed u) (hb : u.ep[n].busy = true) (h2 : 2 ≤ n.val) (hn : n.val < s.params.numEps)
    (hlay : s.params.layoutOk = true) (hbounds : s.params.boundsOk = true) (hlegal : s.cacheLegal)
    (hg : ∀ x y : LAddr, s.params.global x = s.params.global y → x = y) {i : Nat} (hi : i < trbBytes * ringSlots) :
    ((epList s.params).foldl State.resetOne u).viewByte (s.params.ringAddr[n] + BitVec.ofNat 32 i) =
      s.viewByte (s.params.ringAddr[n] + BitVec.ofNat 32 i) := by
  rw [← hu.params] at hlay hbounds hn hg ⊢
  have hlegal : u.cacheLegal := by
    unfold State.cacheLegal
    rwa [hu.cache, hu.params]
  exact (keepsByte_foldl_resetOne hlay hbounds hg hlegal h2 hn hb (fun k hk => mem_epList.1 hk) hi).view.trans
    (State.viewByte_congr hu.params hu.mem hu.cache)

end

end Sys2Proof.Machine

namespace Sys2Proof

open Machine

/-- Settles O30: an endpoint comes through the first two loops as it was or with its transfer ended, and the third loop makes
its record anew, and its ring alone where it is not busy. -/
theorem busResetClearsAndKeeps : Obligations.BusResetClearsAndKeeps := by
  intro s t info hq hc hm h
  obtain ⟨_, h⟩ := outcome_eq_next.1 h
  obtain ⟨u, hu, hep, rfl⟩ := onReset_eq_ok hq hc hm h
  obtain ⟨m, c, ep, hw⟩ := foldl_resetOne_memory (epList s.params) u
  generalize hloop : (epList s.params).foldl State.resetOne u = w at hw
  have hrecord (n : EpIdx) : w.ep[n] = if n ∈ epList s.params then u.ep[n].remade n else u.ep[n] := by
    rw [← hloop, foldl_resetOne_ep]
  refine ⟨fun n hn => ?_, fun n hn => ?_, fun n => ?_, ?_⟩
  · have hwn : w.ep[n] = u.ep[n].remade n := by rw [hrecord, if_pos (mem_epList.2 hn)]
    obtain ⟨hbusy, hrsc, -⟩ := u.ep[n].remade_keeps n
    obtain ⟨henabled, -, -, henq, hdeq, hout⟩ := State.record_kept (hep n)
    have hhanded : w.handed = u.handed := by rw [hw]
    have hhw : w.hw = u.hw := by rw [hw]
    show (w.ep[n].busy = true → _) ∧ (w.ep[n].busy = false → _) ∧ (_ → _ → w.ep[n].busy = false → _) ∧
      (_ ∨ _ ∨ w.ep[n].busy = true → _)
    simp only [State.called, State.updCtx, State.putReg, hwn, hhanded, hhw, hbusy, hrsc]
    refine ⟨fun hb => ?_, fun hb hsb => ?_, fun h2 he hb => ?_, fun hkept => ?_⟩
    · have hk := (hep n).resolve_right fun he => by rw [he.record] at hb; cases hb
      refine ⟨by rwa [← hk.record], by rw [hk.record], hk.held, fun h2 hlay hbounds hlegal hg i hi => ?_⟩
      exact (congrArg (State.viewByte · _) hloop.symm).trans (ring_view_kept hu hb h2 hn hlay hbounds hlegal hg hi)
    · have hends := (hep n).resolve_left fun hk => by rw [hk.record, hsb] at hb; cases hb
      exact ⟨by rw [hends.record]; rfl, hends.unhanded, hends.held⟩
    · exact Ep.remade_ring ⟨h2, henabled.trans he, hb⟩
    · obtain ⟨henq', hdeq', hout'⟩ := Ep.remade_cursors (e := u.ep[n]) (henabled ▸ hkept)
      exact ⟨henq'.trans henq, hdeq'.trans hdeq, hout'.trans hout⟩
  · show w.ep[n].stalled = false ∧ w.ep[n].wedge = false ∧ w.ep[n].pending = false ∧ w.ep[n].requested = 0 ∧
      w.ep[n].actual = 0 ∧ w.ep[n].rounded = false
    rw [hrecord, if_pos (mem_epList.2 hn)]
    exact u.ep[n].remade_clears n
  · show w.ep[n].enabled = _ ∧ w.ep[n].mps = _ ∧ w.ep[n].type = _
    obtain ⟨he, hmps, htype, -⟩ := State.record_kept (hep n)
    rw [hrecord, ← he, ← hmps, ← htype]
    split
    · exact (u.ep[n].remade_keeps n).2.2
    · exact ⟨rfl, rfl, rfl⟩
  · have hregs : w.regs = u.regs := by rw [hw]
    have hctx : w.ctx = u.ctx := by rw [hw]
    have htrace : w.trace = u.trace := by rw [hw]
    refine ⟨?_, rfl, ?_, ?_, rfl, rfl, ?_⟩
    · exact (congrArg Regs.dalepena hregs).trans hu.dalepena
    · show w.ctx.ep0Started = _
      rw [hctx, hu.ctx]
    · show w.ctx.epsStarted = _
      rw [hctx, hu.ctx]
    · show w.trace ++ _ = _
      rw [htrace, hu.trace]

end Sys2Proof

/-! ### The control pair (spec/44_ep0_control.md R320 to R357) -/

namespace Sys2Proof.Machine

section
variable {s t : State} {n d : EpIdx} {st : BitVec 4} {q : BitVec 16}

/-! #### The rows of the EP0 table (R330) -/

/-- XFER_COMPLETE of an endpoint of the pair goes to the EP0 table (spec/43_event_buffer.md R289). -/
theorem onXferComplete_pair (h2 : n.val < 2) (hn : n.val < s.params.numEps) : onXferComplete n s = ep0XferComplete n s := by
  unfold onXferComplete
  rw [M.bind_of_ok (requireEventEp_present hn), if_pos h2]

/-- XFER_NOT_READY of an endpoint of the pair goes to the EP0 table (spec/43_event_buffer.md R289). -/
theorem onXferNotReady_pair (h2 : n.val < 2) (hn : n.val < s.params.numEps) :
    onXferNotReady n st s = ep0XferNotReady n st s := by
  unfold onXferNotReady
  rw [M.bind_of_ok (requireEventEp_present hn), M.bind_of_ok (M.get_apply s), if_pos h2]

theorem exec_xferComplete_of_ok (h2 : n.val < 2) (hn : n.val < s.params.numEps)
    (h : ep0XferComplete n s = .ok (⟨⟩, t)) : exec (.evtXferComplete n st q) s = .next t :=
  outcome_of_ok ((onXferComplete_pair h2 hn).trans h)

theorem exec_xferNotReady_of_ok (h2 : n.val < 2) (hn : n.val < s.params.numEps)
    (h : ep0XferNotReady n st s = .ok (⟨⟩, t)) : exec (.evtXferNotReady n st q) s = .next t :=
  outcome_of_ok ((onXferNotReady_pair h2 hn).trans h)

/-- The completions without an action: before the first SETUP, of an idle endpoint, and of endpoint 1 in state SETUP. -/
theorem ep0XferComplete_ignored
    (h : s.ctx.ep0State = .unconnected ∨ s.ep[n].busy = false ∨ (s.ctx.ep0State = .setup ∧ n ≠ 0)) :
    ep0XferComplete n s = .ok (⟨⟩, s.logged (.ignoredEp0Event n s.ctx.ep0State)) := by
  unfold ep0XferComplete
  rw [M.bind_of_ok (M.get_apply s)]
  cases he : s.ctx.ep0State with
  | unconnected => rfl
  | setup =>
    have hrow : ¬ (n = 0 ∧ s.ep[(0 : EpIdx)].busy = true) := by
      rintro ⟨rfl, hb⟩
      exact absurd hb (by simpa [he] using h)
    simp only [if_neg hrow, logEntry_apply]
  | data =>
    have hb : s.ep[n].busy = false := by simpa [he] using h
    simp only [hb, Bool.false_eq_true, if_false, logEntry_apply]
  | status =>
    have hb : s.ep[n].busy = false := by simpa [he] using h
    simp only [hb, Bool.false_eq_true, if_false, logEntry_apply]

/-- The completion of endpoint 0 in state SETUP, and those of a busy endpoint in states DATA and STATUS. -/
theorem ep0XferComplete_setup (he : s.ctx.ep0State = .setup) (hb : s.ep[(0 : EpIdx)].busy = true) :
    ep0XferComplete 0 s = setupCompletion s := by
  unfold ep0XferComplete
  rw [M.bind_of_ok (M.get_apply s), he]
  exact congrFun (if_pos ⟨rfl, hb⟩) s

theorem ep0XferComplete_data (he : s.ctx.ep0State = .data) (hb : s.ep[n].busy = true) :
    ep0XferComplete n s = dataCompletion n s := by
  unfold ep0XferComplete
  rw [M.bind_of_ok (M.get_apply s), he]
  exact congrFun (if_pos hb) s

theorem ep0XferComplete_status (he : s.ctx.ep0State = .status) (hb : s.ep[n].busy = true) :
    ep0XferComplete n s = statusCompletion n s := by
  unfold ep0XferComplete
  rw [M.bind_of_ok (M.get_apply s), he]
  exact congrFun (if_pos hb) s

/-- The requests without an action: outside DATA and STATUS, and there for another stage than the state's own. -/
theorem ep0XferNotReady_ignored
    (h : s.ctx.ep0State = .unconnected ∨ s.ctx.ep0State = .setup ∨
      (s.ctx.ep0State = .data ∧ stageOf s.params.enc.evt st ≠ .controlData) ∨
      (s.ctx.ep0State = .status ∧ stageOf s.params.enc.evt st ≠ .controlStatus)) :
    ep0XferNotReady n st s = .ok (⟨⟩, s.logged (.ignoredEp0Event n s.ctx.ep0State)) := by
  unfold ep0XferNotReady
  rw [M.bind_of_ok (M.get_apply s)]
  cases he : s.ctx.ep0State with
  | unconnected => rfl
  | setup => rfl
  | data =>
    have hst : stageOf s.params.enc.evt st ≠ .controlData := by simpa [he] using h
    simp only [if_neg hst, logEntry_apply]
  | status =>
    have hst : stageOf s.params.enc.evt st ≠ .controlStatus := by simpa [he] using h
    simp only [if_neg hst, logEntry_apply]

theorem ep0XferNotReady_data {dir : Dir} (he : s.ctx.ep0State = .data)
    (hst : stageOf s.params.enc.evt st = .controlData) (hd : s.ctx.ep0Dir = some dir) :
    ep0XferNotReady n st s = (if dirOf n = dir then pure () else directionMismatch dir : M Unit) s := by
  unfold ep0XferNotReady
  rw [M.bind_of_ok (M.get_apply s), he]
  simp only [if_pos hst, hd]
  rw [M.bind_of_ok (written_some dir s)]

theorem ep0XferNotReady_status (he : s.ctx.ep0State = .status)
    (hst : stageOf s.params.enc.evt st = .controlStatus) : ep0XferNotReady n st s = statusTrigger n s := by
  unfold ep0XferNotReady
  rw [M.bind_of_ok (M.get_apply s), he]
  simp only [if_pos hst]

/-! #### The EP0 operations (R325 to R328) -/

theorem startResult_eq_ok_iff : s.startResult = .ok ↔ s.performs = true := by
  unfold State.startResult
  cases hp : s.performs with
  | true => simp
  | false => simpa using State.commandResult_ne_ok hp

/-- The EP0 TRB armed, and its rounding recorded where H starts the transfer. -/
theorem ep0Arm_recorded (buf : LAddr) (size : Nat) (k : TrbKind) (rounded : Bool) (h : s.armable d) :
    (do
      let r ← ep0Arm d buf size k
      recordRounded d rounded r
      pure r : M Result) s = .ok (s.startResult, s.ep0Submitted d buf size k rounded) := by
  rw [M.bind_of_ok (ep0Arm_armable buf size k h)]
  unfold recordRounded State.ep0Submitted
  by_cases hp : s.performs = true
  · rw [if_pos (startResult_eq_ok_iff.2 hp), if_pos hp]
    rfl
  · rw [if_neg (mt startResult_eq_ok_iff.1 hp), if_neg hp]
    rfl

section
variable {buf : LAddr} {len size : Nat} {mps : BitVec 11} {three : Bool}

theorem ep0Send_busy (hb : s.ep0Busy = true) : ep0Send buf len s = .ok (.err .busy, s) := by
  unfold ep0Send
  rw [M.bind_of_ok (M.get_apply s), if_pos hb]
  rfl

theorem ep0Recv_busy (hb : s.ep0Busy = true) : ep0Recv buf len s = .ok (.err .recvBusy, s) := by
  unfold ep0Recv
  rw [M.bind_of_ok (M.get_apply s), if_pos hb]
  rfl

theorem ep0Status_busy (hb : s.ep0Busy = true) : ep0Status d s = .ok (.err .busy, s) := by
  unfold ep0Status
  rw [M.bind_of_ok (M.get_apply s), if_pos hb]
  rfl

theorem ep0Send_tooLong (hb : s.ep0Busy = false) (hl : trbSizeMax < len) :
    ep0Send buf len s = .ok (.err .invalidLength, s) := by
  unfold ep0Send
  rw [M.bind_of_ok (M.get_apply s), hb, if_neg Bool.false_ne_true, if_pos hl]
  rfl

theorem ep0Recv_tooLong (hb : s.ep0Busy = false) (hm : s.ep[(0 : EpIdx)].mps = some mps)
    (hz : s.receiveSizeIs len mps size) (hl : trbSizeMax < size) :
    ep0Recv buf len s = .ok (.err .invalidLength, s.sizedFor mps) := by
  unfold ep0Recv
  rw [M.bind_of_ok (M.get_apply s), hb, if_neg Bool.false_ne_true, M.bind_of_ok (receiveSize_is hm hz), if_pos hl]
  rfl

theorem ep0Send_armable (hb : s.ep0Busy = false) (hl : len ≤ trbSizeMax) (h : (s.sendReady buf len).armable 1) :
    ep0Send buf len s = .ok (s.startResult, (s.sendReady buf len).ep0Submitted 1 buf len .controlData false) := by
  obtain ⟨-, hresult, -⟩ := sendReady_commandsAs s 1 buf len
  have hq : s.quiet := by
    obtain ⟨-, -, ⟨hq, -⟩, -⟩ := h
    unfold State.sendReady at hq
    split at hq <;> exact hq
  unfold ep0Send
  rw [M.bind_of_ok (M.get_apply s), hb, if_neg Bool.false_ne_true, if_neg (Nat.not_lt.2 hl), flushSent_bind buf len _ hq,
    ← hresult]
  exact ep0Arm_recorded buf len .controlData false h

theorem ep0Recv_armable (hb : s.ep0Busy = false) (hm : s.ep[(0 : EpIdx)].mps = some mps)
    (hz : s.receiveSizeIs len mps size) (hl : size ≤ trbSizeMax) (h : ((s.sizedFor mps).flush buf size).armable 0) :
    ep0Recv buf len s = .ok (s.startResult,
      ((s.sizedFor mps).flush buf size).ep0Submitted 0 buf size .controlData (decide (size ≠ len))) := by
  obtain ⟨-, hresult, -⟩ := sizedFor_flush_commandsAs s 0 mps buf size
  have hq : (s.sizedFor mps).quiet := by
    obtain ⟨-, -, ⟨hq, -⟩, -⟩ := h
    exact hq
  unfold ep0Recv
  rw [M.bind_of_ok (M.get_apply s), hb, if_neg Bool.false_ne_true, M.bind_of_ok (receiveSize_is hm hz),
    if_neg (Nat.not_lt.2 hl), M.bind_of_ok (cacheFlush_quiet buf size hq),
    ep0Arm_recorded buf size .controlData _ h, hresult]

theorem ep0Status_armable (hb : s.ep0Busy = false) (ht : s.ctx.threeStage = some three) (h : s.armable d) :
    ep0Status d s = .ok (s.startResult, s.ep0Submitted d s.params.setupBufAddr 0 (statusKind three) false) := by
  unfold ep0Status
  rw [M.bind_of_ok (M.get_apply s), hb, if_neg Bool.false_ne_true, ht, M.bind_of_ok (written_some three s)]
  exact ep0Arm_recorded _ 0 _ false h

end

/-! #### The Set-Address step (R347) -/

section
variable {p : Setup} {e : Err}

theorem rejectAddress_recoverable (h : (s.logged (.error e)).recoverable) :
    rejectAddress e s = .ok (.err e, (s.logged (.error e)).recovered) := by
  unfold rejectAddress
  rw [M.bind_of_ok (logEntry_apply _ s), M.bind_of_ok (stallAndRearm_recoverable h)]
  rfl

/-- An address out of range, or one set while CONFIGURED, is rejected. -/
theorem setAddressStep_rejected (hp : s.ctx.setup = some p) (he : s.addressError p.wValue = some e)
    (h : (s.logged (.error e)).recoverable) : setAddressStep s = .ok (.err e, (s.logged (.error e)).recovered) := by
  unfold setAddressStep
  rw [M.bind_of_ok (M.get_apply s), hp, M.bind_of_ok (written_some p s)]
  unfold State.addressError at he
  by_cases hrange : 127 < p.wValue.toNat
  · rw [if_pos hrange] at he ⊢
    cases he
    exact rejectAddress_recoverable h
  · rw [if_neg hrange] at he ⊢
    by_cases hconf : s.ctx.devState = .configured
    · rw [if_pos hconf] at he ⊢
      cases he
      exact rejectAddress_recoverable h
    · rw [if_neg hconf] at he
      cases he

/-- An address that is accepted is programmed. -/
theorem setAddressStep_accepted (hp : s.ctx.setup = some p) (he : s.addressError p.wValue = none) (hq : s.quiet) :
    setAddressStep s = .ok (.ok, s.addressSet p.wValue) := by
  have hrange : ¬ 127 < p.wValue.toNat := by
    intro h
    simp [State.addressError, h] at he
  have hconf : s.ctx.devState ≠ .configured := by
    intro h
    simp [State.addressError, hrange, h] at he
  have hstate : (if p.wValue ≠ 0 then DevState.addressed else .default) = if p.wValue = 0 then .default else .addressed :=
    ite_not ..
  unfold setAddressStep
  rw [M.bind_of_ok (M.get_apply s), hp, M.bind_of_ok (written_some p s), if_neg hrange, if_neg hconf]
  refine (M.bind_of_ok (writeField_dcfg_quiet hq (·.devaddr) _)).trans ?_
  rw [hstate]
  rfl

end

/-! #### The stages of a control transfer (R343 to R348) -/

/-- The endpoint idle and no setup pending, and then ARM_SETUP (R348). -/
theorem statusCompletion_armable (n : EpIdx) (s : State) :
    let u := (s.updEp n fun e => { e.idle with actual := 0 }).updEp 0 fun e => { e with pending := false }
    u.setupArmable → statusCompletion n s = .ok (⟨⟩, u.setupArmed) := by
  intro u h
  unfold statusCompletion
  rw [M.bind_of_ok (modifyEp_apply n _ s), M.bind_of_ok (modifyEp_apply 0 _ _)]
  exact M.bind_of_ok (armSetup_armable h)

/-- The recovery after the transfer of the cached direction is ended (R344). -/
theorem directionMismatch_recoverable {dir : Dir} (ha : s.abortable (ep0Of dir))
    (h : (s.aborted (ep0Of dir)).recoverable) :
    directionMismatch dir s = .ok (⟨⟩, (s.aborted (ep0Of dir)).recovered) := by
  unfold directionMismatch
  rw [M.bind_of_ok (abortEp_abortable ha)]
  exact stallAndRearm_recoverable h

/-- The status stage armed on an idle pair, its error logged (R346). -/
theorem ep0Status_logged {three : Bool} (hb : s.ep0Busy = false) (ht : s.ctx.threeStage = some three) (h : s.armable n) :
    (do let q ← ep0Status n; logIfError q : M Unit) s =
      .ok (⟨⟩, (s.ep0Submitted n s.params.setupBufAddr 0 (statusKind three) false).loggedIf s.startResult) := by
  rw [M.bind_of_ok (ep0Status_armable hb ht h), logIfError_apply]

theorem statusTrigger_busy (hb : s.ep0Busy = true) :
    statusTrigger n s = .ok (⟨⟩, s.logged .ep0StatusAlreadyArmed) := by
  unfold statusTrigger
  rw [M.bind_of_ok (M.get_apply s), if_pos hb]
  rfl

section
variable {p : Setup} {three : Bool} (hb : s.ep0Busy = false) (hp : s.ctx.setup = some p)
include hb hp

/-- A request that is not SET_ADDRESS has its status stage armed. -/
theorem statusTrigger_plain (ha : p.isSetAddress = false) :
    statusTrigger n s = (do let q ← ep0Status n; logIfError q : M Unit) s := by
  unfold statusTrigger
  rw [M.bind_of_ok (M.get_apply s), hb, if_neg Bool.false_ne_true, hp, M.bind_of_ok (written_some p s), ha]
  rfl

/-- The status stage of SET_ADDRESS is armed once the address is programmed. -/
theorem statusTrigger_accepted (ha : p.isSetAddress = true) (he : s.addressError p.wValue = none) (hq : s.quiet) :
    statusTrigger n s = (do let q ← ep0Status n; logIfError q : M Unit) (s.addressSet p.wValue) := by
  unfold statusTrigger
  rw [M.bind_of_ok (M.get_apply s), hb, if_neg Bool.false_ne_true, hp, M.bind_of_ok (written_some p s), ha]
  exact M.bind_of_ok (setAddressStep_accepted hp he hq)

/-- A SET_ADDRESS that is rejected has no status stage. -/
theorem statusTrigger_rejected {e : Err} (ha : p.isSetAddress = true) (he : s.addressError p.wValue = some e)
    (h : (s.logged (.error e)).recoverable) : statusTrigger n s = .ok (⟨⟩, (s.logged (.error e)).recovered) := by
  unfold statusTrigger
  rw [M.bind_of_ok (M.get_apply s), hb, if_neg Bool.false_ne_true, hp, M.bind_of_ok (written_some p s), ha]
  exact M.bind_of_ok (setAddressStep_rejected hp he h)

end

/-- A programmed address leaves what arming the status stage needs. -/
theorem addressSet_armable (v : BitVec 16) (h : s.armable n) : (s.addressSet v).armable n := h

end

end Sys2Proof.Machine

namespace Sys2Proof

open Machine

/-- Settles O38: no row of the EP0 table has these events. -/
theorem otherEp0EventsAreLogged : Obligations.OtherEp0EventsAreLogged := by
  intro s n st q h2 hn
  have hcomplete (h) : exec (.evtXferComplete n st q) s = .next (s.logged (.ignoredEp0Event n s.ctx.ep0State)) :=
    exec_xferComplete_of_ok h2 hn (ep0XferComplete_ignored h)
  have hnotReady (h) : exec (.evtXferNotReady n st q) s = .next (s.logged (.ignoredEp0Event n s.ctx.ep0State)) :=
    exec_xferNotReady_of_ok h2 hn (ep0XferNotReady_ignored h)
  refine ⟨fun he => ?_, fun he => ?_, fun he => ?_, fun he => ?_⟩ <;> rw [he] at hcomplete hnotReady
  · exact ⟨hcomplete (.inl rfl), hnotReady (.inl rfl)⟩
  · refine ⟨fun h => hcomplete (.inr ?_), hnotReady (.inr (.inl rfl))⟩
    by_cases h0 : n = 0
    · subst h0
      exact .inl (h.resolve_left (absurd rfl))
    · exact .inr ⟨rfl, h0⟩
  · exact ⟨fun hb => hcomplete (.inr (.inl hb)), fun hst => hnotReady (.inr (.inr (.inl ⟨rfl, hst⟩)))⟩
  · exact ⟨fun hb => hcomplete (.inr (.inl hb)), fun hst => hnotReady (.inr (.inr (.inr ⟨rfl, hst⟩)))⟩

/-- Settles O35: the endpoint idle and no setup pending, and then ARM_SETUP. -/
theorem statusCompletionCompletes : Obligations.StatusCompletionCompletes := by
  intro s n st q u h2 hn he hb h
  exact exec_xferComplete_of_ok h2 hn ((ep0XferComplete_status he hb).trans (statusCompletion_armable n s h))

/-- Settles O36: the status trigger finds the pair in flight, or takes the Set-Address step where the request is one, and arms
the status stage where that step accepts the address. -/
theorem statusTriggerCompletes : Obligations.StatusTriggerCompletes := by
  intro s n st q h2 hn he hst
  have hexec {t : State} (h : statusTrigger n s = .ok (⟨⟩, t)) : exec (.evtXferNotReady n st q) s = .next t :=
    exec_xferNotReady_of_ok h2 hn ((ep0XferNotReady_status he hst).trans h)
  refine ⟨fun hb => hexec (statusTrigger_busy hb), fun p three hb hp ht => ⟨fun ha h => ?_, fun ha hacc h => ?_, ?_⟩⟩
  · exact hexec ((statusTrigger_plain hb hp ha).trans (ep0Status_logged hb ht h))
  · obtain ⟨-, -, ⟨hq, -⟩, -⟩ := id h
    exact hexec ((statusTrigger_accepted hb hp ha hacc hq).trans (ep0Status_logged hb ht (addressSet_armable p.wValue h)))
  · exact fun e ha hrej h => hexec (statusTrigger_rejected hb hp ha hrej h)

/-- Settles O37: the two ways of the DATA row, by the direction of the endpoint. -/
theorem dataNotReadyCompletes : Obligations.DataNotReadyCompletes := by
  intro s n st q dir h2 hn he hst hd
  have hrow := ep0XferNotReady_data (n := n) he hst hd
  refine ⟨fun hsame => exec_xferNotReady_of_ok h2 hn ?_, fun hother ha h => exec_xferNotReady_of_ok h2 hn ?_⟩
  · rw [hrow, if_pos hsame]
    rfl
  · rw [hrow, if_neg hother]
    exact directionMismatch_recoverable ha h

/-- Settles O39: the packet is cached, and the Set-Address step accepts its address or rejects it. -/
theorem setAddressCompletes : Obligations.SetAddressCompletes := by
  intro s v i l u
  have hexec {r : Result} {t : State} (h : setAddressStep u = .ok (r, t)) :
      exec (.setupSetAddress v i l) s = .next (t.setRet r) :=
    outcome_of_ok ((M.bind_of_ok (modifyCtx_apply _ s)).trans (returning_of_ok h))
  have hp : u.ctx.setup = some (setAddressPacket v i l) := rfl
  have herr : u.addressError (setAddressPacket v i l).wValue = s.addressError v := by
    unfold State.addressError
    rfl
  refine ⟨fun he hq => ?_, fun e he h => ?_⟩
  · have hstep := setAddressStep_accepted hp (herr.trans he) hq
    exact hexec hstep
  · exact hexec (setAddressStep_rejected hp (herr.trans he) h)

/-- Settles O55: past its checks each operation flushes its buffer, arms the EP0 TRB and records the rounding. -/
theorem ep0OperationsComplete : Obligations.Ep0OperationsComplete := by
  refine ⟨fun s buf len hi hb hl h => ?_, fun s buf len size mps hi hb hm hz hl h => ?_, fun s d three hi hb ht h => ?_⟩
  · exact outcome_admitted_of_ok hi (ep0Send_armable hb hl h)
  · exact outcome_admitted_of_ok hi (ep0Recv_armable hb hm hz hl h)
  · exact outcome_admitted_of_ok hi (ep0Status_armable hb ht h)

/-- Settles O56: each check is reached where those before it have passed. -/
theorem ep0Checks : Obligations.Ep0Checks := by
  intro s buf len d hi
  refine ⟨fun hb => ⟨?_, ?_, ?_⟩, fun hb => ⟨fun hl => ?_, fun mps size hm hz hl => ?_⟩⟩
  · exact outcome_admitted_of_ok hi (ep0Send_busy hb)
  · exact outcome_admitted_of_ok hi (ep0Recv_busy hb)
  · exact outcome_admitted_of_ok hi (ep0Status_busy hb)
  · exact outcome_admitted_of_ok hi (ep0Send_tooLong hb hl)
  · exact outcome_admitted_of_ok hi (ep0Recv_tooLong hb hm hz hl)

/-- Settles O57: the aborts of the pair, and ARM_SETUP. -/
theorem abortAndArmSetupComplete : Obligations.AbortAndArmSetupComplete := by
  intro s hi
  exact ⟨fun h => outcome_admitted_of_ok hi (M.bind_of_ok (abortEp0_abortable h)),
    fun h => outcome_admitted_of_ok hi (armSetup_armable h)⟩

end Sys2Proof

namespace Sys2Proof.Machine

section
variable {s t : State} {n : EpIdx} {w : Word}

/-! #### Data completion (R345) -/

section
variable (hq : s.quiet)
  (hw : (s.refetched s.params.ep0TrbAddr trbBytes (s.sizeWordAt s.params.ep0TrbAddr)).viewWord
    (s.sizeWordAt s.params.ep0TrbAddr) = some w)
include hq hw

theorem dataCompletion_exceeds (hr : s.ep[n].requested < s.remainingIn w) :
    dataCompletion n s = .error (.fault .remainingExceedsRequest) := by
  unfold dataCompletion
  rw [M.bind_of_ok (M.get_apply s)]
  exact M.bind_of_error (transferred_exceeds hq hw hr)

/-- The EP0 TRB is read, an OUT buffer invalidated, the state moved to STATUS, and the callback called. -/
theorem dataCompletion_transferred (hc : s.calm) (hr : s.remainingIn w ≤ s.ep[n].requested)
    (hbuf : s.ep[n].hasBuffer (dirOf n)) :
    let a := s.params.ep0TrbAddr
    let e := s.ep[n]
    dataCompletion n s = .ok (⟨⟩, ((((s.refetched a trbBytes (s.sizeWordAt a)).updEp n fun x =>
        { x.idle with actual := e.requested - s.remainingIn w }).bufferDropped e (dirOf n)).updCtx fun c =>
          { c with ep0State := .status }).called (dataCallback n (dirOf n))) := by
  intro a e
  obtain ⟨c, hu⟩ := s.refetched_cache a trbBytes (s.sizeWordAt a)
  unfold dataCompletion
  rw [M.bind_of_ok (M.get_apply s), M.bind_of_ok (transferred_quiet hq hw hr), M.bind_of_ok (modifyEp_apply _ _ _), hu]
  let u : State := State.updEp { s with cache := c } n fun x => { x.idle with actual := e.requested - s.remainingIn w }
  have hrecord : u.ep[n] = { e.idle with actual := e.requested - s.remainingIn w } := State.updEp_same ..
  have hdrop : invalidateReceived n (dirOf n) u = .ok (⟨⟩, u.bufferDropped e (dirOf n)) :=
    invalidateReceived_quiet hq (congrArg Ep.buf hrecord :) (congrArg Ep.requested hrecord :) hbuf
  obtain ⟨d, hd⟩ := u.bufferDropped_cache e (dirOf n)
  refine (M.bind_of_ok hdrop).trans ?_
  rw [M.bind_of_ok (modifyCtx_apply _ _)]
  exact callL_calm _ (by rw [hd]; exact hc)

end

/-! #### The SETUP packet, read from its buffer (R340, spec/20_memory.md R82) -/

/-- A line of S's view is loaded once. -/
theorem State.withLine_loaded {i : Nat} (h : ∃ l ∈ s.cache.lines, l.idx = i) : s.withLine i = s := by
  obtain ⟨l, hl, hi⟩ := h
  have hfound : (s.line? i).isSome = true := List.find?_isSome.2 ⟨l, hl, by simpa using hi⟩
  obtain ⟨k, hk⟩ := Option.isSome_iff_exists.1 hfound
  unfold State.withLine
  rw [hk]

theorem State.withLine_quiet (i : Nat) (hq : s.quiet) : (s.withLine i).quiet := by
  obtain ⟨c, hc⟩ := s.withLine_cache i
  rw [hc]
  exact hq

theorem memReadByte_quiet {a : LAddr} {b : Byte} (hq : s.quiet)
    (hb : (s.withLine (lineOf s.params a)).viewByte a = some b) :
    memReadByte a s = .ok (b, s.withLine (lineOf s.params a)) := by
  have hq' := State.withLine_quiet (lineOf s.params a) hq
  unfold memReadByte
  rw [M.bind_of_ok (othersTurn_quiet hq), M.bind_of_ok (M.modify_apply _ s), M.bind_of_ok (drawSeen_quiet a 1 hq'),
    M.bind_of_ok (M.get_apply _), State.seenByte_nil, hb]
  rfl

/-- A packet is what its bytes make (spec/30_encoding.md R126). -/
theorem Setup.ofBytes_bytes (p : Setup) :
    Setup.ofBytes p.bmRequestType p.bRequest (p.wValue.extractLsb' 0 8) (p.wValue.extractLsb' 8 8)
      (p.wIndex.extractLsb' 0 8) (p.wIndex.extractLsb' 8 8) (p.wLength.extractLsb' 0 8) (p.wLength.extractLsb' 8 8) = p := by
  simp [Setup.ofBytes]

/-- A packet whose bytes lie in one line: the first read loads the line, and the others find it. -/
theorem readSetup_quiet {a : LAddr} {p : Setup} (hq : s.quiet)
    (h : ∀ i : Fin 8, lineOf s.params (a + BitVec.ofNat 32 i.val) = lineOf s.params a ∧
      (s.withLine (lineOf s.params a)).viewByte (a + BitVec.ofNat 32 i.val) = p.bytes[i.val]?) :
    readSetup a s = .ok (p, s.withLine (lineOf s.params a)) := by
  let u := s.withLine (lineOf s.params a)
  obtain ⟨c, hc⟩ := s.withLine_cache (lineOf s.params a)
  have hpar : u.params = s.params := by simp only [u, hc]
  have hloaded : u.withLine (lineOf s.params a) = u := State.withLine_loaded (s.exists_line_withLine _)
  have hbyte (i : Fin 8) (x : LAddr) {b : Byte} (hx : x = a + BitVec.ofNat 32 i.val) (hi : p.bytes[i.val]? = some b) :
      memReadByte x u = .ok (b, u) := by
    subst hx
    obtain ⟨hline, hview⟩ := h i
    have hsame : u.withLine (lineOf u.params (a + BitVec.ofNat 32 i.val)) = u := by rw [hpar, hline, hloaded]
    have hread := memReadByte_quiet (s := u) (State.withLine_quiet _ hq) (by rw [hsame]; exact hview.trans hi)
    rwa [hsame] at hread
  have hfirst : memReadByte a s = .ok (p.bmRequestType, u) := by
    have ha : a + BitVec.ofNat 32 (0 : Fin 8).val = a := by simp
    obtain ⟨-, hview⟩ := h 0
    exact memReadByte_quiet hq ((congrArg _ ha).symm.trans hview)
  unfold readSetup
  rw [M.bind_of_ok hfirst, M.bind_of_ok (hbyte 1 (a + 1) rfl rfl), M.bind_of_ok (hbyte 2 (a + 2) rfl rfl),
    M.bind_of_ok (hbyte 3 (a + 3) rfl rfl), M.bind_of_ok (hbyte 4 (a + 4) rfl rfl),
    M.bind_of_ok (hbyte 5 (a + 5) rfl rfl), M.bind_of_ok (hbyte 6 (a + 6) rfl rfl),
    M.bind_of_ok (hbyte 7 (a + 7) rfl rfl), Setup.ofBytes_bytes]
  rfl

/-- The buffer is invalidated and read, the packet cached, and the callback called (R340). -/
theorem setupCompletion_visible {p : Setup} (hq : s.quiet) (hc : s.calm) :
    let a := s.params.setupBufAddr
    let u := (s.updEp 0 fun e => { e.idle with stalled := false }).refetched a setupLen a
    (∀ i : Fin 8, lineOf s.params (a + BitVec.ofNat 32 i.val) = lineOf s.params a ∧
      u.viewByte (a + BitVec.ofNat 32 i.val) = p.bytes[i.val]?) →
    setupCompletion s = .ok (⟨⟩, ((u.updCtx fun c => c.afterSetup p).updEp 0 fun e =>
      { e with pending := true }).called .onSetupReceived) := by
  intro a u h
  let v := s.updEp 0 fun e => { e.idle with stalled := false }
  have hread : readSetup a (v.invalidate a setupLen) = .ok (p, u) := readSetup_quiet hq h
  obtain ⟨c, hu⟩ := v.refetched_cache a setupLen a
  have hcalm : ((u.updCtx fun c => c.afterSetup p).updEp 0 fun e => { e with pending := true }).calm := by
    have he : u = { v with cache := c } := hu
    rw [he]
    exact hc
  unfold setupCompletion
  rw [M.bind_of_ok (modifyEp_apply 0 _ s), M.bind_of_ok (M.get_apply _)]
  refine (M.bind_of_ok (cacheInvalidate_quiet (s := v) a setupLen hq)).trans ((M.bind_of_ok hread).trans ?_)
  rw [M.bind_of_ok (modifyCtx_apply _ u), M.bind_of_ok (modifyEp_apply 0 _ _)]
  exact callL_calm .onSetupReceived hcalm

/-! #### What leaves S's context alone, whatever the other agents and L do -/

/-- S's context is as it was. -/
def SameContext (s t : State) : Prop := t.ctx = s.ctx

theorem sameContext_composes : Composes SameContext where
  refl _ := rfl
  trans h g := Eq.trans g h

/-- The accesses of S, and the acts of the other agents between them, leave its context alone. -/
theorem sameContext_access {α : Type} {m : M α} (h : Keeps .access m) : Preserves SameContext m :=
  fun s a t e => (h s a t e).ctx.same rfl

theorem sameContext_modifyEp (n : EpIdx) (f : Ep → Ep) : Preserves SameContext (modifyEp n f) :=
  preserves_modify fun _ => rfl

theorem sameContext_cmdStartTransfer (n : EpIdx) (g : GAddr) : Preserves SameContext (cmdStartTransfer n g) := by
  refine sameContext_composes.bind (sameContext_access (keeps_issue n _)) fun r => ?_
  cases r with
  | okIdx i => exact sameContext_composes.bind (sameContext_modifyEp n _) fun _ => sameContext_composes.pure
  | _ => exact sameContext_composes.pure

theorem sameContext_enqueue (n : EpIdx) (buf : LAddr) (size : Nat) (k : TrbKind) :
    Preserves SameContext (enqueue n buf size k) :=
  have h := sameContext_composes
  h.bind h.get fun _ => h.bind (sameContext_access (keeps_writeTrb _ _)) fun _ =>
    h.bind (sameContext_access (keeps_handOver n _)) fun _ => h.bind (sameContext_access (keeps_cacheFlush _ _)) fun _ =>
      h.bind (sameContext_modifyEp n _) fun _ => h.pure

theorem sameContext_submit (n : EpIdx) (g : GAddr) : Preserves SameContext (submit n g) := by
  have h := sameContext_composes
  refine h.bind (h.getEp n) fun _ => .ite
    (h.bind (h.readRsc n) fun r => sameContext_access (keeps_cmdUpdateTransfer n r)) ?_
  refine h.bind (sameContext_cmdStartTransfer n g) fun r => ?_
  cases r with
  | _ => exact h.pure

theorem sameContext_submission (n : EpIdx) (buf : LAddr) (size : Nat) (k : TrbKind) (rounded : Bool) :
    Preserves SameContext (do let g ← enqueue n buf size k; recordRequest n buf size rounded; submit n g) :=
  have h := sameContext_composes
  h.bind (sameContext_enqueue n buf size k) fun g => h.bind (sameContext_modifyEp n _) fun _ => sameContext_submit n g

theorem sameContext_send (num : Nat) (dir : Dir) (buf : LAddr) (len : Nat) :
    Preserves SameContext (send num dir buf len) := by
  have h := sameContext_composes
  refine h.bind h.get fun s => ?_
  split
  · exact h.pure
  · exact .ite h.pure <| h.bind (h.requireRoom _) fun _ =>
      h.when (sameContext_access (keeps_cacheFlush buf len)) fun _ => sameContext_submission _ _ _ _ _

theorem sameContext_recv (num : Nat) (dir : Dir) (buf : LAddr) (len : Nat) :
    Preserves SameContext (recv num dir buf len) := by
  have h := sameContext_composes
  refine h.bind h.get fun s => ?_
  split
  · exact h.pure
  · exact h.bind (sameContext_access (keeps_receiveSize _ len)) fun size => .ite h.pure <|
      h.bind (h.requireRoom _) fun _ => h.bind (sameContext_access (keeps_cacheFlush buf size)) fun _ =>
        sameContext_submission _ _ _ _ _

/-- The EP0 TRB armed, and its rounding recorded. -/
theorem sameContext_ep0Arm (d : EpIdx) (buf : LAddr) (size : Nat) (k : TrbKind) (rounded : Bool) :
    Preserves SameContext (do let r ← ep0Arm d buf size k; recordRounded d rounded r; pure r : M Result) := by
  have h := sameContext_composes
  have harm : Preserves SameContext (ep0Arm d buf size k) := by
    refine h.bind h.get fun _ => h.bind (sameContext_access (keeps_writeTrb _ _)) fun _ =>
      h.bind (sameContext_access (keeps_handOver d _)) fun _ => h.bind (sameContext_access (keeps_cacheFlush _ _)) fun _ =>
        h.bind (sameContext_cmdStartTransfer d _) fun r => ?_
    cases r with
    | okIdx i => exact h.bind (sameContext_modifyEp d _) fun _ => h.pure
    | _ => exact h.pure
  exact h.bind harm fun _ => h.bind (.ite (sameContext_modifyEp d _) h.pure) fun _ => h.pure

theorem sameContext_ep0Send (buf : LAddr) (len : Nat) : Preserves SameContext (ep0Send buf len) :=
  have h := sameContext_composes
  h.bind h.get fun _ => .ite h.pure <| .ite h.pure <| h.when (sameContext_access (keeps_cacheFlush buf len)) fun _ =>
    sameContext_ep0Arm 1 buf len _ false

theorem sameContext_ep0Recv (buf : LAddr) (len : Nat) : Preserves SameContext (ep0Recv buf len) :=
  have h := sameContext_composes
  h.bind h.get fun _ => .ite h.pure <| h.bind (sameContext_access (keeps_receiveSize 0 len)) fun size =>
    .ite h.pure <| h.bind (sameContext_access (keeps_cacheFlush buf size)) fun _ => sameContext_ep0Arm 0 buf size _ _

theorem sameContext_stall (num : Nat) (dir : Dir) : Preserves SameContext (stall num dir) := by
  have h := sameContext_composes
  refine h.bind h.get fun s => ?_
  split
  · exact h.pure
  · exact h.bind (sameContext_access (keeps_issue _ _)) fun _ => h.when (sameContext_modifyEp _ _) fun _ => h.pure

theorem sameContext_clearStall (num : Nat) (dir : Dir) : Preserves SameContext (clearStall num dir) := by
  have h := sameContext_composes
  refine h.bind h.get fun s => ?_
  split
  · exact h.pure
  · exact h.bind (sameContext_access (keeps_issue _ _)) fun _ => h.when (sameContext_modifyEp _ _) fun _ => h.pure

theorem sameContext_runLCall : (c : LCall) → Preserves SameContext (runLCall c)
  | .send num dir buf len => sameContext_send num dir buf len
  | .recv num dir buf len => sameContext_recv num dir buf len
  | .ep0Send buf len => sameContext_ep0Send buf len
  | .ep0Recv buf len => sameContext_ep0Recv buf len
  | .stall num dir => sameContext_stall num dir
  | .clearStall num dir => sameContext_clearStall num dir

theorem sameContext_runLCalls : (l : List LCall) → Preserves SameContext (runLCalls l)
  | [] => sameContext_composes.pure
  | c :: cs =>
    have h := sameContext_composes
    h.bind h.requireInit fun _ => h.bind (sameContext_runLCall c) fun _ =>
      h.bind (preserves_modify fun _ => rfl) fun _ => sameContext_runLCalls cs

/-- The calls that L makes inside a callback write no field of S's context. -/
theorem sameContext_callL (c : Callback) : Preserves SameContext (callL c) :=
  have h := sameContext_composes
  h.bind (preserves_modify fun _ => rfl) fun _ => h.bind (sameContext_access keeps_drawCalls) sameContext_runLCalls

/-- A SETUP completion leaves the context that some packet makes of the one before. -/
theorem setupCompletion_context (h : setupCompletion s = .ok (⟨⟩, t)) : ∃ p, t.ctx = s.ctx.afterSetup p := by
  have hsame := sameContext_composes
  unfold setupCompletion at h
  obtain ⟨_, _, h1, h⟩ := M.bind_eq_ok.1 h
  obtain ⟨_, _, h2, h⟩ := M.bind_eq_ok.1 h
  obtain ⟨_, _, h3, h⟩ := M.bind_eq_ok.1 h
  obtain ⟨p, u, h4, h⟩ := M.bind_eq_ok.1 h
  have hread : SameContext s u :=
    hsame.trans (sameContext_modifyEp 0 _ _ _ _ h1) <| hsame.trans (hsame.get _ _ _ h2) <|
      hsame.trans (sameContext_access (keeps_cacheInvalidate _ _) _ _ _ h3) (sameContext_access (keeps_readSetup _) _ _ _ h4)
  obtain ⟨_, _, h5, h⟩ := M.bind_eq_ok.1 h
  cases h5
  have hcall := hsame.bind (sameContext_modifyEp 0 _) (fun _ => sameContext_callL .onSetupReceived) _ _ _ h
  exact ⟨p, hcall.trans (congrArg (·.afterSetup p) hread)⟩

end

end Sys2Proof.Machine

namespace Sys2Proof

open Machine

/-- Settles O32: the packet is read from the buffer that was invalidated. -/
theorem setupCompletionCompletes : Obligations.SetupCompletionCompletes := by
  intro s st q p a u hn he hb hq hc h
  exact exec_xferComplete_of_ok (by decide) hn ((ep0XferComplete_setup he hb).trans (setupCompletion_visible hq hc h))

/-- Settles O33: after the packet is cached nothing writes the context, and before it nothing of it that counts. -/
theorem setupLengthDecidesDataStage : Obligations.SetupLengthDecidesDataStage := by
  intro s t st q he hb h
  obtain ⟨⟨⟩, h⟩ := outcome_eq_next.1 h
  have hn : (0 : EpIdx).val < s.params.numEps := by
    by_contra hn
    exact nomatch (M.bind_of_error (requireEventEp_absent (Nat.not_lt.1 hn))).symm.trans h
  rw [onXferComplete_pair (by decide) hn, ep0XferComplete_setup he hb] at h
  obtain ⟨p, hp⟩ := setupCompletion_context h
  refine ⟨p, ?_⟩
  rw [hp, Ctx.afterSetup]
  by_cases hw : p.wLength = 0
  · rw [if_pos hw]
    exact ⟨rfl, fun _ => ⟨rfl, rfl⟩, absurd hw⟩
  · rw [if_neg hw]
    exact ⟨rfl, fun h0 => absurd h0 hw, fun _ => ⟨rfl, rfl, rfl⟩⟩

/-- Settles O34: the bytes that remain are read from the EP0 TRB, and no more than were requested may. -/
theorem dataCompletionCompletes : Obligations.DataCompletionCompletes := by
  intro s n st q w a e u rem h2 hn he hb hq hc hw
  have hrow := (onXferComplete_pair h2 hn).trans (ep0XferComplete_data he hb)
  exact ⟨fun hr hbuf => outcome_of_ok (hrow.trans (dataCompletion_transferred hq hw hc hr hbuf)),
    fun hr => outcome_of_fault (hrow.trans (dataCompletion_exceeds hq hw hr))⟩

end Sys2Proof

namespace Sys2Proof.Machine

section
variable {s t : State} {n : EpIdx} {r : Run} {j : Job} {f : TrbFields} {a : Arrival} {as : List Arrival}

/-! #### H's pass over a SETUP TRB (R355, R357) -/

/-- Two changes of a vector, each of one entry, may be made in either order where they may be on one entry. -/
theorem set_apply_comm {α : Type} (v : Vector α 32) (n m : EpIdx) {f g : α → α} (h : ∀ x, f (g x) = g (f x)) :
    (v.set n (f v[n])).set m (g (v.set n (f v[n]))[m]) = (v.set m (g v[m])).set n (f (v.set m (g v[m]))[n]) := by
  by_cases hnm : n = m
  · subst hnm
    simp [h]
  · have hv : n.val ≠ m.val := fun e => hnm (Fin.ext e)
    simp only [Fin.getElem_fin, Vector.getElem_set_ne _ _ hv, Vector.getElem_set_ne _ _ hv.symm]
    exact Vector.set_comm _ _ hv

/-- The endpoint without a stall. -/
def HEp.unstalled (h : HEp) : HEp := { h with stalled := false }

/-- H with the record of one endpoint without a stall. -/
def Hw.unstalled (h : Hw) (m : EpIdx) : Hw := { h with ep := h.ep.set m h.ep[m].unstalled }

/-- H with another transfer on endpoint `n`. -/
def Hw.setXfer (h : Hw) (n : EpIdx) (x : Xfer) : Hw := { h with ep := h.ep.set n { h.ep[n] with xfer := x } }

/-- H with no stall of the pair, and a control transfer begun. -/
def Hw.controlBegun (h : Hw) : Hw := { (h.unstalled 0).unstalled 1 with ctl := .none, ctlNum := h.ctlNum + 1 }

/-- After the packet of the host stands in its buffer. -/
def State.setupReceived (s : State) (buf : GAddr) (a : Arrival) (as : List Arrival) : State :=
  { s.hStore buf a.packet.bytes with hw := s.hw.controlBegun, env := { s.env with setups := as } }

theorem Hw.unstalled_setXfer (h : Hw) (n m : EpIdx) (x : Xfer) :
    (h.setXfer n x).unstalled m = (h.unstalled m).setXfer n x :=
  congrArg (fun ep => ({ h with ep := ep } : Hw))
    (set_apply_comm h.ep n m (f := fun e => { e with xfer := x }) (g := HEp.unstalled) fun _ => rfl)

/-- The begin of a control transfer meets no change of H's transfer on an endpoint. -/
theorem Hw.controlBegun_setXfer (h : Hw) (n : EpIdx) (x : Xfer) :
    (h.setXfer n x).controlBegun = h.controlBegun.setXfer n x := by
  have hpair : ((h.setXfer n x).unstalled 0).unstalled 1 = ((h.unstalled 0).unstalled 1).setXfer n x := by
    rw [Hw.unstalled_setXfer, Hw.unstalled_setXfer]
  exact congrArg (fun y : Hw => { y with ctl := .none, ctlNum := h.ctlNum + 1 }) hpair

theorem Hw.controlBegun_ended (h : Hw) (n : EpIdx) (rsc : BitVec 7) :
    h.controlBegun.ended n rsc = (h.ended n rsc).controlBegun :=
  congrArg (fun y : Hw => { y with rscUsed := y.rscUsed.filter fun x => decide (x ≠ rsc) })
    (h.controlBegun_setXfer n .idle).symm

theorem State.setupReceived_withRun (s : State) (n : EpIdx) (r : Run) (buf : GAddr) (a : Arrival) (as : List Arrival) :
    (s.withRun n r).setupReceived buf a as = (s.setupReceived buf a as).withRun n r :=
  congrArg (fun h => ({ s.hStore buf a.packet.bytes with hw := h, env := { s.env with setups := as } } : State))
    (s.hw.controlBegun_setXfer n (.active r))

theorem Hw.unstalled_hEp (h : Hw) (i m : EpIdx) :
    (h.unstalled i).ep[m].owed = h.ep[m].owed ∧ (h.unstalled i).ep[m].conf = h.ep[m].conf := by
  unfold Hw.unstalled
  by_cases hi : i = m
  · subst hi
    simp [HEp.unstalled]
  · have hv : i.val ≠ m.val := fun e => hi (Fin.ext e)
    simp [hv]

/-- The begin of a control transfer leaves what H owes and its configurations. -/
theorem Hw.controlBegun_hEp (h : Hw) (m : EpIdx) :
    h.controlBegun.ep[m].owed = h.ep[m].owed ∧ h.controlBegun.ep[m].conf = h.ep[m].conf := by
  obtain ⟨ho, hc⟩ := h.unstalled_hEp 0 m
  obtain ⟨ho', hc'⟩ := (h.unstalled 0).unstalled_hEp 1 m
  exact ⟨ho'.trans ho, hc'.trans hc⟩

/-- The packet changes neither the room for events nor what H sees of a TRB. -/
theorem State.setupReceived_frame (s : State) (buf : GAddr) (a : Arrival) (as : List Arrival) :
    ((s.setupReceived buf a as).hasRoom ↔ s.hasRoom) ∧
      ∀ g, (s.setupReceived buf a as).hSeesMemory g ↔ s.hSeesMemory g :=
  ⟨Iff.rfl, fun _ => Iff.rfl⟩

/-- H takes the packet that the host sends. -/
theorem hMove_setup (hp : j.phase = .moving) (hk : j.kind = .controlSetup) (hj : r.job = some j)
    (hs : s.env.setups = a :: as) :
    hMove n (s.withRun n r) = .ok (⟨⟩, (s.setupReceived j.trb.buf a as).withRun n
      { r with job := some (j.afterSetup (s.hw.ctlNum + 1) a) }) := by
  have hd : drawSetup (s.withRun n r) = .ok (some a, (s.withRun n r).setEnv { s.env with setups := as }) := by
    unfold drawSetup
    rw [M.bind_of_ok (M.get_apply _), show (s.withRun n r).env.setups = a :: as from hs]
    rfl
  rw [← State.withRun_withRun (s.setupReceived j.trb.buf a as) n r, ← State.setupReceived_withRun]
  unfold hMove
  rw [M.bind_of_ok (M.get_apply _), State.job?_some (s.withRun_xfer n r) hj hp]
  simp only [if_pos hk]
  unfold hReceiveSetup
  rw [M.bind_of_ok hd]
  rfl

/-- After H's transfer on an endpoint has ended. -/
def State.transferEnded (s : State) (n : EpIdx) (rsc : BitVec 7) : State := { s with hw := s.hw.ended n rsc }

theorem State.transferEnded_withRun (s : State) (n : EpIdx) (r : Run) (rsc : BitVec 7) :
    (s.withRun n r).transferEnded n rsc = s.transferEnded n rsc := by
  simp [State.transferEnded, State.withRun, State.updHEp, Hw.ended]

/-- A released SETUP TRB ends the transfer, and is then reported, where H owes that. -/
theorem hClose_setup {u : State} (hk : j.kind = .controlSetup) (hx : u.hw.ep[n].xfer = .active (r.released j))
    (h : hReportOwed n (u.transferEnded n r.rsc) = .ok (⟨⟩, t)) : hClose n u = .ok (⟨⟩, t) := by
  have hjob : u.job? n .released = some (r.released j, { j with phase := .released }) := State.job?_some hx rfl rfl
  have hfinish : hFinish n u = .ok (⟨⟩, u.transferEnded n r.rsc) := by
    unfold hFinish
    rw [M.bind_of_ok (M.get_apply u), hjob]
    simp only [hk, decide_true, Bool.or_true]
    exact hEndTransfer_apply n r.rsc u
  unfold hClose
  rw [M.bind_of_ok (M.get_apply u), hjob]
  simp only [if_pos hk]
  rw [M.bind_of_ok hfinish, h]

/-- The end of a transfer leaves what H owes. -/
theorem State.transferEnded_owing (s : State) (n : EpIdx) (rsc : BitVec 7) (q : Report) :
    (s.owing n q).transferEnded n rsc = (s.transferEnded n rsc).owing n q := by
  simp [State.transferEnded, State.owing, State.updHEp, Hw.ended]

theorem State.transferEnded_owed (s : State) (n : EpIdx) (rsc : BitVec 7) :
    (s.transferEnded n rsc).hw.ep[n].owed = s.hw.ep[n].owed := by
  simp [State.transferEnded, Hw.ended]

/-- The event owed is owed no more once it is appended. -/
theorem State.owing_reportedOwed (s : State) (n : EpIdx) (q : Report) :
    (s.owing n q).reportedOwed n q = s.reportedOwed n q := by
  let word := (Event.xferComplete n q.status q.param).word s.params.enc
  let staged (u : State) : State := { u with hw := { u.hw with ctl := s.hw.ctl.afterReport s.hw.ctlNum n q } }
  have h : ((s.reported word).owing n q).updHEp n (fun h => { h with owed := none }) =
      (s.reported word).updHEp n fun h => { h with owed := none } := by
    simp only [State.owing, State.updHEp_updHEp]
  exact congrArg staged h

/-- A SETUP TRB whose packet has come: written back, closed, and reported where that is due. -/
theorem hAfterMove_setup {w c : Word} (hj : r.job = some j) (hp : j.phase = .moved) (hk : j.kind = .controlSetup)
    (ho : s.params.enc.ok = true) (hm : s.hSeesMemory r.ptr) (hb : s.backWords r.ptr w c)
    (hn : s.hw.ep[n].owed = none) (hr : s.owes n j = true → s.hasRoom) :
    let t := (s.writtenBack r.ptr w c (j.trb.bufsiz - BitVec.ofNat 24 j.len) j.sts).transferEnded n r.rsc
    hAfterMove n (s.withRun n r) = .ok (⟨⟩, if s.owes n j then t.reportedOwed n j.report else t) := by
  intro t
  let back := s.writtenBack r.ptr w c (j.trb.bufsiz - BitVec.ofNat 24 j.len) j.sts
  have hended : (back.withRun n (r.released j)).transferEnded n r.rsc = t := State.transferEnded_withRun ..
  unfold hAfterMove
  rw [hWriteBack_moved hj hp ho hm hb]
  have hx := back.withRun_xfer n (r.released j)
  cases hd : s.owes n j with
  | false =>
    have hreport : hReportOwed n ((back.withRun n (r.released j)).transferEnded n r.rsc) = .ok (⟨⟩, t) := by
      rw [hended]
      exact hReportOwed_none ((back.transferEnded_owed n r.rsc).trans hn)
    exact hClose_setup hk hx hreport
  | true =>
    have howed := (back.withRun n (r.released j)).owing_hEp n j.report
    have hreport : hReportOwed n (((back.withRun n (r.released j)).owing n j.report).transferEnded n r.rsc) =
        .ok (⟨⟩, t.reportedOwed n j.report) := by
      rw [State.transferEnded_owing, hended, hReportOwed_room (congrArg HEp.owed (t.owing_hEp n j.report)) (hr hd),
        State.owing_reportedOwed]
    exact hClose_setup hk ((congrArg HEp.xfer howed).trans hx) hreport

/-- The stalls of the pair may be taken away after the transfer has ended. -/
theorem State.setupReceived_ended (s : State) (n : EpIdx) (r : Run) (buf : GAddr) (a : Arrival) (as : List Arrival)
    (w c : Word) :
    let v : State := { (s.hStore buf a.packet.bytes).writtenBack r.ptr w c 0 a.sts with
      hw := { s.hw.ended n r.rsc with ctl := .none, ctlNum := s.hw.ctlNum + 1 }
      env := { s.env with setups := as } }
    ((s.setupReceived buf a as).writtenBack r.ptr w c 0 a.sts).transferEnded n r.rsc =
      (v.updHEp 0 HEp.unstalled).updHEp 1 HEp.unstalled := by
  intro v
  have hended : ((s.setupReceived buf a as).writtenBack r.ptr w c 0 a.sts).transferEnded n r.rsc =
      { v with hw := s.hw.controlBegun.ended n r.rsc } := rfl
  rw [hended, Hw.controlBegun_ended]
  rfl

/-- A whole pass over a SETUP TRB that H takes up, with a packet at hand. -/
theorem hRunTrb_setup {w c : Word} (htakes : s.takesUp n r) (hf : f.hwo = true) (hs : s.env.setups = a :: as)
    (hok : s.params.enc.ok = true) (hsees : s.hSeesMemory r.ptr) :
    let u := s.setupReceived f.buf a as
    let t := (u.writtenBack r.ptr w c 0 a.sts).transferEnded n r.rsc
    u.backWords r.ptr w c → (s.reportsComplete n = true → s.hasRoom) →
    hRunTrb n .controlSetup f s = .ok (⟨⟩, if s.reportsComplete n then
      t.reportedOwed n { status := a.evStatus, param := a.evParam, kind := .controlSetup,
                         threeStage := decide (a.packet.wLength ≠ 0), transfer := s.hw.ctlNum + 1 } else t) := by
  intro u t hback hroom
  obtain ⟨hx, hw, hj, ho⟩ := htakes
  let job := (Job.start .controlSetup f).afterSetup (s.hw.ctlNum + 1) a
  obtain ⟨howed, hconf⟩ := s.hw.controlBegun_hEp n
  obtain ⟨hroom', hsees'⟩ := s.setupReceived_frame f.buf a as
  have howes : u.owes n job = s.reportsComplete n := by
    unfold State.owes State.reportsComplete
    rw [show u.hw.ep[n].conf = s.hw.ep[n].conf from hconf]
    rfl
  have hafter := hAfterMove_setup (n := n) (s := u) (r := r.begun job) (j := job) rfl rfl rfl hok
    ((hsees' r.ptr).2 hsees) hback (howed.trans ho) fun h => hroom'.2 (hroom (howes ▸ h))
  have hremaining : job.trb.bufsiz - BitVec.ofNat 24 job.len = 0 := by simp [job, Job.afterSetup]
  rw [howes, hremaining] at hafter
  have hmove : hMove n (s.withRun n (r.begun (Job.start .controlSetup f))) = .ok (⟨⟩, u.withRun n (r.begun job)) :=
    hMove_setup (j := Job.start .controlSetup f) (r := r.begun (Job.start .controlSetup f)) rfl rfl rfl hs
  rw [hRunTrb_atMove (k := .controlSetup) nofun hx ho (.inl ⟨hw, hj, hf, rfl⟩), M.bind_of_ok hmove]
  exact hafter

end

end Sys2Proof.Machine

namespace Sys2Proof

open Machine

/-- Settles O23: H takes up the TRB and the packet, and the transfer ends before the event is appended. -/
theorem setupTrbCompletes : Obligations.SetupTrbCompletes := by
  intro s n f r a as w c u v t htakes hf hs hok hsees hback hroom
  have hrun := hRunTrb_setup htakes hf hs hok hsees hback hroom
  rw [State.setupReceived_ended] at hrun
  exact ⟨State.ownsTrb_writtenBack .., outcome_of_ok hrun⟩

end Sys2Proof

/-! ### The device state (spec/60_exceptions.md R393) -/

namespace Sys2Proof.Machine

/-- SET_DEV_STATE writes one field of S's context and answers OK. -/
theorem setDevState_apply (target : SettableState) (s : State) :
    setDevState target s = .ok (.ok, s.updCtx fun c => { c with devState := devStateOf target }) :=
  M.bind_of_ok (modifyCtx_apply _ s)

end Sys2Proof.Machine

namespace Sys2Proof

open Machine

/-- Settles O51: once it is admitted, SET_DEV_STATE has no check and no access, so that it always answers. -/
theorem setDevStateCompletes : Obligations.SetDevStateCompletes :=
  fun s target hi => outcome_admitted_of_ok hi (setDevState_apply target s)

end Sys2Proof

/-! ### The bring-up (spec/70_reset_and_hazards.md R411 to R414) -/

namespace Sys2Proof.Machine

section
variable {s t : State}

/-! #### Operations that are not admitted (R411) -/

/-- An operation of L is refused until INIT has returned OK. -/
theorem outcome_not_admitted {α : Type} {m : M α} (hi : ¬ s.initialised) :
    outcome (do requireInit; m) s = .refused .notInitialised :=
  outcome_of_refuse (M.bind_of_error (requireInit_not hi))

theorem initOnce_ran (h : s.ctx.init ≠ .notRun) : initOnce s = .error (.refuse .reinit) := by
  unfold initOnce
  rw [M.bind_of_ok (M.get_apply s), if_pos h]
  rfl

theorem initOnce_badLayout (h : s.ctx.init = .notRun) (hl : s.params.layoutOk = false) :
    initOnce s = .error (.refuse .regionLayout) := by
  unfold initOnce
  rw [M.bind_of_ok (M.get_apply s), if_neg (not_not.2 h), hl]
  rfl

/-- INIT has begun: it counts as failed until it returns OK (R411). -/
def State.initBegun (s : State) : State := s.updCtx fun c => { c with init := .failed }

theorem initOnce_begun (h : s.ctx.init = .notRun) (hl : s.params.layoutOk = true) :
    initOnce s = (do
      let r ← initCore
      if r = .ok then modifyCtx fun c => { c with init := .done } else pure ()
      pure r : M Result) s.initBegun := by
  unfold initOnce
  rw [M.bind_of_ok (M.get_apply s), if_neg (not_not.2 h), hl]
  rfl

/-- An INIT that ends with an error has failed. -/
theorem execInit_of_err {e : Err} (h : s.ctx.init = .notRun) (hl : s.params.layoutOk = true)
    (hc : initCore s.initBegun = .ok (.err e, t)) : exec .init s = .next (t.setRet (.err e)) := by
  refine outcome_returning_of_ok ((initOnce_begun h hl).trans ?_)
  rw [M.bind_of_ok hc]
  rfl

/-- An INIT that ends with OK is done. -/
theorem execInit_of_ok (h : s.ctx.init = .notRun) (hl : s.params.layoutOk = true)
    (hc : initCore s.initBegun = .ok (.ok, t)) :
    exec .init s = .next ((t.updCtx fun c => { c with init := .done }).setRet .ok) := by
  refine outcome_returning_of_ok ((initOnce_begun h hl).trans ?_)
  rw [M.bind_of_ok hc]
  rfl

/-! #### Registers without a side effect (spec/20_memory.md R76, R77) -/

/-- A register that reads what was last written to it, and whose accesses do nothing else. -/
def Reg.stored : Reg → Bool
  | .depcmd _ => false
  | .gevntcount => false
  | .dctl => false
  | r => !r.readOnly

theorem writeReg_stored {r : Reg} (hr : r.stored = true) (v : Word) (hq : s.quiet) :
    writeReg r v s = .ok (⟨⟩, s.putReg r v) := by
  unfold writeReg
  rw [M.bind_of_ok (othersTurn_quiet hq)]
  cases r <;> cases hr <;> rfl

theorem readReg_stored {r : Reg} (hr : r.stored = true) (hq : s.quiet) : readReg r s = .ok (s.regs.get r, s) := by
  have hn : r ≠ .ghwparams3 := by
    rintro rfl
    cases hr
  rw [← s.regValue_stored hn]
  exact readReg_quiet hq (by cases r <;> cases hr <;> rfl)

theorem writeField_stored {r : Reg} (hr : r.stored = true) (place : RegPlaces → Nat) {k : Nat} (v : BitVec k)
    (hq : s.quiet) :
    writeField r place v s = .ok (⟨⟩, s.putReg r (putField (s.regs.get r) (place s.params.enc.reg) v)) := by
  unfold writeField
  rw [M.bind_of_ok (readReg_stored hr hq), M.bind_of_ok (M.get_apply s)]
  exact writeReg_stored hr _ hq

/-! #### DCTL and the soft reset (R412, R413, spec/10_state.md R36) -/

/-- A field of DCTL is written as it was read, where no soft reset runs. -/
theorem writeField_dctl_idle (place : RegPlaces → Nat) {k : Nat} (v : BitVec k) (hq : s.quiet)
    (hi : s.hw.softReset = .idle) :
    writeField .dctl place v s = writeDctl (putField s.regs.dctl (place s.params.enc.reg) v) s := by
  have hpoll : hBeforeResetPoll s = .ok (⟨⟩, s) := by
    unfold hBeforeResetPoll
    rw [M.bind_of_ok (M.get_apply s), hi]
    rfl
  unfold writeField writeReg
  rw [M.bind_of_ok (readReg_quiet (r := .dctl) hq hpoll), M.bind_of_ok (M.get_apply s), M.bind_of_ok (othersTurn_quiet hq)]
  rfl

/-- A word with CSFTRST = 0 starts no soft reset. -/
theorem writeDctl_clear {v : Word} (hi : s.hw.softReset = .idle) (hb : bit v s.params.enc.reg.csftrst = false) :
    writeDctl v s = .ok (⟨⟩, s.putReg .dctl v) := by
  unfold writeDctl
  rw [M.bind_of_ok (M.get_apply s), hb, if_neg Bool.false_ne_true]
  refine (M.modify_apply _ s).trans ?_
  rw [if_pos hi]

/-- S has set CSFTRST: the soft reset runs, and ends as the next listed image says, if one is listed. -/
def State.resetBegun (s : State) : State :=
  { s with
    regs := { s.regs with dctl := putField s.regs.dctl s.params.enc.reg.csftrst 1#1 }
    hw := { s.hw with softReset := .running s.env.resets.head? }
    env := { s.env with resets := s.env.resets.tail } }

/-- Writing a field twice is writing it once. -/
theorem putField_putField_same (w : Word) (lo : Nat) {n : Nat} (v : BitVec n) (hn : lo + n ≤ 32) :
    putField (putField w lo v) lo v = putField w lo v := by
  have h := putField_field (putField w lo v) lo n hn
  rwa [field_putField_same w lo v hn] at h

theorem drawReset_silent (ho : s.env.isOpen = false) :
    drawReset s = .ok (s.env.resets.head?, s.setEnv { s.env with resets := s.env.resets.tail }) := by
  unfold drawReset
  rw [M.bind_of_ok (M.get_apply s)]
  cases he : s.env.resets with
  | nil =>
    have hs : s.setEnv { s.env with resets := [] } = s := by rw [← he]; rfl
    rw [List.tail_nil, hs, ho]
    rfl
  | cons i is => rfl

/-- Setting CSFTRST starts a soft reset. -/
theorem writeField_csftrst (hq : s.quiet) (hi : s.hw.softReset = .idle) (hp : s.params.enc.reg.csftrst + 1 ≤ 32) :
    writeField .dctl (·.csftrst) 1#1 s = .ok (⟨⟩, s.resetBegun) := by
  have hbit : bit (putField s.regs.dctl s.params.enc.reg.csftrst 1#1) s.params.enc.reg.csftrst = true := by
    rw [bit_putField_same _ _ _ _ hp (by omega), Nat.sub_self]
    rfl
  have hstart : hStartReset s = .ok (⟨⟩, { s with
      hw := { s.hw with softReset := .running s.env.resets.head? }
      env := { s.env with resets := s.env.resets.tail } }) := by
    unfold hStartReset
    rw [M.bind_of_ok (M.get_apply s), hi]
    exact M.bind_of_ok (drawReset_silent hq.2.1)
  rw [writeField_dctl_idle _ _ hq hi]
  unfold writeDctl
  rw [M.bind_of_ok (M.get_apply s), hbit, if_pos rfl, M.bind_of_ok hstart]
  refine (M.modify_apply _ _).trans ?_
  rw [if_neg SoftReset.noConfusion, putField_putField_same _ _ _ hp]
  rfl

/-- The state after a soft reset that ends with an image. -/
def State.softResetDone (s : State) (img : ResetImage) : State :=
  { s with regs := s.regs.afterSoftReset s.params.enc img.regs, hw := Hw.afterSoftReset img.ep }

/-- A soft reset in progress, with the image it will end with, if it will. -/
def State.resetRunning (s : State) (x : Option ResetImage) : State :=
  { s with hw := { s.hw with softReset := .running x } }

/-- A read of DCTL while a soft reset is not due yet. -/
theorem pollReset_notDue {x y : Option ResetImage} {k : Nat} (hq : s.quiet)
    (hb : bit s.regs.dctl s.params.enc.reg.csftrst = true)
    (hx : hBeforeResetPoll (s.resetRunning x) = .ok (⟨⟩, s.resetRunning y)) :
    pollReset (k + 1) (s.resetRunning x) = pollReset k (s.resetRunning y) := by
  have hread : readReg .dctl (s.resetRunning x) = .ok (s.regs.dctl, s.resetRunning y) := by
    unfold readReg
    rw [M.bind_of_ok (othersTurn_quiet (s := s.resetRunning x) hq)]
    exact M.bind_of_ok hx
  rw [pollReset, M.bind_of_ok hread, M.bind_of_ok (M.get_apply _)]
  exact congrFun (if_pos hb) _

/-- Each read that is too early brings the end of the soft reset one read nearer. -/
theorem hBeforeResetPoll_early {i : ResetImage} (hw : i.wait ≠ 0) :
    hBeforeResetPoll (s.resetRunning (some i)) = .ok (⟨⟩, s.resetRunning (some { i with wait := i.wait - 1 })) := by
  unfold hBeforeResetPoll
  rw [M.bind_of_ok (M.get_apply _)]
  simp only [State.resetRunning, if_neg hw]
  rfl

/-- A soft reset that ends within the reads of the poll. -/
theorem pollReset_ends {i : ResetImage} {k : Nat} (hq : s.quiet) (hb : bit s.regs.dctl s.params.enc.reg.csftrst = true)
    (hd : bit (s.softResetDone i).regs.dctl s.params.enc.reg.csftrst = false) (hk : i.wait < k) :
    pollReset k (s.resetRunning (some i)) = .ok (true, s.softResetDone i) := by
  induction k generalizing i with
  | zero => omega
  | succ k ih =>
    by_cases hw : i.wait = 0
    · have hdone : hBeforeResetPoll (s.resetRunning (some i)) = .ok (⟨⟩, s.softResetDone i) := by
        unfold hBeforeResetPoll
        rw [M.bind_of_ok (M.get_apply _)]
        simp only [State.resetRunning, if_pos hw]
        rfl
      have hread : readReg .dctl (s.resetRunning (some i)) = .ok ((s.softResetDone i).regs.dctl, s.softResetDone i) := by
        unfold readReg
        rw [M.bind_of_ok (othersTurn_quiet (s := s.resetRunning (some i)) hq)]
        exact M.bind_of_ok hdone
      unfold pollReset
      rw [M.bind_of_ok hread, M.bind_of_ok (M.get_apply _)]
      show (if bit (s.softResetDone i).regs.dctl s.params.enc.reg.csftrst then _ else _ : M Bool) _ = _
      rw [hd]
      rfl
    · rw [pollReset_notDue hq hb (hBeforeResetPoll_early hw)]
      exact ih (i := { i with wait := i.wait - 1 }) hd (by simp only; omega)

/-- A soft reset that does not end within the reads of the poll runs on. -/
theorem pollReset_late {x : Option ResetImage} {k : Nat} (hq : s.quiet)
    (hb : bit s.regs.dctl s.params.enc.reg.csftrst = true) (hk : ∀ i, x = some i → k ≤ i.wait) :
    ∃ y, pollReset k (s.resetRunning x) = .ok (false, s.resetRunning y) := by
  induction k generalizing x with
  | zero => exact ⟨x, rfl⟩
  | succ k ih =>
    cases x with
    | none =>
      rw [pollReset_notDue (y := none) hq hb rfl]
      exact ih nofun
    | some i =>
      have hi := hk i rfl
      rw [pollReset_notDue hq hb (hBeforeResetPoll_early (by omega))]
      refine ih fun j hj => ?_
      cases hj
      simp only
      omega

end

section
variable {s t : State}

/-! #### Up to the control pair (R412) -/

/-- Silent agents stay silent where a register is written. -/
theorem putReg_quiet {r : Reg} {v : Word} (hq : s.quiet) : (s.putReg r v).quiet := hq

/-- Silent agents stay silent where the context is written. -/
theorem updCtx_quiet {f : Ctx → Ctx} (hq : s.quiet) : (s.updCtx f).quiet := hq

/-- The two PHY words replaced. -/
def State.withPhyWords (s : State) (a b : Word) : State := { s with regs := s.regs.withPhy a b }

theorem withPhyWords_quiet {a b : Word} (hq : s.quiet) : (s.withPhyWords a b).quiet := hq

/-- A PHY_CONFIG that names PHY registers alone leaves every other word. -/
theorem writeAll_phy {l : List (Reg × Word)} (hq : s.quiet) (h : ∀ x ∈ l, x.1.isPhy) :
    ∃ a b, writeAll l s = .ok (⟨⟩, s.withPhyWords a b) := by
  induction l generalizing s with
  | nil => exact ⟨_, _, rfl⟩
  | cons x xs ih =>
    obtain ⟨r, v⟩ := x
    have hr : r.isPhy := h (r, v) (List.mem_cons_self ..)
    obtain ⟨a, b, hw⟩ := ih (s := s.putReg r v) hq fun y hy => h y (List.mem_cons_of_mem _ hy)
    refine ⟨a, b, ?_⟩
    unfold writeAll
    rw [M.bind_of_ok (writeReg_phy v hq hr), hw]
    rcases hr with rfl | rfl <;> rfl

/-- The capabilities read back from GHWPARAMS3 are the launch's (spec/10_state.md R36). -/
theorem capsOf_capsWord {p : Params} (h : p.enc.ok = true) (w : Word) :
    capsOf p.enc.reg (capsWord p w) =
      { numEps := BitVec.ofNat 6 p.numEps, numInEps := BitVec.ofNat 5 p.numInEps, phyType := p.phyType } := by
  have hl : layoutOk [(p.enc.reg.phyIfc, 6), (p.enc.reg.numEps, 6), (p.enc.reg.numInEps, 5)] = true :=
    (Enc.ok_facts h).reg _ (by simp [RegPlaces.layouts])
  obtain ⟨bphy, aphy, hl⟩ := layoutOk_cons hl
  obtain ⟨beps, aeps, hl⟩ := layoutOk_cons hl
  obtain ⟨bin, -, -⟩ := layoutOk_cons hl
  have hpe := aphy (p.enc.reg.numEps, 6) (by simp)
  have hpi := aphy (p.enc.reg.numInEps, 5) (by simp)
  have hei := aeps (p.enc.reg.numInEps, 5) (by simp)
  unfold capsOf capsWord
  congr 1
  · rw [field_putField_apart _ _ _ _ _ bin hei, field_putField_same _ _ _ beps]
  · exact field_putField_same _ _ _ bin
  · rw [field_putField_apart _ _ _ _ _ bin hpi, field_putField_apart _ _ _ _ _ beps hpe, field_putField_same _ _ _ bphy]

/-- The event buffer is registered, empty and unmasked. -/
def State.bufferRegistered (s : State) : State :=
  let g := s.params.global s.params.evtBufAddr
  (({ s with regs := { s.regs with
      gevntadrlo := lo32 g
      gevntadrhi := hi32 g
      gevntsiz := withIntMask s.params.enc.reg
        (putField s.regs.gevntsiz s.params.enc.reg.evtSize (BitVec.ofNat 16 evtBufSize)) false } }).withPending 0).updCtx
    fun c => { c with evt := { c.evt with lpos := 0, count := 0 } }

/-- The low half of a word that holds a halfword. -/
theorem field_zeroExtend (c : BitVec 16) : field (c.zeroExtend 32) 0 16 = c := by
  apply BitVec.eq_of_toNat_eq
  simp only [field, BitVec.extractLsb'_toNat, BitVec.toNat_setWidth, Nat.shiftRight_zero]
  omega

/-- The pending count is acknowledged whole, so that none is left. -/
theorem registerEventBuffer_quiet (hq : s.quiet) : registerEventBuffer s = .ok (⟨⟩, s.bufferRegistered) := by
  unfold registerEventBuffer
  rw [M.bind_of_ok (M.get_apply s), M.bind_of_ok (writeReg_stored (r := .gevntadrlo) rfl _ hq),
    M.bind_of_ok (writeReg_stored (r := .gevntadrhi) rfl _ (putReg_quiet hq)),
    M.bind_of_ok (writeField_stored (r := .gevntsiz) rfl (·.evtSize) _ (putReg_quiet (putReg_quiet hq))),
    M.bind_of_ok (setIntMask_quiet false (putReg_quiet (putReg_quiet (putReg_quiet hq))))]
  generalize hu : State.putReg _ Reg.gevntsiz _ = u
  have huq : u.quiet := by subst hu; exact hq
  have hack : u.withPending (u.pendingBytes - field ((evntCount u.params.enc.reg u.regs.gevntcount).zeroExtend 32) 0 16) =
      u.withPending 0 := by
    rw [field_zeroExtend]
    exact congrArg u.withPending (BitVec.sub_self _)
  have hwrite : writeReg .gevntcount ((evntCount s.params.enc.reg u.regs.gevntcount).zeroExtend 32) u =
      .ok (⟨⟩, u.withPending 0) := by
    rw [← hack, show s.params = u.params by subst hu; rfl]
    exact M.bind_of_ok (othersTurn_quiet huq)
  rw [M.bind_of_ok (readReg_quiet (r := .gevntcount) huq rfl)]
  show (writeReg .gevntcount ((evntCount s.params.enc.reg u.regs.gevntcount).zeroExtend 32) >>= _) u = _
  rw [M.bind_of_ok hwrite, modifyCtx_apply]
  subst hu
  rfl

/-- All that INIT writes between the soft reset and the control pair: the PHY words, the capabilities, the device mode, the
event buffer's registration. -/
def State.coreConfigured (s : State) (a b : Word) : State :=
  (((s.withPhyWords a b).updCtx fun c =>
    { c with caps := some (capsOf s.params.enc.reg (capsWord s.params s.regs.ghwparams3)) }).putReg .gctl
      (putField s.regs.gctl s.params.enc.reg.prtcapdir 2#2)).bufferRegistered

/-- INIT after the soft reset: what is left once the core is configured. -/
theorem configureCore_quiet (hq : s.quiet) (h : ∀ x ∈ s.params.phyConfig, x.1.isPhy) :
    ∃ a b, configureCore s = (do
      let r ← enableEp0Pair
      if r = .ok then do
        startDevice
        disarmTrb0
        pure .ok
      else pure r : M Result) (s.coreConfigured a b) := by
  obtain ⟨a, b, hw⟩ := writeAll_phy hq h
  refine ⟨a, b, ?_⟩
  unfold configureCore
  rw [M.bind_of_ok (M.get_apply s), M.bind_of_ok hw,
    M.bind_of_ok (readReg_quiet (r := .ghwparams3) (withPhyWords_quiet hq) rfl),
    M.bind_of_ok (modifyCtx_apply _ _),
    M.bind_of_ok (writeField_stored (r := .gctl) rfl (·.prtcapdir) _ (updCtx_quiet (withPhyWords_quiet hq))),
    M.bind_of_ok (registerEventBuffer_quiet (putReg_quiet (updCtx_quiet (withPhyWords_quiet hq))))]
  rfl

/-! #### The checks and the soft reset (R412) -/

theorem initCore_wrongCore (hq : s.quiet) (hid : s.params.coreIdOk.contains s.regs.gsnpsid = false) :
    initCore s = .ok (.err .coreId, s) := by
  unfold initCore
  rw [M.bind_of_ok (readReg_quiet (r := .gsnpsid) hq rfl), M.bind_of_ok (M.get_apply s)]
  show (if (!s.params.coreIdOk.contains s.regs.gsnpsid) = true then _ else _ : M Result) s = _
  rw [hid]
  rfl

/-- On an admissible core, what is left is the check of the mode. -/
theorem initCore_rightCore (hq : s.quiet) (hid : s.params.coreIdOk.contains s.regs.gsnpsid = true) :
    initCore s = (if !s.params.modeOk.contains s.regs.ghwparams0 then pure (.err .mode)
      else do
        writeField .dctl (·.csftrst) 1#1
        let done ← pollReset s.params.retryBudget
        if done then configureCore else pure (.err .softResetTimeout) : M Result) s := by
  unfold initCore
  rw [M.bind_of_ok (readReg_quiet (r := .gsnpsid) hq rfl), M.bind_of_ok (M.get_apply s)]
  show (if (!s.params.coreIdOk.contains s.regs.gsnpsid) = true then _ else _ : M Result) s = _
  rw [hid, if_neg (by decide), M.bind_of_ok (readReg_quiet (r := .ghwparams0) hq rfl)]
  rfl

theorem initCore_wrongMode (hq : s.quiet) (hid : s.params.coreIdOk.contains s.regs.gsnpsid = true)
    (hm : s.params.modeOk.contains s.regs.ghwparams0 = false) : initCore s = .ok (.err .mode, s) := by
  rw [initCore_rightCore hq hid, hm]
  rfl

/-- Past both checks, what is left is the soft reset. -/
theorem initCore_reset (hq : s.quiet) (hid : s.params.coreIdOk.contains s.regs.gsnpsid = true)
    (hm : s.params.modeOk.contains s.regs.ghwparams0 = true) (hi : s.hw.softReset = .idle)
    (hp : s.params.enc.reg.csftrst + 1 ≤ 32) :
    initCore s = (do
      let done ← pollReset s.params.retryBudget
      if done then configureCore else pure (.err .softResetTimeout) : M Result) s.resetBegun := by
  rw [initCore_rightCore hq hid, hm]
  exact M.bind_of_ok (writeField_csftrst hq hi hp)

/-- The places of CSFTRST and RUN_STOP in DCTL. -/
theorem dctl_places {enc : Enc} (h : enc.ok = true) :
    enc.reg.csftrst + 1 ≤ 32 ∧ enc.reg.runStop + 1 ≤ 32 ∧
      (enc.reg.csftrst + 1 ≤ enc.reg.runStop ∨ enc.reg.runStop + 1 ≤ enc.reg.csftrst) := by
  have hl : layoutOk [(enc.reg.csftrst, 1), (enc.reg.runStop, 1)] = true :=
    (Enc.ok_facts h).reg _ (by simp [RegPlaces.layouts])
  obtain ⟨hc, ha, hl⟩ := layoutOk_cons hl
  exact ⟨hc, layoutOk_bound hl (enc.reg.runStop, 1) (by simp), ha (enc.reg.runStop, 1) (by simp)⟩

theorem resetBegun_csftrst (he : s.params.enc.ok = true) : bit s.resetBegun.regs.dctl s.params.enc.reg.csftrst = true := by
  obtain ⟨hc, -, -⟩ := dctl_places he
  show bit (putField s.regs.dctl s.params.enc.reg.csftrst 1#1) _ = _
  rw [bit_putField_same _ _ _ _ hc (by omega), Nat.sub_self]
  rfl

/-- After a soft reset CSFTRST and RUN_STOP read 0 (R413). -/
theorem softResetDone_dctl (he : s.params.enc.ok = true) (img : ResetImage) :
    bit (s.softResetDone img).regs.dctl s.params.enc.reg.csftrst = false ∧
      bit (s.softResetDone img).regs.dctl s.params.enc.reg.runStop = false := by
  obtain ⟨hc, hr, ha⟩ := dctl_places he
  show bit (putField (putField img.regs.dctl s.params.enc.reg.csftrst 0#1) s.params.enc.reg.runStop 0#1) _ = _ ∧
    bit (putField (putField img.regs.dctl s.params.enc.reg.csftrst 0#1) s.params.enc.reg.runStop 0#1) _ = _
  rw [bit_putField_apart _ _ _ _ hr (by omega), bit_putField_same _ _ _ _ hc (by omega),
    bit_putField_same _ _ _ _ hr (by omega)]
  exact ⟨BitVec.getLsbD_zero, BitVec.getLsbD_zero⟩

/-- A soft reset that does not end within the retry budget is the result. -/
theorem initCore_resetTimeout (hq : s.quiet) (hid : s.params.coreIdOk.contains s.regs.gsnpsid = true)
    (hm : s.params.modeOk.contains s.regs.ghwparams0 = true) (hi : s.hw.softReset = .idle) (he : s.params.enc.ok = true)
    (hr : ∀ img, s.env.resets.head? = some img → s.params.retryBudget ≤ img.wait) :
    ∃ y, initCore s = .ok (.err .softResetTimeout, s.resetBegun.resetRunning y) := by
  obtain ⟨hc, -, -⟩ := dctl_places he
  obtain ⟨y, hy⟩ := pollReset_late (s := s.resetBegun) (x := s.env.resets.head?) hq (resetBegun_csftrst he) hr
  have hpoll : pollReset s.params.retryBudget s.resetBegun = .ok (false, s.resetBegun.resetRunning y) := hy
  refine ⟨y, ?_⟩
  rw [initCore_reset hq hid hm hi hc, M.bind_of_ok hpoll]
  rfl

/-- A soft reset that ends within the retry budget: what is left is the configuration of the core. -/
theorem initCore_resetEnds {img : ResetImage} {imgs : List ResetImage} (hq : s.quiet)
    (hid : s.params.coreIdOk.contains s.regs.gsnpsid = true) (hm : s.params.modeOk.contains s.regs.ghwparams0 = true)
    (hi : s.hw.softReset = .idle) (he : s.params.enc.ok = true) (hr : s.env.resets = img :: imgs)
    (hw : img.wait < s.params.retryBudget) : initCore s = configureCore (s.resetBegun.softResetDone img) := by
  obtain ⟨hc, -, -⟩ := dctl_places he
  have hbegun : s.resetBegun = s.resetBegun.resetRunning (some img) := by
    unfold State.resetBegun
    rw [hr]
    rfl
  have hpoll : pollReset s.params.retryBudget s.resetBegun = .ok (true, s.resetBegun.softResetDone img) := by
    obtain ⟨hd, -⟩ := softResetDone_dctl (s := s.resetBegun) he img
    refine (congrArg _ hbegun).trans ?_
    exact pollReset_ends hq (resetBegun_csftrst he) hd hw
  rw [initCore_reset hq hid hm hi hc, M.bind_of_ok hpoll]
  rfl

end

section
variable {s t : State} {n : EpIdx} {c : Command} {k : Nat}

/-! #### The commands of the control pair (spec/41_endpoint_lifecycle.md R190 to R194) -/

/-- The commands that configure an endpoint. -/
def configures : Command → Bool
  | .startConfig _ => true
  | .setEpConfig _ => true
  | .setXferResource _ => true
  | _ => false

/-- H at rest: no transfer, no command, no event to report, nothing in the event buffer and no soft reset. -/
structure Hw.Resting (h : Hw) : Prop where
  ep : ∀ n : EpIdx, h.ep[n].xfer = .idle ∧ h.ep[n].cmd = .idle ∧ h.ep[n].owed = none
  wpos : h.wpos = 0
  softReset : h.softReset = .idle

theorem Hw.resting_afterSoftReset (ep : Vector HEp 32) : (Hw.afterSoftReset ep).Resting where
  ep n := by simp [Hw.afterSoftReset, HEp.stopped]
  wpos := rfl
  softReset := rfl

/-- A command that configures an endpoint leaves H at rest. -/
theorem Hw.Resting.performed {h : Hw} (hr : h.Resting) (hc : configures c = true) (a : Answer) :
    (h.performed n c a).Resting := by
  have hset : ∀ x : HEp, x.xfer = h.ep[n].xfer → x.cmd = h.ep[n].cmd → x.owed = h.ep[n].owed →
      ({ h with ep := h.ep.set n x } : Hw).Resting := fun x hx hcmd ho => ⟨fun m => by
    by_cases hm : n.val = m.val
    · obtain rfl : n = m := Fin.ext hm
      simpa [hx, hcmd, ho] using hr.ep n
    · simpa [Vector.getElem_set_ne _ _ hm] using hr.ep m, hr.wpos, hr.softReset⟩
  cases c with
  | startConfig base => exact ⟨hr.ep, hr.wpos, hr.softReset⟩
  | setEpConfig cfg => exact hset _ rfl rfl rfl
  | setXferResource count => exact hset _ rfl rfl rfl
  | _ => cases hc

/-- The state but for what commands change of it: the registers of the commands, H's hidden state and the answers left. -/
def State.afterCommands (s : State) (dep : Vector DepRegs 32) (hw : Hw) (answers : List Answer) : State :=
  { s with regs := { s.regs with dep := dep }, hw := hw, env := { s.env with answers := answers } }

theorem State.afterCommands_afterCommands (s : State) (d e : Vector DepRegs 32) (g h : Hw) (as bs : List Answer) :
    (s.afterCommands d g as).afterCommands e h bs = s.afterCommands e h bs := rfl

/-- What a command that configures an endpoint changes; H stays at rest where it performs it. -/
theorem State.issued_configures (hc : configures c = true) :
    ∃ dep hw, s.issued n c = s.afterCommands dep hw s.env.answers.tail ∧
      (s.performs = true → s.hw.Resting → hw.Resting) := by
  have hh : (s.issued n c).handed = s.handed := by
    unfold State.issued State.commanded
    cases c <;> cases hc <;> cases s.timely <;> rfl
  refine ⟨(s.issued n c).regs.dep, (s.issued n c).hw, ?_, fun hp hr => ?_⟩
  · unfold State.afterCommands
    rw [← hh]
    unfold State.issued State.commanded
    cases s.timely <;> rfl
  · obtain ⟨ht, ha⟩ : s.timely = true ∧ s.nextAnswer.status = s.params.enc.cmd.success := by
      simpa [State.performs] using hp
    have hw : (s.issued n c).hw = s.hw.performed n c s.nextAnswer := by
      unfold State.issued State.commanded
      rw [ht]
      exact if_pos ha
    rw [hw]
    exact hr.performed hc _

/-! #### The five commands in order -/

/-- The commands of the control pair's configuration, in their order, each with its endpoint (R412, R190). -/
def pairCommand (mps : Nat) : Nat → EpIdx × Command
  | 0 => (0, .startConfig (startBase .ep0Pair))
  | 1 => (0, .setEpConfig (confFor 0 .control mps 0))
  | 2 => (0, .setXferResource 1)
  | 3 => (1, .setEpConfig (confFor 1 .control mps 0))
  | _ => (1, .setXferResource 1)

theorem pairCommand_configures (mps k : Nat) : configures (pairCommand mps k).2 = true := by
  unfold pairCommand
  split <;> rfl

/-- The endpoint of each is one of the pair. -/
theorem pairCommand_ep (mps k : Nat) : (pairCommand mps k).1.val < 2 := by
  unfold pairCommand
  split <;> simp

/-- What S records once one of them has succeeded. -/
def State.pairRecord (s : State) (mps : Nat) : Nat → State
  | 0 => s.updCtx fun c => { c with ep0Started := true }
  | 1 => s.updEp 0 fun e => { e with mps := some (BitVec.ofNat 11 mps), type := some .control }
  | 2 => s.markEnabled 0
  | 3 => s.updEp 1 fun e => { e with mps := some (BitVec.ofNat 11 mps), type := some .control }
  | _ => s.markEnabled 1

/-- The records once the first `k` of them have succeeded. -/
def State.pairRecorded (s : State) (mps : Nat) : Nat → State
  | 0 => s
  | k + 1 => (s.pairRecorded mps k).pairRecord mps k

/-- The state once the first `k` of them have been issued and recorded as succeeding. -/
def State.pairIssued (s : State) (mps : Nat) : Nat → State
  | 0 => s
  | k + 1 => ((s.pairIssued mps k).issued (pairCommand mps k).1 (pairCommand mps k).2).pairRecord mps k

/-- S's records are no part of what commands change. -/
theorem State.pairRecord_afterCommands (s : State) (mps k : Nat) (dep : Vector DepRegs 32) (hw : Hw) (as : List Answer) :
    (s.afterCommands dep hw as).pairRecord mps k = (s.pairRecord mps k).afterCommands dep hw as := by
  unfold State.pairRecord
  split <;> rfl

/-- The records leave the launch and the environment alone. -/
theorem State.pairRecorded_frame (s : State) (mps k : Nat) :
    (s.pairRecorded mps k).params = s.params ∧ (s.pairRecorded mps k).env = s.env := by
  induction k with
  | zero => exact ⟨rfl, rfl⟩
  | succ k ih =>
    have h : ∀ u : State, (u.pairRecord mps k).params = u.params ∧ (u.pairRecord mps k).env = u.env := fun u => by
      unfold State.pairRecord
      split <;> exact ⟨rfl, rfl⟩
    exact ⟨(h _).1.trans ih.1, (h _).2.trans ih.2⟩

/-- An answer that performs a command in time. -/
abbrev Answer.grants (p : Params) (a : Answer) : Prop := a.status = p.enc.cmd.success ∧ a.wait < p.retryBudget

section
variable {mps : Nat} {good bad : List Answer}

/-- The answer after `k` granting ones grants the next command, where it is one of them. -/
theorem State.performs_afterCommands {dep : Vector DepRegs 32} {hw : Hw} (hg : ∀ a ∈ good, a.grants s.params)
    (hk : k < good.length) : (s.afterCommands dep hw (good.drop k ++ bad)).performs = true := by
  obtain ⟨hs, hw⟩ := hg _ (List.getElem_mem hk)
  rw [List.drop_eq_getElem_cons hk, List.cons_append]
  generalize good[k] = a at hs hw
  simp [State.performs, State.timely, State.nextAnswer, State.afterCommands, hs, hw]

/-- After the first `k` commands, each of them granted, the state is the one before them, but for the records and for what
commands change. -/
theorem State.pairIssued_eq (ha : s.env.answers = good ++ bad) (hg : ∀ a ∈ good, a.grants s.params) (hr : s.hw.Resting)
    (hk : k ≤ good.length) :
    ∃ dep hw, s.pairIssued mps k = (s.pairRecorded mps k).afterCommands dep hw (good.drop k ++ bad) ∧ hw.Resting := by
  induction k with
  | zero => exact ⟨s.regs.dep, s.hw, by rw [List.drop_zero, ← ha]; rfl, hr⟩
  | succ k ih =>
    obtain ⟨dep, hw, he, hrest⟩ := ih (by omega)
    obtain ⟨hp, -⟩ := s.pairRecorded_frame mps k
    obtain ⟨dep', hw', hi, hkeep⟩ := State.issued_configures (s := s.pairIssued mps k) (n := (pairCommand mps k).1)
      (pairCommand_configures mps k)
    rw [he] at hi hkeep
    refine ⟨dep', hw', ?_, hkeep (State.performs_afterCommands (hp ▸ hg) hk) hrest⟩
    have htail : (good.drop k ++ bad).tail = good.drop (k + 1) ++ bad := by
      rw [List.drop_eq_getElem_cons hk]
      rfl
    unfold State.pairIssued State.pairRecorded
    rw [he, hi, State.afterCommands_afterCommands, State.pairRecord_afterCommands, ← htail]
    rfl

end

/-! #### Both halves of the pair -/

/-- What the configuration of the control pair needs: silent agents, H at rest, a launch within its bounds, and records that
say neither that it was started nor that it is enabled; and the answers, of which the first ones grant. -/
structure State.PairReady (s : State) (good bad : List Answer) : Prop where
  quiet : s.quiet
  phy : phyMaskOk s.params
  bounds : s.params.boundsOk = true
  resting : s.hw.Resting
  started : s.ctx.ep0Started = false
  disabled0 : s.ep[(0 : EpIdx)].enabled = false
  disabled1 : s.ep[(1 : EpIdx)].enabled = false
  answers : s.env.answers = good ++ bad
  grants : ∀ a ∈ good, a.grants s.params

/-- Bounds that concern the control pair (spec/00_scope.md R7). -/
theorem pair_bounds {p : Params} (h : p.boundsOk = true) : 2 ≤ p.numEps ∧ 1 ≤ p.ep0Mps ∧ p.ep0Mps ≤ 2047 := by
  simp only [Params.boundsOk, Bool.and_eq_true, decide_eq_true_eq] at h
  obtain ⟨⟨⟨⟨⟨⟨⟨h2, -⟩, h1⟩, hm⟩, -⟩, -⟩, -⟩, -⟩ := h
  exact ⟨h2, h1, hm⟩

section
variable {good bad : List Answer}

/-- Where the commands before it were granted, S can issue the next one. -/
theorem State.PairReady.commandable (h : s.PairReady good bad) (mps : Nat) (hk : k ≤ good.length) :
    (s.pairIssued mps k).commandable (pairCommand mps k).1 (pairCommand mps k).2 := by
  obtain ⟨dep, hw, he, hrest⟩ := State.pairIssued_eq (mps := mps) h.answers h.grants h.resting hk
  obtain ⟨hp, henv⟩ := s.pairRecorded_frame mps k
  obtain ⟨h2, -, -⟩ := pair_bounds h.bounds
  have hq : (s.pairRecorded mps k).quiet := by
    unfold State.quiet
    rw [henv]
    exact h.quiet
  have hn : (pairCommand mps k).1.val < (s.pairRecorded mps k).params.numEps := by
    rw [hp]
    exact (pairCommand_ep mps k).trans_le h2
  obtain ⟨-, hidle, -⟩ := hrest.ep (pairCommand mps k).1
  rw [he]
  refine ⟨⟨hq, hp ▸ h.phy, hn, hidle, hp ▸ enc_ok_of_boundsOk h.bounds⟩, fun _ => ?_⟩
  have hc := pairCommand_configures mps k
  generalize (pairCommand mps k).2 = c at hc
  cases c <;> cases hc <;> rfl

/-- Where the answers begin with more granting ones, the next one is granted too. -/
theorem State.PairReady.granted (h : s.PairReady good bad) (mps : Nat) (hk : k < good.length) :
    (s.pairIssued mps k).granted (pairCommand mps k).1 (pairCommand mps k).2 := by
  obtain ⟨dep, hw, he, -⟩ := State.pairIssued_eq (mps := mps) h.answers h.grants h.resting hk.le
  obtain ⟨hp, -⟩ := s.pairRecorded_frame mps k
  refine ⟨h.commandable mps hk.le, ?_⟩
  rw [he]
  exact State.performs_afterCommands (hp ▸ h.grants) hk

end

end

section
variable {s t : State} {mps : Nat} {good bad : List Answer}

/-! #### ENABLE of each half -/

/-- ENABLE of an endpoint of the pair passes its checks. -/
theorem enable_pair {u : State} {n : EpIdx} {dir : Dir} (h : s.PairReady good bad) (hm : s.params.ep0Mps = mps)
    (hu : u.params = s.params) (hv : n.val = 0 * 2 + dirBit dir) :
    enable 0 dir .control mps 0 u = enableSteps n .control mps 0 u := by
  obtain ⟨h2, hm1, hm2⟩ := pair_bounds h.bounds
  have hn : n.val < u.params.numEps := by
    rw [hu, hv]
    have hd : dirBit dir ≤ 1 := by cases dir <;> decide
    omega
  exact enable_checked (logicalEp_eq_some hv (by decide) hn) nofun (by decide) (hm ▸ hm1) (hm ▸ hm2)

/-- Step 1 on the first endpoint of the pair is the first command. -/
theorem groupReady_zero (hs : s.ctx.ep0Started = false) : s.groupReady 0 = s.pairIssued mps 1 := by
  have hg : ¬ s.ctx.groupStarted 0 = true := by
    show ¬ s.ctx.ep0Started = true
    rw [hs]
    decide
  exact if_neg hg

/-- The group is started once it has succeeded, so that step 1 does nothing on the second. -/
theorem groupReady_one (s : State) (mps : Nat) : (s.pairIssued mps 3).groupReady 1 = s.pairIssued mps 3 := if_pos rfl

/-- Step 3 on an endpoint of the pair that is not enabled yet. -/
theorem firstEnabled_pair {u : State} {n : EpIdx} (hn : n.val < 2) (he : u.ep[n].enabled = false) :
    u.firstEnabled n = (u.issued n (.setXferResource 1)).markEnabled n := by
  unfold State.firstEnabled
  rw [he, if_neg Bool.false_ne_true, if_neg (by omega)]

theorem pairIssued_disabled (h0 : s.ep[(0 : EpIdx)].enabled = false) (h1 : s.ep[(1 : EpIdx)].enabled = false) :
    (s.pairIssued mps 2).ep[(0 : EpIdx)].enabled = false ∧ (s.pairIssued mps 4).ep[(1 : EpIdx)].enabled = false := by
  have h01 : (0 : EpIdx) ≠ 1 := by decide
  refine ⟨(congrArg Ep.enabled (State.updEp_same ..)).trans h0, (congrArg Ep.enabled (State.updEp_same ..)).trans ?_⟩
  have h3 : (s.pairIssued mps 3).ep[(1 : EpIdx)] = (s.pairIssued mps 2).ep[(1 : EpIdx)] := State.updEp_other _ _ _ _ h01
  have h2 : (s.pairIssued mps 2).ep[(1 : EpIdx)] = s.ep[(1 : EpIdx)] := State.updEp_other _ _ _ _ h01
  exact (congrArg Ep.enabled (h3.trans h2)).trans h1

/-- Step 1 of ENABLE of EP0-OUT issues the first command, which is granted. -/
theorem start_granted (h : s.PairReady good bad) (hk : 0 < good.length) :
    s.ctx.groupStarted 0 = false → s.granted 0 (.startConfig (startBase (groupOf 0))) :=
  fun _ => h.granted 0 hk

/-- Step 1 of ENABLE of EP0-IN issues none. -/
theorem start_done (s : State) (mps : Nat) : (s.pairIssued mps 3).ctx.groupStarted 1 = false →
    (s.pairIssued mps 3).granted 0 (.startConfig (startBase (groupOf 1))) := nofun

/-- Steps 1 and 2 of ENABLE of EP0-OUT, with both commands granted. -/
theorem enableSteps_out (h : s.PairReady good bad) (hk : 1 < good.length) :
    enableSteps 0 .control mps 0 s = enableFirst 0 (s.pairIssued mps 2) := by
  have hready : s.groupReady 0 = s.pairIssued mps 1 := groupReady_zero h.started
  rw [enableSteps_configured (start_granted h (by omega)) (by rw [hready]; exact h.granted mps hk), hready]
  rfl

/-- Steps 1 and 2 of ENABLE of EP0-IN, with its command granted. -/
theorem enableSteps_in (h : s.PairReady good bad) (hk : 3 < good.length) :
    enableSteps 1 .control mps 0 (s.pairIssued mps 3) = enableFirst 1 (s.pairIssued mps 4) := by
  have hready := groupReady_one s mps
  rw [enableSteps_configured (start_done s mps) (by rw [hready]; exact h.granted mps hk), hready]
  rfl

/-- ENABLE of EP0-OUT ends at the first of its three commands that H does not perform. -/
theorem enableOut_stops {k : Nat} (h : s.PairReady good bad) (hm : s.params.ep0Mps = mps) (hlen : good.length = k)
    (hk : k < 3) (hp : (s.pairIssued mps k).performs = false) :
    enable 0 .out .control mps 0 s =
      .ok ((s.pairIssued mps k).commandResult (pairCommand mps k).2,
        (s.pairIssued mps k).issued (pairCommand mps k).1 (pairCommand mps k).2) := by
  obtain ⟨hd, -⟩ := pairIssued_disabled (mps := mps) h.disabled0 h.disabled1
  have hready : s.groupReady 0 = s.pairIssued mps 1 := groupReady_zero h.started
  have hc := h.commandable mps hlen.ge
  rw [enable_pair (n := 0) h hm rfl rfl]
  match k, hk with
  | 0, _ => exact enableSteps_start_not_performed h.started hc hp
  | 1, _ =>
    rw [enableSteps_config_not_performed (start_granted h (by omega)) (by rw [hready]; exact hc) (by rw [hready]; exact hp),
      hready]
    rfl
  | 2, _ =>
    rw [enableSteps_out h (by omega)]
    exact enableFirst_not_performed hd hc hp

/-- ENABLE of EP0-OUT with its three commands granted. -/
theorem enableOut_completes (h : s.PairReady good bad) (hm : s.params.ep0Mps = mps) (hk : 3 ≤ good.length) :
    enable 0 .out .control mps 0 s = .ok (.ok, s.pairIssued mps 3) := by
  obtain ⟨hd, -⟩ := pairIssued_disabled (mps := mps) h.disabled0 h.disabled1
  rw [enable_pair (n := 0) h hm rfl rfl, enableSteps_out h (by omega),
    enableFirst_granted (n := 0) fun _ => ⟨h.granted mps (k := 2) (by omega), fun h => absurd h (by decide)⟩,
    firstEnabled_pair Nat.zero_lt_two hd]
  rfl

/-- ENABLE of EP0-IN ends at the first of its two commands that H does not perform. -/
theorem enableIn_stops {k : Nat} (h : s.PairReady good bad) (hm : s.params.ep0Mps = mps) (hlen : good.length = k)
    (h3 : 3 ≤ k) (hk : k < 5) (hp : (s.pairIssued mps k).performs = false) :
    enable 0 .inp .control mps 0 (s.pairIssued mps 3) =
      .ok ((s.pairIssued mps k).commandResult (pairCommand mps k).2,
        (s.pairIssued mps k).issued (pairCommand mps k).1 (pairCommand mps k).2) := by
  obtain ⟨-, hd⟩ := pairIssued_disabled (mps := mps) h.disabled0 h.disabled1
  have hready := groupReady_one s mps
  have hc := h.commandable mps hlen.ge
  rw [enable_pair (u := s.pairIssued mps 3) (n := 1) h hm rfl rfl]
  match k, h3, hk with
  | 3, _, _ =>
    rw [enableSteps_config_not_performed (start_done s mps) (by rw [hready]; exact hc) (by rw [hready]; exact hp), hready]
    rfl
  | 4, _, _ =>
    rw [enableSteps_in h (by omega)]
    exact enableFirst_not_performed hd hc hp

/-- ENABLE of EP0-IN with its two commands granted. -/
theorem enableIn_completes (h : s.PairReady good bad) (hm : s.params.ep0Mps = mps) (hk : 5 ≤ good.length) :
    enable 0 .inp .control mps 0 (s.pairIssued mps 3) = .ok (.ok, s.pairIssued mps 5) := by
  obtain ⟨-, hd⟩ := pairIssued_disabled (mps := mps) h.disabled0 h.disabled1
  rw [enable_pair (u := s.pairIssued mps 3) (n := 1) h hm rfl rfl, enableSteps_in h (by omega),
    enableFirst_granted (n := 1) fun _ => ⟨h.granted mps (k := 4) (by omega), fun h => absurd h (by decide)⟩,
    firstEnabled_pair Nat.one_lt_two hd]
  rfl

/-! #### The configuration of the pair (R412) -/

/-- The result is that of the first command that H does not perform. -/
theorem enableEp0Pair_stops {k : Nat} (h : s.PairReady good bad) (hm : s.params.ep0Mps = mps) (hlen : good.length = k)
    (hk : k < 5) (hp : (s.pairIssued mps k).performs = false) :
    enableEp0Pair s =
      .ok ((s.pairIssued mps k).commandResult (pairCommand mps k).2,
        (s.pairIssued mps k).issued (pairCommand mps k).1 (pairCommand mps k).2) := by
  unfold enableEp0Pair
  rw [M.bind_of_ok (M.get_apply s), hm]
  by_cases h3 : k < 3
  · rw [M.bind_of_ok (enableOut_stops h hm hlen h3 hp), if_neg (State.commandResult_ne_ok hp)]
    rfl
  · rw [M.bind_of_ok (enableOut_completes h hm (by omega)), if_pos rfl]
    exact enableIn_stops h hm hlen (by omega) hk hp

theorem enableEp0Pair_completes (h : s.PairReady good bad) (hm : s.params.ep0Mps = mps) (hk : 5 ≤ good.length) :
    enableEp0Pair s = .ok (.ok, s.pairIssued mps 5) := by
  unfold enableEp0Pair
  rw [M.bind_of_ok (M.get_apply s), hm, M.bind_of_ok (enableOut_completes h hm (by omega)), if_pos rfl]
  exact enableIn_completes h hm hk

/-- The answers after the granting ones that end INIT, and with which error: none at all, one that comes too late, or one
with another status (spec/40_command_dispatcher.md R152, R153). -/
abbrev endsWith (p : Params) (bad : List Answer) (e : Err) : Prop :=
  (bad = [] ∧ e = .timeout) ∨ ∃ (a : Answer) (as : List Answer), bad = a :: as ∧
    ((p.retryBudget ≤ a.wait ∧ e = .timeout) ∨
      (a.wait < p.retryBudget ∧ a.status ≠ p.enc.cmd.success ∧ e = statusError p.enc.cmd a.status))

/-- A command that such an answer meets is not performed, and has that error. -/
theorem commandResult_endsWith {c : Command} {e : Err} (ha : s.env.answers = bad) (h : endsWith s.params bad e) :
    s.performs = false ∧ s.commandResult c = .err e := by
  rcases h with ⟨rfl, rfl⟩ | ⟨a, as, rfl, ⟨hw, rfl⟩ | ⟨hw, hs, rfl⟩⟩
  · have ht : s.timely = false := by simp [State.timely, ha]
    exact ⟨State.performs_of_not_timely ht, State.commandResult_not_timely ht⟩
  · have ht : s.timely = false := by simp [State.timely, State.nextAnswer, ha, hw]
    exact ⟨State.performs_of_not_timely ht, State.commandResult_not_timely ht⟩
  · simp [State.performs, State.commandResult, State.timely, State.nextAnswer, answerResult, ha, hw, hs]

/-- The configuration of the pair that fails: the error, the records of the commands that were granted, and what the
commands changed. -/
theorem enableEp0Pair_fails {e : Err} (h : s.PairReady good bad) (hk : good.length < 5) (hb : endsWith s.params bad e) :
    ∃ dep hw as, enableEp0Pair s =
      .ok (.err e, (s.pairRecorded s.params.ep0Mps good.length).afterCommands dep hw as) := by
  generalize hm : s.params.ep0Mps = mps
  obtain ⟨dep, hw, he, -⟩ := State.pairIssued_eq (mps := mps) h.answers h.grants h.resting le_rfl
  obtain ⟨hpar, -⟩ := s.pairRecorded_frame mps good.length
  obtain ⟨hp, hr⟩ := commandResult_endsWith (s := s.pairIssued mps good.length) (bad := bad) (e := e)
    (c := (pairCommand mps good.length).2) (by rw [he, List.drop_length]; rfl)
    (by rw [he, show (State.afterCommands _ dep hw _).params = s.params from hpar]; exact hb)
  obtain ⟨dep', hw', hi, -⟩ := State.issued_configures (s := s.pairIssued mps good.length)
    (n := (pairCommand mps good.length).1) (pairCommand_configures mps good.length)
  refine ⟨dep', hw', (s.pairIssued mps good.length).env.answers.tail, ?_⟩
  rw [enableEp0Pair_stops h hm rfl hk hp, hr, hi, he]
  rfl

/-- The configuration of the pair that succeeds. -/
theorem enableEp0Pair_succeeds (h : s.PairReady good bad) (hk : good.length = 5) :
    ∃ dep hw, enableEp0Pair s = .ok (.ok, (s.pairRecorded s.params.ep0Mps 5).afterCommands dep hw bad) ∧ hw.Resting := by
  obtain ⟨dep, hw, he, hrest⟩ := State.pairIssued_eq (mps := s.params.ep0Mps) h.answers h.grants h.resting hk.ge
  rw [← hk, List.drop_length, List.nil_append, hk] at he
  exact ⟨dep, hw, by rw [enableEp0Pair_completes h rfl hk.ge, he], hrest⟩

end

section
variable {s t : State}

/-! #### The EP0 TRB at the end (R414, spec/10_state.md R22) -/

/-- Filling gives no byte's value away. -/
theorem Memory.read1_fill_isSome {m : Memory} {g : GAddr} {bs : List Byte} {x : Nat} (h : (m.read1 x).isSome) :
    ((m.fill g bs).read1 x).isSome := by
  induction bs generalizing m g with
  | nil => exact h
  | cons b bs ih =>
    refine ih ?_
    split
    · exact h
    · by_cases hx : x = g.toNat
      · rw [hx, Memory.read1_write1_same]
        rfl
      · rwa [Memory.read1_write1_other _ _ _ _ hx]

/-- Every byte that is filled holds a value. -/
theorem Memory.read1_filled {m : Memory} {g : GAddr} {bs : List Byte} {i : Nat} (hi : i < bs.length) :
    ((m.fill g bs).read1 (g + BitVec.ofNat 64 i).toNat).isSome := by
  induction bs generalizing m g i with
  | nil => cases hi
  | cons b bs ih =>
    cases i with
    | zero =>
      rw [show g + BitVec.ofNat 64 0 = g by simp]
      unfold Memory.fill
      cases hv : m.read1 g.toNat with
      | none => exact Memory.read1_fill_isSome (by rw [Memory.read1_write1_same]; rfl)
      | some v => exact Memory.read1_fill_isSome (by rw [hv]; rfl)
    | succ i =>
      rw [show g + BitVec.ofNat 64 (i + 1) = g + 1 + BitVec.ofNat 64 i by rw [BitVec.ofNat_add]; ac_rfl]
      exact ih (Nat.lt_of_succ_lt_succ hi)

/-- Every word of a TRB that is filled holds a value. -/
theorem Memory.readWord_filled (m : Memory) (g : GAddr) (t : TrbWords) {i : Nat} (hi : i < 4) :
    ∃ w, (m.fill g t.bytes).readWord (g + BitVec.ofNat 64 (4 * i)) = some w := by
  have hb : ∀ j < 16, ∃ v, (m.fill g t.bytes).read1 (g + BitVec.ofNat 64 j).toNat = some v := fun j hj =>
    Option.isSome_iff_exists.1 (Memory.read1_filled (bs := t.bytes) hj)
  obtain ⟨v0, h0⟩ := hb (4 * i) (by omega)
  obtain ⟨v1, h1⟩ := hb (4 * i + 1) (by omega)
  obtain ⟨v2, h2⟩ := hb (4 * i + 2) (by omega)
  obtain ⟨v3, h3⟩ := hb (4 * i + 3) (by omega)
  rw [BitVec.ofNat_add, ← BitVec.add_assoc] at h1 h2 h3
  refine ⟨wordOfBytes v0 v1 v2 v3, ?_⟩
  unfold Memory.readWord
  rw [h0, show (1 : GAddr) = BitVec.ofNat 64 1 from rfl, h1, show (2 : GAddr) = BitVec.ofNat 64 2 from rfl, h2,
    show (3 : GAddr) = BitVec.ofNat 64 3 from rfl, h3]

/-- A TRB that is not armed: the HWO bit of its control word reads 0. -/
theorem Memory.readWord_disarm {enc : Enc} (he : enc.ok = true) (m : Memory) (g : GAddr) (free : TrbWords) :
    ∃ w, (m.disarm enc.trb g free).readWord (g + BitVec.ofNat 64 enc.trb.controlAt) = some w ∧
      bit w (enc.trb.hwo % 32) = false := by
  have hin : enc.trb.hwo < 128 := (Enc.ok_facts he).trbInside (enc.trb.hwo, 1) (by simp [TrbEnc.layout])
  obtain ⟨w, hw⟩ := m.readWord_filled g free (i := enc.trb.hwo / 32) (by omega)
  have hd : m.disarm enc.trb g free =
      (m.fill g free.bytes).writeWord (g + BitVec.ofNat 64 enc.trb.controlAt) (released enc.trb w) := by
    unfold Memory.disarm TrbEnc.controlAt
    simp only [hw]
  refine ⟨released enc.trb w, by rw [hd, Memory.readWord_writeWord], ?_⟩
  unfold released
  rw [bit_putField_same _ _ _ _ (by omega) (by omega)]
  exact BitVec.getLsbD_zero

/-- Past the commands the EP0 TRB is disarmed, with the next free value where it held none. -/
def State.trb0Disarmed (s : State) : State :=
  (s.setEnv { s.env with ctr := s.env.ctr + 1 }).setMem
    (s.mem.disarm s.params.enc.trb (s.params.global s.params.ep0TrbAddr) (Config.freeTrb0 s.env.ctr))

/-- What is left in memory rests on memory, the launch and the number of the free value. -/
theorem State.trb0Disarmed_mem {u : State} (hp : u.params = s.params) (hm : u.mem = s.mem) (hc : u.env.ctr = s.env.ctr) :
    u.trb0Disarmed.mem =
      s.mem.disarm s.params.enc.trb (s.params.global s.params.ep0TrbAddr) (Config.freeTrb0 s.env.ctr) := by
  rw [← hp, ← hm, ← hc, State.trb0Disarmed, State.setMem_mem]

theorem disarmTrb0_apply (s : State) : disarmTrb0 s = .ok (⟨⟩, s.trb0Disarmed) := rfl

/-! #### The last writes (R412) -/

/-- The device events are enabled, RUN_STOP is set, and the EP0 state is UNCONNECTED. -/
def State.deviceStarted (s : State) : State :=
  ((s.putReg .devten (devtenAll s.params.enc.reg)).putReg .dctl
    (putField s.regs.dctl s.params.enc.reg.runStop 1#1)).updCtx fun c => { c with ep0State := .unconnected }

theorem startDevice_quiet (hq : s.quiet) (hi : s.hw.softReset = .idle) (he : s.params.enc.ok = true)
    (hb : bit s.regs.dctl s.params.enc.reg.csftrst = false) : startDevice s = .ok (⟨⟩, s.deviceStarted) := by
  obtain ⟨-, hr, ha⟩ := dctl_places he
  have hclear : bit (putField s.regs.dctl s.params.enc.reg.runStop 1#1) s.params.enc.reg.csftrst = false := by
    rw [bit_putField_apart _ _ _ _ hr (by omega), hb]
  unfold startDevice
  rw [M.bind_of_ok (M.get_apply s), M.bind_of_ok (writeReg_stored (r := .devten) rfl _ hq)]
  refine M.bind_of_ok ((writeField_dctl_idle (·.runStop) 1#1 (putReg_quiet hq) hi).trans (writeDctl_clear hi hclear))

/-! #### The whole of INIT (R412) -/

/-- The registers in which INIT begins the configuration of the control pair, the soft reset having ended with an image. -/
structure Regs.CoreUp (p : Params) (img : ResetImage) (r : Regs) : Prop where
  dalepena : r.dalepena = 0
  devten : r.devten = img.regs.devten
  csftrst : bit r.dctl p.enc.reg.csftrst = false
  runStop : bit r.dctl p.enc.reg.runStop = false
  devaddr : field r.dcfg p.enc.reg.devaddr 7 = 0
  prtcapdir : field r.gctl p.enc.reg.prtcapdir 2 = 2
  bufferLow : r.gevntadrlo = lo32 (p.global p.evtBufAddr)
  bufferHigh : r.gevntadrhi = hi32 (p.global p.evtBufAddr)
  bufferSize : (field r.gevntsiz p.enc.reg.evtSize 16).toNat = evtBufSize
  unmasked : bit r.gevntsiz p.enc.reg.intMask = false
  drained : evntCount p.enc.reg r.gevntcount = 0

/-- The state in which it does. -/
def State.coreUp (s : State) (img : ResetImage) (r : Regs) : State :=
  { s with
    ctx := { s.ctx with
      init := .failed
      caps := some { numEps := BitVec.ofNat 6 s.params.numEps, numInEps := BitVec.ofNat 5 s.params.numInEps,
                     phyType := s.params.phyType }
      evt := { s.ctx.evt with lpos := 0, count := 0 } }
    regs := r
    hw := Hw.afterSoftReset img.ep
    env := { s.env with resets := s.env.resets.tail } }

/-- The fields of the event buffer's registers once it is registered. -/
theorem bufferRegistered_fields (he : s.params.enc.ok = true) :
    (field s.bufferRegistered.regs.gevntsiz s.params.enc.reg.evtSize 16).toNat = evtBufSize ∧
      bit s.bufferRegistered.regs.gevntsiz s.params.enc.reg.intMask = false := by
  have hl : layoutOk [(s.params.enc.reg.evtSize, 16), (s.params.enc.reg.intMask, 1)] = true :=
    (Enc.ok_facts he).reg _ (by simp [RegPlaces.layouts])
  obtain ⟨bsize, hapart, hl⟩ := layoutOk_cons hl
  have bmask : s.params.enc.reg.intMask + 1 ≤ 32 := layoutOk_bound hl (s.params.enc.reg.intMask, 1) (by simp)
  have hword : s.bufferRegistered.regs.gevntsiz =
      putField (putField s.regs.gevntsiz s.params.enc.reg.evtSize (BitVec.ofNat 16 evtBufSize)) s.params.enc.reg.intMask
        (BitVec.ofBool false) := rfl
  constructor
  · rw [hword, field_putField_apart _ _ _ _ _ bmask (hapart (s.params.enc.reg.intMask, 1) (by simp)),
      field_putField_same _ _ _ bsize]
    rfl
  · rw [hword, bit_putField_same _ _ _ _ bmask ⟨le_rfl, Nat.lt_succ_self _⟩, Nat.sub_self]
    rfl

/-- What the soft reset fixes and what INIT writes after it, register by register (R412, R413). -/
theorem coreUp_coreConfigured (he : s.params.enc.ok = true) (img : ResetImage) (a b : Word) :
    ((s.softResetDone img).coreConfigured a b).regs.CoreUp s.params img := by
  have hreg := (Enc.ok_facts he).reg
  have hdcfg : layoutOk [(s.params.enc.reg.devspd, 3), (s.params.enc.reg.devaddr, 7), (s.params.enc.reg.lpmcap, 1)] = true :=
    hreg _ (by simp [RegPlaces.layouts])
  have hgctl : layoutOk [(s.params.enc.reg.prtcapdir, 2)] = true := hreg _ (by simp [RegPlaces.layouts])
  obtain ⟨hclear, hstop⟩ := softResetDone_dctl he img
  obtain ⟨hsize, hmask⟩ := bufferRegistered_fields
    (s := (((s.softResetDone img).withPhyWords a b).updCtx _).putReg .gctl _) he
  exact {
    dalepena := rfl
    devten := rfl
    csftrst := hclear
    runStop := hstop
    devaddr := field_putField_same _ _ _ (layoutOk_bound hdcfg (s.params.enc.reg.devaddr, 7) (by simp))
    prtcapdir := field_putField_same _ _ _ (layoutOk_bound hgctl (s.params.enc.reg.prtcapdir, 2) (by simp))
    bufferLow := rfl
    bufferHigh := rfl
    bufferSize := hsize
    unmasked := hmask
    drained := State.withPending_pendingBytes (s := s.softResetDone img) he 0 }

/-- The soft reset, and a PHY_CONFIG that names PHY registers alone, leave INIT with the control pair to configure. -/
theorem initCore_coreUp {img : ResetImage} {imgs : List ResetImage} (hq : s.quiet)
    (hphy : ∀ x ∈ s.params.phyConfig, x.1.isPhy) (hid : s.params.coreIdOk.contains s.regs.gsnpsid = true)
    (hm : s.params.modeOk.contains s.regs.ghwparams0 = true) (hi : s.hw.softReset = .idle) (he : s.params.enc.ok = true)
    (hr : s.env.resets = img :: imgs) (hw : img.wait < s.params.retryBudget) :
    ∃ r : Regs, r.CoreUp s.params img ∧ initCore s.initBegun = (do
      let r ← enableEp0Pair
      if r = .ok then do
        startDevice
        disarmTrb0
        pure .ok
      else pure r : M Result) (s.coreUp img r) := by
  obtain ⟨a, b, hc⟩ := configureCore_quiet (s := s.initBegun.resetBegun.softResetDone img) hq hphy
  refine ⟨_, coreUp_coreConfigured (s := s.initBegun.resetBegun) he img a b, ?_⟩
  have hstate : s.coreUp img ((s.initBegun.resetBegun.softResetDone img).coreConfigured a b).regs =
      (s.initBegun.resetBegun.softResetDone img).coreConfigured a b := by
    unfold State.coreUp
    rw [← capsOf_capsWord he s.regs.ghwparams3]
    rfl
  rw [hstate, initCore_resetEnds (s := s.initBegun) hq hid hm hi he hr hw]
  exact hc

/-- The soft reset has left the control pair ready to be configured. -/
theorem pairReady_coreUp {img : ResetImage} {good bad : List Answer} (r : Regs) (hq : s.quiet) (hp : phyMaskOk s.params)
    (hb : s.params.boundsOk = true) (ha : s.env.answers = good ++ bad) (hg : ∀ x ∈ good, x.grants s.params)
    (hs : s.ctx.ep0Started = false) (h0 : s.ep[(0 : EpIdx)].enabled = false) (h1 : s.ep[(1 : EpIdx)].enabled = false) :
    (s.coreUp img r).PairReady good bad :=
  ⟨hq, hp, hb, Hw.resting_afterSoftReset img.ep, hs, h0, h1, ha, hg⟩

/-- RUN_STOP is set last, and CSFTRST stays 0. -/
theorem deviceStarted_dctl (he : s.params.enc.ok = true) (hb : bit s.regs.dctl s.params.enc.reg.csftrst = false) :
    bit s.deviceStarted.regs.dctl s.params.enc.reg.runStop = true ∧
      bit s.deviceStarted.regs.dctl s.params.enc.reg.csftrst = false := by
  obtain ⟨-, hr, ha⟩ := dctl_places he
  show bit (putField s.regs.dctl s.params.enc.reg.runStop 1#1) _ = _ ∧
    bit (putField s.regs.dctl s.params.enc.reg.runStop 1#1) _ = _
  rw [bit_putField_same _ _ _ _ hr (by omega), bit_putField_apart _ _ _ _ hr (by omega), Nat.sub_self]
  exact ⟨rfl, hb⟩

/-- What the first `k` commands, short of the last, leave in S's records. -/
theorem State.pairRecorded_short (s : State) (mps : Nat) {k : Nat} (hk : k < 5) :
    ∃ ep, s.pairRecorded mps k = { s with
      ctx := { s.ctx with ep0Started := if 1 ≤ k then true else s.ctx.ep0Started }
      ep := ep
      regs := { s.regs with dalepena := if k < 3 then s.regs.dalepena else s.regs.dalepena ||| 1#32 <<< 0 } } := by
  match k, hk with
  | 0, _ | 1, _ | 2, _ | 3, _ | 4, _ => exact ⟨_, rfl⟩

/-- What all five commands leave in S's records. -/
theorem State.pairRecorded_all (s : State) (mps : Nat) :
    ∃ ep : Vector Ep 32, s.pairRecorded mps 5 = { s with
      ctx := { s.ctx with ep0Started := true }
      ep := ep
      regs := { s.regs with dalepena := s.regs.dalepena ||| 1#32 <<< 0 ||| 1#32 <<< 1 } } ∧
      ∀ n : EpIdx, ep[n] = if n.val < 2 then
        { s.ep[n] with enabled := true, mps := some (BitVec.ofNat 11 mps), type := some .control } else s.ep[n] := by
  have hlast : s.pairRecorded mps 5 = (s.pairRecorded mps 4).markEnabled 1 := rfl
  obtain ⟨ep, hrec⟩ := s.pairRecorded_short mps (k := 4) (by decide)
  refine ⟨(s.pairRecorded mps 5).ep, ?_, fun n => ?_⟩
  · rw [hlast, hrec]
    rfl
  · have hep : (s.pairRecorded mps 5).ep =
        let e := { s.ep[(0 : EpIdx)] with enabled := true, mps := some (BitVec.ofNat 11 mps), type := some EpType.control }
        let f := { s.ep[(1 : EpIdx)] with enabled := true, mps := some (BitVec.ofNat 11 mps), type := some EpType.control }
        (s.ep.set 0 e).set 1 f := by
      simp [State.pairRecorded, State.pairRecord, State.markEnabled]
    rw [hep]
    by_cases h0 : n = 0
    · subst h0
      simp
    · by_cases h1 : n = 1
      · subst h1
        simp
      · have h0' : (0 : Nat) ≠ n.val := fun h => h0 (Fin.ext h.symm)
        have h1' : (1 : Nat) ≠ n.val := fun h => h1 (Fin.ext h.symm)
        rw [if_neg (by omega)]
        simp [h0', h1']

end

end Sys2Proof.Machine

namespace Sys2Proof

open Machine

/-- Settles O44: the guard of an operation, and the two of INIT, come before everything else. -/
theorem nothingRunsBeforeInit : Obligations.NothingRunsBeforeInit := by
  refine ⟨fun s hi => ?_, fun s h => outcome_returning_of_refuse (initOnce_ran h),
    fun s h hl => outcome_returning_of_refuse (initOnce_badLayout h hl)⟩
  have refused {m : M Result} : outcome (do requireInit; returning m) s = .refused .notInitialised :=
    outcome_not_admitted hi
  exact ⟨fun _ _ _ _ _ => refused, fun _ _ => ⟨refused, refused, refused⟩, fun _ _ _ _ => ⟨refused, refused⟩,
    fun _ _ => ⟨refused, refused⟩, fun _ => refused, refused, refused, fun _ => refused, refused, fun _ => refused,
    fun _ _ _ _ _ _ => refused⟩

/-- Settles O45: the soft reset puts H at rest, the five commands of the control pair keep it there, and the fields that
INIT writes lie apart. -/
theorem initCompletes : Obligations.InitCompletes := by
  intro s img imgs a1 a2 a3 a4 a5 rest enc trb0 hn hl hb hq hp hphy hid hm hi hr hw ha hg hs h0 h1
  have he := enc_ok_of_boundsOk hb
  obtain ⟨r, hregs, hcore⟩ := initCore_coreUp hq hphy hid hm hi he hr hw
  have hready : (s.coreUp img r).PairReady [a1, a2, a3, a4, a5] rest := pairReady_coreUp r hq hp hb ha hg hs h0 h1
  obtain ⟨dep, hw, hpair, hrest⟩ := enableEp0Pair_succeeds hready rfl
  obtain ⟨ep, hrec, hep⟩ := (s.coreUp img r).pairRecorded_all (s.coreUp img r).params.ep0Mps
  rw [hrec] at hpair
  generalize hu : State.afterCommands _ dep hw rest = u at hpair
  have hstart : startDevice u = .ok (⟨⟩, u.deviceStarted) := by
    subst hu
    exact startDevice_quiet hq hrest.softReset he hregs.csftrst
  have hinit : initCore s.initBegun = .ok (.ok, u.deviceStarted.trb0Disarmed) := by
    rw [hcore, M.bind_of_ok hpair, if_pos rfl, M.bind_of_ok hstart]
    exact M.bind_of_ok (disarmTrb0_apply _)
  obtain ⟨hrun, hclear⟩ := deviceStarted_dctl (s := u) (by subst hu; exact he) (by subst hu; exact hregs.csftrst)
  have hmem : ((u.deviceStarted.trb0Disarmed.updCtx fun c => { c with init := .done }).setRet .ok).mem =
      s.mem.disarm enc.trb trb0 (Config.freeTrb0 s.env.ctr) := by
    rw [State.setRet_mem, State.updCtx_mem]
    subst hu
    exact State.trb0Disarmed_mem rfl rfl rfl
  subst hu
  refine ⟨_, execInit_of_ok hn hl hinit, rfl, rfl, hep, ?_, rfl, hrun, hclear, hregs.devaddr, hregs.prtcapdir,
    hregs.bufferLow, hregs.bufferHigh, hregs.bufferSize, hregs.unmasked, hregs.drained, hrest.ep, hrest.wpos, hmem,
    hmem ▸ Memory.readWord_disarm he s.mem trb0 (Config.freeTrb0 s.env.ctr), rfl, rfl, rfl, rfl, rfl⟩
  show r.dalepena ||| 1#32 <<< 0 ||| 1#32 <<< 1 = 3
  rw [hregs.dalepena]
  decide

/-- Settles O46: each way ends INIT early, the commands that were granted leaving S's records of them. -/
theorem initChecksCore : Obligations.InitChecksCore := by
  intro s hn hl hq
  refine ⟨fun hid => execInit_of_err hn hl (initCore_wrongCore (s := s.initBegun) hq hid),
    fun hid hm => execInit_of_err hn hl (initCore_wrongMode (s := s.initBegun) hq hid hm),
    fun hid hm hb hi => ⟨fun hr => ?_, ?_⟩⟩
  · have he := enc_ok_of_boundsOk hb
    obtain ⟨y, hy⟩ := initCore_resetTimeout (s := s.initBegun) hq hid hm hi he hr
    exact ⟨_, execInit_of_err hn hl hy, rfl, rfl, rfl, rfl, nofun, rfl, rfl, rfl, rfl⟩
  · intro img imgs good bad e hp hphy hr hw ha hk hg hend hs h0 h1
    have he := enc_ok_of_boundsOk hb
    obtain ⟨r, hregs, hcore⟩ := initCore_coreUp hq hphy hid hm hi he hr hw
    have hready : (s.coreUp img r).PairReady good bad := pairReady_coreUp r hq hp hb ha hg hs h0 h1
    obtain ⟨dep, hw, as, hpair⟩ := enableEp0Pair_fails hready hk hend
    obtain ⟨ep, hrec⟩ := (s.coreUp img r).pairRecorded_short (s.coreUp img r).params.ep0Mps hk
    rw [hrec] at hpair
    have hinit := hcore.trans (M.bind_of_ok hpair)
    refine ⟨_, execInit_of_err hn hl hinit, rfl, rfl, ?_, rfl, ?_, hregs.devten, hregs.runStop, rfl, rfl, rfl⟩
    · show (if 1 ≤ good.length then true else s.ctx.ep0Started) = _
      rw [hs]
      by_cases h : 1 ≤ good.length <;> simp [h]
    · show (if good.length < 3 then r.dalepena else r.dalepena ||| 1#32 <<< 0) = _
      rw [hregs.dalepena]
      rfl

end Sys2Proof
